-- ==== Sys2Proof/Word.lean ====
section
/-! DEFINITION. The widths of the machine (00_scope R6): the 16-bit word, the 36-bit accumulator,
the 32-bit product, and the 8-bit byte in which the host's memory cells are counted. -/

namespace Sys2Proof

/-- A 16-bit word: data, addresses, instruction words (00_scope R6). -/
abbrev Word := BitVec 16

/-- Half a word. The machine has no bytes (20_memory R90); the host's memory cells do. -/
abbrev Byte := BitVec 8

/-- A 36-bit accumulator or ALU value (10_state R21). -/
abbrev Accum := BitVec 36

/-- The 32-bit product register (10_state R24). -/
abbrev Product := BitVec 32

end Sys2Proof
end

