-- ==== Sys2Proof/Syntax.lean ====
section
/-! DEFINITION. The syntax of the instructions: one constructor of `Instr` for each instruction row of
spec/opcode_table.json, and one, `unused`, for its rows marked "(unused)" (log 30). Register numbers
and codes are already names here; the numbers are in Decode.lean. -/

namespace Sys2Proof

/-- The accumulator an instruction names: a0 or a1 (10_state R21). -/
inductive Acc where
  | a0
  | a1
  deriving DecidableEq, Repr

/-- The other accumulator (00_scope R10). -/
def Acc.other : Acc → Acc
  | .a0 => .a1
  | .a1 => .a0

/-- The post-modifier of an address register: none, +1, -1, +step (20_memory R94). -/
inductive PostMod where
  | keep
  | inc
  | dec
  | step
  deriving DecidableEq, Repr

/-- The sixteen conditions (30_encoding R119). -/
inductive Cond where
  | always
  | eq
  | neq
  | gt
  | ge
  | lt
  | le
  | nn
  | v
  | c
  | e
  | l
  | nr
  | niu0
  | iu0
  | iu1
  deriving DecidableEq, Repr

/-- The thirteen functions of `moda` (30_encoding R120). -/
inductive ModaFn where
  | shr
  | shl
  | shr4
  | shl4
  | ror
  | rol
  | not
  | neg
  | clr
  | copy
  | rnd
  | pacr
  | clrr
  deriving DecidableEq, Repr

/-- The seven operations of the ALU group whose codes, 9 to 15, the source does not give (30_encoding R121). -/
inductive HiOp where
  | sqr
  | sqra
  | sqrs
  | addl
  | subl
  | addh
  | subh
  deriving DecidableEq, Repr

/-- The 31 registers that a register field names (10_state R20). `p` is shifted p as a source and ph
as a destination. -/
inductive Reg where
  | acc (x : Acc)
  | acch (x : Acc)
  | accl (x : Acc)
  | r (n : Fin 6)
  | x
  | y
  | p
  | pc
  | lc
  | tos
  | st0
  | st1
  | st2
  | cfgi
  | cfgj
  | ext (k : Fin 8)
  deriving DecidableEq, Repr

/-- The registers of the `Rn*` field: r0 to r5, y and x (30_encoding R123). -/
inductive RnStar where
  | r (n : Fin 6)
  | y
  | x
  deriving DecidableEq, Repr

/-- The address register of an `rI` field, r0 to r3 (30_encoding R124). -/
def regI (i : Fin 4) : Fin 6 := ⟨i.val, by omega⟩

/-- The address register of an `rJ` field, r4 or r5 (30_encoding R124). -/
def regJ (j : Fin 2) : Fin 6 := ⟨j.val + 4, by omega⟩

/-- The instructions. Each docstring gives the spec's spelling and rule. -/
inductive Instr where
  /-- `nop` (R300) -/
  | nop
  /-- `trap` (R304) -/
  | trap
  /-- `eint` (R302) -/
  | eint
  /-- `dint` (R303) -/
  | dint
  /-- `lpg #imm8` (R305) -/
  | lpg (imm : BitVec 8)
  /-- `norm aX, (rN)mm` (R186) -/
  | norm (x : Acc) (n : Fin 6) (m : PostMod)
  /-- `modr (rN)mm` (R301) -/
  | modr (n : Fin 6) (m : PostMod)
  /-- `rep #imm8` (R260) -/
  | repImm (imm : BitVec 8)
  /-- `rep reg` (R260) -/
  | repReg (c : Reg)
  /-- `bkrep #imm8, addr16` (R265) -/
  | bkrepImm (imm : BitVec 8) (last : Word)
  /-- `bkrep reg, addr16` (R265) -/
  | bkrepReg (c : Reg) (last : Word)
  /-- `shr aX [, cond]` (R171) -/
  | shr (x : Acc) (cc : Cond)
  /-- `shl aX [, cond]` (R174) -/
  | shl (x : Acc) (cc : Cond)
  /-- `shr4 aX [, cond]` (R175) -/
  | shr4 (x : Acc) (cc : Cond)
  /-- `shl4 aX [, cond]` (R176) -/
  | shl4 (x : Acc) (cc : Cond)
  /-- `ror aX [, cond]` (R177) -/
  | ror (x : Acc) (cc : Cond)
  /-- `rol aX [, cond]` (R178) -/
  | rol (x : Acc) (cc : Cond)
  /-- `not aX [, cond]` (R179) -/
  | not (x : Acc) (cc : Cond)
  /-- `neg aX [, cond]` (R180) -/
  | neg (x : Acc) (cc : Cond)
  /-- `clr aX [, cond]` (R181) -/
  | clr (x : Acc) (cc : Cond)
  /-- `copy aX [, cond]` (R182) -/
  | copy (x : Acc) (cc : Cond)
  /-- `rnd aX [, cond]` (R183) -/
  | rnd (x : Acc) (cc : Cond)
  /-- `pacr aX [, cond]` (R184) -/
  | pacr (x : Acc) (cc : Cond)
  /-- `clrr aX [, cond]` (R185) -/
  | clrr (x : Acc) (cc : Cond)
  /-- `callr $off7 [, cond]` (R285) -/
  | callr (off : BitVec 7) (cc : Cond)
  /-- `brr $off7 [, cond]` (R283) -/
  | brr (off : BitVec 7) (cc : Cond)
  /-- `call addr16 [, cond]` (R284) -/
  | call (addr : Word) (cc : Cond)
  /-- `br addr16 [, cond]` (R282) -/
  | br (addr : Word) (cc : Cond)
  /-- `ret [cond]` (R287) -/
  | ret (cc : Cond)
  /-- `reti` (R288) -/
  | reti
  /-- `calla aXl` (R286) -/
  | calla (x : Acc)
  /-- `divs a8, aX` (R188) -/
  | divs (a : BitVec 8) (x : Acc)
  /-- `movp (aXl), reg` (R245) -/
  | movpAccReg (x : Acc) (c : Reg)
  /-- `movp (rN)mm, (rI)ii` (R246) -/
  | movpIndInd (n : Fin 6) (m : PostMod) (i : Fin 4) (k : PostMod)
  /-- `mov reg, (rN)mm` (R227) -/
  | movRegInd (c : Reg) (n : Fin 6) (m : PostMod)
  /-- `mov (rN)mm, reg` (R228) -/
  | movIndReg (n : Fin 6) (m : PostMod) (c : Reg)
  /-- `mov #simm8, Rn*` (R240) -/
  | movSimmRn (imm : BitVec 8) (q : RnStar)
  /-- `mov sreg, dreg` (R223) -/
  | movRegReg (src : Reg) (dst : Reg)
  /-- `mov ##imm16, reg` (R229) -/
  | movLongReg (w : Word) (c : Reg)
  /-- `mov a8, aX` (R234) -/
  | movDirAcc (a : BitVec 8) (x : Acc)
  /-- `mov a8, aXh` (R235) -/
  | movDirAcch (a : BitVec 8) (x : Acc)
  /-- `mov a8, aXl` (R236) -/
  | movDirAccl (a : BitVec 8) (x : Acc)
  /-- `mov a8, aXh, eu` (R237) -/
  | movDirAcchEu (a : BitVec 8) (x : Acc)
  /-- `mov Rn*, a8` (R232) -/
  | movRnDir (q : RnStar) (a : BitVec 8)
  /-- `mov a8, Rn*` (R233) -/
  | movDirRn (a : BitVec 8) (q : RnStar)
  /-- `mov aXl, a8` (R230) -/
  | movAcclDir (x : Acc) (a : BitVec 8)
  /-- `mov aXh, a8` (R230) -/
  | movAcchDir (x : Acc) (a : BitVec 8)
  /-- `mov #imm8, aXl` (R238) -/
  | movImmAccl (imm : BitVec 8) (x : Acc)
  /-- `mov #simm8, aXh` (R239) -/
  | movSimmAcch (imm : BitVec 8) (x : Acc)
  /-- `add reg, aX` (R155) -/
  | addReg (c : Reg) (x : Acc)
  /-- `add (rN)mm, aX` (R155) -/
  | addInd (n : Fin 6) (m : PostMod) (x : Acc)
  /-- `add a8, aX` (R155) -/
  | addDir (a : BitVec 8) (x : Acc)
  /-- `add ##imm16, aX` (R155) -/
  | addLong (w : Word) (x : Acc)
  /-- `add #imm8, aX` (R155) -/
  | addImm (imm : BitVec 8) (x : Acc)
  /-- `sub reg, aX` (R156) -/
  | subReg (c : Reg) (x : Acc)
  /-- `sub (rN)mm, aX` (R156) -/
  | subInd (n : Fin 6) (m : PostMod) (x : Acc)
  /-- `sub a8, aX` (R156) -/
  | subDir (a : BitVec 8) (x : Acc)
  /-- `sub ##imm16, aX` (R156) -/
  | subLong (w : Word) (x : Acc)
  /-- `sub #imm8, aX` (R156) -/
  | subImm (imm : BitVec 8) (x : Acc)
  /-- `or reg, aX` (R158) -/
  | orReg (c : Reg) (x : Acc)
  /-- `or (rN)mm, aX` (R158) -/
  | orInd (n : Fin 6) (m : PostMod) (x : Acc)
  /-- `or a8, aX` (R158) -/
  | orDir (a : BitVec 8) (x : Acc)
  /-- `or ##imm16, aX` (R158) -/
  | orLong (w : Word) (x : Acc)
  /-- `or #imm8, aX` (R158) -/
  | orImm (imm : BitVec 8) (x : Acc)
  /-- `xor reg, aX` (R160) -/
  | xorReg (c : Reg) (x : Acc)
  /-- `xor (rN)mm, aX` (R160) -/
  | xorInd (n : Fin 6) (m : PostMod) (x : Acc)
  /-- `xor a8, aX` (R160) -/
  | xorDir (a : BitVec 8) (x : Acc)
  /-- `xor ##imm16, aX` (R160) -/
  | xorLong (w : Word) (x : Acc)
  /-- `xor #imm8, aX` (R160) -/
  | xorImm (imm : BitVec 8) (x : Acc)
  /-- `and reg, aX` (R159) -/
  | andReg (c : Reg) (x : Acc)
  /-- `and (rN)mm, aX` (R159) -/
  | andInd (n : Fin 6) (m : PostMod) (x : Acc)
  /-- `and a8, aX` (R159) -/
  | andDir (a : BitVec 8) (x : Acc)
  /-- `and ##imm16, aX` (R159) -/
  | andLong (w : Word) (x : Acc)
  /-- `and #imm8, aX` (R159) -/
  | andImm (imm : BitVec 8) (x : Acc)
  /-- `cmp reg, aX` (R157) -/
  | cmpReg (c : Reg) (x : Acc)
  /-- `cmp (rN)mm, aX` (R157) -/
  | cmpInd (n : Fin 6) (m : PostMod) (x : Acc)
  /-- `cmp a8, aX` (R157) -/
  | cmpDir (a : BitVec 8) (x : Acc)
  /-- `cmp ##imm16, aX` (R157) -/
  | cmpLong (w : Word) (x : Acc)
  /-- `cmp #imm8, aX` (R157) -/
  | cmpImm (imm : BitVec 8) (x : Acc)
  /-- `mpy y, reg` (R203) -/
  | mpyReg (c : Reg)
  /-- `mpy (rN)mm, ##imm16` (R203) -/
  | mpyIndLong (n : Fin 6) (m : PostMod) (w : Word)
  /-- `mpy y, (rN)mm` (R203) -/
  | mpyInd (n : Fin 6) (m : PostMod)
  /-- `mpy y, a8` (R203) -/
  | mpyDir (a : BitVec 8)
  /-- `mpy (rJ)jj, (rI)ii` (R203) -/
  | mpyPair (j : Fin 2) (jj : PostMod) (i : Fin 4) (k : PostMod)
  /-- `mac y, reg, aX` (R204) -/
  | macReg (c : Reg) (x : Acc)
  /-- `mac (rN)mm, ##imm16, aX` (R204) -/
  | macIndLong (n : Fin 6) (m : PostMod) (w : Word) (x : Acc)
  /-- `mac y, (rN)mm, aX` (R204) -/
  | macInd (n : Fin 6) (m : PostMod) (x : Acc)
  /-- `mac y, a8, aX` (R204) -/
  | macDir (a : BitVec 8) (x : Acc)
  /-- `mac (rJ)jj, (rI)ii, aX` (R204) -/
  | macPair (j : Fin 2) (jj : PostMod) (i : Fin 4) (k : PostMod) (x : Acc)
  /-- `msu y, reg, aX` (R205) -/
  | msuReg (c : Reg) (x : Acc)
  /-- `msu (rN)mm, ##imm16, aX` (R205) -/
  | msuIndLong (n : Fin 6) (m : PostMod) (w : Word) (x : Acc)
  /-- `msu y, (rN)mm, aX` (R205) -/
  | msuInd (n : Fin 6) (m : PostMod) (x : Acc)
  /-- `msu y, a8, aX` (R205) -/
  | msuDir (a : BitVec 8) (x : Acc)
  /-- `msu (rJ)jj, (rI)ii, aX` (R205) -/
  | msuPair (j : Fin 2) (jj : PostMod) (i : Fin 4) (k : PostMod) (x : Acc)
  /-- `sqr reg` (R207) -/
  | sqrReg (c : Reg)
  /-- `sqr (rN)mm` (R207) -/
  | sqrInd (n : Fin 6) (m : PostMod)
  /-- `sqr a8` (R207) -/
  | sqrDir (a : BitVec 8)
  /-- `sqra reg, aX` (R208) -/
  | sqraReg (c : Reg) (x : Acc)
  /-- `sqra (rN)mm, aX` (R208) -/
  | sqraInd (n : Fin 6) (m : PostMod) (x : Acc)
  /-- `sqra a8, aX` (R208) -/
  | sqraDir (a : BitVec 8) (x : Acc)
  /-- `sqrs reg, aX` (R209) -/
  | sqrsReg (c : Reg) (x : Acc)
  /-- `sqrs (rN)mm, aX` (R209) -/
  | sqrsInd (n : Fin 6) (m : PostMod) (x : Acc)
  /-- `sqrs a8, aX` (R209) -/
  | sqrsDir (a : BitVec 8) (x : Acc)
  /-- `addl reg, aX` (R161) -/
  | addlReg (c : Reg) (x : Acc)
  /-- `addl (rN)mm, aX` (R161) -/
  | addlInd (n : Fin 6) (m : PostMod) (x : Acc)
  /-- `addl a8, aX` (R161) -/
  | addlDir (a : BitVec 8) (x : Acc)
  /-- `subl reg, aX` (R162) -/
  | sublReg (c : Reg) (x : Acc)
  /-- `subl (rN)mm, aX` (R162) -/
  | sublInd (n : Fin 6) (m : PostMod) (x : Acc)
  /-- `subl a8, aX` (R162) -/
  | sublDir (a : BitVec 8) (x : Acc)
  /-- `addh reg, aX` (R163) -/
  | addhReg (c : Reg) (x : Acc)
  /-- `addh (rN)mm, aX` (R163) -/
  | addhInd (n : Fin 6) (m : PostMod) (x : Acc)
  /-- `addh a8, aX` (R163) -/
  | addhDir (a : BitVec 8) (x : Acc)
  /-- `subh reg, aX` (R164) -/
  | subhReg (c : Reg) (x : Acc)
  /-- `subh (rN)mm, aX` (R164) -/
  | subhInd (n : Fin 6) (m : PostMod) (x : Acc)
  /-- `subh a8, aX` (R164) -/
  | subhDir (a : BitVec 8) (x : Acc)
  /-- `mpys y, #simm8` (R206) -/
  | mpys (imm : BitVec 8)
  /-- a word of one of the fifty ranges marked "unused" (30_encoding R127) -/
  | unused (w : Word)
  deriving DecidableEq, Repr

end Sys2Proof
end

