-- ==== Sys2Proof/Config.lean ====
section
/-! DEFINITION. What an implementation fixes: the named parameters of 00_scope R7 as one structure of plain
data, which State holds (log 42), and the free values. `Pins`, `Ext` and the devices enter as inputs
(Machine/State.lean). The defaults are in Decode.lean and the memory maps in Machine/Ops.lean. -/

namespace Sys2Proof

/-- What stands behind an address (20_memory R86). -/
inductive Region where
  | ram
  | rom
  /-- A location of the chip: the environment answers what is read (20_memory R100, log 6). -/
  | device
  /-- A cell that the data space and the program space have in common (20_memory R80). -/
  | shared
  | absent
  deriving DecidableEq, Repr

/-- What a chip may put where the source fixes nothing: a `Region` other than the shared words. -/
inductive Backing where
  | ram
  | rom
  | device
  | absent
  deriving DecidableEq, Repr

def Backing.region : Backing → Region
  | .ram => .ram
  | .rom => .rom
  | .device => .device
  | .absent => .absent

/-- The addresses lo to hi, with what stands behind them. -/
structure Span where
  lo : Word
  hi : Word
  what : Backing
  deriving DecidableEq, Repr

/-- The named parameters, fixed for a run (00_scope R7, 93 section 3). The tables are indexed by code. -/
structure Params where
  /-- `REGCODE` (30_encoding R118). -/
  regCode : Vector (Option Reg) 32
  /-- `CONDCODE` (30_encoding R119). -/
  condCode : Vector Cond 16
  /-- `MODACODE` (30_encoding R120). -/
  modaCode : Vector (Option ModaFn) 16
  /-- `OPERCODE_HI`: the operations with codes 9 to 15 (30_encoding R121). -/
  operHi : Vector HiOp 7
  /-- `MMCODE` (30_encoding R122). -/
  mmCode : Vector PostMod 4
  /-- `RNSTAR67`: code 6 of the `Rn*` field is x and code 7 is y, instead of the reverse (30_encoding R123). -/
  rnStarXY : Bool
  /-- `SHL4_V_BITS` (40_alu R172, 93 U6). -/
  shl4VBits : Nat
  /-- `XRAM_WORDS`: the on-core data RAM that grows upward from 0000h (20_memory R83). -/
  xramWords : Nat
  /-- `YRAM_WORDS`: the on-core data RAM that grows downward from FFFFh (20_memory R83). -/
  yramWords : Nat
  /-- The first of the 2K words of common program and data ROM, where the map has it (00_scope R6,
  20_memory R84). -/
  commonRom : Option Word
  /-- The first of the 1K words of on-chip program ROM, where the map has it (00_scope R6, 20_memory R84). -/
  progRom : Option Word
  /-- `DataMap` where the source leaves it open; what no span names is RAM (20_memory R86). -/
  dataSpans : List Span
  /-- `ProgMap` where the source leaves it open; what no span names is RAM (20_memory R86). -/
  progSpans : List Span
  deriving DecidableEq, Repr

/-- The 31 registers (10_state R20). -/
def Reg.all : List Reg :=
  [.acc .a0, .acc .a1, .acch .a0, .acch .a1, .accl .a0, .accl .a1, .r 0, .r 1, .r 2, .r 3, .r 4, .r 5, .x, .y, .p,
    .pc, .lc, .tos, .st0, .st1, .st2, .cfgi, .cfgj, .ext 0, .ext 1, .ext 2, .ext 3, .ext 4, .ext 5, .ext 6, .ext 7]

def Cond.all : List Cond :=
  [.always, .eq, .neq, .gt, .ge, .lt, .le, .nn, .v, .c, .e, .l, .nr, .niu0, .iu0, .iu1]

def ModaFn.all : List ModaFn :=
  [.shr, .shl, .shr4, .shl4, .ror, .rol, .not, .neg, .clr, .copy, .rnd, .pacr, .clrr]

def HiOp.all : List HiOp := [.sqr, .sqra, .sqrs, .addl, .subl, .addh, .subh]

def PostMod.all : List PostMod := [.keep, .inc, .dec, .step]

/-- The parameters are such as the spec allows: every name has exactly one code, SHL4_V_BITS is 31 or 32, the
on-core RAM is at most 1K words each, and the ROMs lie in the spaces they belong to (00_scope R6, R7,
20_memory R83, R84). -/
def Params.wf (c : Params) : Bool :=
  Reg.all.all (fun r => c.regCode.toList.count (some r) == 1) &&
  Cond.all.all (fun k => c.condCode.toList.count k == 1) &&
  ModaFn.all.all (fun f => c.modaCode.toList.count (some f) == 1) &&
  HiOp.all.all (fun h => c.operHi.toList.count h == 1) &&
  PostMod.all.all (fun m => c.mmCode.toList.count m == 1) &&
  (c.shl4VBits == 31 || c.shl4VBits == 32) && decide (c.xramWords ≤ 1024) && decide (c.yramWords ≤ 1024) &&
  c.commonRom.all (fun b => decide (0x1000 ≤ b.toNat ∧ b.toNat + 2048 ≤ 0x8000)) &&
  c.progRom.all (fun b => decide (b.toNat + 1024 ≤ 0x1000 ∨ (0x8000 ≤ b.toNat ∧ b.toNat + 1024 ≤ 0x10000)))

/-- The free values: the n-th value that the spec leaves open (93_implementation_defined,
treatment `any value`). It has no body, so that nothing can be proved of any one of them (log 8). -/
opaque Config.freeWord : Nat → Word

/-- The free values of fetches: what the n-th fetched word takes from the address, where the spec leaves it open. They
stand apart from the others so that the next fetch can be looked at ahead (log 8, log 19). -/
opaque Config.freeCode : Nat → Word → Word

/-- The levels of the hardware stack (10_state R40). -/
def Config.stackDepth : Nat := 16

end Sys2Proof
end

