-- ==== Sys2Proof/Decode.lean ====
section
/-! DEFINITION. The decoder, total on any bytes, the encoder, and the default parameters. Both take the code
tables as an argument (30_encoding R118 to R123, log 1, log 42). Fields are read off a word as numbers, so that
both directions are plain arithmetic. -/

namespace Sys2Proof

/-- The field of `len` bits of w whose lowest bit is bit `lo` (00_scope R8). -/
def field (w : Word) (lo len : Nat) : Nat := w.toNat / 2 ^ lo % 2 ^ len

/-- Why a word does not decode. -/
inductive DecodeError where
  /-- A register code that names no register: 31 in the default table (30_encoding R118, R127). -/
  | registerCode31
  /-- `NNN` = 6 or 7 outside the `Rn*` rows (30_encoding R124, R127). -/
  | addressRegister67
  /-- The bytes end before the instruction does. -/
  | truncated
  deriving DecidableEq, Repr

/-! The default parameters (30_encoding R118 to R123, 93 section 3). -/

/-- `REGCODE`: the order of the manual's `reg` list, code 31 unused (30_encoding R118, log 1). -/
def defaultRegCode : Vector (Option Reg) 32 :=
  #v[some (.acc .a0), some (.acc .a1), some (.acch .a0), some (.acch .a1), some (.accl .a0), some (.accl .a1),
    some (.r 0), some (.r 1), some (.r 2), some (.r 3), some (.r 4), some (.r 5), some .x, some .y, some .p,
    some .pc, some .lc, some .tos, some .st0, some .st1, some .st2, some .cfgi, some .cfgj, some (.ext 0),
    some (.ext 1), some (.ext 2), some (.ext 3), some (.ext 4), some (.ext 5), some (.ext 6), some (.ext 7), none]

/-- `CONDCODE`: the manual's order (30_encoding R119, log 1). -/
def defaultCondCode : Vector Cond 16 :=
  #v[.always, .eq, .neq, .gt, .ge, .lt, .le, .nn, .v, .c, .e, .l, .nr, .niu0, .iu0, .iu1]

/-- `MODACODE`: the manual's order, 13 to 15 unused (30_encoding R120, log 1). -/
def defaultModaCode : Vector (Option ModaFn) 16 :=
  #v[some .shr, some .shl, some .shr4, some .shl4, some .ror, some .rol, some .not, some .neg, some .clr,
    some .copy, some .rnd, some .pacr, some .clrr, none, none, none]

/-- `OPERCODE_HI` (30_encoding R121, log 1). -/
def defaultOperHi : Vector HiOp 7 := #v[.sqr, .sqra, .sqrs, .addl, .subl, .addh, .subh]

/-- `MMCODE` (30_encoding R122, log 1). -/
def defaultMmCode : Vector PostMod 4 := #v[.keep, .inc, .dec, .step]

/-- The defaults of the named parameters: the tables above, 31 bits for SHL4 as printed (93 U6, log 14), 256 words
of on-core RAM each (20_memory R83), and the map of 92 D37: all RAM but for what the source fixes (log 5). -/
def Params.default : Params where
  regCode := defaultRegCode
  condCode := defaultCondCode
  modaCode := defaultModaCode
  operHi := defaultOperHi
  mmCode := defaultMmCode
  rnStarXY := false
  shl4VBits := 31
  xramWords := 256
  yramWords := 256
  commonRom := none
  progRom := none
  dataSpans := []
  progSpans := []

/-- The default parameters with the two ROMs of the AIC-4411, whose sizes the source gives and whose places it
does not: 2K words of common ROM from `common`, 1K words of program ROM from `prog` (00_scope R6, 20_memory R84,
log 5). -/
def Params.withRoms (common prog : Word) : Params :=
  { Params.default with commonRom := some common, progRom := some prog }

/-! Fields. -/

/-- The register of a 5-bit code (30_encoding R118). -/
def decodeReg (c : Params) (k : Nat) : Except DecodeError Reg :=
  match c.regCode[k % 32] with
  | some r => .ok r
  | none => .error .registerCode31

/-- The code of a register (30_encoding R118). -/
def encodeReg (c : Params) (r : Reg) : Nat := c.regCode.toList.idxOf (some r)

/-- The `A` bit (30_encoding R124). -/
def decodeAcc (k : Nat) : Acc := if k = 0 then .a0 else .a1

def encodeAcc : Acc → Nat
  | .a0 => 0
  | .a1 => 1

/-- The `NNN` field outside the `Rn*` rows (30_encoding R124). -/
def decodeAddr (k : Nat) : Except DecodeError (Fin 6) :=
  if h : k < 6 then .ok ⟨k, h⟩ else .error .addressRegister67

/-- The `II` field (30_encoding R124). -/
def decodeI (k : Nat) : Fin 4 := ⟨k % 4, by omega⟩

/-- The `J` bit (30_encoding R124). -/
def decodeJ (k : Nat) : Fin 2 := ⟨k % 2, by omega⟩

/-- The `Rn*` field: r0 to r5, then y and x in the order of `RNSTAR67` (30_encoding R123). -/
def decodeRnStar (c : Params) (k : Nat) : RnStar :=
  if h : k < 6 then .r ⟨k, h⟩ else if (k == 6) == c.rnStarXY then .x else .y

def encodeRnStar (c : Params) : RnStar → Nat
  | .r n => n.val
  | .y => if c.rnStarXY then 7 else 6
  | .x => if c.rnStarXY then 6 else 7

/-- The post-modifier of a 2-bit code (30_encoding R122). -/
def decodeMod (c : Params) (k : Nat) : PostMod := c.mmCode[k % 4]

def encodeMod (c : Params) (m : PostMod) : Nat := c.mmCode.toList.idxOf m

/-- The condition of a 4-bit code (30_encoding R119). -/
def decodeCond (c : Params) (k : Nat) : Cond := c.condCode[k % 16]

def encodeCond (c : Params) (cc : Cond) : Nat := c.condCode.toList.idxOf cc

/-- The operation of a code from 9 to 15 of the ALU group (30_encoding R121). -/
def decodeHi (c : Params) (op : Nat) : HiOp := c.operHi[(op - 9) % 7]

def encodeHi (c : Params) (h : HiOp) : Nat := 9 + c.operHi.toList.idxOf h

/-- The code of a function of moda (30_encoding R120). -/
def encodeModa (c : Params) (f : ModaFn) : Nat := c.modaCode.toList.idxOf (some f)

/-- The two-word first words (30_encoding R128). The length of an unused pattern is not defined there; the model
counts it as one word (DESIGN CHOICE, log 30). -/
def isTwoWord (w : Word) : Bool :=
  match field w 14 2, field w 13 1 with
  | 0, _ => field w 9 5 == 10 || field w 9 5 == 11 || field w 9 5 == 24 || field w 9 5 == 25
  | 1, _ => field w 9 5 == 14
  | 2, 0 =>
    (field w 6 2 == 1 && (field w 9 4 == 6 || field w 9 4 == 7 || field w 9 4 == 8)) ||
      (field w 6 2 == 3 && decide (field w 9 4 ≤ 5))
  | _, _ => false

/-- The first word lies in a range marked "unused" (30_encoding R114 to R116, R127): the whole ranges
0300, 0a00, 3a00, 3e00, 4400, 5e00, ee00, f000; the moda codes without a function; and, in the ALU group, the
operations that a form does not take. -/
def isUnusedWord (c : Params) (w : Word) : Bool :=
  let op := field w 9 4
  field w 8 8 == 0x03 || field w 9 7 == 0x05 || field w 9 7 == 0x1D || field w 9 7 == 0x1F ||
    field w 10 6 == 0x11 || field w 9 7 == 0x2F || field w 9 7 == 0x77 || field w 12 4 == 0xF ||
    (field w 11 5 == 3 && c.modaCode[field w 4 4 % 16].isNone) ||
    (field w 13 3 == 4 && field w 6 2 == 1 && decide (op ≤ 5 ∨ 9 ≤ op)) ||
    (field w 13 3 == 4 && field w 6 2 == 3 && decide (6 ≤ op)) ||
    (field w 13 3 == 6 && (decide (op ≤ 5 ∨ 9 ≤ op) || field w 7 1 == 1))

/-- The unsigned or signed 8-bit field, bits 7:0 (30_encoding R125). -/
def lowByte (w : Word) : BitVec 8 := BitVec.ofNat 8 (field w 0 8)

/-- A function of moda with its operands (30_encoding R120). -/
def modaForm (f : ModaFn) (x : Acc) (cc : Cond) : Instr :=
  match f with
  | .shr => .shr x cc
  | .shl => .shl x cc
  | .shr4 => .shr4 x cc
  | .shl4 => .shl4 x cc
  | .ror => .ror x cc
  | .rol => .rol x cc
  | .not => .not x cc
  | .neg => .neg x cc
  | .clr => .clr x cc
  | .copy => .copy x cc
  | .rnd => .rnd x cc
  | .pacr => .pacr x cc
  | .clrr => .clrr x cc

/-- The moda rows: the function of the 4-bit code, or an unused word (30_encoding R120). -/
def decodeModa (c : Params) (w : Word) : Instr :=
  match c.modaCode[field w 4 4 % 16] with
  | some f => modaForm f (decodeAcc (field w 8 1)) (decodeCond c (field w 0 4))
  | none => .unused w

/-- The CONTROL group, bits 15:14 = 00, read by bits 13:9 (30_encoding R114). w1 is the second word. -/
def decodeControl (c : Params) (w w1 : Word) : Except DecodeError Instr :=
  let x := decodeAcc (field w 8 1)
  let cc := decodeCond c (field w 0 4)
  let off := BitVec.ofNat 7 (field w 4 7)
  match field w 9 5 with
  | 0 => .ok .nop
  | 1 => .ok (if field w 8 1 = 0 then .trap else .unused w)
  | 2 => .ok .eint
  | 3 => .ok .dint
  | 4 => .ok (.lpg (lowByte w))
  | 6 => (decodeAddr (field w 0 3)).map fun n => .norm x n (decodeMod c (field w 3 2))
  | 7 => (decodeAddr (field w 0 3)).map fun n => .modr n (decodeMod c (field w 3 2))
  | 8 => .ok (.repImm (lowByte w))
  | 9 => (decodeReg c (field w 0 5)).map fun r => .repReg r
  | 10 => .ok (.bkrepImm (lowByte w) w1)
  | 11 => (decodeReg c (field w 0 5)).map fun r => .bkrepReg r w1
  | 12 | 13 | 14 | 15 => .ok (decodeModa c w)
  | 16 | 17 | 18 | 19 => .ok (.callr off cc)
  | 20 | 21 | 22 | 23 => .ok (.brr off cc)
  | 24 => .ok (.call w1 cc)
  | 25 => .ok (.br w1 cc)
  | 26 => .ok (.ret cc)
  | 27 => .ok .reti
  | 28 => .ok (.calla x)
  | 30 => .ok (.divs (lowByte w) x)
  | _ => .ok (.unused w)

/-- The MOVE group, bits 15:14 = 01, read by bits 13:9 (30_encoding R115). w1 is the second word. -/
def decodeMove (c : Params) (w w1 : Word) : Except DecodeError Instr :=
  let x := decodeAcc (field w 8 1)
  let m := decodeMod c (field w 3 2)
  let q := decodeRnStar c (field w 8 3)
  match field w 9 5 with
  | 0 => (decodeReg c (field w 0 5)).map fun r => .movpAccReg x r
  | 1 =>
    (decodeAddr (field w 0 3)).map fun n =>
      .movpIndInd n m (decodeI (field w 5 2)) (decodeMod c (field w 7 2))
  | 4 | 5 =>
    (decodeReg c (field w 5 5)).bind fun r => (decodeAddr (field w 0 3)).map fun n => .movRegInd r n m
  | 6 | 7 =>
    (decodeReg c (field w 5 5)).bind fun r => (decodeAddr (field w 0 3)).map fun n => .movIndReg n m r
  | 8 | 9 | 10 | 11 => .ok (.movSimmRn (lowByte w) q)
  | 12 | 13 =>
    (decodeReg c (field w 0 5)).bind fun src => (decodeReg c (field w 5 5)).map fun dst => .movRegReg src dst
  | 14 => (decodeReg c (field w 0 5)).map fun r => .movLongReg w1 r
  | 16 => .ok (.movDirAcc (lowByte w) x)
  | 17 => .ok (.movDirAcch (lowByte w) x)
  | 18 => .ok (.movDirAccl (lowByte w) x)
  | 19 => .ok (.movDirAcchEu (lowByte w) x)
  | 20 | 21 | 22 | 23 => .ok (.movRnDir q (lowByte w))
  | 24 | 25 | 26 | 27 => .ok (.movDirRn (lowByte w) q)
  | 28 => .ok (.movAcclDir x (lowByte w))
  | 29 => .ok (.movAcchDir x (lowByte w))
  | 30 => .ok (.movImmAccl (lowByte w) x)
  | 31 => .ok (.movSimmAcch (lowByte w) x)
  | _ => .ok (.unused w)

/-- The operation `oooo` in the form `reg` (30_encoding R117, R121). -/
def aluRegForm (c : Params) (op : Nat) (x : Acc) (r : Reg) : Instr :=
  match op with
  | 0 => .addReg r x
  | 1 => .subReg r x
  | 2 => .orReg r x
  | 3 => .xorReg r x
  | 4 => .andReg r x
  | 5 => .cmpReg r x
  | 6 => .mpyReg r
  | 7 => .macReg r x
  | 8 => .msuReg r x
  | _ =>
    match decodeHi c op with
    | .sqr => .sqrReg r
    | .sqra => .sqraReg r x
    | .sqrs => .sqrsReg r x
    | .addl => .addlReg r x
    | .subl => .sublReg r x
    | .addh => .addhReg r x
    | .subh => .subhReg r x

/-- The operation `oooo` in the form `(rN)mm`. -/
def aluIndForm (c : Params) (op : Nat) (x : Acc) (n : Fin 6) (m : PostMod) : Instr :=
  match op with
  | 0 => .addInd n m x
  | 1 => .subInd n m x
  | 2 => .orInd n m x
  | 3 => .xorInd n m x
  | 4 => .andInd n m x
  | 5 => .cmpInd n m x
  | 6 => .mpyInd n m
  | 7 => .macInd n m x
  | 8 => .msuInd n m x
  | _ =>
    match decodeHi c op with
    | .sqr => .sqrInd n m
    | .sqra => .sqraInd n m x
    | .sqrs => .sqrsInd n m x
    | .addl => .addlInd n m x
    | .subl => .sublInd n m x
    | .addh => .addhInd n m x
    | .subh => .subhInd n m x

/-- The operation `oooo` in the direct form. -/
def aluDirForm (c : Params) (op : Nat) (x : Acc) (a : BitVec 8) : Instr :=
  match op with
  | 0 => .addDir a x
  | 1 => .subDir a x
  | 2 => .orDir a x
  | 3 => .xorDir a x
  | 4 => .andDir a x
  | 5 => .cmpDir a x
  | 6 => .mpyDir a
  | 7 => .macDir a x
  | 8 => .msuDir a x
  | _ =>
    match decodeHi c op with
    | .sqr => .sqrDir a
    | .sqra => .sqraDir a x
    | .sqrs => .sqrsDir a x
    | .addl => .addlDir a x
    | .subl => .sublDir a x
    | .addh => .addhDir a x
    | .subh => .subhDir a x

/-- The operation `oooo` in the form `##imm16`: codes 0 to 5, the others unused (30_encoding R116). -/
def aluLongForm (w w1 : Word) (op : Nat) (x : Acc) : Instr :=
  match op with
  | 0 => .addLong w1 x
  | 1 => .subLong w1 x
  | 2 => .orLong w1 x
  | 3 => .xorLong w1 x
  | 4 => .andLong w1 x
  | 5 => .cmpLong w1 x
  | _ => .unused w

/-- The operation `oooo` in the form `#imm8`: codes 0 to 5, code 6 is mpys, the others unused. -/
def aluImmForm (w : Word) (op : Nat) (x : Acc) : Instr :=
  match op with
  | 0 => .addImm (lowByte w) x
  | 1 => .subImm (lowByte w) x
  | 2 => .orImm (lowByte w) x
  | 3 => .xorImm (lowByte w) x
  | 4 => .andImm (lowByte w) x
  | 5 => .cmpImm (lowByte w) x
  | 6 => .mpys (lowByte w)
  | _ => .unused w

/-- The operation `oooo` in the form `(rN)mm, ##imm16`: codes 6 to 8, the others unused. -/
def mulLongForm (c : Params) (w w1 : Word) (op : Nat) (x : Acc) : Except DecodeError Instr :=
  let n := decodeAddr (field w 0 3)
  let m := decodeMod c (field w 3 2)
  match op with
  | 6 => n.map fun n => .mpyIndLong n m w1
  | 7 => n.map fun n => .macIndLong n m w1 x
  | 8 => n.map fun n => .msuIndLong n m w1 x
  | _ => .ok (.unused w)

/-- The operation `oooo` in the form `(rJ)jj, (rI)ii`: codes 6 to 8 with bit 7 clear, the others unused. -/
def mulPairForm (c : Params) (w : Word) (op : Nat) (x : Acc) : Instr :=
  let j := decodeJ (field w 2 1)
  let jj := decodeMod c (field w 5 2)
  let i := decodeI (field w 0 2)
  let k := decodeMod c (field w 3 2)
  match field w 7 1, op with
  | 0, 6 => .mpyPair j jj i k
  | 0, 7 => .macPair j jj i k x
  | 0, 8 => .msuPair j jj i k x
  | _, _ => .unused w

/-- The ALU group, bit 15 = 1: bits 14:13 are the form, 12:9 the operation, 8 the accumulator
(30_encoding R116). w1 is the second word. -/
def decodeAlu (c : Params) (w w1 : Word) : Except DecodeError Instr :=
  let op := field w 9 4
  let x := decodeAcc (field w 8 1)
  match field w 13 2, field w 6 2 with
  | 0, 0 => (decodeReg c (field w 0 5)).map fun r => aluRegForm c op x r
  | 0, 1 => mulLongForm c w w1 op x
  | 0, 2 => (decodeAddr (field w 0 3)).map fun n => aluIndForm c op x n (decodeMod c (field w 3 2))
  | 0, _ => .ok (aluLongForm w w1 op x)
  | 1, _ => .ok (aluDirForm c op x (lowByte w))
  | 2, _ => .ok (mulPairForm c w op x)
  | _, _ => .ok (aluImmForm w op x)

/-- The instruction whose first word is w; w1 is the word after it, used by the two-word
instructions alone (30_encoding R111). -/
def decodeWords (c : Params) (w w1 : Word) : Except DecodeError Instr :=
  match field w 14 2 with
  | 0 => decodeControl c w w1
  | 1 => decodeMove c w w1
  | _ => decodeAlu c w w1

/-- A word from its two bytes in memory order, low byte first (log 4). -/
def wordOfBytes (lo hi : Byte) : Word := hi ++ lo

/-- The two bytes of a word in memory order, low byte first (log 4). -/
def bytesOfWord (w : Word) : List Byte := [w.extractLsb' 0 8, w.extractLsb' 8 8]

/-- The decoder on bytes: the instruction that starts at the first byte, and the bytes after it. -/
def decode (c : Params) : List Byte → Except DecodeError (Instr × List Byte)
  | b0 :: b1 :: rest =>
    let w := wordOfBytes b0 b1
    if isTwoWord w then
      match rest with
      | b2 :: b3 :: rest' => (decodeWords c w (wordOfBytes b2 b3)).map fun i => (i, rest')
      | _ => .error .truncated
    else (decodeWords c w 0).map fun i => (i, rest)
  | _ => .error .truncated

/-- The instruction read, with the default parameters, from the table's word w of nbits bits: bits 15:0 are the
first word, bits 31:16 the second, and a bit above nbits is 0. -/
def decodeTableWord (nbits w : Nat) : Option Instr :=
  let v := w % 2 ^ nbits
  match decode Params.default (bytesOfWord (BitVec.ofNat 16 v) ++ bytesOfWord (BitVec.ofNat 16 (v / 2 ^ 16))) with
  | .ok (i, _) => some i
  | .error _ => none

/-! The encoder, written from the same tables; an undecoded bit is 0 (30_encoding R126). -/

/-- A first word with bits 15:9 = top, bit 8 = a and bits 7:0 = low. -/
def packWord (top a low : Nat) : Word := BitVec.ofNat 16 (top * 512 + a * 256 + low)

/-- A first word of the moda row. -/
def packModa (c : Params) (f : ModaFn) (x : Acc) (cc : Cond) : Word :=
  packWord 12 (encodeAcc x) (encodeModa c f * 16 + encodeCond c cc)

/-- The low bits `mmNNN`. -/
def packInd (c : Params) (n : Fin 6) (m : PostMod) : Nat := encodeMod c m * 8 + n.val

/-- The low bits `0jjiiJII`. -/
def packPair (c : Params) (j : Fin 2) (jj : PostMod) (i : Fin 4) (k : PostMod) : Nat :=
  encodeMod c jj * 32 + encodeMod c k * 8 + j.val * 4 + i.val

/-- A first word with a 5-bit top, a 3-bit `Rn*` field and a low byte. -/
def packRnStar (c : Params) (top : Nat) (q : RnStar) (b : BitVec 8) : Word :=
  BitVec.ofNat 16 (top * 2048 + encodeRnStar c q * 256 + b.toNat)

/-- The first word of an instruction (30_encoding R114 to R117, R121). -/
def encodeFirst (c : Params) : Instr → Word
  | .nop => packWord 0 0 0
  | .trap => packWord 1 0 0
  | .eint => packWord 2 0 0
  | .dint => packWord 3 0 0
  | .lpg imm => packWord 4 0 imm.toNat
  | .norm x n m => packWord 6 (encodeAcc x) (packInd c n m)
  | .modr n m => packWord 7 0 (packInd c n m)
  | .repImm imm => packWord 8 0 imm.toNat
  | .repReg r => packWord 9 0 (encodeReg c r)
  | .bkrepImm imm _ => packWord 10 0 imm.toNat
  | .bkrepReg r _ => packWord 11 0 (encodeReg c r)
  | .shr x cc => packModa c .shr x cc
  | .shl x cc => packModa c .shl x cc
  | .shr4 x cc => packModa c .shr4 x cc
  | .shl4 x cc => packModa c .shl4 x cc
  | .ror x cc => packModa c .ror x cc
  | .rol x cc => packModa c .rol x cc
  | .not x cc => packModa c .not x cc
  | .neg x cc => packModa c .neg x cc
  | .clr x cc => packModa c .clr x cc
  | .copy x cc => packModa c .copy x cc
  | .rnd x cc => packModa c .rnd x cc
  | .pacr x cc => packModa c .pacr x cc
  | .clrr x cc => packModa c .clrr x cc
  | .callr off cc => BitVec.ofNat 16 (4 * 2048 + off.toNat * 16 + encodeCond c cc)
  | .brr off cc => BitVec.ofNat 16 (5 * 2048 + off.toNat * 16 + encodeCond c cc)
  | .call _ cc => packWord 24 0 (encodeCond c cc)
  | .br _ cc => packWord 25 0 (encodeCond c cc)
  | .ret cc => packWord 26 0 (encodeCond c cc)
  | .reti => packWord 27 0 0
  | .calla x => packWord 28 (encodeAcc x) 0
  | .divs a x => packWord 30 (encodeAcc x) a.toNat
  | .movpAccReg x r => packWord 32 (encodeAcc x) (encodeReg c r)
  | .movpIndInd n m i k => BitVec.ofNat 16 (33 * 512 + encodeMod c k * 128 + i.val * 32 + packInd c n m)
  | .movRegInd r n m => BitVec.ofNat 16 (18 * 1024 + encodeReg c r * 32 + packInd c n m)
  | .movIndReg n m r => BitVec.ofNat 16 (19 * 1024 + encodeReg c r * 32 + packInd c n m)
  | .movSimmRn imm q => packRnStar c 10 q imm
  | .movRegReg src dst => BitVec.ofNat 16 (22 * 1024 + encodeReg c dst * 32 + encodeReg c src)
  | .movLongReg _ r => packWord 46 0 (encodeReg c r)
  | .movDirAcc a x => packWord 48 (encodeAcc x) a.toNat
  | .movDirAcch a x => packWord 49 (encodeAcc x) a.toNat
  | .movDirAccl a x => packWord 50 (encodeAcc x) a.toNat
  | .movDirAcchEu a x => packWord 51 (encodeAcc x) a.toNat
  | .movRnDir q a => packRnStar c 13 q a
  | .movDirRn a q => packRnStar c 14 q a
  | .movAcclDir x a => packWord 60 (encodeAcc x) a.toNat
  | .movAcchDir x a => packWord 61 (encodeAcc x) a.toNat
  | .movImmAccl imm x => packWord 62 (encodeAcc x) imm.toNat
  | .movSimmAcch imm x => packWord 63 (encodeAcc x) imm.toNat
  | .addReg r x => packWord 64 (encodeAcc x) (encodeReg c r)
  | .addInd n m x => packWord 64 (encodeAcc x) (128 + packInd c n m)
  | .addDir a x => packWord 80 (encodeAcc x) a.toNat
  | .addLong _ x => packWord 64 (encodeAcc x) 192
  | .addImm imm x => packWord 112 (encodeAcc x) imm.toNat
  | .subReg r x => packWord 65 (encodeAcc x) (encodeReg c r)
  | .subInd n m x => packWord 65 (encodeAcc x) (128 + packInd c n m)
  | .subDir a x => packWord 81 (encodeAcc x) a.toNat
  | .subLong _ x => packWord 65 (encodeAcc x) 192
  | .subImm imm x => packWord 113 (encodeAcc x) imm.toNat
  | .orReg r x => packWord 66 (encodeAcc x) (encodeReg c r)
  | .orInd n m x => packWord 66 (encodeAcc x) (128 + packInd c n m)
  | .orDir a x => packWord 82 (encodeAcc x) a.toNat
  | .orLong _ x => packWord 66 (encodeAcc x) 192
  | .orImm imm x => packWord 114 (encodeAcc x) imm.toNat
  | .xorReg r x => packWord 67 (encodeAcc x) (encodeReg c r)
  | .xorInd n m x => packWord 67 (encodeAcc x) (128 + packInd c n m)
  | .xorDir a x => packWord 83 (encodeAcc x) a.toNat
  | .xorLong _ x => packWord 67 (encodeAcc x) 192
  | .xorImm imm x => packWord 115 (encodeAcc x) imm.toNat
  | .andReg r x => packWord 68 (encodeAcc x) (encodeReg c r)
  | .andInd n m x => packWord 68 (encodeAcc x) (128 + packInd c n m)
  | .andDir a x => packWord 84 (encodeAcc x) a.toNat
  | .andLong _ x => packWord 68 (encodeAcc x) 192
  | .andImm imm x => packWord 116 (encodeAcc x) imm.toNat
  | .cmpReg r x => packWord 69 (encodeAcc x) (encodeReg c r)
  | .cmpInd n m x => packWord 69 (encodeAcc x) (128 + packInd c n m)
  | .cmpDir a x => packWord 85 (encodeAcc x) a.toNat
  | .cmpLong _ x => packWord 69 (encodeAcc x) 192
  | .cmpImm imm x => packWord 117 (encodeAcc x) imm.toNat
  | .mpyReg r => packWord 70 0 (encodeReg c r)
  | .mpyInd n m => packWord 70 0 (128 + packInd c n m)
  | .mpyDir a => packWord 86 0 a.toNat
  | .mpyIndLong n m _ => packWord 70 0 (64 + packInd c n m)
  | .mpyPair j jj i k => packWord 102 0 (packPair c j jj i k)
  | .macReg r x => packWord 71 (encodeAcc x) (encodeReg c r)
  | .macInd n m x => packWord 71 (encodeAcc x) (128 + packInd c n m)
  | .macDir a x => packWord 87 (encodeAcc x) a.toNat
  | .macIndLong n m _ x => packWord 71 (encodeAcc x) (64 + packInd c n m)
  | .macPair j jj i k x => packWord 103 (encodeAcc x) (packPair c j jj i k)
  | .msuReg r x => packWord 72 (encodeAcc x) (encodeReg c r)
  | .msuInd n m x => packWord 72 (encodeAcc x) (128 + packInd c n m)
  | .msuDir a x => packWord 88 (encodeAcc x) a.toNat
  | .msuIndLong n m _ x => packWord 72 (encodeAcc x) (64 + packInd c n m)
  | .msuPair j jj i k x => packWord 104 (encodeAcc x) (packPair c j jj i k)
  | .sqrReg r => packWord (64 + encodeHi c .sqr) 0 (encodeReg c r)
  | .sqrInd n m => packWord (64 + encodeHi c .sqr) 0 (128 + packInd c n m)
  | .sqrDir a => packWord (80 + encodeHi c .sqr) 0 a.toNat
  | .sqraReg r x => packWord (64 + encodeHi c .sqra) (encodeAcc x) (encodeReg c r)
  | .sqraInd n m x => packWord (64 + encodeHi c .sqra) (encodeAcc x) (128 + packInd c n m)
  | .sqraDir a x => packWord (80 + encodeHi c .sqra) (encodeAcc x) a.toNat
  | .sqrsReg r x => packWord (64 + encodeHi c .sqrs) (encodeAcc x) (encodeReg c r)
  | .sqrsInd n m x => packWord (64 + encodeHi c .sqrs) (encodeAcc x) (128 + packInd c n m)
  | .sqrsDir a x => packWord (80 + encodeHi c .sqrs) (encodeAcc x) a.toNat
  | .addlReg r x => packWord (64 + encodeHi c .addl) (encodeAcc x) (encodeReg c r)
  | .addlInd n m x => packWord (64 + encodeHi c .addl) (encodeAcc x) (128 + packInd c n m)
  | .addlDir a x => packWord (80 + encodeHi c .addl) (encodeAcc x) a.toNat
  | .sublReg r x => packWord (64 + encodeHi c .subl) (encodeAcc x) (encodeReg c r)
  | .sublInd n m x => packWord (64 + encodeHi c .subl) (encodeAcc x) (128 + packInd c n m)
  | .sublDir a x => packWord (80 + encodeHi c .subl) (encodeAcc x) a.toNat
  | .addhReg r x => packWord (64 + encodeHi c .addh) (encodeAcc x) (encodeReg c r)
  | .addhInd n m x => packWord (64 + encodeHi c .addh) (encodeAcc x) (128 + packInd c n m)
  | .addhDir a x => packWord (80 + encodeHi c .addh) (encodeAcc x) a.toNat
  | .subhReg r x => packWord (64 + encodeHi c .subh) (encodeAcc x) (encodeReg c r)
  | .subhInd n m x => packWord (64 + encodeHi c .subh) (encodeAcc x) (128 + packInd c n m)
  | .subhDir a x => packWord (80 + encodeHi c .subh) (encodeAcc x) a.toNat
  | .mpys imm => packWord 118 0 imm.toNat
  | .unused w => w

/-- The second word of a two-word instruction: its long immediate or address (30_encoding R110). -/
def Instr.secondWord : Instr → Option Word
  | .bkrepImm _ w | .bkrepReg _ w | .call w _ | .br w _ | .movLongReg w _ | .addLong w _ | .subLong w _
  | .orLong w _ | .xorLong w _ | .andLong w _ | .cmpLong w _ | .mpyIndLong _ _ w | .macIndLong _ _ w _
  | .msuIndLong _ _ w _ => some w
  | .nop | .trap | .eint | .dint | .lpg _ | .norm _ _ _ | .modr _ _ | .repImm _ | .repReg _ | .shr _ _
  | .shl _ _ | .shr4 _ _ | .shl4 _ _ | .ror _ _ | .rol _ _ | .not _ _ | .neg _ _ | .clr _ _ | .copy _ _
  | .rnd _ _ | .pacr _ _ | .clrr _ _ | .callr _ _ | .brr _ _ | .ret _ | .reti | .calla _ | .divs _ _
  | .movpAccReg _ _ | .movpIndInd _ _ _ _ | .movRegInd _ _ _ | .movIndReg _ _ _ | .movSimmRn _ _
  | .movRegReg _ _ | .movDirAcc _ _ | .movDirAcch _ _ | .movDirAccl _ _ | .movDirAcchEu _ _ | .movRnDir _ _
  | .movDirRn _ _ | .movAcclDir _ _ | .movAcchDir _ _ | .movImmAccl _ _ | .movSimmAcch _ _ | .addReg _ _
  | .addInd _ _ _ | .addDir _ _ | .addImm _ _ | .subReg _ _ | .subInd _ _ _ | .subDir _ _ | .subImm _ _
  | .orReg _ _ | .orInd _ _ _ | .orDir _ _ | .orImm _ _ | .xorReg _ _ | .xorInd _ _ _ | .xorDir _ _
  | .xorImm _ _ | .andReg _ _ | .andInd _ _ _ | .andDir _ _ | .andImm _ _ | .cmpReg _ _ | .cmpInd _ _ _
  | .cmpDir _ _ | .cmpImm _ _ | .mpyReg _ | .mpyInd _ _ | .mpyDir _ | .mpyPair _ _ _ _ | .macReg _ _
  | .macInd _ _ _ | .macDir _ _ | .macPair _ _ _ _ _ | .msuReg _ _ | .msuInd _ _ _ | .msuDir _ _
  | .msuPair _ _ _ _ _ | .sqrReg _ | .sqrInd _ _ | .sqrDir _ | .sqraReg _ _ | .sqraInd _ _ _ | .sqraDir _ _
  | .sqrsReg _ _ | .sqrsInd _ _ _ | .sqrsDir _ _ | .addlReg _ _ | .addlInd _ _ _ | .addlDir _ _ | .sublReg _ _
  | .sublInd _ _ _ | .sublDir _ _ | .addhReg _ _ | .addhInd _ _ _ | .addhDir _ _ | .subhReg _ _ | .subhInd _ _ _
  | .subhDir _ _ | .mpys _ | .unused _ => none

/-- The words of an instruction, in program order. -/
def encode (c : Params) (i : Instr) : List Word := encodeFirst c i :: i.secondWord.toList

/-- The bytes of an instruction, as memory holds them. -/
def encodeBytes (c : Params) (i : Instr) : List Byte := (encode c i).flatMap bytesOfWord

end Sys2Proof
end

