-- ==== Sys2Proof/WellFormed.lean ====
section
/-! DEFINITION. Which instructions are well formed: the operand rules that can be read off the
instruction itself (93_implementation_defined section 2). An ill-formed instruction decodes, and its
meaning refuses it by name. -/

namespace Sys2Proof

/-- A register that can stand where a 16-bit source is required: "The reg cannot be aX, p"
(10_state R46). -/
def Reg.isWord : Reg → Bool
  | .acc _ | .p => false
  | .acch _ | .accl _ | .r _ | .x | .y | .pc | .lc | .tos | .st0 | .st1 | .st2 | .cfgi | .cfgj | .ext _ => true

/-- The register is the accumulator x or one of its halves (40_alu R152). -/
def Reg.partOf (c : Reg) (x : Acc) : Bool :=
  c == .acc x || c == .acch x || c == .accl x

/-- Note [6] of `mov`: rN is not moved from or to the memory it points to with post-modification
(42_move R221). -/
def postModAllowed (c : Reg) (n : Fin 6) (m : PostMod) : Bool :=
  c != .r n || m == .keep

/-- Notes [1] and [2] of `mov`: a 36-bit source goes to an accumulator only (42_move R221). -/
def sourceFits : Reg → Reg → Bool
  | .acc _, .acc _ | .p, .acc _ => true
  | .acc _, _ | .p, _ => false
  | _, _ => true

/-- The instruction obeys every operand rule of its page; `unused` holds a word that the tables leave unused. -/
def Instr.wf (k : Params) : Instr → Bool
  | .nop | .trap | .eint | .dint | .lpg _ | .norm _ _ _ | .modr _ _ | .repImm _ | .bkrepImm _ _ | .shr _ _
  | .shl _ _ | .shr4 _ _ | .shl4 _ _ | .ror _ _ | .rol _ _ | .not _ _ | .neg _ _ | .clr _ _ | .copy _ _
  | .rnd _ _ | .pacr _ _ | .clrr _ _ | .callr _ _ | .brr _ _ | .call _ _ | .br _ _ | .ret _ | .reti | .calla _
  | .divs _ _ | .movpAccReg _ _ | .movSimmRn _ _ | .movLongReg _ _ | .movDirAcc _ _ | .movDirAcch _ _
  | .movDirAccl _ _ | .movDirAcchEu _ _ | .movRnDir _ _ | .movAcclDir _ _ | .movAcchDir _ _ | .movImmAccl _ _
  | .movSimmAcch _ _ | .addInd _ _ _ | .addDir _ _ | .addLong _ _ | .addImm _ _ | .subInd _ _ _ | .subDir _ _
  | .subLong _ _ | .subImm _ _ | .orInd _ _ _ | .orDir _ _ | .orLong _ _ | .orImm _ _ | .xorInd _ _ _
  | .xorDir _ _ | .xorLong _ _ | .xorImm _ _ | .andInd _ _ _ | .andDir _ _ | .andLong _ _ | .andImm _ _
  | .cmpInd _ _ _ | .cmpDir _ _ | .cmpLong _ _ | .cmpImm _ _ | .mpyIndLong _ _ _ | .mpyInd _ _ | .mpyDir _
  | .mpyPair _ _ _ _ | .macIndLong _ _ _ _ | .macInd _ _ _ | .macDir _ _ | .macPair _ _ _ _ _
  | .msuIndLong _ _ _ _ | .msuInd _ _ _ | .msuDir _ _ | .msuPair _ _ _ _ _ | .sqrInd _ _ | .sqrDir _
  | .sqraInd _ _ _ | .sqraDir _ _ | .sqrsInd _ _ _ | .sqrsDir _ _ | .addlInd _ _ _ | .addlDir _ _
  | .sublInd _ _ _ | .sublDir _ _ | .addhInd _ _ _ | .addhDir _ _ | .subhInd _ _ _ | .subhDir _ _ | .mpys _ =>
    true
  | .repReg c | .mpyReg c | .sqrReg c => c.isWord
  | .bkrepReg c _ => c.isWord && c != .pc
  | .movpIndInd n _ i _ => n != regI i
  | .movRegInd c n m => c.isWord && postModAllowed c n m
  | .movIndReg n m c => postModAllowed c n m
  | .movRegReg src dst => src != dst && sourceFits src dst
  | .movDirRn _ q => q != .x
  | .addReg c x | .subReg c x | .orReg c x | .xorReg c x | .andReg c x | .cmpReg c x => !c.partOf x
  | .macReg c x | .msuReg c x | .sqraReg c x | .sqrsReg c x | .addlReg c x | .sublReg c x | .addhReg c x
  | .subhReg c x => c.isWord && !c.partOf x
  | .unused w => isUnusedWord k w

end Sys2Proof
end

