-- ==== Sys2Proof/Machine/State.lean ====
section
/-! DEFINITION. The state of the machine as plain data, why a step can stop, and the state after
reset. Every field names the rule of spec/ that gives it; the last group is the model's own. -/

namespace Sys2Proof.Machine

/-- Memory: the bytes that differ from what an unlisted byte reads as, addresses strictly rising
(log 3, log 4). Two bytes for each word of storage; Machine/Ops.lean says which. -/
abbrev Memory := List Host.Cell

/-- The named bits of st0 (10_state R31). Bits 15:12 have no storage (R39). -/
structure St0 where
  z : Bool
  m : Bool
  n : Bool
  v : Bool
  c : Bool
  e : Bool
  l : Bool
  r : Bool
  im1 : Bool
  im0 : Bool
  ie : Bool
  /-- 0 enables saturation on accumulator reads, 1 disables it (10_state R62). -/
  sat : Bool
  deriving DecidableEq, Repr

/-- The named fields of st1 (10_state R32). Bits 15:12 and 9:8 have no storage (R39). -/
structure St1 where
  sp : BitVec 2
  page : BitVec 8
  deriving DecidableEq, Repr

/-- The stored bits of st2 (10_state R34). IP1, IP0, IU1, IU0 are pin levels; bits 7:6 have no
storage (R39). -/
structure St2 where
  stp : Bool
  lp : Bool
  ou1 : Bool
  ou0 : Bool
  /-- M5 to M0: the modulo enable of r5 to r0. -/
  m : BitVec 6
  deriving DecidableEq, Repr

/-- The levels of the six input pins (60_exceptions R322). -/
structure Pins where
  reset : Bool
  bpi : Bool
  int0 : Bool
  int1 : Bool
  iuser0 : Bool
  iuser1 : Bool
  deriving DecidableEq, Repr

/-- All inputs low, the default of 93 section 3. -/
def Pins.low : Pins := ⟨false, false, false, false, false, false⟩

/-- The two address spaces (20_memory R80). -/
inductive Space where
  | data
  | prog
  deriving DecidableEq, Repr

/-- What the environment answers to a read of a Device address (20_memory R100, log 6). -/
structure Answer where
  space : Space
  addr : Word
  value : Word
  deriving DecidableEq, Repr

/-- An access to a Device address, as the environment sees it (20_memory R100, log 6). -/
inductive Access where
  | read (space : Space) (addr value : Word)
  | write (addr value : Word)
  deriving DecidableEq, Repr

/-- What the environment does for one step: it sets the pins, changes user-defined registers
(10_state R44), and answers the reads of Device addresses (20_memory R100) (log 6, log 7). -/
structure EnvInput where
  pins : Pins
  ext : List (Fin 8 × Word)
  answers : List Answer
  deriving DecidableEq, Repr

/-- A level of the hardware stack: the word (10_state R40), and the model's mark that the word is the return
address of an interrupt (43_loop R269, log 20). -/
structure Slot where
  value : Word
  irq : Bool
  deriving DecidableEq, Repr

/-- A store into a program word: its program address and what the word held before (20_memory R104). -/
structure CodeStore where
  addr : Word
  old : Word
  deriving DecidableEq, Repr

/-- The state of the machine. -/
structure State where
  /-- The accumulators (10_state R21). -/
  a0 : Accum
  a1 : Accum
  /-- The multiplier's inputs and product (10_state R23, R24). -/
  x : Word
  y : Word
  p : Product
  /-- r0 to r5 (10_state R25). -/
  r : Vector Word 6
  /-- The configuration registers (10_state R26). -/
  cfgi : Word
  cfgj : Word
  /-- The program counter and the loop counter (10_state R27, R29). -/
  pc : Word
  lc : Word
  /-- The status registers (10_state R31, R32, R34). -/
  st0 : St0
  st1 : St1
  st2 : St2
  /-- The hardware stack, head = top (10_state R40). -/
  stk : List Slot
  /-- ext0 to ext7 (10_state R44, log 6). -/
  ext : Vector Word 8
  /-- The repeat and block-repeat unit (10_state R43). -/
  bkStart : Word
  bkEnd : Word
  repCnt : BitVec 8
  repArmed : Bool
  repActive : Bool
  lpLate : Nat
  /-- The data of a move to pc that has not taken effect (10_state R47). -/
  pcPending : Option Word
  /-- In a BPI routine, in a trap routine (60_exceptions R332). -/
  inBpi : Bool
  inTrap : Bool
  /-- The previous instruction holds interrupts off (60_exceptions R327 case 4). -/
  holdOff : Bool
  /-- The IACK pulse of the last step (60_exceptions R331). -/
  iack : Bool
  /-- Data and program memory (20_memory R80). -/
  mem : Memory
  /-- MODEL: the previous instruction changes flags, so that a read of st0 is open (70_reset R372, log 23). -/
  st0Hazard : Bool
  /-- MODEL: the store into a program word by the running instruction, the one before, and the one
  before that (20_memory R104, log 24). -/
  storeNow : Option CodeStore
  store1 : Option CodeStore
  store2 : Option CodeStore
  /-- MODEL: how many free values have been read, and how many words have been fetched (log 8). -/
  freeCtr : Nat
  codeCtr : Nat
  /-- MODEL: the return addresses of interrupts that the program has taken off the stack and not put back
  (43_loop R269, log 20). -/
  irqTaken : List Word
  /-- MODEL: the pin levels of this step, and what the environment does for the coming ones (log 7). -/
  pins : Pins
  inputs : List EnvInput
  /-- MODEL: the environment's answers that this step has not used, and the accesses to Device addresses that it
  has made, the latest first (20_memory R100, log 6). -/
  answers : List Answer
  bus : List Access
  /-- MODEL: the named parameters, fixed for a run (00_scope R7, log 42). -/
  params : Params
  deriving DecidableEq, Repr

/-- The stuck states that the spec names, treatment `fault` of 93_implementation_defined. The hardware
takes no trap here; the model stops, which is safe (log 16). -/
inductive Fault where
  /-- A seventeenth value is pushed (10_state R41, R42): call, callr, calla, trap, a write of tos, interrupt
  entry. Safe: the model stops where the hardware does something unstated. -/
  | stackOverflow
  /-- The empty stack is popped (10_state R41, R42): ret, reti, a read of tos. Safe, as above. -/
  | stackUnderflow
  deriving DecidableEq, Repr

/-- Why the model gives a step no meaning: the cases to which 93_implementation_defined section 2
gives the treatment `refuse`. All are safe: the model stops where the spec says that nothing may be
proved about what happens next (log 17). -/
inductive Refusal where
  /-- An instruction whose meaning has not been written; raised by exec's arm. Safe. -/
  | notModelled (mnemonic : String)
  /-- A fetched word of a range marked "unused" (30_encoding R127). Raised by `unused`. Safe. -/
  | unusedOpcode
  /-- A register code that names no register, 31 by default (30_encoding R127). Raised by step. Safe. -/
  | registerCode31
  /-- `NNN` = 6 or 7 outside the `Rn*` rows (30_encoding R127). Raised by step. Safe. -/
  | addressRegister67
  /-- The instruction's bytes are incomplete; step always gives the decoder whole words, and never
  answers this. Safe. -/
  | truncated
  /-- A fetch from an Absent program address (20_memory R86, 93 U3). Raised by step. Safe. -/
  | fetchAbsent
  /-- An ALU operation with its own accumulator, or a half of it, as source (40_alu R152). Safe. -/
  | sameAccumulator
  /-- a0, a1 or p named where a 16-bit register is required (10_state R46). Safe. -/
  | notWordRegister
  /-- pc as the count register of bkrep (43_loop R265). Safe. -/
  | bkrepCountPc
  /-- `mov reg, reg` with one register twice (42_move R223 note [3]). Safe. -/
  | movSameRegister
  /-- `mov` from a0 or a1 other than to the other accumulator (42_move R221 note [2]). Safe. -/
  | movAccumulatorSource
  /-- `mov` from p other than to an accumulator (42_move R221 note [1]). Safe. -/
  | movProductSource
  /-- `mov` between rN and memory at (rN) with post-modification (42_move R221 note [6]). Safe. -/
  | movPostModified
  /-- `mov` between an ext register and off-core memory (42_move R231). Safe. -/
  | movExtOffCore
  /-- `mov direct address, x`, a form not in the manual's list (42_move R233). Safe. -/
  | movDirectToX
  /-- `movp (rN),(rI)` with N = I (42_move R246). Safe. -/
  | movpSameRegister
  /-- `movp (aXl)` or `calla aXl` with SAT = 0 and aX outside 32 bits (42_move R245, 44_branch R286). Safe. -/
  | accumulatorTooWide
  /-- `(rJ),(rI)` outside the Y or the X space (20_memory R101). Safe. -/
  | pairOutsideSpaces
  /-- divs with a divisor whose bit 15 is 1 (40_alu R188). Safe. -/
  | divisorNotPositive
  /-- Shifted p used while ST1.SP = 11 (10_state R33). Safe. -/
  | spReserved
  /-- The instruction after rep is two words long or breaks address continuity (43_loop R264). Raised
  by step. Safe. -/
  | notRepeatable
  /-- bkrep while ST2.LP = 1 (43_loop R265). Safe. -/
  | bkrepNested
  /-- A control transfer, rep or bkrep as one of the last two instructions of a loop (43_loop R269
  no. 1). Raised by step, and by trap where its routine starts with the loop's last instruction. Safe. -/
  | loopEndRestricted
  /-- A jump to the last address of the loop, or one executed immediately before its last instruction
  (43_loop R269 no. 2, no. 1). Safe. -/
  | jumpToLoopEnd
  /-- A write of lc while ST2.LP = 1 (43_loop R271). Safe. -/
  | lcWrittenInLoop
  /-- An interrupt accepted while lp_late > 0 (43_loop R270). Raised by step. Safe. -/
  | interruptWhileLpLate
  /-- An instruction other than nop after a move to pc (70_reset R373). Raised by step. Safe. -/
  | nopRequired
  /-- trap inside a trap or BPI routine (45_control R304). Safe. -/
  | trapInRoutine
  deriving DecidableEq, Repr

/-- The machine right after a power-up reset (10_state R75, 70_reset R360). The registers for which
the spec states no value, and memory, are 0 (log 2, log 3); the parameters are the defaults (log 42). -/
def State.reset : State where
  a0 := 0
  a1 := 0
  x := 0
  y := 0
  p := 0
  r := Vector.replicate 6 0
  cfgi := 0
  cfgj := 0
  pc := 0
  lc := 0
  st0 := ⟨false, false, false, false, false, false, false, false, false, false, false, false⟩
  st1 := ⟨0, 0⟩
  st2 := ⟨false, false, false, false, 0⟩
  stk := []
  ext := Vector.replicate 8 0
  bkStart := 0
  bkEnd := 0
  repCnt := 0
  repArmed := false
  repActive := false
  lpLate := 0
  pcPending := none
  inBpi := false
  inTrap := false
  holdOff := false
  iack := false
  mem := []
  st0Hazard := false
  storeNow := none
  store1 := none
  store2 := none
  freeCtr := 0
  codeCtr := 0
  irqTaken := []
  pins := Pins.low
  inputs := []
  answers := []
  bus := []
  params := Params.default

end Sys2Proof.Machine
end

