-- ==== Sys2Proof/Machine/Ops.lean ====
section
/-! DEFINITION. The named operations over registers, memory and the hardware stack that the meanings
share, and the taking of an exception beside the return from one. -/

namespace Sys2Proof.Machine

/-- A result, or the reason why there is none. -/
abbrev Res (α : Type) := Host.Outcome α Fault Refusal

/-- What a meaning answers. -/
abbrev Out := Res State

/-- Goes on with the value of x, or stops as x does. -/
def andThen {α β : Type} (x : Res α) (f : α → Res β) : Res β :=
  match x with
  | .next a => f a
  | .fault e => .fault e
  | .refused e => .refused e

/-- Goes on with k, or refuses by name. -/
def refuseIf {α : Type} (bad : Bool) (why : Refusal) (k : Res α) : Res α :=
  if bad then .refused why else k

/-! Registers. -/

/-- The accumulator named x. -/
def State.acc (s : State) (x : Acc) : Accum :=
  match x with
  | .a0 => s.a0
  | .a1 => s.a1

def State.setAcc (s : State) (x : Acc) (v : Accum) : State :=
  match x with
  | .a0 => { s with a0 := v }
  | .a1 => { s with a1 := v }

/-- The address register rn. -/
def State.addr (s : State) (n : Fin 6) : Word := s.r[n]

def State.setAddr (s : State) (n : Fin 6) (v : Word) : State :=
  { s with r := s.r.set n v }

/-- The user-defined register ext k. -/
def State.extReg (s : State) (k : Fin 8) : Word := s.ext[k]

def State.setExt (s : State) (k : Fin 8) (v : Word) : State :=
  { s with ext := s.ext.set k v }

def State.setFlags (s : State) (f : St0) : State := { s with st0 := f }

/-- The next free value (93_implementation_defined, treatment `any value`; log 8). -/
def State.free (s : State) : Word × State :=
  (Config.freeWord s.freeCtr, { s with freeCtr := s.freeCtr + 1 })

/-! Memory: bytes, then words, then the two spaces. -/

/-- What a byte that memory does not list reads as (log 3). -/
def Memory.unlisted : Byte := 0

/-- The one form of a memory: addresses strictly rising, no entry equal to what an unlisted byte
reads as. -/
abbrev Memory.wf (m : Memory) : Prop :=
  m.Pairwise (fun a b => a.1 < b.1) ∧ ∀ c ∈ m, c.2 ≠ Memory.unlisted

def Memory.read : Memory → Nat → Byte
  | [], _ => Memory.unlisted
  | (k, v) :: m, a => if a = k then v else Memory.read m a

/-- The cells of m after a byte is written in front of them. -/
def Memory.cons (a : Nat) (b : Byte) (m : Memory) : Memory :=
  if b = Memory.unlisted then m else (a, b) :: m

def Memory.write : Memory → Nat → Byte → Memory
  | [], a, b => Memory.cons a b []
  | (k, v) :: m, a, b =>
    if a < k then Memory.cons a b ((k, v) :: m)
    else if a = k then Memory.cons a b m
    else (k, v) :: Memory.write m a b

/-- The word of storage number c lies in the bytes 2c (low half) and 2c + 1 (high half) (log 4). -/
def Memory.readWord (m : Memory) (c : Nat) : Word :=
  wordOfBytes (m.read (2 * c)) (m.read (2 * c + 1))

def Memory.writeWord (m : Memory) (c : Nat) (v : Word) : Memory :=
  (m.write (2 * c) (v.extractLsb' 0 8)).write (2 * c + 1) (v.extractLsb' 8 8)

/-- 1000h to 7FFFh, common to both spaces (20_memory R80). -/
def isSharedAddr (a : Word) : Bool := decide (0x1000 ≤ a.toNat ∧ a.toNat ≤ 0x7FFF)

/-- The window A000h to BFFFh and the chip's registers E000h to EFFFh (20_memory R84, R86). -/
def isDeviceAddr (a : Word) : Bool :=
  decide ((0xA000 ≤ a.toNat ∧ a.toNat ≤ 0xBFFF) ∨ (0xE000 ≤ a.toNat ∧ a.toNat ≤ 0xEFFF))

/-- The address lies in implemented on-core data RAM (20_memory R83, 42_move R231). -/
def onCore (c : Params) (a : Word) : Bool :=
  decide (a.toNat < c.xramWords ∨ 0x10000 - c.yramWords ≤ a.toNat)

/-- The address lies in the block of n words from `base`, where there is one. -/
def inBlock (base : Option Word) (n : Nat) (a : Word) : Bool :=
  base.any fun b => decide (b.toNat ≤ a.toNat ∧ a.toNat < b.toNat + n)

/-- What the first span with the address says, and RAM where none has it (log 5). -/
def spanAt : List Span → Word → Region
  | [], _ => .ram
  | p :: rest, a => if p.lo.toNat ≤ a.toNat ∧ a.toNat ≤ p.hi.toNat then p.what.region else spanAt rest a

/-- The region of a word common to both spaces: a shared cell, or one of the 2K words of common ROM, which no store
changes (00_scope R6, 20_memory R80, R84, log 5). -/
def sharedRegion (c : Params) (a : Word) : Region := if inBlock c.commonRom 2048 a then .rom else .shared

/-- `DataMap` (20_memory R86): what the source fixes, then what the chip's spans say (log 5). -/
def dataMap (c : Params) (a : Word) : Region :=
  if isSharedAddr a then sharedRegion c a
  else if onCore c a then .ram
  else if isDeviceAddr a then .device
  else spanAt c.dataSpans a

/-- `ProgMap` (20_memory R86): what the source fixes, the 1K words of program ROM, then what the chip's spans say
(log 5). -/
def progMap (c : Params) (a : Word) : Region :=
  if isSharedAddr a then sharedRegion c a
  else if inBlock c.progRom 1024 a then .rom
  else spanAt c.progSpans a

/-- The storage number of a data word. -/
def dataCell (a : Word) : Nat := a.toNat

/-- The storage number of a program word: a shared word is the data word (20_memory R80). -/
def progCell (a : Word) : Nat := if isSharedAddr a then a.toNat else 0x10000 + a.toNat

/-- A read of a Device address: the environment's next answer for it, or the free value o where it gives none. The
last value written is not assumed (20_memory R100, log 6). -/
def deviceGives (sp : Space) (a : Word) (o : Word × State) (s : State) : Word × State :=
  let mine := fun e : Answer => e.space == sp && e.addr == a
  match s.answers.find? mine with
  | some e => (e.value, { s with answers := s.answers.eraseP mine, bus := .read sp a e.value :: s.bus })
  | none => (o.1, { o.2 with bus := .read sp a o.1 :: s.bus })

/-- A read of a Device address by an instruction. -/
def deviceRead (sp : Space) (a : Word) (s : State) : Word × State :=
  deviceGives sp a s.free s

/-- `DataRead(A)` (20_memory R88); a read of an Absent address is a free value (93 U3). -/
def dataRead (a : Word) (s : State) : Word × State :=
  match dataMap s.params a with
  | .absent => s.free
  | .device => deviceRead .data a s
  | .ram | .rom | .shared => (s.mem.readWord (dataCell a), s)

/-- A word common to both spaces that is about to be stored to: its address, and what it holds (20_memory R104). -/
def State.announced (a : Word) (s : State) : State :=
  match dataMap s.params a with
  | .shared => { s with storeNow := some ⟨a, s.mem.readWord (dataCell a)⟩ }
  | .ram | .rom | .device | .absent => s

/-- `DataWrite(A, v)` (20_memory R88); a write to Rom or to an Absent address changes nothing (93 U3), and one to a
Device address goes to the environment (20_memory R100). A write of a program word is remembered for the fetches that
come next (20_memory R104). -/
def dataWrite (a : Word) (v : Word) (s : State) : State :=
  match dataMap s.params a with
  | .absent | .rom => s
  | .device => { s with bus := .write a v :: s.bus }
  | .ram => { s with mem := s.mem.writeWord (dataCell a) v }
  | .shared =>
    { s with mem := s.mem.writeWord (dataCell a) v, storeNow := some ⟨a, s.mem.readWord (dataCell a)⟩ }

/-- The program word at A as memory holds it. -/
def progWord (a : Word) (s : State) : Word := s.mem.readWord (progCell a)

/-- `ProgRead(A)` by `movp` (20_memory R89); a read of an Absent address is a free value (93 U3). -/
def progRead (a : Word) (s : State) : Word × State :=
  match progMap s.params a with
  | .absent => s.free
  | .device => deviceRead .prog a s
  | .ram | .rom | .shared => (progWord a s, s)

/-! The fetch. -/

/-- The word that is fetched where memory holds v and c may have stored there: v, or what the store replaced, as `old`
chooses (20_memory R104, 93 U9). -/
def seenThrough (c : Option CodeStore) (old : Bool) (a v : Word) : Word :=
  match c with
  | none => v
  | some t => if t.addr = a ∧ old = true then t.old else v

/-- The free value of the next fetched word, if it is fetched from a (log 8). -/
def State.freeCode (a : Word) (s : State) : Word × State :=
  (Config.freeCode s.codeCtr a, { s with codeCtr := s.codeCtr + 1 })

/-- `ProgRead(a)` by the fetch, where a is plain memory: a word that one of the two instructions before stored to is
old or new (20_memory R104, 93 U9, log 24). -/
def fetchPlain (a : Word) (s : State) : Word × State :=
  let o := s.freeCode a
  (seenThrough s.store2 (o.1.getLsbD 1) a (seenThrough s.store1 (o.1.getLsbD 0) a (progWord a s)), o.2)

/-- `ProgRead(a)` by the fetch (20_memory R89); a fetch from an Absent address is refused (20_memory R86, 93 U3). -/
def fetchWord (a : Word) (s : State) : Res (Word × State) :=
  match progMap s.params a with
  | .absent => .refused .fetchAbsent
  | .device => .next (deviceGives .prog a (s.freeCode a) (s.freeCode a).2)
  | .ram | .rom | .shared => .next (fetchPlain a s)

/-- s as the fetch of the next step sees it, if the running instruction stores nothing more: the stores have become one
instruction older, and the environment gives its next answers, which `inputs` holds (log 19). -/
def State.ahead (s : State) : State :=
  { s with
    store1 := s.storeNow, store2 := s.store1
    answers := (s.inputs.head?.map EnvInput.answers).getD [] }

/-- The data address of a direct operand (20_memory R92). -/
def direct (a8 : BitVec 8) (s : State) : Word := s.st1.page ++ a8

/-! The hardware stack (10_state R41). -/

/-- A push of one level. -/
def pushSlot (v : Slot) (s : State) : Out :=
  if s.stk.length < Config.stackDepth then .next { s with stk := v :: s.stk } else .fault .stackOverflow

/-- `Push(v)`. -/
def push (v : Word) (s : State) : Out := pushSlot ⟨v, false⟩ s

/-- A write of tos. The return address of an interrupt that the program puts back has its mark again (log 20). -/
def putOn (v : Word) (s : State) : Out :=
  pushSlot ⟨v, decide (v ∈ s.irqTaken)⟩ { s with irqTaken := s.irqTaken.erase v }

/-- `Pop()`, with the mark of the level. -/
def pop (s : State) : Res (Slot × State) :=
  match s.stk with
  | [] => .fault .stackUnderflow
  | v :: rest => .next (v, { s with stk := rest })

/-- A read of tos. The return address of an interrupt is remembered, since the program may put it back (log 20). -/
def takeOff (s : State) : Res (Word × State) :=
  andThen (pop s) fun o =>
    .next (o.1.value, if o.1.irq then { o.2 with irqTaken := o.1.value :: o.2.irqTaken } else o.2)

/-! Address modification (20_memory R95, R96). -/

/-- The least k with 2^k > MOD, for a 9-bit MOD (20_memory R96). -/
def modBits (m : Nat) : Nat :=
  if m < 1 then 0 else if m < 2 then 1 else if m < 4 then 2 else if m < 8 then 3 else if m < 16 then 4
  else if m < 32 then 5 else if m < 64 then 6 else if m < 128 then 7 else if m < 256 then 8 else 9

/-- `Modulo(old, q, MOD)`: the new value, and whether the register wrapped (20_memory R96). -/
def modulo (old : Word) (q : Int) (m : Nat) : Word × Bool :=
  let mask := BitVec.ofNat 16 (2 ^ modBits m - 1)
  let low := old &&& mask
  if q > 0 ∧ low = BitVec.ofNat 16 m then (old &&& ~~~mask, true)
  else if q < 0 ∧ low = 0 then ((old &&& ~~~mask) ||| BitVec.ofNat 16 m, true)
  else (old + BitVec.ofInt 16 q, false)

/-- cfgi serves r0 to r3, cfgj serves r4 and r5 (10_state R25). -/
def State.cfgOf (s : State) (n : Fin 6) : Word := if n.val ≤ 3 then s.cfgi else s.cfgj

/-- STEPx: the signed 7-bit step in bits 6:0 (10_state R26). -/
def stepOf (cfg : Word) : Int := (cfg.extractLsb' 0 7).toInt

/-- MODx: the unsigned 9-bit modulo value in bits 15:7 (10_state R26). -/
def modOf (cfg : Word) : Nat := (cfg.extractLsb' 7 9).toNat

/-- The amount q that a modifier adds (20_memory R95). -/
def modAmount (m : PostMod) (cfg : Word) : Int :=
  match m with
  | .keep => 0
  | .inc => 1
  | .dec => -1
  | .step => stepOf cfg

/-- What `PostMod(n, mm)` puts into rn, and whether the register wrapped (20_memory R95). -/
def modified (n : Fin 6) (m : PostMod) (s : State) : Word × Bool :=
  let cfg := s.cfgOf n
  if m = .keep then (s.addr n, false)
  else if s.st2.m.getLsbD n.val then modulo (s.addr n) (modAmount m cfg) (modOf cfg)
  else (s.addr n + BitVec.ofInt 16 (modAmount m cfg), false)

/-- `PostMod(n, mm)` (20_memory R95). -/
def postMod (n : Fin 6) (m : PostMod) (s : State) : State := s.setAddr n (modified n m s).1

/-! Control transfers. -/

/-- The block-repeat unit will test for the loop end k boundaries after the present instruction's own: LP is set, or
its clear is still in flight then (43_loop R268, R270). -/
def State.loopLiveAfter (k : Nat) (s : State) : Bool := s.st2.lp || decide (k < s.lpLate)

/-- The unit tests for the loop end after the present instruction. -/
def State.loopLive (s : State) : Bool := s.loopLiveAfter 0

/-- The instruction at a, if it comes next, has its last word at e: its length is that of the word that the next step's
fetch gives (log 19). -/
def State.endsAt (s : State) (a e : Word) : Bool :=
  match fetchWord a s.ahead with
  | .next o => if isTwoWord o.1 then a + 1 == e else a == e
  | .fault _ | .refused _ => false

/-- A transfer to a that a loop forbids: to its last address, or to the first word of its last instruction,
which would make the transfer the last but one (43_loop R269). The loop must still be live at the end of that
instruction (log 20). DESIGN CHOICE (log 20): restriction 2 binds wherever the transfer stands, outside the loop's body too,
after a jump out or in a routine; R269 reads it as a rule about transfers inside the body, and 93 section 2 and R376 set no
such limit. -/
def State.entersLoopEnd (s : State) (a : Word) : Bool :=
  s.loopLiveAfter 1 && (a == s.bkEnd || s.endsAt a s.bkEnd)

/-- A transfer that the program makes (43_loop R269). -/
def jumpTo (target : Word) (s : State) : Out :=
  refuseIf (s.entersLoopEnd target) .jumpToLoopEnd (.next { s with pc := target })

/-- `Push(pc)`, then the transfer of a call (44_branch R284 to R286). -/
def callTo (target : Word) (s : State) : Out :=
  andThen (push s.pc s) (jumpTo target)

/-- `pc <- Pop()` of ret and reti. The return of an interrupt, by the level that its entry pushed or by its address put
back, may go to the last address of a loop (43_loop R269, 92 D47, log 20). -/
def returnTo (s : State) : Out :=
  andThen (pop s) fun o => if o.1.irq then .next { o.2 with pc := o.1.value } else jumpTo o.1.value o.2

/-! Taking an exception, and the return from one. -/

/-- What every entry does: `Push(pc)`, `pc <- vector` (60_exceptions R323, R333 to R335). Nothing else is
saved and there is no mode to change. The level is marked where the entry is an interrupt's. -/
def enterRoutine (irq : Bool) (vector : Word) (s : State) : Out :=
  andThen (pushSlot ⟨s.pc, irq⟩ s) fun s => .next { s with pc := vector }

/-- The address of the TRAP routine (60_exceptions R321, 20_memory R85; decimal 10 in 70_reset R390, note (f)). -/
def trapVector : Word := 0x000A

/-- TRAP entry (60_exceptions R333): IE stays, against "ie=0" of 70_reset R390 (note (f), 90 C2). It is
refused where the routine starts with the last instruction of a live loop: trap would be executed immediately before it
(43_loop R269 no. 1, log 19). -/
def enterTrap (s : State) : Out :=
  refuseIf (s.loopLiveAfter 1 && s.endsAt trapVector s.bkEnd) .loopEndRestricted <|
    andThen (enterRoutine false trapVector s) fun s => .next { s with inTrap := true }

/-- The hardware interrupts (60_exceptions R321). -/
inductive Irq where
  | bpi
  | int0
  | int1
  deriving DecidableEq, Repr

/-- The start address of an interrupt's routine (60_exceptions R321, 20_memory R85). -/
def Irq.vector : Irq → Word
  | .bpi => 0x0008
  | .int0 => 0x000C
  | .int1 => 0x000E

/-- What an entry changes besides pc and the stack: BPI sets in_bpi and leaves IE, INT0 and INT1 clear
IE (60_exceptions R334, R335). -/
def markEntry (i : Irq) (s : State) : State :=
  match i with
  | .bpi => { s with inBpi := true }
  | .int0 | .int1 => { s with st0 := { s.st0 with ie := false } }

/-- Interrupt entry (60_exceptions R334, R335), refused while a clear of LP is in flight (43_loop R270). -/
def enterInterrupt (i : Irq) (s : State) : Out :=
  refuseIf (decide (0 < s.lpLate)) .interruptWhileLpLate <|
    andThen (enterRoutine true i.vector s) fun t => .next (markEntry i { t with iack := true })

/-- What reti does besides `pc <- Pop()`: it ends the innermost of a BPI or trap routine and leaves IE,
or else sets IE (60_exceptions R337); no arithmetic flag changes (70_reset R390, note (j)). -/
def endRoutine (s : State) : State :=
  if s.inBpi then { s with inBpi := false }
  else if s.inTrap then { s with inTrap := false }
  else { s with st0 := { s.st0 with ie := true } }

/-- The return from an exception (60_exceptions R337, 44_branch R288). -/
def returnFromException (s : State) : Out :=
  andThen (returnTo s) fun s => .next (endRoutine s)

end Sys2Proof.Machine
end

