-- ==== Sys2Proof/Machine/Flags.lean ====
section
/-! DEFINITION. The 36-bit arithmetic, every flag computation, the packing of the status registers and
the conditions. -/

namespace Sys2Proof.Machine

/-! Flags of a 36-bit ALU output (10_state R51 to R58). -/

/-- Bits 35 down to n - 1 are all equal: the value fits in n bits (40_alu R172). -/
def fitsIn (v : Accum) (n : Nat) : Bool :=
  v.sshiftRight (n - 1) == 0 || v.sshiftRight (n - 1) == BitVec.allOnes 36

/-- Bits 35:31 are identical: the value fits in 32 bits (10_state R48, R57). -/
def fits32 (v : Accum) : Bool :=
  v.extractLsb' 31 5 == 0 || v.extractLsb' 31 5 == BitVec.allOnes 5

/-- `SetZMNE(out)` (10_state R52): the flags ZMNE of the table of 70_reset R390. -/
def setZMNE (f : St0) (out : Accum) : St0 :=
  let z := out == 0
  let e := !fits32 out
  { f with z := z, m := out.getLsbD 35, e := e, n := z || (!e && (out.getLsbD 31 != out.getLsbD 30)) }

/-- An ALU output with its carry and overflow (10_state R63). -/
structure AluOut where
  out : Accum
  c : Bool
  v : Bool
  deriving DecidableEq, Repr

/-- `Add36(a, b)` (10_state R63). -/
def add36 (a b : Accum) : AluOut :=
  let out := a + b
  { out := out
    c := decide (2 ^ 36 ≤ a.toNat + b.toNat)
    v := (a.getLsbD 35 == b.getLsbD 35) && (out.getLsbD 35 != a.getLsbD 35) }

/-- `Sub36(a, b)`: a - b, c is the borrow (10_state R63). -/
def sub36 (a b : Accum) : AluOut :=
  let out := a - b
  { out := out
    c := decide (a.toNat < b.toNat)
    v := (a.getLsbD 35 != b.getLsbD 35) && (out.getLsbD 35 != a.getLsbD 35) }

/-- `SetArith(out, C, V)`: L latches V (10_state R58, R63); ZMNVCEL- of the table of 70_reset R390. -/
def setArith (f : St0) (o : AluOut) : St0 :=
  { setZMNE f o.out with v := o.v, c := o.c, l := f.l || o.v }

/-- The flags of a shift: Z M N E of the result, V and C as given, L R unchanged (40_alu R171 to R176; ZMNVCE, and
with V cleared ZMN0CE, of the table of 70_reset R390, note (i)). -/
def setShift (f : St0) (out : Accum) (v c : Bool) : St0 :=
  { setZMNE f out with v := v, c := c }

/-- The flags of a rotation: Z M N E of the result and C (40_alu R177, R178; ZMN-CE of the table of 70_reset R390,
note (i)). -/
def setRotate (f : St0) (out : Accum) (c : Bool) : St0 :=
  { setZMNE f out with c := c }

/-- The R flag of modr and norm: the new value is zero and the register did not wrap (10_state R59). -/
def rFlag (o : Word × Bool) : Bool := o.1 == 0 && !o.2

/-! The status registers as words (10_state R31, R32, R34). -/

/-- st0 read with `open4` in its bits 15:12, which have no value (10_state R39). -/
def St0.toWord (f : St0) (open4 : BitVec 4) : Word :=
  open4 ++ BitVec.ofBool f.z ++ BitVec.ofBool f.m ++ BitVec.ofBool f.n ++ BitVec.ofBool f.v ++
    BitVec.ofBool f.c ++ BitVec.ofBool f.e ++ BitVec.ofBool f.l ++ BitVec.ofBool f.r ++
    BitVec.ofBool f.im1 ++ BitVec.ofBool f.im0 ++ BitVec.ofBool f.ie ++ BitVec.ofBool f.sat

/-- The st0 that a write of d leaves (10_state R36). -/
def St0.ofWord (d : Word) : St0 :=
  { z := d.getLsbD 11, m := d.getLsbD 10, n := d.getLsbD 9, v := d.getLsbD 8, c := d.getLsbD 7
    e := d.getLsbD 6, l := d.getLsbD 5, r := d.getLsbD 4, im1 := d.getLsbD 3, im0 := d.getLsbD 2
    ie := d.getLsbD 1, sat := d.getLsbD 0 }

/-- st1 read with `o` in its bits 15:12 and 9:8, which have no value (10_state R37, R39). -/
def St1.toWord (t : St1) (o : BitVec 6) : Word :=
  o.extractLsb' 2 4 ++ t.sp ++ o.extractLsb' 0 2 ++ t.page

/-- The st1 that a write of d leaves (10_state R37). -/
def St1.ofWord (d : Word) : St1 := { sp := d.extractLsb' 10 2, page := d.extractLsb' 0 8 }

/-- st2 read with the pins, with `lp` in bit 12, and with `o` in bits 7:6, which have no value
(10_state R38, R39). -/
def St2.toWord (t : St2) (pins : Pins) (lp : Bool) (o : BitVec 2) : Word :=
  BitVec.ofBool pins.int1 ++ BitVec.ofBool pins.int0 ++ BitVec.ofBool t.stp ++ BitVec.ofBool lp ++
    BitVec.ofBool pins.iuser1 ++ BitVec.ofBool pins.iuser0 ++ BitVec.ofBool t.ou1 ++ BitVec.ofBool t.ou0 ++
    o ++ t.m

/-- A write of d to st2: bit 12 set clears LP, which the unit sees two boundaries late (10_state R38,
43_loop R270); the pin bits are ignored. -/
def writeSt2 (d : Word) (s : State) : State :=
  let clear := d.getLsbD 12
  { s with
    st2 :=
      { stp := d.getLsbD 13, lp := s.st2.lp && !clear, ou1 := d.getLsbD 9, ou0 := d.getLsbD 8
        m := d.extractLsb' 0 6 }
    lpLate := if clear && s.st2.lp then 2 else s.lpLate }

/-! Conditions. -/

/-- `Cond(c)` (30_encoding R119). -/
def condTrue (cc : Cond) (s : State) : Bool :=
  match cc with
  | .always => true
  | .eq => s.st0.z
  | .neq => !s.st0.z
  | .gt => !s.st0.m && !s.st0.z
  | .ge => !s.st0.m
  | .lt => s.st0.m
  | .le => s.st0.m || s.st0.z
  | .nn => !s.st0.n
  | .v => s.st0.v
  | .c => s.st0.c
  | .e => s.st0.e
  | .l => s.st0.l
  | .nr => !s.st0.r
  | .niu0 => !s.pins.iuser0
  | .iu0 => s.pins.iuser0
  | .iu1 => s.pins.iuser1

end Sys2Proof.Machine
end

