-- ==== Sys2Proof/Machine/Operands.lean ====
section
/-! DEFINITION. Every operand form: registers as 16-bit operands with their side effects, the ALU
source, the multiplier's loads, shifted p, and the places in a loop where lc and LP have no value. -/

namespace Sys2Proof.Machine

/-! Positions in a block-repeat loop (43_loop R269). pc holds the address after the instruction. -/

/-- The instruction after the present one is the last of the loop: its last word is at bk_end. -/
def State.nextIsLast (s : State) : Bool := s.endsAt s.pc s.bkEnd

/-- The present instruction is the last of the loop. -/
def State.isLast (s : State) : Bool := s.pc - 1 == s.bkEnd

/-- s once the running instruction has stored v, where it has announced a store (log 19). -/
def State.storing (v : Word) (s : State) : State :=
  match s.storeNow with
  | none => s
  | some t => { s with mem := s.mem.writeWord (dataCell t.addr) v }

/-- Where a read of LP in st2 has no value, so that v may be read: in the instruction before the last of an active loop
(43_loop R270, 93 U5). An instruction may store v over the next one (log 19). -/
def State.lpReadOpen (v : Word) (s : State) : Bool := s.st2.lp && (s.storing v).nextIsLast

/-- Where a read of lc has no value: there, and in the only instruction of a one-instruction loop (43_loop R271,
93 U5). -/
def State.lcReadOpen (v : Word) (s : State) : Bool :=
  s.st2.lp && ((s.storing v).nextIsLast || (s.isLast && s.bkStart == s.bkEnd))

/-! Saturation (10_state R48). -/

/-- A read of aX over the data bus is limited: SAT = 0 and aX does not fit in 32 bits. -/
def State.limits (s : State) (x : Acc) : Bool := !s.st0.sat && !fits32 (s.acc x)

/-- The 32-bit limit on the side of the accumulator's sign. -/
def limitOf (v : Accum) : BitVec 32 := if v.getLsbD 35 then 0x80000000 else 0x7FFFFFFF

/-- `SatRead(aX, h)`. -/
def satHigh (x : Acc) (s : State) : Word :=
  if s.limits x then (limitOf (s.acc x)).extractLsb' 16 16 else (s.acc x).extractLsb' 16 16

/-- `SatRead(aX, l)`. -/
def satLow (x : Acc) (s : State) : Word :=
  if s.limits x then (limitOf (s.acc x)).extractLsb' 0 16 else (s.acc x).extractLsb' 0 16

/-- A limited read sets L when the reading instruction is `mov` (10_state R48, R58). -/
def noteLimit (isMov : Bool) (x : Acc) (s : State) : State :=
  s.setFlags { s.st0 with l := s.st0.l || (isMov && s.limits x) }

/-! Registers as 16-bit operands. -/

/-- A read of lc (10_state R46, 43_loop R271). -/
def readLc (s : State) : Word × State :=
  let o := s.free
  if s.lcReadOpen o.1 then o else (s.lc, s)

/-- A read of st0: bits 15:12 have no value, and no bit has one right after an instruction that
changes flags (10_state R46, 70_reset R372, 93 U1, U8). -/
def readSt0 (s : State) : Word × State :=
  let o := s.free
  if s.st0Hazard then o else (s.st0.toWord (o.1.extractLsb' 0 4), o.2)

/-- A read of st1: bits 15:12 and 9:8 have no value (10_state R37, 93 U1). -/
def readSt1 (s : State) : Word × State :=
  let o := s.free
  (s.st1.toWord (o.1.extractLsb' 0 6), o.2)

/-- A read of st2: pins and stored bits; bits 7:6 have no value, nor has LP before the last
instruction of a loop (10_state R38, 43_loop R270, 93 U1, U5). -/
def readSt2 (s : State) : Word × State :=
  let o := s.free
  let word := fun lp => s.st2.toWord s.pins lp (o.1.extractLsb' 0 2)
  let free := word (o.1.getLsbD 2)
  (if s.lpReadOpen free then free else word s.st2.lp, o.2)

/-- `RegRead16(c)` (10_state R46). isMov says that the reading instruction is `mov`. -/
def regRead (isMov : Bool) (c : Reg) (s : State) : Res (Word × State) :=
  match c with
  | .acc _ | .p => .refused .notWordRegister
  | .acch x => .next (satHigh x s, noteLimit isMov x s)
  | .accl x => .next (satLow x s, noteLimit isMov x s)
  | .r n => .next (s.addr n, s)
  | .x => .next (s.x, s)
  | .y => .next (s.y, s)
  | .pc => .next (s.pc, s)
  | .lc => .next (readLc s)
  | .tos => takeOff s
  | .st0 => .next (readSt0 s)
  | .st1 => .next (readSt1 s)
  | .st2 => .next (readSt2 s)
  | .cfgi => .next (s.cfgi, s)
  | .cfgj => .next (s.cfgj, s)
  | .ext k => .next (s.extReg k, s)

/-- The value that a move gives to aX (10_state R22). -/
def wideOfAcc (v : Word) : Accum := v.signExtend 36

/-- The value that a move to aXh gives to aX: sign in the extension, low part cleared (10_state R22). -/
def wideOfHigh (v : Word) : Accum := (v.signExtend 36) <<< 16

/-- The value that a move to aXl gives to aX: the upper parts cleared (10_state R22). -/
def wideOfLow (v : Word) : Accum := v.setWidth 36

/-- A move of the 36-bit value v into aX: Z M N E see it (10_state R47, 42_move R222). -/
def moveAcc (x : Acc) (v : Accum) (s : State) : State :=
  (s.setAcc x v).setFlags (setZMNE s.st0 v)

/-- A write of ph (10_state R24). -/
def writePh (v : Word) (s : State) : State := { s with p := v ++ s.p.extractLsb' 0 16 }

/-- A delayed jump (10_state R47, 70_reset R373); it may not go to the last address of a loop
(43_loop R269), of one that is live when the instruction there ends, two after this one (log 20). DESIGN CHOICE (log 20): it binds outside the loop's body
too, where R269 may not mean it. -/
def writePc (v : Word) (s : State) : Out :=
  refuseIf (s.loopLiveAfter 2 && v == s.bkEnd) .jumpToLoopEnd (.next { s with pcPending := some v })

/-- A write of lc, forbidden inside a loop (43_loop R271). -/
def writeLc (v : Word) (s : State) : Out :=
  refuseIf s.st2.lp .lcWrittenInLoop (.next { s with lc := v })

/-- `RegWrite16(c, v)` (10_state R47). -/
def regWrite (c : Reg) (v : Word) (s : State) : Out :=
  match c with
  | .acc x => .next (moveAcc x (wideOfAcc v) s)
  | .acch x => .next (moveAcc x (wideOfHigh v) s)
  | .accl x => .next (moveAcc x (wideOfLow v) s)
  | .r n => .next (s.setAddr n v)
  | .x => .next { s with x := v }
  | .y => .next { s with y := v }
  | .p => .next (writePh v s)
  | .pc => writePc v s
  | .lc => writeLc v s
  | .tos => putOn v s
  | .st0 => .next (s.setFlags (St0.ofWord v))
  | .st1 => .next { s with st1 := St1.ofWord v }
  | .st2 => .next (writeSt2 v s)
  | .cfgi => .next { s with cfgi := v }
  | .cfgj => .next { s with cfgj := v }
  | .ext k => .next (s.setExt k v)

/-- The value of a register of the `Rn*` field (30_encoding R123). -/
def readRnStar (q : RnStar) (s : State) : Word :=
  match q with
  | .r n => s.addr n
  | .y => s.y
  | .x => s.x

def writeRnStar (q : RnStar) (v : Word) (s : State) : State :=
  match q with
  | .r n => s.setAddr n v
  | .y => { s with y := v }
  | .x => { s with x := v }

/-! Memory operands. -/

/-- The operand `(rN)mm`: the word at rN, then the post-modification (20_memory R93, R95). -/
def readInd (n : Fin 6) (m : PostMod) (s : State) : Word × State :=
  let o := dataRead (s.addr n) s
  (o.1, postMod n m o.2)

/-- The operand `direct` (20_memory R92). -/
def readDir (a : BitVec 8) (s : State) : Word × State := dataRead (direct a s) s

/-! The source of an ALU operation (40_alu R150). -/

/-- `W16(v)` or `W36(v)`. -/
inductive Src where
  | w16 (v : Word)
  | w36 (v : Accum)
  deriving DecidableEq, Repr

/-- The operand with sign extension: add, sub, cmp (40_alu R151; `+op` of 70_reset R390, note (c)). -/
def Src.signed : Src → Accum
  | .w16 v => v.signExtend 36
  | .w36 v => v

/-- The operand with zero extension: or, xor, and (40_alu R151). -/
def Src.unsigned : Src → Accum
  | .w16 v => v.setWidth 36
  | .w36 v => v

/-- `ShiftedP()` (10_state R33). -/
def shiftedP (s : State) : Res Accum :=
  let e := s.p.signExtend 36
  if s.st1.sp = 0 then .next e
  else if s.st1.sp = 1 then .next (e.sshiftRight 1)
  else if s.st1.sp = 2 then .next (e <<< 1)
  else .refused .spReserved

/-- `AluSrc()` in the form `reg`, for an instruction whose accumulator is x (40_alu R150, R152). -/
def aluReg (x : Acc) (c : Reg) (s : State) : Res (Src × State) :=
  refuseIf (c.partOf x) .sameAccumulator <|
    match c with
    | .acc a => .next (.w36 (s.acc a), s)
    | .p => andThen (shiftedP s) fun v => .next (.w36 v, s)
    | .acch _ | .accl _ | .r _ | .x | .y | .pc | .lc | .tos | .st0 | .st1 | .st2 | .cfgi | .cfgj | .ext _ =>
      andThen (regRead false c s) fun o => .next (.w16 o.1, o.2)

/-- The operand `reg` of an instruction with accumulator x that takes 16-bit registers only
(40_alu R152, 41_multiply R201, R202, R210). -/
def wordReg (x : Acc) (c : Reg) (s : State) : Res (Word × State) :=
  refuseIf (c.partOf x) .sameAccumulator (regRead false c s)

/-! The multiplier (41_multiply R200 to R202). -/

/-- `Mul(x, y)`: the exact signed product (41_multiply R200). -/
def mul (x y : Word) : Product := BitVec.ofInt 32 (x.toInt * y.toInt)

/-- `p <- Mul(x, y)`. -/
def multiply (s : State) : State := { s with p := mul s.x s.y }

/-- The load of the forms `y, reg`, `y, (rN)`, `y, direct`: operand -> x. -/
def loadX (o : Word × State) : State := { o.2 with x := o.1 }

/-- The load of sqr, sqra, sqrs: operand -> y, operand -> x (41_multiply R202). -/
def loadXY (o : Word × State) : State := { o.2 with x := o.1, y := o.1 }

/-- The load of the form `(rN)mm, ##imm16`: memory -> y, immediate -> x. -/
def loadIndLong (n : Fin 6) (m : PostMod) (w : Word) (s : State) : State :=
  let o := readInd n m s
  { o.2 with y := o.1, x := w }

/-- rJ points into the Y space and rI into the X space (20_memory R81, R101). -/
def pairInSpaces (j : Fin 2) (i : Fin 4) (s : State) : Bool :=
  decide (0xFC00 ≤ (s.addr (regJ j)).toNat ∧ (s.addr (regI i)).toNat ≤ 0xFBFF)

/-- The load of the form `(rJ)jj, (rI)ii`: the Y word -> y, the X word -> x (41_multiply R201,
20_memory R101). -/
def loadPair (j : Fin 2) (jj : PostMod) (i : Fin 4) (k : PostMod) (s : State) : Out :=
  refuseIf (!pairInSpaces j i s) .pairOutsideSpaces <|
    let oy := dataRead (s.addr (regJ j)) s
    let ox := dataRead (s.addr (regI i)) oy.2
    let t := postMod (regI i) k (postMod (regJ j) jj ox.2)
    .next { t with y := oy.1, x := ox.1 }

/-- A write of an ALU output into aX with all the flags of an addition or subtraction. -/
def settle (x : Acc) (o : AluOut) (s : State) : State :=
  (s.setAcc x o.out).setFlags (setArith s.st0 o)

/-- mac, msu, sqra, sqrs: the old product is accumulated by op, then the load and the new product
(41_multiply R204, R205, R208 to R210). -/
def accumulate (op : Accum → Accum → AluOut) (x : Acc) (s : State) (load : Out) : Out :=
  andThen (shiftedP s) fun q => andThen load fun t => .next (settle x (op (s.acc x) q) (multiply t))

/-- The 16 low bits of aX as a program address, where no saturation could change them (42_move R245,
44_branch R286, 92 D46). -/
def accAddress (x : Acc) (s : State) : Res Word :=
  refuseIf (s.limits x) .accumulatorTooWide (.next ((s.acc x).extractLsb' 0 16))

end Sys2Proof.Machine
end

