-- ==== Sys2Proof/Machine/Alu.lean ====
section
/-! DEFINITION. add, sub, or, xor, and, cmp, addl, subl, addh, subh (40_alu R150 to R164): what each does
to the accumulator and the flags, then one meaning for each operand form. -/

namespace Sys2Proof.Machine

/-- aX + b -> aX (40_alu R155). -/
def addTo (x : Acc) (b : Accum) (s : State) : State := settle x (add36 (s.acc x) b) s

/-- aX - b -> aX (40_alu R156). -/
def subFrom (x : Acc) (b : Accum) (s : State) : State := settle x (sub36 (s.acc x) b) s

/-- aX - b, flags only (40_alu R157). -/
def compareWith (x : Acc) (b : Accum) (s : State) : State :=
  s.setFlags (setArith s.st0 (sub36 (s.acc x) b))

/-- A logic result: written to aX, Z M N E from all 36 bits (40_alu R153, R158 to R160). -/
def orInto (x : Acc) (b : Accum) (s : State) : State := moveAcc x (s.acc x ||| b) s

def xorInto (x : Acc) (b : Accum) (s : State) : State := moveAcc x (s.acc x ^^^ b) s

/-- `and` with a zero-extended 16-bit operand clears bits 35:16 (40_alu R159). -/
def andInto (x : Acc) (b : Accum) (s : State) : State := moveAcc x (s.acc x &&& b) s

/-- `and #imm8`: the flags see bits 7:0 alone, bits 15:8 of aX stay, bits 35:16 are cleared (40_alu R159). -/
def andShort (x : Acc) (imm : BitVec 8) (s : State) : State :=
  let low : Accum := ((s.acc x).extractLsb' 0 8 &&& imm).setWidth 36
  let kept : Accum := ((s.acc x).extractLsb' 8 8).setWidth 36 <<< 8
  (s.setAcc x (kept ||| low)).setFlags (setZMNE s.st0 low)

/-- The operand of addh and subh: sign-extended, then shifted left by 16 (40_alu R151; 70_reset R390,
notes (c), (d)). -/
def highOperand (v : Word) : Accum := (v.signExtend 36) <<< 16

/-- `add reg, aX` (R155). -/
def execAddReg (c : Reg) (x : Acc) (s : State) : Out :=
  andThen (aluReg x c s) fun o => .next (addTo x o.1.signed o.2)

/-- `add (rN)mm, aX` (R155). -/
def execAddInd (n : Fin 6) (m : PostMod) (x : Acc) (s : State) : Out :=
  let o := readInd n m s
  .next (addTo x (Src.w16 o.1).signed o.2)

/-- `add a8, aX` (R155). -/
def execAddDir (a : BitVec 8) (x : Acc) (s : State) : Out :=
  let o := readDir a s
  .next (addTo x (Src.w16 o.1).signed o.2)

/-- `add ##imm16, aX` (R155). -/
def execAddLong (w : Word) (x : Acc) (s : State) : Out := .next (addTo x (Src.w16 w).signed s)

/-- `add #imm8, aX` (R155). -/
def execAddImm (imm : BitVec 8) (x : Acc) (s : State) : Out := .next (addTo x (imm.setWidth 36) s)

/-- `sub reg, aX` (R156). -/
def execSubReg (c : Reg) (x : Acc) (s : State) : Out :=
  andThen (aluReg x c s) fun o => .next (subFrom x o.1.signed o.2)

/-- `sub (rN)mm, aX` (R156). -/
def execSubInd (n : Fin 6) (m : PostMod) (x : Acc) (s : State) : Out :=
  let o := readInd n m s
  .next (subFrom x (Src.w16 o.1).signed o.2)

/-- `sub a8, aX` (R156). -/
def execSubDir (a : BitVec 8) (x : Acc) (s : State) : Out :=
  let o := readDir a s
  .next (subFrom x (Src.w16 o.1).signed o.2)

/-- `sub ##imm16, aX` (R156). -/
def execSubLong (w : Word) (x : Acc) (s : State) : Out := .next (subFrom x (Src.w16 w).signed s)

/-- `sub #imm8, aX` (R156). -/
def execSubImm (imm : BitVec 8) (x : Acc) (s : State) : Out := .next (subFrom x (imm.setWidth 36) s)

/-- `or reg, aX` (R158). -/
def execOrReg (c : Reg) (x : Acc) (s : State) : Out :=
  andThen (aluReg x c s) fun o => .next (orInto x o.1.unsigned o.2)

/-- `or (rN)mm, aX` (R158). -/
def execOrInd (n : Fin 6) (m : PostMod) (x : Acc) (s : State) : Out :=
  let o := readInd n m s
  .next (orInto x (Src.w16 o.1).unsigned o.2)

/-- `or a8, aX` (R158). -/
def execOrDir (a : BitVec 8) (x : Acc) (s : State) : Out :=
  let o := readDir a s
  .next (orInto x (Src.w16 o.1).unsigned o.2)

/-- `or ##imm16, aX` (R158), a form whose cell the table of 70_reset R390 omits (note (a)). -/
def execOrLong (w : Word) (x : Acc) (s : State) : Out := .next (orInto x (Src.w16 w).unsigned s)

/-- `or #imm8, aX` (R158). -/
def execOrImm (imm : BitVec 8) (x : Acc) (s : State) : Out := .next (orInto x (imm.setWidth 36) s)

/-- `xor reg, aX` (R160). -/
def execXorReg (c : Reg) (x : Acc) (s : State) : Out :=
  andThen (aluReg x c s) fun o => .next (xorInto x o.1.unsigned o.2)

/-- `xor (rN)mm, aX` (R160). -/
def execXorInd (n : Fin 6) (m : PostMod) (x : Acc) (s : State) : Out :=
  let o := readInd n m s
  .next (xorInto x (Src.w16 o.1).unsigned o.2)

/-- `xor a8, aX` (R160). -/
def execXorDir (a : BitVec 8) (x : Acc) (s : State) : Out :=
  let o := readDir a s
  .next (xorInto x (Src.w16 o.1).unsigned o.2)

/-- `xor ##imm16, aX` (R160). -/
def execXorLong (w : Word) (x : Acc) (s : State) : Out := .next (xorInto x (Src.w16 w).unsigned s)

/-- `xor #imm8, aX` (R160). -/
def execXorImm (imm : BitVec 8) (x : Acc) (s : State) : Out := .next (xorInto x (imm.setWidth 36) s)

/-- `and reg, aX` (R159). -/
def execAndReg (c : Reg) (x : Acc) (s : State) : Out :=
  andThen (aluReg x c s) fun o => .next (andInto x o.1.unsigned o.2)

/-- `and (rN)mm, aX` (R159). -/
def execAndInd (n : Fin 6) (m : PostMod) (x : Acc) (s : State) : Out :=
  let o := readInd n m s
  .next (andInto x (Src.w16 o.1).unsigned o.2)

/-- `and a8, aX` (R159). -/
def execAndDir (a : BitVec 8) (x : Acc) (s : State) : Out :=
  let o := readDir a s
  .next (andInto x (Src.w16 o.1).unsigned o.2)

/-- `and ##imm16, aX` (R159). -/
def execAndLong (w : Word) (x : Acc) (s : State) : Out := .next (andInto x (Src.w16 w).unsigned s)

/-- `and #imm8, aX` (R159). -/
def execAndImm (imm : BitVec 8) (x : Acc) (s : State) : Out := .next (andShort x imm s)

/-- `cmp reg, aX` (R157). -/
def execCmpReg (c : Reg) (x : Acc) (s : State) : Out :=
  andThen (aluReg x c s) fun o => .next (compareWith x o.1.signed o.2)

/-- `cmp (rN)mm, aX` (R157). -/
def execCmpInd (n : Fin 6) (m : PostMod) (x : Acc) (s : State) : Out :=
  let o := readInd n m s
  .next (compareWith x (Src.w16 o.1).signed o.2)

/-- `cmp a8, aX` (R157). -/
def execCmpDir (a : BitVec 8) (x : Acc) (s : State) : Out :=
  let o := readDir a s
  .next (compareWith x (Src.w16 o.1).signed o.2)

/-- `cmp ##imm16, aX` (R157). -/
def execCmpLong (w : Word) (x : Acc) (s : State) : Out := .next (compareWith x (Src.w16 w).signed s)

/-- `cmp #imm8, aX` (R157). -/
def execCmpImm (imm : BitVec 8) (x : Acc) (s : State) : Out := .next (compareWith x (imm.setWidth 36) s)

/-- `addl reg, aX` (R161). -/
def execAddlReg (c : Reg) (x : Acc) (s : State) : Out :=
  andThen (wordReg x c s) fun o => .next (addTo x (o.1.setWidth 36) o.2)

/-- `addl (rN)mm, aX` (R161). -/
def execAddlInd (n : Fin 6) (m : PostMod) (x : Acc) (s : State) : Out :=
  let o := readInd n m s
  .next (addTo x (o.1.setWidth 36) o.2)

/-- `addl a8, aX` (R161). -/
def execAddlDir (a : BitVec 8) (x : Acc) (s : State) : Out :=
  let o := readDir a s
  .next (addTo x (o.1.setWidth 36) o.2)

/-- `subl reg, aX` (R162). -/
def execSublReg (c : Reg) (x : Acc) (s : State) : Out :=
  andThen (wordReg x c s) fun o => .next (subFrom x (o.1.setWidth 36) o.2)

/-- `subl (rN)mm, aX` (R162). -/
def execSublInd (n : Fin 6) (m : PostMod) (x : Acc) (s : State) : Out :=
  let o := readInd n m s
  .next (subFrom x (o.1.setWidth 36) o.2)

/-- `subl a8, aX` (R162). -/
def execSublDir (a : BitVec 8) (x : Acc) (s : State) : Out :=
  let o := readDir a s
  .next (subFrom x (o.1.setWidth 36) o.2)

/-- `addh reg, aX` (R163). -/
def execAddhReg (c : Reg) (x : Acc) (s : State) : Out :=
  andThen (wordReg x c s) fun o => .next (addTo x (highOperand o.1) o.2)

/-- `addh (rN)mm, aX` (R163). -/
def execAddhInd (n : Fin 6) (m : PostMod) (x : Acc) (s : State) : Out :=
  let o := readInd n m s
  .next (addTo x (highOperand o.1) o.2)

/-- `addh a8, aX` (R163). -/
def execAddhDir (a : BitVec 8) (x : Acc) (s : State) : Out :=
  let o := readDir a s
  .next (addTo x (highOperand o.1) o.2)

/-- `subh reg, aX` (R164). -/
def execSubhReg (c : Reg) (x : Acc) (s : State) : Out :=
  andThen (wordReg x c s) fun o => .next (subFrom x (highOperand o.1) o.2)

/-- `subh (rN)mm, aX` (R164). -/
def execSubhInd (n : Fin 6) (m : PostMod) (x : Acc) (s : State) : Out :=
  let o := readInd n m s
  .next (subFrom x (highOperand o.1) o.2)

/-- `subh a8, aX` (R164). -/
def execSubhDir (a : BitVec 8) (x : Acc) (s : State) : Out :=
  let o := readDir a s
  .next (subFrom x (highOperand o.1) o.2)

end Sys2Proof.Machine
end

