-- ==== Sys2Proof/Machine/Branch.lean ====
section
/-! DEFINITION. br, brr, call, callr, calla, ret, reti (44_branch R280 to R288). A false condition leaves
the state as it is: pc is already past the instruction (R280, R281). -/

namespace Sys2Proof.Machine

/-- The target of brr and callr: pc, which is I + 1, plus the signed offset (44_branch R283, R285). -/
def relative (off : BitVec 7) (s : State) : Word := s.pc + off.signExtend 16

/-- `br addr16 [, cond]` (R282). -/
def execBr (addr : Word) (cc : Cond) (s : State) : Out := if condTrue cc s then jumpTo addr s else .next s

/-- `brr $off7 [, cond]` (R283). -/
def execBrr (off : BitVec 7) (cc : Cond) (s : State) : Out :=
  if condTrue cc s then jumpTo (relative off s) s else .next s

/-- `call addr16 [, cond]` (R284). -/
def execCall (addr : Word) (cc : Cond) (s : State) : Out := if condTrue cc s then callTo addr s else .next s

/-- `callr $off7 [, cond]` (R285). -/
def execCallr (off : BitVec 7) (cc : Cond) (s : State) : Out :=
  if condTrue cc s then callTo (relative off s) s else .next s

/-- `calla aXl` (R286). -/
def execCalla (x : Acc) (s : State) : Out := andThen (accAddress x s) fun a => callTo a s

/-- `ret [cond]` (R287). -/
def execRet (cc : Cond) (s : State) : Out := if condTrue cc s then returnTo s else .next s

/-- `reti` (R288). -/
def execReti (s : State) : Out := returnFromException s

end Sys2Proof.Machine
end

