-- ==== Sys2Proof/Machine/Control.lean ====
section
/-! DEFINITION. nop, modr, eint, dint, trap, lpg (45_control R300 to R305), and the words marked
"unused". -/

namespace Sys2Proof.Machine

/-- `nop` (R300). -/
def execNop (s : State) : Out := .next s

/-- `modr (rN)mm` (R301): R alone, as its row of the table of 70_reset R390 says. -/
def execModr (n : Fin 6) (m : PostMod) (s : State) : Out :=
  let o := modified n m s
  .next ((s.setAddr n o.1).setFlags { s.st0 with r := rFlag o })

/-- `eint` (R302). -/
def execEint (s : State) : Out := .next (s.setFlags { s.st0 with ie := true })

/-- `dint` (R303). -/
def execDint (s : State) : Out := .next (s.setFlags { s.st0 with ie := false })

/-- `trap` (R304). -/
def execTrap (s : State) : Out := refuseIf (s.inTrap || s.inBpi) .trapInRoutine (enterTrap s)

/-- `lpg #imm8` (R305). -/
def execLpg (imm : BitVec 8) (s : State) : Out := .next { s with st1 := { s.st1 with page := imm } }

/-- A word marked "unused": the model must not execute it (30_encoding R127, 92 D9). -/
def execUnused (_w : Word) (_s : State) : Out := .refused .unusedOpcode

end Sys2Proof.Machine
end

