-- ==== Sys2Proof/Machine/Loop.lean ====
section
/-! DEFINITION. rep and bkrep (43_loop R260 to R265), and the two units they program (R262, R268). -/

namespace Sys2Proof.Machine

/-- What rep does with its count (43_loop R260). -/
def armRepeat (k : BitVec 8) (s : State) : State := { s with repCnt := k, repArmed := true }

/-- What bkrep does once lc is loaded (43_loop R265). -/
def startBlock (last : Word) (s : State) : State :=
  { s with bkStart := s.pc, bkEnd := last, st2 := { s.st2 with lp := true }, lpLate := 0 }

/-- bkrep #imm8 loads lc[7:0]; lc[15:8] has no value (43_loop R265, 93 U4). -/
def loadShortCount (imm : BitVec 8) (s : State) : State :=
  let o := s.free
  { o.2 with lc := o.1.extractLsb' 0 8 ++ imm }

/-- `rep #imm8` (R260). -/
def execRepImm (imm : BitVec 8) (s : State) : Out := .next (armRepeat imm s)

/-- `rep reg` (R260). -/
def execRepReg (c : Reg) (s : State) : Out :=
  andThen (regRead false c s) fun o => .next (armRepeat (o.1.extractLsb' 0 8) o.2)

/-- `bkrep #imm8, addr16` (R265). -/
def execBkrepImm (imm : BitVec 8) (last : Word) (s : State) : Out :=
  refuseIf s.st2.lp .bkrepNested (.next (startBlock last (loadShortCount imm s)))

/-- `bkrep reg, addr16` (R265). -/
def execBkrepReg (c : Reg) (last : Word) (s : State) : Out :=
  refuseIf (c == .pc) .bkrepCountPc <| refuseIf (!c.isWord) .notWordRegister <|
    refuseIf s.st2.lp .bkrepNested <|
      andThen (regRead false c s) fun o => .next (startBlock last { o.2 with lc := o.1 })

/-- `RepUnit(X, I)`: isRep says that X is rep, start is I; true: execute X again (43_loop R262). -/
def repUnit (isRep : Bool) (start : Word) (s : State) : Bool × State :=
  if isRep then (false, s)
  else if s.repArmed && s.repCnt == 0 then (false, { s with repArmed := false })
  else if s.repArmed || s.repActive then
    if s.repCnt == 0 then (false, { s with repArmed := false, repActive := false })
    else (true, { s with repArmed := false, repActive := true, repCnt := s.repCnt - 1, pc := start })
  else (false, s)

/-- lc with its low 8 bits replaced (43_loop R268). -/
def lcWithLow (lc : Word) (k : BitVec 8) : Word := lc.extractLsb' 8 8 ++ k

/-- `BlockUnit(last)` (43_loop R268). -/
def blockUnit (last : Word) (s : State) : State :=
  let t := { s with lpLate := s.lpLate - 1 }
  if s.loopLive && last == s.bkEnd then
    if s.lc.extractLsb' 0 8 = 0 then
      { t with lc := lcWithLow s.lc 0xFF, st2 := { s.st2 with lp := false }, lpLate := 0 }
    else { t with lc := lcWithLow s.lc (s.lc.extractLsb' 0 8 - 1), pc := s.bkStart }
  else t

end Sys2Proof.Machine
end

