-- ==== Sys2Proof/Machine/Moda.lean ====
section
/-! DEFINITION. The thirteen functions of moda, norm and divs (40_alu R170 to R188). -/

namespace Sys2Proof.Machine

/-- "The accumulator and the flags are modified according to the function field only when the
condition is met" (40_alu R170). -/
def whenCond (cc : Cond) (s : State) (k : Out) : Out := if condTrue cc s then k else .next s

/-- A shift's result: aX, Z M N E, V, C (40_alu R171 to R176). -/
def shiftAcc (x : Acc) (out : Accum) (v c : Bool) (s : State) : State :=
  (s.setAcc x out).setFlags (setShift s.st0 out v c)

/-- A rotation's result: aX, Z M N E, C (40_alu R177, R178). -/
def rotateAcc (x : Acc) (out : Accum) (c : Bool) (s : State) : State :=
  (s.setAcc x out).setFlags (setRotate s.st0 out c)

/-- 0 0000 8000h, the constant of rnd, pacr and clrr (40_alu R183 to R185). -/
def half : Accum := 0x8000

/-- `shr aX [, cond]` (R171). -/
def execShr (x : Acc) (cc : Cond) (s : State) : Out :=
  whenCond cc s <| .next (shiftAcc x ((s.acc x).sshiftRight 1) false ((s.acc x).getLsbD 0) s)

/-- `shl aX [, cond]` (R174). -/
def execShl (x : Acc) (cc : Cond) (s : State) : Out :=
  whenCond cc s <| .next (shiftAcc x ((s.acc x) <<< 1) (!fitsIn (s.acc x) 35) ((s.acc x).getLsbD 35) s)

/-- `shr4 aX [, cond]` (R175). -/
def execShr4 (x : Acc) (cc : Cond) (s : State) : Out :=
  whenCond cc s <| .next (shiftAcc x ((s.acc x).sshiftRight 4) false ((s.acc x).getLsbD 3) s)

/-- `shl4 aX [, cond]` (R176). -/
def execShl4 (x : Acc) (cc : Cond) (s : State) : Out :=
  whenCond cc s <|
    .next (shiftAcc x ((s.acc x) <<< 4) (!fitsIn (s.acc x) s.params.shl4VBits) ((s.acc x).getLsbD 32) s)

/-- `ror aX [, cond]` (R177). -/
def execRor (x : Acc) (cc : Cond) (s : State) : Out :=
  whenCond cc s <| .next (rotateAcc x (BitVec.ofBool s.st0.c ++ (s.acc x).extractLsb' 1 35) ((s.acc x).getLsbD 0) s)

/-- `rol aX [, cond]` (R178). -/
def execRol (x : Acc) (cc : Cond) (s : State) : Out :=
  whenCond cc s <| .next (rotateAcc x ((s.acc x).extractLsb' 0 35 ++ BitVec.ofBool s.st0.c) ((s.acc x).getLsbD 35) s)

/-- `not aX [, cond]` (R179; 70_reset R390, note (e)). -/
def execNot (x : Acc) (cc : Cond) (s : State) : Out :=
  whenCond cc s <| .next (moveAcc x (~~~(s.acc x)) s)

/-- `neg aX [, cond]` (R180). -/
def execNeg (x : Acc) (cc : Cond) (s : State) : Out :=
  whenCond cc s <| .next (settle x (sub36 0 (s.acc x)) s)

/-- `clr aX [, cond]` (R181). -/
def execClr (x : Acc) (cc : Cond) (s : State) : Out :=
  whenCond cc s <| .next (moveAcc x 0 s)

/-- `copy aX [, cond]` (R182; 70_reset R390, note (g)). -/
def execCopy (x : Acc) (cc : Cond) (s : State) : Out :=
  whenCond cc s <| .next (moveAcc x (s.acc x.other) s)

/-- `rnd aX [, cond]` (R183). -/
def execRnd (x : Acc) (cc : Cond) (s : State) : Out :=
  whenCond cc s <| .next (settle x (add36 (s.acc x) half) s)

/-- `pacr aX [, cond]` (R184). -/
def execPacr (x : Acc) (cc : Cond) (s : State) : Out :=
  whenCond cc s <| andThen (shiftedP s) fun q => .next (settle x (add36 q half) s)

/-- `clrr aX [, cond]` (R185; 70_reset R390, note (g)). -/
def execClrr (x : Acc) (cc : Cond) (s : State) : Out :=
  whenCond cc s <| .next (moveAcc x half s)

/-- The shift of norm: aX doubled, the flags as at SHL with V latched into L, rN modified, R from the
modification (40_alu R173, R186). -/
def normalize (x : Acc) (n : Fin 6) (m : PostMod) (s : State) : State :=
  let out := s.acc x <<< 1
  let o : AluOut := { out := out, c := (s.acc x).getLsbD 35, v := !fitsIn (s.acc x) 35 }
  let f := setArith s.st0 o
  (postMod n m (s.setAcc x out)).setFlags { f with r := rFlag (modified n m s) }

/-- `norm aX, (rN)mm` (R186): nothing, rN included, where N = 1, as the page says against the table of 70_reset R390
(note (h), 90 C10). -/
def execNorm (x : Acc) (n : Fin 6) (m : PostMod) (s : State) : Out := .next (if s.st0.n then s else normalize x n m s)

/-- Z M N E after divs have no value (40_alu R188, 93 U7); no other flag is in its row of 70_reset R390 (note (k)). -/
def openZMNE (o : Word × State) : State :=
  o.2.setFlags
    { o.2.st0 with z := o.1.getLsbD 0, m := o.1.getLsbD 1, n := o.1.getLsbD 2, e := o.1.getLsbD 3 }

/-- One step of the division by d, a divisor already read (40_alu R188). -/
def divideStep (x : Acc) (d : Word) (s : State) : State :=
  let out := s.acc x - ((d.setWidth 36) <<< 15)
  let next := if out.getLsbD 35 then s.acc x <<< 1 else (out <<< 1) ||| 1
  openZMNE (s.setAcc x next).free

/-- `divs a8, aX` (R188). -/
def execDivs (a : BitVec 8) (x : Acc) (s : State) : Out :=
  let o := readDir a s
  refuseIf (o.1.getLsbD 15) .divisorNotPositive (.next (divideStep x o.1 o.2))

end Sys2Proof.Machine
end

