-- ==== Sys2Proof/Machine/Move.lean ====
section
/-! DEFINITION. mov and movp (42_move R220 to R246). -/

namespace Sys2Proof.Machine

/-- Note [5] of `mov`: an ext register moves to and from on-core memory only (42_move R231). -/
def extOffCore (k : Params) (c : Reg) (a : Word) : Bool :=
  match c with
  | .ext _ => !onCore k a
  | .acc _ | .acch _ | .accl _ | .r _ | .x | .y | .p | .pc | .lc | .tos | .st0 | .st1 | .st2 | .cfgi | .cfgj =>
    false

/-- `mov sreg, dreg` (R223, R224, R225). -/
def execMovRegReg (src : Reg) (dst : Reg) (s : State) : Out :=
  refuseIf (src == dst) .movSameRegister <|
    match src with
    | .acc a =>
      match dst with
      | .acc b => .next (moveAcc b (s.acc a) s)
      | .acch _ | .accl _ | .r _ | .x | .y | .p | .pc | .lc | .tos | .st0 | .st1 | .st2 | .cfgi | .cfgj | .ext _ =>
        .refused .movAccumulatorSource
    | .p =>
      match dst with
      | .acc b => andThen (shiftedP s) fun q => .next (moveAcc b q s)
      | .acch _ | .accl _ | .r _ | .x | .y | .p | .pc | .lc | .tos | .st0 | .st1 | .st2 | .cfgi | .cfgj | .ext _ =>
        .refused .movProductSource
    | .acch _ | .accl _ | .r _ | .x | .y | .pc | .lc | .tos | .st0 | .st1 | .st2 | .cfgi | .cfgj | .ext _ =>
      andThen (regRead true src s) fun o => regWrite dst o.1 o.2

/-- `mov reg, (rN)mm` (R227). The store is announced before the read, since what lc and LP read as depends on the next
instruction, over which it may be (43_loop R270, R271, log 19). -/
def execMovRegInd (c : Reg) (n : Fin 6) (m : PostMod) (s : State) : Out :=
  refuseIf (!c.isWord) .notWordRegister <| refuseIf (!postModAllowed c n m) .movPostModified <|
    refuseIf (extOffCore s.params c (s.addr n)) .movExtOffCore <|
      andThen (regRead true c (s.announced (s.addr n))) fun o => .next (postMod n m (dataWrite (s.addr n) o.1 o.2))

/-- `mov (rN)mm, reg` (R228). -/
def execMovIndReg (n : Fin 6) (m : PostMod) (c : Reg) (s : State) : Out :=
  refuseIf (!postModAllowed c n m) .movPostModified <|
    refuseIf (extOffCore s.params c (s.addr n)) .movExtOffCore <|
      let o := readInd n m s
      regWrite c o.1 o.2

/-- `mov ##imm16, reg` (R229). -/
def execMovLongReg (w : Word) (c : Reg) (s : State) : Out := regWrite c w s

/-- A store of aXh or aXl to a direct address (42_move R230). -/
def storeHalf (v : Word) (a : BitVec 8) (s : State) : State := dataWrite (direct a s) v s

/-- `mov aXl, a8` (R230). -/
def execMovAcclDir (x : Acc) (a : BitVec 8) (s : State) : Out := .next (storeHalf (satLow x s) a (noteLimit true x s))

/-- `mov aXh, a8` (R230). -/
def execMovAcchDir (x : Acc) (a : BitVec 8) (s : State) : Out :=
  .next (storeHalf (satHigh x s) a (noteLimit true x s))

/-- `mov Rn*, a8` (R232). -/
def execMovRnDir (q : RnStar) (a : BitVec 8) (s : State) : Out := .next (dataWrite (direct a s) (readRnStar q s) s)

/-- `mov a8, Rn*` (R233). -/
def execMovDirRn (a : BitVec 8) (q : RnStar) (s : State) : Out :=
  refuseIf (q == .x) .movDirectToX <|
    let o := readDir a s
    .next (writeRnStar q o.1 o.2)

/-- `mov a8, aX` (R234). -/
def execMovDirAcc (a : BitVec 8) (x : Acc) (s : State) : Out :=
  let o := readDir a s
  .next (moveAcc x (wideOfAcc o.1) o.2)

/-- `mov a8, aXh` (R235). -/
def execMovDirAcch (a : BitVec 8) (x : Acc) (s : State) : Out :=
  let o := readDir a s
  .next (moveAcc x (wideOfHigh o.1) o.2)

/-- `mov a8, aXl` (R236). -/
def execMovDirAccl (a : BitVec 8) (x : Acc) (s : State) : Out :=
  let o := readDir a s
  .next (moveAcc x (wideOfLow o.1) o.2)

/-- The value of `mov direct, aXh, eu`: the extension of v stays, the low part is cleared (42_move R237). -/
def keepExtension (v : Accum) (d : Word) : Accum := v.extractLsb' 32 4 ++ d ++ (0 : Word)

/-- `mov a8, aXh, eu` (R237). -/
def execMovDirAcchEu (a : BitVec 8) (x : Acc) (s : State) : Out :=
  let o := readDir a s
  .next ((o.2.setAcc x (keepExtension (o.2.acc x) o.1)).setFlags (setZMNE o.2.st0 (wideOfHigh o.1)))

/-- `mov #imm8, aXl` (R238). -/
def execMovImmAccl (imm : BitVec 8) (x : Acc) (s : State) : Out := .next (moveAcc x (imm.setWidth 36) s)

/-- `mov #simm8, aXh` (R239). -/
def execMovSimmAcch (imm : BitVec 8) (x : Acc) (s : State) : Out :=
  .next (moveAcc x (wideOfHigh (imm.signExtend 16)) s)

/-- `mov #simm8, Rn*` (R240). -/
def execMovSimmRn (imm : BitVec 8) (q : RnStar) (s : State) : Out := .next (writeRnStar q (imm.signExtend 16) s)

/-- `movp (aXl), reg` (R245). -/
def execMovpAccReg (x : Acc) (c : Reg) (s : State) : Out :=
  andThen (accAddress x s) fun a =>
    let o := progRead a s
    regWrite c o.1 o.2

/-- `movp (rN)mm, (rI)ii` (R246). -/
def execMovpIndInd (n : Fin 6) (m : PostMod) (i : Fin 4) (k : PostMod) (s : State) : Out :=
  refuseIf (n == regI i) .movpSameRegister <|
    let o := progRead (s.addr n) s
    .next (postMod (regI i) k (postMod n m (dataWrite (s.addr (regI i)) o.1 o.2)))

end Sys2Proof.Machine
end

