-- ==== Sys2Proof/Machine/Multiply.lean ====
section
/-! DEFINITION. mpy, mac, msu, mpys, sqr, sqra, sqrs (41_multiply R200 to R212). -/

namespace Sys2Proof.Machine

/-- `mpy y, reg` (R203). -/
def execMpyReg (c : Reg) (s : State) : Out :=
  andThen (regRead false c s) fun o => .next (multiply (loadX o))

/-- `mpy y, (rN)mm` (R203). -/
def execMpyInd (n : Fin 6) (m : PostMod) (s : State) : Out := .next (multiply (loadX (readInd n m s)))

/-- `mpy y, a8` (R203). -/
def execMpyDir (a : BitVec 8) (s : State) : Out := .next (multiply (loadX (readDir a s)))

/-- `mpy (rJ)jj, (rI)ii` (R203). -/
def execMpyPair (j : Fin 2) (jj : PostMod) (i : Fin 4) (k : PostMod) (s : State) : Out :=
  andThen (loadPair j jj i k s) fun t => .next (multiply t)

/-- `mpy (rN)mm, ##imm16` (R203). -/
def execMpyIndLong (n : Fin 6) (m : PostMod) (w : Word) (s : State) : Out := .next (multiply (loadIndLong n m w s))

/-- `mac y, reg, aX` (R204). -/
def execMacReg (c : Reg) (x : Acc) (s : State) : Out :=
  refuseIf (c.partOf x) .sameAccumulator <| refuseIf (!c.isWord) .notWordRegister <|
    accumulate add36 x s (andThen (regRead false c s) fun o => .next (loadX o))

/-- `mac y, (rN)mm, aX` (R204). -/
def execMacInd (n : Fin 6) (m : PostMod) (x : Acc) (s : State) : Out :=
  accumulate add36 x s (.next (loadX (readInd n m s)))

/-- `mac y, a8, aX` (R204). -/
def execMacDir (a : BitVec 8) (x : Acc) (s : State) : Out := accumulate add36 x s (.next (loadX (readDir a s)))

/-- `mac (rJ)jj, (rI)ii, aX` (R204). -/
def execMacPair (j : Fin 2) (jj : PostMod) (i : Fin 4) (k : PostMod) (x : Acc) (s : State) : Out :=
  accumulate add36 x s (loadPair j jj i k s)

/-- `mac (rN)mm, ##imm16, aX` (R204). -/
def execMacIndLong (n : Fin 6) (m : PostMod) (w : Word) (x : Acc) (s : State) : Out :=
  accumulate add36 x s (.next (loadIndLong n m w s))

/-- `msu y, reg, aX` (R205). -/
def execMsuReg (c : Reg) (x : Acc) (s : State) : Out :=
  refuseIf (c.partOf x) .sameAccumulator <| refuseIf (!c.isWord) .notWordRegister <|
    accumulate sub36 x s (andThen (regRead false c s) fun o => .next (loadX o))

/-- `msu y, (rN)mm, aX` (R205). -/
def execMsuInd (n : Fin 6) (m : PostMod) (x : Acc) (s : State) : Out :=
  accumulate sub36 x s (.next (loadX (readInd n m s)))

/-- `msu y, a8, aX` (R205). -/
def execMsuDir (a : BitVec 8) (x : Acc) (s : State) : Out := accumulate sub36 x s (.next (loadX (readDir a s)))

/-- `msu (rJ)jj, (rI)ii, aX` (R205). -/
def execMsuPair (j : Fin 2) (jj : PostMod) (i : Fin 4) (k : PostMod) (x : Acc) (s : State) : Out :=
  accumulate sub36 x s (loadPair j jj i k s)

/-- `msu (rN)mm, ##imm16, aX` (R205). -/
def execMsuIndLong (n : Fin 6) (m : PostMod) (w : Word) (x : Acc) (s : State) : Out :=
  accumulate sub36 x s (.next (loadIndLong n m w s))

/-- `mpys y, #simm8` (R206). -/
def execMpys (imm : BitVec 8) (s : State) : Out := .next (multiply { s with x := imm.signExtend 16 })

/-- `sqr reg` (R207). -/
def execSqrReg (c : Reg) (s : State) : Out :=
  andThen (regRead false c s) fun o => .next (multiply (loadXY o))

/-- `sqr (rN)mm` (R207). -/
def execSqrInd (n : Fin 6) (m : PostMod) (s : State) : Out := .next (multiply (loadXY (readInd n m s)))

/-- `sqr a8` (R207). -/
def execSqrDir (a : BitVec 8) (s : State) : Out := .next (multiply (loadXY (readDir a s)))

/-- `sqra reg, aX` (R208). -/
def execSqraReg (c : Reg) (x : Acc) (s : State) : Out :=
  refuseIf (c.partOf x) .sameAccumulator <| refuseIf (!c.isWord) .notWordRegister <|
    accumulate add36 x s (andThen (regRead false c s) fun o => .next (loadXY o))

/-- `sqra (rN)mm, aX` (R208). -/
def execSqraInd (n : Fin 6) (m : PostMod) (x : Acc) (s : State) : Out :=
  accumulate add36 x s (.next (loadXY (readInd n m s)))

/-- `sqra a8, aX` (R208). -/
def execSqraDir (a : BitVec 8) (x : Acc) (s : State) : Out := accumulate add36 x s (.next (loadXY (readDir a s)))

/-- `sqrs reg, aX` (R209). -/
def execSqrsReg (c : Reg) (x : Acc) (s : State) : Out :=
  refuseIf (c.partOf x) .sameAccumulator <| refuseIf (!c.isWord) .notWordRegister <|
    accumulate sub36 x s (andThen (regRead false c s) fun o => .next (loadXY o))

/-- `sqrs (rN)mm, aX` (R209). -/
def execSqrsInd (n : Fin 6) (m : PostMod) (x : Acc) (s : State) : Out :=
  accumulate sub36 x s (.next (loadXY (readInd n m s)))

/-- `sqrs a8, aX` (R209). -/
def execSqrsDir (a : BitVec 8) (x : Acc) (s : State) : Out := accumulate sub36 x s (.next (loadXY (readDir a s)))

end Sys2Proof.Machine
end

