-- ==== Sys2Proof/Machine/Dispatch.lean ====
section
/-! DEFINITION. One arm for each instruction. -/

namespace Sys2Proof.Machine

def exec (i : Instr) (s : State) : Host.Outcome State Fault Refusal :=
  match i with
  | .nop => Sys2Proof.Machine.execNop s
  | .trap => Sys2Proof.Machine.execTrap s
  | .eint => Sys2Proof.Machine.execEint s
  | .dint => Sys2Proof.Machine.execDint s
  | .lpg imm => Sys2Proof.Machine.execLpg imm s
  | .norm x n m => Sys2Proof.Machine.execNorm x n m s
  | .modr n m => Sys2Proof.Machine.execModr n m s
  | .repImm imm => Sys2Proof.Machine.execRepImm imm s
  | .repReg c => Sys2Proof.Machine.execRepReg c s
  | .bkrepImm imm last => Sys2Proof.Machine.execBkrepImm imm last s
  | .bkrepReg c last => Sys2Proof.Machine.execBkrepReg c last s
  | .shr x cc => Sys2Proof.Machine.execShr x cc s
  | .shl x cc => Sys2Proof.Machine.execShl x cc s
  | .shr4 x cc => Sys2Proof.Machine.execShr4 x cc s
  | .shl4 x cc => Sys2Proof.Machine.execShl4 x cc s
  | .ror x cc => Sys2Proof.Machine.execRor x cc s
  | .rol x cc => Sys2Proof.Machine.execRol x cc s
  | .not x cc => Sys2Proof.Machine.execNot x cc s
  | .neg x cc => Sys2Proof.Machine.execNeg x cc s
  | .clr x cc => Sys2Proof.Machine.execClr x cc s
  | .copy x cc => Sys2Proof.Machine.execCopy x cc s
  | .rnd x cc => Sys2Proof.Machine.execRnd x cc s
  | .pacr x cc => Sys2Proof.Machine.execPacr x cc s
  | .clrr x cc => Sys2Proof.Machine.execClrr x cc s
  | .callr off cc => Sys2Proof.Machine.execCallr off cc s
  | .brr off cc => Sys2Proof.Machine.execBrr off cc s
  | .call addr cc => Sys2Proof.Machine.execCall addr cc s
  | .br addr cc => Sys2Proof.Machine.execBr addr cc s
  | .ret cc => Sys2Proof.Machine.execRet cc s
  | .reti => Sys2Proof.Machine.execReti s
  | .calla x => Sys2Proof.Machine.execCalla x s
  | .divs a x => Sys2Proof.Machine.execDivs a x s
  | .movpAccReg x c => Sys2Proof.Machine.execMovpAccReg x c s
  | .movpIndInd n m d k => Sys2Proof.Machine.execMovpIndInd n m d k s
  | .movRegInd c n m => Sys2Proof.Machine.execMovRegInd c n m s
  | .movIndReg n m c => Sys2Proof.Machine.execMovIndReg n m c s
  | .movSimmRn imm q => Sys2Proof.Machine.execMovSimmRn imm q s
  | .movRegReg src dst => Sys2Proof.Machine.execMovRegReg src dst s
  | .movLongReg w c => Sys2Proof.Machine.execMovLongReg w c s
  | .movDirAcc a x => Sys2Proof.Machine.execMovDirAcc a x s
  | .movDirAcch a x => Sys2Proof.Machine.execMovDirAcch a x s
  | .movDirAccl a x => Sys2Proof.Machine.execMovDirAccl a x s
  | .movDirAcchEu a x => Sys2Proof.Machine.execMovDirAcchEu a x s
  | .movRnDir q a => Sys2Proof.Machine.execMovRnDir q a s
  | .movDirRn a q => Sys2Proof.Machine.execMovDirRn a q s
  | .movAcclDir x a => Sys2Proof.Machine.execMovAcclDir x a s
  | .movAcchDir x a => Sys2Proof.Machine.execMovAcchDir x a s
  | .movImmAccl imm x => Sys2Proof.Machine.execMovImmAccl imm x s
  | .movSimmAcch imm x => Sys2Proof.Machine.execMovSimmAcch imm x s
  | .addReg c x => Sys2Proof.Machine.execAddReg c x s
  | .addInd n m x => Sys2Proof.Machine.execAddInd n m x s
  | .addDir a x => Sys2Proof.Machine.execAddDir a x s
  | .addLong w x => Sys2Proof.Machine.execAddLong w x s
  | .addImm imm x => Sys2Proof.Machine.execAddImm imm x s
  | .subReg c x => Sys2Proof.Machine.execSubReg c x s
  | .subInd n m x => Sys2Proof.Machine.execSubInd n m x s
  | .subDir a x => Sys2Proof.Machine.execSubDir a x s
  | .subLong w x => Sys2Proof.Machine.execSubLong w x s
  | .subImm imm x => Sys2Proof.Machine.execSubImm imm x s
  | .orReg c x => Sys2Proof.Machine.execOrReg c x s
  | .orInd n m x => Sys2Proof.Machine.execOrInd n m x s
  | .orDir a x => Sys2Proof.Machine.execOrDir a x s
  | .orLong w x => Sys2Proof.Machine.execOrLong w x s
  | .orImm imm x => Sys2Proof.Machine.execOrImm imm x s
  | .xorReg c x => Sys2Proof.Machine.execXorReg c x s
  | .xorInd n m x => Sys2Proof.Machine.execXorInd n m x s
  | .xorDir a x => Sys2Proof.Machine.execXorDir a x s
  | .xorLong w x => Sys2Proof.Machine.execXorLong w x s
  | .xorImm imm x => Sys2Proof.Machine.execXorImm imm x s
  | .andReg c x => Sys2Proof.Machine.execAndReg c x s
  | .andInd n m x => Sys2Proof.Machine.execAndInd n m x s
  | .andDir a x => Sys2Proof.Machine.execAndDir a x s
  | .andLong w x => Sys2Proof.Machine.execAndLong w x s
  | .andImm imm x => Sys2Proof.Machine.execAndImm imm x s
  | .cmpReg c x => Sys2Proof.Machine.execCmpReg c x s
  | .cmpInd n m x => Sys2Proof.Machine.execCmpInd n m x s
  | .cmpDir a x => Sys2Proof.Machine.execCmpDir a x s
  | .cmpLong w x => Sys2Proof.Machine.execCmpLong w x s
  | .cmpImm imm x => Sys2Proof.Machine.execCmpImm imm x s
  | .mpyReg c => Sys2Proof.Machine.execMpyReg c s
  | .mpyIndLong n m w => Sys2Proof.Machine.execMpyIndLong n m w s
  | .mpyInd n m => Sys2Proof.Machine.execMpyInd n m s
  | .mpyDir a => Sys2Proof.Machine.execMpyDir a s
  | .mpyPair j jj n k => Sys2Proof.Machine.execMpyPair j jj n k s
  | .macReg c x => Sys2Proof.Machine.execMacReg c x s
  | .macIndLong n m w x => Sys2Proof.Machine.execMacIndLong n m w x s
  | .macInd n m x => Sys2Proof.Machine.execMacInd n m x s
  | .macDir a x => Sys2Proof.Machine.execMacDir a x s
  | .macPair j jj n k x => Sys2Proof.Machine.execMacPair j jj n k x s
  | .msuReg c x => Sys2Proof.Machine.execMsuReg c x s
  | .msuIndLong n m w x => Sys2Proof.Machine.execMsuIndLong n m w x s
  | .msuInd n m x => Sys2Proof.Machine.execMsuInd n m x s
  | .msuDir a x => Sys2Proof.Machine.execMsuDir a x s
  | .msuPair j jj n k x => Sys2Proof.Machine.execMsuPair j jj n k x s
  | .sqrReg c => Sys2Proof.Machine.execSqrReg c s
  | .sqrInd n m => Sys2Proof.Machine.execSqrInd n m s
  | .sqrDir a => Sys2Proof.Machine.execSqrDir a s
  | .sqraReg c x => Sys2Proof.Machine.execSqraReg c x s
  | .sqraInd n m x => Sys2Proof.Machine.execSqraInd n m x s
  | .sqraDir a x => Sys2Proof.Machine.execSqraDir a x s
  | .sqrsReg c x => Sys2Proof.Machine.execSqrsReg c x s
  | .sqrsInd n m x => Sys2Proof.Machine.execSqrsInd n m x s
  | .sqrsDir a x => Sys2Proof.Machine.execSqrsDir a x s
  | .addlReg c x => Sys2Proof.Machine.execAddlReg c x s
  | .addlInd n m x => Sys2Proof.Machine.execAddlInd n m x s
  | .addlDir a x => Sys2Proof.Machine.execAddlDir a x s
  | .sublReg c x => Sys2Proof.Machine.execSublReg c x s
  | .sublInd n m x => Sys2Proof.Machine.execSublInd n m x s
  | .sublDir a x => Sys2Proof.Machine.execSublDir a x s
  | .addhReg c x => Sys2Proof.Machine.execAddhReg c x s
  | .addhInd n m x => Sys2Proof.Machine.execAddhInd n m x s
  | .addhDir a x => Sys2Proof.Machine.execAddhDir a x s
  | .subhReg c x => Sys2Proof.Machine.execSubhReg c x s
  | .subhInd n m x => Sys2Proof.Machine.execSubhInd n m x s
  | .subhDir a x => Sys2Proof.Machine.execSubhDir a x s
  | .mpys imm => Sys2Proof.Machine.execMpys imm s
  | .unused w => Sys2Proof.Machine.execUnused w s

end Sys2Proof.Machine
end

