-- ==== Sys2Proof/Machine/Sequencer.lean ====
section
/-! DEFINITION. What a step does around an instruction (00_scope R16): the environment's inputs, reset,
interrupt acceptance, the fetch, the rules on what may follow what, and the units after the
instruction. -/

namespace Sys2Proof

/-- The register of the 31 that a `mov` or `movp` writes; `Rn*` registers and memory are none of those that a
rule on sequences names. -/
def Instr.moveDest : Instr → Option Reg
  | .nop | .trap | .eint | .dint | .lpg _ | .norm _ _ _ | .modr _ _ | .repImm _ | .repReg _ | .bkrepImm _ _
  | .bkrepReg _ _ | .shr _ _ | .shl _ _ | .shr4 _ _ | .shl4 _ _ | .ror _ _ | .rol _ _ | .not _ _ | .neg _ _
  | .clr _ _ | .copy _ _ | .rnd _ _ | .pacr _ _ | .clrr _ _ | .callr _ _ | .brr _ _ | .call _ _ | .br _ _
  | .ret _ | .reti | .calla _ | .divs _ _ | .movpIndInd _ _ _ _ | .movRegInd _ _ _ | .movSimmRn _ _
  | .movRnDir _ _ | .movDirRn _ _ | .movAcclDir _ _ | .movAcchDir _ _ | .addReg _ _ | .addInd _ _ _
  | .addDir _ _ | .addLong _ _ | .addImm _ _ | .subReg _ _ | .subInd _ _ _ | .subDir _ _ | .subLong _ _
  | .subImm _ _ | .orReg _ _ | .orInd _ _ _ | .orDir _ _ | .orLong _ _ | .orImm _ _ | .xorReg _ _
  | .xorInd _ _ _ | .xorDir _ _ | .xorLong _ _ | .xorImm _ _ | .andReg _ _ | .andInd _ _ _ | .andDir _ _
  | .andLong _ _ | .andImm _ _ | .cmpReg _ _ | .cmpInd _ _ _ | .cmpDir _ _ | .cmpLong _ _ | .cmpImm _ _
  | .mpyReg _ | .mpyIndLong _ _ _ | .mpyInd _ _ | .mpyDir _ | .mpyPair _ _ _ _ | .macReg _ _
  | .macIndLong _ _ _ _ | .macInd _ _ _ | .macDir _ _ | .macPair _ _ _ _ _ | .msuReg _ _ | .msuIndLong _ _ _ _
  | .msuInd _ _ _ | .msuDir _ _ | .msuPair _ _ _ _ _ | .sqrReg _ | .sqrInd _ _ | .sqrDir _ | .sqraReg _ _
  | .sqraInd _ _ _ | .sqraDir _ _ | .sqrsReg _ _ | .sqrsInd _ _ _ | .sqrsDir _ _ | .addlReg _ _ | .addlInd _ _ _
  | .addlDir _ _ | .sublReg _ _ | .sublInd _ _ _ | .sublDir _ _ | .addhReg _ _ | .addhInd _ _ _ | .addhDir _ _
  | .subhReg _ _ | .subhInd _ _ _ | .subhDir _ _ | .mpys _ | .unused _ => none
  | .movpAccReg _ c | .movIndReg _ _ c | .movLongReg _ c => some c
  | .movRegReg _ dst => some dst
  | .movDirAcc _ x => some (.acc x)
  | .movDirAcch _ x | .movDirAcchEu _ x | .movSimmAcch _ x => some (.acch x)
  | .movDirAccl _ x | .movImmAccl _ x => some (.accl x)

/-- "ALU instruction is one of the following" (70_reset R372), and divs with them (92 D48). -/
def Instr.isAlu : Instr → Bool
  | .nop | .trap | .eint | .dint | .lpg _ | .modr _ _ | .repImm _ | .repReg _ | .bkrepImm _ _ | .bkrepReg _ _
  | .callr _ _ | .brr _ _ | .call _ _ | .br _ _ | .ret _ | .reti | .calla _ | .movpAccReg _ _
  | .movpIndInd _ _ _ _ | .movRegInd _ _ _ | .movIndReg _ _ _ | .movSimmRn _ _ | .movRegReg _ _
  | .movLongReg _ _ | .movDirAcc _ _ | .movDirAcch _ _ | .movDirAccl _ _ | .movDirAcchEu _ _ | .movRnDir _ _
  | .movDirRn _ _ | .movAcclDir _ _ | .movAcchDir _ _ | .movImmAccl _ _ | .movSimmAcch _ _ | .mpyReg _
  | .mpyIndLong _ _ _ | .mpyInd _ _ | .mpyDir _ | .mpyPair _ _ _ _ | .sqrReg _ | .sqrInd _ _ | .sqrDir _
  | .mpys _ | .unused _ => false
  | .norm _ _ _ | .shr _ _ | .shl _ _ | .shr4 _ _ | .shl4 _ _ | .ror _ _ | .rol _ _ | .not _ _ | .neg _ _
  | .clr _ _ | .copy _ _ | .rnd _ _ | .pacr _ _ | .clrr _ _ | .divs _ _ | .addReg _ _ | .addInd _ _ _
  | .addDir _ _ | .addLong _ _ | .addImm _ _ | .subReg _ _ | .subInd _ _ _ | .subDir _ _ | .subLong _ _
  | .subImm _ _ | .orReg _ _ | .orInd _ _ _ | .orDir _ _ | .orLong _ _ | .orImm _ _ | .xorReg _ _
  | .xorInd _ _ _ | .xorDir _ _ | .xorLong _ _ | .xorImm _ _ | .andReg _ _ | .andInd _ _ _ | .andDir _ _
  | .andLong _ _ | .andImm _ _ | .cmpReg _ _ | .cmpInd _ _ _ | .cmpDir _ _ | .cmpLong _ _ | .cmpImm _ _
  | .macReg _ _ | .macIndLong _ _ _ _ | .macInd _ _ _ | .macDir _ _ | .macPair _ _ _ _ _ | .msuReg _ _
  | .msuIndLong _ _ _ _ | .msuInd _ _ _ | .msuDir _ _ | .msuPair _ _ _ _ _ | .sqraReg _ _ | .sqraInd _ _ _
  | .sqraDir _ _ | .sqrsReg _ _ | .sqrsInd _ _ _ | .sqrsDir _ _ | .addlReg _ _ | .addlInd _ _ _ | .addlDir _ _
  | .sublReg _ _ | .sublInd _ _ _ | .sublDir _ _ | .addhReg _ _ | .addhInd _ _ _ | .addhDir _ _ | .subhReg _ _
  | .subhInd _ _ _ | .subhDir _ _ => true

/-- rep, in either form. -/
def Instr.isRep : Instr → Bool
  | .nop | .trap | .eint | .dint | .lpg _ | .norm _ _ _ | .modr _ _ | .bkrepImm _ _ | .bkrepReg _ _ | .shr _ _
  | .shl _ _ | .shr4 _ _ | .shl4 _ _ | .ror _ _ | .rol _ _ | .not _ _ | .neg _ _ | .clr _ _ | .copy _ _
  | .rnd _ _ | .pacr _ _ | .clrr _ _ | .callr _ _ | .brr _ _ | .call _ _ | .br _ _ | .ret _ | .reti | .calla _
  | .divs _ _ | .movpAccReg _ _ | .movpIndInd _ _ _ _ | .movRegInd _ _ _ | .movIndReg _ _ _ | .movSimmRn _ _
  | .movRegReg _ _ | .movLongReg _ _ | .movDirAcc _ _ | .movDirAcch _ _ | .movDirAccl _ _ | .movDirAcchEu _ _
  | .movRnDir _ _ | .movDirRn _ _ | .movAcclDir _ _ | .movAcchDir _ _ | .movImmAccl _ _ | .movSimmAcch _ _
  | .addReg _ _ | .addInd _ _ _ | .addDir _ _ | .addLong _ _ | .addImm _ _ | .subReg _ _ | .subInd _ _ _
  | .subDir _ _ | .subLong _ _ | .subImm _ _ | .orReg _ _ | .orInd _ _ _ | .orDir _ _ | .orLong _ _ | .orImm _ _
  | .xorReg _ _ | .xorInd _ _ _ | .xorDir _ _ | .xorLong _ _ | .xorImm _ _ | .andReg _ _ | .andInd _ _ _
  | .andDir _ _ | .andLong _ _ | .andImm _ _ | .cmpReg _ _ | .cmpInd _ _ _ | .cmpDir _ _ | .cmpLong _ _
  | .cmpImm _ _ | .mpyReg _ | .mpyIndLong _ _ _ | .mpyInd _ _ | .mpyDir _ | .mpyPair _ _ _ _ | .macReg _ _
  | .macIndLong _ _ _ _ | .macInd _ _ _ | .macDir _ _ | .macPair _ _ _ _ _ | .msuReg _ _ | .msuIndLong _ _ _ _
  | .msuInd _ _ _ | .msuDir _ _ | .msuPair _ _ _ _ _ | .sqrReg _ | .sqrInd _ _ | .sqrDir _ | .sqraReg _ _
  | .sqraInd _ _ _ | .sqraDir _ _ | .sqrsReg _ _ | .sqrsInd _ _ _ | .sqrsDir _ _ | .addlReg _ _ | .addlInd _ _ _
  | .addlDir _ _ | .sublReg _ _ | .sublInd _ _ _ | .sublDir _ _ | .addhReg _ _ | .addhInd _ _ _ | .addhDir _ _
  | .subhReg _ _ | .subhInd _ _ _ | .subhDir _ _ | .mpys _ | .unused _ => false
  | .repImm _ | .repReg _ => true

/-- br, brr, call, callr, calla, trap, ret, reti, rep, bkrep, by name (43_loop R264, R269). -/
def Instr.breaksFlow : Instr → Bool
  | .nop | .eint | .dint | .lpg _ | .norm _ _ _ | .modr _ _ | .shr _ _ | .shl _ _ | .shr4 _ _ | .shl4 _ _
  | .ror _ _ | .rol _ _ | .not _ _ | .neg _ _ | .clr _ _ | .copy _ _ | .rnd _ _ | .pacr _ _ | .clrr _ _
  | .divs _ _ | .movpAccReg _ _ | .movpIndInd _ _ _ _ | .movRegInd _ _ _ | .movIndReg _ _ _ | .movSimmRn _ _
  | .movRegReg _ _ | .movLongReg _ _ | .movDirAcc _ _ | .movDirAcch _ _ | .movDirAccl _ _ | .movDirAcchEu _ _
  | .movRnDir _ _ | .movDirRn _ _ | .movAcclDir _ _ | .movAcchDir _ _ | .movImmAccl _ _ | .movSimmAcch _ _
  | .addReg _ _ | .addInd _ _ _ | .addDir _ _ | .addLong _ _ | .addImm _ _ | .subReg _ _ | .subInd _ _ _
  | .subDir _ _ | .subLong _ _ | .subImm _ _ | .orReg _ _ | .orInd _ _ _ | .orDir _ _ | .orLong _ _ | .orImm _ _
  | .xorReg _ _ | .xorInd _ _ _ | .xorDir _ _ | .xorLong _ _ | .xorImm _ _ | .andReg _ _ | .andInd _ _ _
  | .andDir _ _ | .andLong _ _ | .andImm _ _ | .cmpReg _ _ | .cmpInd _ _ _ | .cmpDir _ _ | .cmpLong _ _
  | .cmpImm _ _ | .mpyReg _ | .mpyIndLong _ _ _ | .mpyInd _ _ | .mpyDir _ | .mpyPair _ _ _ _ | .macReg _ _
  | .macIndLong _ _ _ _ | .macInd _ _ _ | .macDir _ _ | .macPair _ _ _ _ _ | .msuReg _ _ | .msuIndLong _ _ _ _
  | .msuInd _ _ _ | .msuDir _ _ | .msuPair _ _ _ _ _ | .sqrReg _ | .sqrInd _ _ | .sqrDir _ | .sqraReg _ _
  | .sqraInd _ _ _ | .sqraDir _ _ | .sqrsReg _ _ | .sqrsInd _ _ _ | .sqrsDir _ _ | .addlReg _ _ | .addlInd _ _ _
  | .addlDir _ _ | .sublReg _ _ | .sublInd _ _ _ | .sublDir _ _ | .addhReg _ _ | .addhInd _ _ _ | .addhDir _ _
  | .subhReg _ _ | .subhInd _ _ _ | .subhDir _ _ | .mpys _ | .unused _ => false
  | .trap | .repImm _ | .repReg _ | .bkrepImm _ _ | .bkrepReg _ _ | .callr _ _ | .brr _ _ | .call _ _ | .br _ _
  | .ret _ | .reti | .calla _ => true

/-- A `mov` or `movp` to pc (70_reset R373). -/
def Instr.movesPc (i : Instr) : Bool := i.moveDest == some .pc

/-- movp, in either form. -/
def Instr.isMovp : Instr → Bool
  | .nop | .trap | .eint | .dint | .lpg _ | .norm _ _ _ | .modr _ _ | .repImm _ | .repReg _ | .bkrepImm _ _
  | .bkrepReg _ _ | .shr _ _ | .shl _ _ | .shr4 _ _ | .shl4 _ _ | .ror _ _ | .rol _ _ | .not _ _ | .neg _ _
  | .clr _ _ | .copy _ _ | .rnd _ _ | .pacr _ _ | .clrr _ _ | .callr _ _ | .brr _ _ | .call _ _ | .br _ _
  | .ret _ | .reti | .calla _ | .divs _ _ | .movRegInd _ _ _ | .movIndReg _ _ _ | .movSimmRn _ _
  | .movRegReg _ _ | .movLongReg _ _ | .movDirAcc _ _ | .movDirAcch _ _ | .movDirAccl _ _ | .movDirAcchEu _ _
  | .movRnDir _ _ | .movDirRn _ _ | .movAcclDir _ _ | .movAcchDir _ _ | .movImmAccl _ _ | .movSimmAcch _ _
  | .addReg _ _ | .addInd _ _ _ | .addDir _ _ | .addLong _ _ | .addImm _ _ | .subReg _ _ | .subInd _ _ _
  | .subDir _ _ | .subLong _ _ | .subImm _ _ | .orReg _ _ | .orInd _ _ _ | .orDir _ _ | .orLong _ _ | .orImm _ _
  | .xorReg _ _ | .xorInd _ _ _ | .xorDir _ _ | .xorLong _ _ | .xorImm _ _ | .andReg _ _ | .andInd _ _ _
  | .andDir _ _ | .andLong _ _ | .andImm _ _ | .cmpReg _ _ | .cmpInd _ _ _ | .cmpDir _ _ | .cmpLong _ _
  | .cmpImm _ _ | .mpyReg _ | .mpyIndLong _ _ _ | .mpyInd _ _ | .mpyDir _ | .mpyPair _ _ _ _ | .macReg _ _
  | .macIndLong _ _ _ _ | .macInd _ _ _ | .macDir _ _ | .macPair _ _ _ _ _ | .msuReg _ _ | .msuIndLong _ _ _ _
  | .msuInd _ _ _ | .msuDir _ _ | .msuPair _ _ _ _ _ | .sqrReg _ | .sqrInd _ _ | .sqrDir _ | .sqraReg _ _
  | .sqraInd _ _ _ | .sqraDir _ _ | .sqrsReg _ _ | .sqrsInd _ _ _ | .sqrsDir _ _ | .addlReg _ _ | .addlInd _ _ _
  | .addlDir _ _ | .sublReg _ _ | .sublInd _ _ _ | .sublDir _ _ | .addhReg _ _ | .addhInd _ _ _ | .addhDir _ _
  | .subhReg _ _ | .subhInd _ _ _ | .subhDir _ _ | .mpys _ | .unused _ => false
  | .movpAccReg _ _ | .movpIndInd _ _ _ _ => true

/-- The instruction may follow rep: one word, and no break of the address continuity (43_loop R264). -/
def Instr.repeatable (i : Instr) : Bool :=
  i.secondWord.isNone && !i.breaksFlow && !i.isMovp && !i.movesPc

/-- The instruction may be one of the last two of a block-repeat loop (43_loop R269 no. 1). -/
def Instr.mayEndLoop (i : Instr) : Bool := !i.breaksFlow && !i.movesPc

/-- No interrupt is accepted at the boundary after the instruction: dint, and a move to st0
(60_exceptions R327 case 4). -/
def Instr.holdsOff (i : Instr) : Bool := i == .dint || i.moveDest == some .st0

/-- A write of st0, of an accumulator or of a half of one (70_reset R372, 92 D48). -/
def Reg.carriesFlags : Reg → Bool
  | .st0 | .acc _ | .acch _ | .accl _ => true
  | .r _ | .x | .y | .p | .pc | .lc | .tos | .st1 | .st2 | .cfgi | .cfgj | .ext _ => false

/-- st0 must not be read by the instruction executed next (70_reset R372). -/
def Instr.changesFlags (i : Instr) : Bool := i.isAlu || i.moveDest.any Reg.carriesFlags

end Sys2Proof

namespace Sys2Proof.Machine

/-! The environment and reset. -/

/-- The environment changes user-defined registers (10_state R44, log 6). -/
def applyExt : List (Fin 8 × Word) → State → State
  | [], s => s
  | (k, v) :: rest, s => applyExt rest (s.setExt k v)

/-- The start of a step: the environment's changes, the pin levels of this step (60_exceptions R322), and the answers of
the devices (log 6, log 7). The IACK pulse and the Device accesses of the step before are over. -/
def sample (s : State) : State :=
  match s.inputs with
  | [] => { s with pins := Pins.low, iack := false, answers := [], bus := [] }
  | e :: rest =>
    { applyExt e.ext s with pins := e.pins, inputs := rest, iack := false, answers := e.answers, bus := [] }

/-- `Reset()` (70_reset R360): the listed bits and the hidden state; everything else keeps its value
(log 10). -/
def resetState (s : State) : State :=
  { s with
    pc := 0
    st0 := St0.ofWord 0
    st1 := { s.st1 with sp := 0 }
    st2 := ⟨false, false, false, false, 0⟩
    stk := []
    repArmed := false
    repActive := false
    lpLate := 0
    pcPending := none
    inBpi := false
    inTrap := false
    holdOff := false
    st0Hazard := false
    storeNow := none
    store1 := none
    store2 := none
    irqTaken := [] }

/-! Interrupt acceptance. -/

/-- Acceptance is held off: a repeat is in progress, a delayed pc write is pending, or the previous
instruction holds it off (00_scope R16 step 3, 60_exceptions R327). -/
def State.acceptanceHeld (s : State) : Bool :=
  s.repArmed || s.repActive || s.pcPending.isSome || s.holdOff

/-- `AcceptInterrupt()`: the interrupt that this boundary accepts (60_exceptions R326, R336). -/
def acceptInterrupt (s : State) : Option Irq :=
  if s.acceptanceHeld then none
  else if s.pins.bpi && !s.inBpi then some .bpi
  else if !s.inBpi && !s.inTrap && s.st0.ie then
    if s.pins.int0 && s.st0.im0 then some .int0
    else if s.pins.int1 && s.st0.im1 then some .int1
    else none
  else none

/-! The fetch. -/

/-- A fetched instruction's words. -/
structure Fetched where
  w0 : Word
  w1 : Word
  deriving DecidableEq, Repr

/-- The fetch of step 4: one or two words, pc past them (00_scope R16, 10_state R28). -/
def fetch (s : State) : Res (Fetched × State) :=
  andThen (fetchWord s.pc s) fun o =>
    let t := { o.2 with pc := s.pc + 1, storeNow := none }
    if isTwoWord o.1 then
      andThen (fetchWord t.pc t) fun q => .next (⟨o.1, q.1⟩, { q.2 with pc := t.pc + 1 })
    else .next (⟨o.1, 0⟩, t)

/-- The refusal of a word that does not decode (30_encoding R127). -/
def decodeRefusal : DecodeError → Refusal
  | .registerCode31 => .registerCode31
  | .addressRegister67 => .addressRegister67
  | .truncated => .truncated

/-! What may follow what. -/

/-- The instruction of s, whose pc is past it, is one of the last two of a loop that is live when the last one ends
(43_loop R269, log 19, log 20). -/
def State.ofLastTwo (s : State) : Bool :=
  (s.loopLive && s.isLast) || (s.loopLiveAfter 1 && s.nextIsLast)

/-- The rules on sequences that i breaks at the fetched state s (70_reset R373, R375, R376). Until when the ban on a
transfer, rep or bkrep as one of the last two instructions of a loop (43_loop R269 no. 1) binds once LP has been cleared is
not said there: it binds where the unit takes the last of the two as the loop's end (DESIGN CHOICE, log 20). -/
def sequenceRefusal (i : Instr) (s : State) : Option Refusal :=
  if s.pcPending.isSome && i != .nop then some .nopRequired
  else if (s.repArmed || s.repActive) && !i.repeatable then some .notRepeatable
  else if s.ofLastTwo && !i.mayEndLoop then some .loopEndRestricted
  else none

/-! After the instruction. -/

/-- What the next boundary and the next instructions need to know of i (60_exceptions R327, 70_reset
R372, 20_memory R104). -/
def noteExecuted (i : Instr) (s : State) : State :=
  { s with
    holdOff := i.holdsOff, st0Hazard := i.changesFlags
    storeNow := none, store1 := s.storeNow, store2 := s.store1 }

/-- Step 8: a write to pc that was pending before the instruction takes effect (00_scope R16). -/
def settlePc (pending : Option Word) (s : State) : State :=
  match pending with
  | none => s
  | some t => { s with pc := t, pcPending := none }

/-- Steps 7, 8 and 9 after i, which started at `start`, ended at `last`, and found `pending`
(00_scope R16). -/
def afterInstr (i : Instr) (start last : Word) (pending : Option Word) (s : State) : State :=
  let u := repUnit i.isRep start (noteExecuted i s)
  if u.1 then u.2 else blockUnit last (settlePc pending u.2)

/-- Steps 5 to 9 for an instruction fetched from `start`; s is the state after the fetch. -/
def runInstr (i : Instr) (start : Word) (s : State) : Out :=
  match sequenceRefusal i s with
  | some why => .refused why
  | none => andThen (exec i s) fun t => .next (afterInstr i start (s.pc - 1) s.pcPending t)

/-- Steps 4 to 9 (00_scope R16). -/
def runNext (s : State) : Out :=
  andThen (fetch s) fun o =>
    match decodeWords s.params o.1.w0 o.1.w1 with
    | .error e => .refused (decodeRefusal e)
    | .ok i => runInstr i s.pc o.2

/-- A step once the inputs are sampled: reset, STOP, an interrupt, or an instruction (00_scope R16). -/
def stepSampled (s : State) : Out :=
  if s.pins.reset then .next (resetState s)
  else if s.st2.stp then .next s
  else
    match acceptInterrupt s with
    | some irq => enterInterrupt irq s
    | none => runNext s

/-- The program word at a set to v. -/
def pokeProg (a v : Word) (s : State) : State := { s with mem := s.mem.writeWord (progCell a) v }

/-- Where the program address a is a device's, its answer v to the fetch (log 26). -/
def fetchAnswer (a v : Word) (s : State) : List Answer :=
  if progMap s.params a = .device then [⟨.prog, a, v⟩] else []

/-- The two words of w stored at pc, and what a fetch at pc needs: a quiet input, no STOP mode, no
store in flight (log 26). -/
def placeFetchWord (s : State) (nbits w : Nat) : State :=
  let v := w % 2 ^ nbits
  let w0 := BitVec.ofNat 16 v
  let w1 := BitVec.ofNat 16 (v / 2 ^ 16)
  { pokeProg (s.pc + 1) w1 (pokeProg s.pc w0 s) with
    inputs := ⟨Pins.low, [], fetchAnswer s.pc w0 s ++ fetchAnswer (s.pc + 1) w1 s⟩ :: s.inputs
    st2 := { s.st2 with stp := false }, store1 := none, store2 := none }

end Sys2Proof.Machine
end

