-- ==== Sys2Proof/Machine/Step.lean ====
section
/-! DEFINITION. One step of the machine (00_scope R16), and the placing of an instruction where the next
step fetches. What they do is in Machine/Sequencer.lean. -/

namespace Sys2Proof.Machine

/-- One step: the inputs are sampled, then reset, STOP, an interrupt, or an instruction. -/
def step (s : State) : Host.Outcome State Fault Refusal := stepSampled (sample s)

/-- s with the instruction whose bits are w placed where step fetches next (log 26). -/
def State.withFetchWord (s : State) (nbits w : Nat) : State := placeFetchWord s nbits w

end Sys2Proof.Machine
end

