-- ==== Sys2Proof/Safety.lean ====
section
/-! DEFINITION. The terms in which statements are made: what a legal state is, which stops a program must
avoid, and the effects of the instructions said with exact numbers instead of the machine's bit
operations. -/

namespace Sys2Proof.Machine

/-! Legal states. -/

/-- What holds of every state that the machine reaches: memory in its one form, at most 16 stack
entries (10_state R40), `lp_late` 0, 1 or 2 and 0 while LP is set (10_state R43, 43_loop R270), at most one of
`rep_armed` and `rep_active` set (43_loop R262), no delayed pc write during a repeat (43_loop R264),
no store left over from the instruction before, and parameters that the spec allows (00_scope R7). -/
structure State.Legal (s : State) : Prop where
  mem : s.mem.wf
  stack : s.stk.length ≤ 16
  late : s.lpLate ≤ 2
  lateClear : s.st2.lp = true → s.lpLate = 0
  repeat1 : s.repArmed = true → s.repActive = false
  pending : s.pcPending ≠ none → s.repArmed = false ∧ s.repActive = false
  stored : s.storeNow = none
  params : s.params.wf = true

/-- A step that the spec defines: it neither faults nor is refused. -/
def Completes (o : Out) : Prop := ∃ t, o = .next t

/-- n steps, none of which faults or is refused. -/
def SafeRun : Nat → State → Prop
  | 0, _ => True
  | n + 1, s => ∃ t, step s = .next t ∧ SafeRun n t

/-- The sampled state runs an instruction: no reset, no STOP mode, no interrupt (00_scope R16). -/
def State.RunsInstr (q : State) : Prop :=
  q.pins.reset = false ∧ q.st2.stp = false ∧ acceptInterrupt q = none

/-! Exact numbers. -/

/-- v is representable in n bits of two's complement. -/
def inBits (n : Nat) (v : Int) : Bool := decide (-(2 ^ (n - 1)) ≤ v ∧ v < 2 ^ (n - 1))

/-- st0 after the flags Z M N E have seen the 36-bit value `out` (10_state R51, R53, R54, R57). -/
def zmneOf (f : St0) (out : Accum) : St0 :=
  { f with
    z := decide (out.toInt = 0)
    m := decide (out.toInt < 0)
    e := !inBits 32 out.toInt
    n := decide (out.toInt = 0) || (inBits 32 out.toInt && !inBits 31 out.toInt) }

/-- st0 after an addition or subtraction whose exact result is the number v (10_state R55, R56, R58). -/
def arithOf (f : St0) (v : Int) (carry : Bool) : St0 :=
  { zmneOf f (BitVec.ofInt 36 v) with
    v := !inBits 36 v, c := carry, l := f.l || !inBits 36 v }

/-- aX holds v and Z M N E describe it; nothing else changes. -/
def moved (x : Acc) (v : Accum) (s : State) : State := { s.setAcc x v with st0 := zmneOf s.st0 v }

/-- aX + b -> aX for the number b, with all arithmetic flags; nothing else changes. -/
def added (x : Acc) (b : Int) (s : State) : State :=
  let a := s.acc x
  { s.setAcc x (BitVec.ofInt 36 (a.toInt + b)) with
    st0 := arithOf s.st0 (a.toInt + b) (decide (2 ^ 36 ≤ a.toNat + (BitVec.ofInt 36 b).toNat)) }

/-- st0 after aX - b. -/
def lessFlags (x : Acc) (b : Int) (s : State) : St0 :=
  arithOf s.st0 ((s.acc x).toInt - b) (decide ((s.acc x).toNat < (BitVec.ofInt 36 b).toNat))

/-- aX - b -> aX for the number b, with all arithmetic flags; nothing else changes. -/
def subtracted (x : Acc) (b : Int) (s : State) : State :=
  { s.setAcc x (BitVec.ofInt 36 ((s.acc x).toInt - b)) with st0 := lessFlags x b s }

/-- aX - b, flags alone. -/
def compared (x : Acc) (b : Int) (s : State) : State := { s with st0 := lessFlags x b s }

/-- Shifted p as a number, for SP = 00, 01, 10 (10_state R33). -/
def shiftedNumber (s : State) : Int :=
  if s.st1.sp = 1 then s.p.toInt / 2 else if s.st1.sp = 2 then s.p.toInt * 2 else s.p.toInt

/-- x, y and p after a multiplication of xv by yv (41_multiply R200); nothing else changes. -/
def multiplied (xv yv : Word) (s : State) : State :=
  { s with x := xv, y := yv, p := BitVec.ofInt 32 (xv.toInt * yv.toInt) }

/-! Operands. -/

/-- The word that the data space holds at a (20_memory R88). -/
def heldWord (a : Word) (s : State) : Word := s.mem.readWord a.toNat

/-- The region is memory: a word of it is what memory holds. -/
def Plain (r : Region) : Prop := r ≠ .device ∧ r ≠ .absent

/-- o is what a read of the Device address a gives: the environment's first unused answer for a, or, where it gives
none, any value, u being s once a free value is used; the access is on the bus, and no memory is looked at
(20_memory R100). -/
def AnswersRead (sp : Space) (a : Word) (s u : State) (o : Word × State) : Prop :=
  (∀ before v after, s.answers = before ++ ⟨sp, a, v⟩ :: after → (∀ e ∈ before, e.space = sp → e.addr ≠ a) →
    o = (v, { s with answers := before ++ after, bus := .read sp a v :: s.bus })) ∧
  ((∀ e ∈ s.answers, e.space = sp → e.addr ≠ a) →
    o.2 = { u with bus := .read sp a o.1 :: s.bus })

/-- Reading c does not pop an empty stack. -/
def Readable (c : Reg) (s : State) : Prop := c = .tos → s.stk ≠ []

/-- The unit still tests for the end of a loop: LP is set, or its clear is in flight (43_loop R268, R270). -/
def InLoop (s : State) : Prop := s.st2.lp = true ∨ 0 < s.lpLate

/-- The unit will still test for the end of a loop k boundaries after the present instruction's own. -/
def InLoopAfter (k : Nat) (s : State) : Prop := s.st2.lp = true ∨ k < s.lpLate

/-- Writing v to c does not push on a full stack, break a rule on lc, or send pc, two instructions later, to the last
address of a loop. -/
def Writable (c : Reg) (v : Word) (s : State) : Prop :=
  (c = .tos → s.stk.length < 16) ∧ (c = .lc → s.st2.lp = false) ∧
    (c = .pc → InLoopAfter 2 s → v ≠ s.bkEnd)

/-- The instruction at a, fetched by the next step, has its last word at e: the word that the fetch gives decides its
length. That `State.ahead` is what the fetch sees is said by FetchedWord. -/
def EndsAt (a e : Word) (s : State) : Prop :=
  ∃ o, fetchWord a s.ahead = .next o ∧ if isTwoWord o.1 = true then a + 1 = e else a = e

/-- A transfer to a is one that a live loop forbids: to its last address, or to the first word of its last
instruction, so that the transfer would be executed immediately before it (43_loop R269). The loop is live when that
instruction ends. -/
def EntersLoopEnd (a : Word) (s : State) : Prop := InLoopAfter 1 s ∧ (a = s.bkEnd ∨ EndsAt a s.bkEnd s)

/-- The instruction fetched into s, whose pc is past it, is one of the last two of a loop that is live when the last one
ends (43_loop R269). -/
def OfLastTwo (s : State) : Prop :=
  (InLoop s ∧ s.pc - 1 = s.bkEnd) ∨ (InLoopAfter 1 s ∧ EndsAt s.pc s.bkEnd s)

/-- What lc is read as is open, for the value v: in the instruction before the last of a loop, and in the only one of a
one-instruction loop (43_loop R271). Where the instruction stores what it reads over the next one, v decides what that
is. -/
def LcOpen (v : Word) (s : State) : Prop :=
  s.st2.lp = true ∧ (EndsAt s.pc s.bkEnd (s.storing v) ∨ (s.pc - 1 = s.bkEnd ∧ s.bkStart = s.bkEnd))

/-- LP in st2, read as a part of the value v, is open: in the instruction before the last of a loop (43_loop R270). -/
def LpOpen (v : Word) (s : State) : Prop := s.st2.lp = true ∧ EndsAt s.pc s.bkEnd (s.storing v)

/-- What aXh and aXl are read from: the number in aX, limited to 32 bits while SAT = 0 (10_state R48). -/
def busNumber (x : Acc) (s : State) : Int :=
  if s.st0.sat = true ∨ inBits 32 (s.acc x).toInt = true then (s.acc x).toInt
  else if (s.acc x).toInt < 0 then -(2 ^ 31) else 2 ^ 31 - 1

/-- A limited read by `mov` sets L; nothing else changes (10_state R48, R58). -/
def limitNoted (isMov : Bool) (x : Acc) (s : State) : State :=
  { s with
    st0 := { s.st0 with
             l := s.st0.l || (isMov && !s.st0.sat && !inBits 32 (s.acc x).toInt) } }

/-- The state after v is written to c (10_state R47). -/
def written (c : Reg) (v : Word) (s : State) : State :=
  match c with
  | .acc x => moved x (BitVec.ofInt 36 v.toInt) s
  | .acch x => moved x (BitVec.ofInt 36 (v.toInt * 65536)) s
  | .accl x => moved x (BitVec.ofNat 36 v.toNat) s
  | .r n => { s with r := s.r.set n v }
  | .x => { s with x := v }
  | .y => { s with y := v }
  | .p => { s with p := BitVec.ofNat 32 (v.toNat * 65536 + s.p.toNat % 65536) }
  | .pc => { s with pcPending := some v }
  | .lc => { s with lc := v }
  | .tos => { s with stk := ⟨v, decide (v ∈ s.irqTaken)⟩ :: s.stk, irqTaken := s.irqTaken.erase v }
  | .st0 =>
    { s with
      st0 := ⟨v[11], v[10], v[9], v[8], v[7], v[6], v[5], v[4], v[3], v[2], v[1], v[0]⟩ }
  | .st1 => { s with st1 := ⟨BitVec.ofNat 2 (v.toNat / 1024), BitVec.ofNat 8 v.toNat⟩ }
  | .st2 =>
    { s with
      st2 := ⟨v[13], s.st2.lp && !v[12], v[9], v[8], BitVec.ofNat 6 v.toNat⟩
      lpLate := if v[12] = true ∧ s.st2.lp = true then 2 else s.lpLate }
  | .cfgi => { s with cfgi := v }
  | .cfgj => { s with cfgj := v }
  | .ext k => { s with ext := s.ext.set k v }

/-- The registers of the `Rn*` field as registers. -/
def starReg : RnStar → Reg
  | .r n => .r n
  | .y => .y
  | .x => .x

/-- The data address to which i stores, where it stores (42_move R227, R230, R232, R246). -/
def storeAddress (i : Instr) (s : State) : Option Word :=
  match i with
  | .movRegInd _ n _ => some (s.addr n)
  | .movAcclDir _ a | .movAcchDir _ a | .movRnDir _ a => some (direct a s)
  | .movpIndInd _ _ i _ => some (s.addr (regI i))
  | _ => none

/-- The instructions that write p as a whole (41_multiply). -/
def multiplies : Instr → Bool
  | .mpyReg _ | .mpyInd _ _ | .mpyDir _ | .mpyPair _ _ _ _ | .mpyIndLong _ _ _ | .mpys _ | .macReg _ _
  | .macInd _ _ _ | .macDir _ _ | .macPair _ _ _ _ _ | .macIndLong _ _ _ _ | .msuReg _ _ | .msuInd _ _ _
  | .msuDir _ _ | .msuPair _ _ _ _ _ | .msuIndLong _ _ _ _ | .sqrReg _ | .sqrInd _ _ | .sqrDir _
  | .sqraReg _ _ | .sqraInd _ _ _ | .sqraDir _ _ | .sqrsReg _ _ | .sqrsInd _ _ _ | .sqrsDir _ _ => true
  | _ => false

/-- bkrep, in either form. -/
def isBkrep : Instr → Bool
  | .bkrepImm _ _ | .bkrepReg _ _ => true
  | _ => false

/-- lpg. -/
def isLpg : Instr → Bool
  | .lpg _ => true
  | _ => false

/-- rep, in either form. -/
def isRepeat : Instr → Bool
  | .repImm _ | .repReg _ => true
  | _ => false

/-- movp, in either form. -/
def isProgramMove : Instr → Bool
  | .movpAccReg _ _ | .movpIndInd _ _ _ _ => true
  | _ => false

/-- br, brr, call, callr, calla, trap, ret, reti, rep and bkrep, which, with the moves to pc, may not be among the last two
instructions of a loop (43_loop R269). -/
def transfersOrLoops : Instr → Bool
  | .br _ _ | .brr _ _ | .call _ _ | .callr _ _ | .calla _ | .trap | .ret _ | .reti | .repImm _ | .repReg _
  | .bkrepImm _ _ | .bkrepReg _ _ => true
  | _ => false

/-- The one-word instructions of the list of 43_loop R264 that are no moves: brr, callr, calla, trap, ret, reti, rep. -/
def breaksContinuity : Instr → Bool
  | .brr _ _ | .callr _ _ | .calla _ | .trap | .ret _ | .reti | .repImm _ | .repReg _ => true
  | _ => false

/-- The register of the 31 that a `mov` or `movp` has as its destination (42_move). -/
def movesTo : Instr → Option Reg
  | .movRegReg _ c | .movIndReg _ _ c | .movLongReg _ c | .movpAccReg _ c => some c
  | .movDirAcc _ x => some (.acc x)
  | .movDirAcch _ x | .movDirAcchEu _ x | .movSimmAcch _ x => some (.acch x)
  | .movDirAccl _ x | .movImmAccl _ x => some (.accl x)
  | _ => none

/-- An ALU instruction: add, sub, or, and, xor, cmp, addl, subl, addh, subh, moda, norm, mac, msu, sqra, sqrs
(70_reset R372), and divs (92 D48). -/
def isAluInstruction : Instr → Bool
  | .addReg _ _ | .addInd _ _ _ | .addDir _ _ | .addLong _ _ | .addImm _ _ | .subReg _ _ | .subInd _ _ _
  | .subDir _ _ | .subLong _ _ | .subImm _ _ | .orReg _ _ | .orInd _ _ _ | .orDir _ _ | .orLong _ _ | .orImm _ _
  | .andReg _ _ | .andInd _ _ _ | .andDir _ _ | .andLong _ _ | .andImm _ _ | .xorReg _ _ | .xorInd _ _ _
  | .xorDir _ _ | .xorLong _ _ | .xorImm _ _ | .cmpReg _ _ | .cmpInd _ _ _ | .cmpDir _ _ | .cmpLong _ _
  | .cmpImm _ _ | .addlReg _ _ | .addlInd _ _ _ | .addlDir _ _ | .sublReg _ _ | .sublInd _ _ _ | .sublDir _ _
  | .addhReg _ _ | .addhInd _ _ _ | .addhDir _ _ | .subhReg _ _ | .subhInd _ _ _ | .subhDir _ _ | .shr _ _
  | .shr4 _ _ | .shl _ _ | .shl4 _ _ | .ror _ _ | .rol _ _ | .not _ _ | .neg _ _ | .clr _ _ | .copy _ _ | .rnd _ _
  | .pacr _ _ | .clrr _ _ | .norm _ _ _ | .macReg _ _ | .macInd _ _ _ | .macDir _ _ | .macPair _ _ _ _ _
  | .macIndLong _ _ _ _ | .msuReg _ _ | .msuInd _ _ _ | .msuDir _ _ | .msuPair _ _ _ _ _ | .msuIndLong _ _ _ _
  | .sqraReg _ _ | .sqraInd _ _ _ | .sqraDir _ _ | .sqrsReg _ _ | .sqrsInd _ _ _ | .sqrsDir _ _ | .divs _ _ => true
  | _ => false

/-- c is an accumulator or a half of one. -/
def ofAccumulator : Reg → Bool
  | .acc _ | .acch _ | .accl _ => true
  | .r _ | .x | .y | .p | .pc | .lc | .tos | .st0 | .st1 | .st2 | .cfgi | .cfgj | .ext _ => false

/-- st0 has no value in the instruction executed next: after an ALU instruction, and after a move to st0, an accumulator or
a half of one (70_reset R372, 92 D48). -/
def precedesOpenSt0 (i : Instr) : Bool :=
  isAluInstruction i || (movesTo i).any fun c => c == .st0 || ofAccumulator c

/-- modr and norm, the two instructions that change R (10_state R59). -/
def setsR : Instr → Bool
  | .modr _ _ | .norm _ _ _ => true
  | _ => false

/-- A column of flags: Z M N E together, V, C, L and R. -/
structure FlagColumn where
  zmne : Bool
  v : Bool
  c : Bool
  l : Bool
  r : Bool
  deriving DecidableEq, Repr

/-- ZMNVCEL- of the table of 70_reset R390. -/
def FlagColumn.arith : FlagColumn := ⟨true, true, true, true, false⟩

/-- ZMNVCE and ZMN0CE. -/
def FlagColumn.shift : FlagColumn := ⟨true, true, true, false, false⟩

/-- ZMN-CE. -/
def FlagColumn.rotate : FlagColumn := ⟨true, false, true, false, false⟩

/-- ZMNE. -/
def FlagColumn.logic : FlagColumn := ⟨true, false, false, false, false⟩

def FlagColumn.all : FlagColumn := ⟨true, true, true, true, true⟩

/-- A blank. -/
def FlagColumn.none : FlagColumn := ⟨false, false, false, false, false⟩

/-- The flags of a move to dst; `limited` says that it reads aXh or aXl over the data bus (42_move R222). -/
def moveColumn (dst : Reg) (limited : Bool) : FlagColumn :=
  if dst = .st0 then .all else ⟨ofAccumulator dst, false, false, limited, false⟩

/-- The flags that i may change: the flags column of the table of 70_reset R390, and for the moves, where the table leaves it
blank, what their page says (42_move R222). -/
def flagColumn (i : Instr) : FlagColumn :=
  match i with
  | .addReg _ _ | .addInd _ _ _ | .addDir _ _ | .addLong _ _ | .addImm _ _ | .subReg _ _ | .subInd _ _ _
  | .subDir _ _ | .subLong _ _ | .subImm _ _ | .cmpReg _ _ | .cmpInd _ _ _ | .cmpDir _ _ | .cmpLong _ _
  | .cmpImm _ _ | .addlReg _ _ | .addlInd _ _ _ | .addlDir _ _ | .sublReg _ _ | .sublInd _ _ _ | .sublDir _ _
  | .addhReg _ _ | .addhInd _ _ _ | .addhDir _ _ | .subhReg _ _ | .subhInd _ _ _ | .subhDir _ _ | .macReg _ _
  | .macIndLong _ _ _ _ | .macInd _ _ _ | .macDir _ _ | .macPair _ _ _ _ _ | .msuReg _ _ | .msuIndLong _ _ _ _
  | .msuInd _ _ _ | .msuDir _ _ | .msuPair _ _ _ _ _ | .sqraReg _ _ | .sqraInd _ _ _ | .sqraDir _ _ | .sqrsReg _ _
  | .sqrsInd _ _ _ | .sqrsDir _ _ | .neg _ _ | .rnd _ _ | .pacr _ _ => .arith
  | .shr _ _ | .shr4 _ _ | .shl _ _ | .shl4 _ _ => .shift
  | .ror _ _ | .rol _ _ => .rotate
  | .orReg _ _ | .orInd _ _ _ | .orDir _ _ | .orLong _ _ | .orImm _ _ | .xorReg _ _ | .xorInd _ _ _ | .xorDir _ _
  | .xorLong _ _ | .xorImm _ _ | .andReg _ _ | .andInd _ _ _ | .andDir _ _ | .andLong _ _ | .andImm _ _ | .not _ _
  | .clr _ _ | .copy _ _ | .clrr _ _ | .divs _ _ => .logic
  | .norm _ _ _ => .all
  | .modr _ _ => { FlagColumn.none with r := true }
  | .movRegReg src dst => moveColumn dst (src.isWord && ofAccumulator src)
  | .movRegInd c _ _ => { FlagColumn.none with l := c.isWord && ofAccumulator c }
  | .movAcclDir _ _ | .movAcchDir _ _ => { FlagColumn.none with l := true }
  | .movIndReg _ _ c | .movLongReg _ c | .movpAccReg _ c => moveColumn c false
  | .movDirAcc _ _ | .movDirAcch _ _ | .movDirAccl _ _ | .movDirAcchEu _ _ | .movImmAccl _ _ | .movSimmAcch _ _ => .logic
  | .nop | .trap | .eint | .dint | .lpg _ | .repImm _ | .repReg _ | .bkrepImm _ _ | .bkrepReg _ _ | .callr _ _
  | .brr _ _ | .call _ _ | .br _ _ | .ret _ | .reti | .calla _ | .movpIndInd _ _ _ _ | .movSimmRn _ _ | .movRnDir _ _
  | .movDirRn _ _ | .mpyReg _ | .mpyIndLong _ _ _ | .mpyInd _ _ | .mpyDir _ | .mpyPair _ _ _ _ | .sqrReg _
  | .sqrInd _ _ | .sqrDir _ | .mpys _ | .unused _ => .none

/-- What every instruction leaves behind for the boundary and the instructions after it: whether it holds
interrupts off, whether it changes flags, and the stores into program words. -/
def noted (i : Instr) (s : State) : State :=
  { s with
    holdOff := i == .dint || movesTo i == some .st0
    st0Hazard := precedesOpenSt0 i
    storeNow := none, store1 := s.storeNow, store2 := s.store1 }

/-! The fields of a first word with number n that can fail to decode (30_encoding R127). -/

/-- The codes in its register fields: rep, bkrep, movp (aXl) and mov ##imm16 with a register and the register form of
the ALU group; mov between a register and (rN); mov between registers. -/
def regFields (n : Nat) : List Nat :=
  if n / 512 ∈ [9, 11, 32, 46] ∨ n / 8192 = 4 ∧ n / 64 % 4 = 0 then [n % 32]
  else if n / 2048 = 9 then [n / 32 % 32]
  else if n / 1024 = 22 then [n % 32, n / 32 % 32]
  else []

/-- The code in its `NNN` field: norm, modr, movp (rN); mov between a register and (rN); the ALU group's forms (rN) and
(rN), ##imm16. -/
def addrFields (n : Nat) : List Nat :=
  if n / 512 ∈ [6, 7, 33] ∨ n / 2048 = 9 ∨ n / 8192 = 4 ∧ n / 64 % 4 = 2 ∨
    n / 8192 = 4 ∧ n / 64 % 4 = 1 ∧ 6 ≤ n / 512 % 16 ∧ n / 512 % 16 ≤ 8 then [n % 8]
  else []

/-! The bits of a first word with number n that are not decoded (30_encoding R126). -/

/-- Bit 8, the `A` of the ALU group, where the operation names no accumulator: mpy, mpys and sqr (30_encoding R132). -/
def undecodedA (c : Params) (n : Nat) : List Nat :=
  let op := n / 512 % 16
  if op = 6 ∨ 9 ≤ op ∧ c.operHi[op - 9]? = some .sqr then [8] else []

/-- The bits that the row of the word prints as x: nop, eint, dint, reti; trap; lpg and the short rep and bkrep; norm and
movp (aXl); modr, rep and bkrep with a register, and mov ##imm16; moda; call, br, ret; calla (30_encoding R114, R115); the
long immediate form of the ALU group, and its three other forms of R116 with an x; and bit 8 (R132). -/
def undecodedBits (c : Params) (n : Nat) : List Nat :=
  if n / 512 ∈ [0, 2, 3, 27] then [0, 1, 2, 3, 4, 5, 6, 7, 8]
  else if n / 256 = 2 ∨ n / 512 = 28 then [0, 1, 2, 3, 4, 5, 6, 7]
  else if n / 512 ∈ [4, 8, 10] then [8]
  else if n / 512 ∈ [6, 32] then [5, 6, 7]
  else if n / 512 ∈ [7, 9, 11, 46] then [5, 6, 7, 8]
  else if n / 2048 = 3 then [9, 10]
  else if n / 512 ∈ [24, 25, 26] then [4, 5, 6, 7, 8]
  else if n / 8192 = 4 then if n / 64 % 4 = 3 then [0, 1, 2, 3, 4, 5] else 5 :: undecodedA c n
  else if 5 ≤ n / 8192 then undecodedA c n
  else []

/-! The operand forms of the ALU group. -/

/-- The register forms that take any of the 31 registers (40_alu R150). -/
def anyRegForms (c : Reg) (x : Acc) : List Instr :=
  [.addReg c x, .subReg c x, .orReg c x, .xorReg c x, .andReg c x, .cmpReg c x]

/-- The register forms with an accumulator that take 16-bit registers only (30_encoding R132). -/
def wordRegForms (c : Reg) (x : Acc) : List Instr :=
  [.addlReg c x, .sublReg c x, .addhReg c x, .subhReg c x, .macReg c x, .msuReg c x, .sqraReg c x, .sqrsReg c x]

/-- The memory forms of mac, msu, sqra, sqrs (41_multiply R204, R205, R208, R209). -/
def accumulateForms (x : Acc) (a : BitVec 8) (n : Fin 6) (m : PostMod) (w : Word) (j : Fin 2) (i : Fin 4)
    (k : PostMod) : List Instr :=
  [.macDir a x, .macInd n m x, .macIndLong n m w x, .macPair j m i k x, .msuDir a x, .msuInd n m x,
    .msuIndLong n m w x, .msuPair j m i k x, .sqraDir a x, .sqraInd n m x, .sqrsDir a x, .sqrsInd n m x]

/-- The forms reg, (rN)mm and direct of an operation on a 16-bit operand: it completes with `effect`,
after the operand's own side effects (what `dataRead` does is said by DataAccess), whenever the operand can be read and is
no part of aX. -/
def WordForms (reg : Reg → Acc → Instr) (ind : Fin 6 → PostMod → Acc → Instr) (dir : BitVec 8 → Acc → Instr)
    (effect : Acc → Word → State → State) : Prop :=
  ∀ (x : Acc) (s : State),
    (∀ a, let o := dataRead (direct a s) s; exec (dir a x) s = .next (effect x o.1 o.2)) ∧
    (∀ n m, let o := dataRead (s.addr n) s; exec (ind n m x) s = .next (effect x o.1 (postMod n m o.2))) ∧
    ∀ c : Reg, c.isWord = true → c.partOf x = false → Readable c s →
      ∃ o, regRead false c s = .next o ∧ exec (reg c x) s = .next (effect x o.1 o.2)

/-- The forms of add, sub, or, xor, and, cmp: those of `WordForms`, the long immediate, and the 36-bit
operands p and the other accumulator (40_alu R150). -/
def AluForms (reg : Reg → Acc → Instr) (ind : Fin 6 → PostMod → Acc → Instr) (dir : BitVec 8 → Acc → Instr)
    (long : Word → Acc → Instr) (effect : Acc → Word → State → State)
    (wide : Acc → Accum → State → State) : Prop :=
  WordForms reg ind dir effect ∧
  ∀ (x : Acc) (s : State),
    (∀ w, exec (long w x) s = .next (effect x w s)) ∧
    exec (reg (.acc x.other) x) s = .next (wide x (s.acc x.other) s) ∧
    (s.st1.sp ≠ 3 → exec (reg .p x) s = .next (wide x (BitVec.ofInt 36 (shiftedNumber s)) s))

/-- The five forms of mpy, mac, msu (41_multiply R201): the accumulator by `accum`, which sees the state before the
instruction and the state after the operands' side effects, then x, y and p. -/
def MulForms (reg : Reg → Acc → Instr) (ind : Fin 6 → PostMod → Acc → Instr) (dir : BitVec 8 → Acc → Instr)
    (pair : Fin 2 → PostMod → Fin 4 → PostMod → Acc → Instr) (long : Fin 6 → PostMod → Word → Acc → Instr)
    (bars : Reg → Acc → Bool) (accum : Acc → State → State → State) (ready : State → Prop) : Prop :=
  ∀ (x : Acc) (s : State), ready s →
    (∀ a, let o := dataRead (direct a s) s; exec (dir a x) s = .next (multiplied o.1 s.y (accum x s o.2))) ∧
    (∀ n m, let o := dataRead (s.addr n) s
      exec (ind n m x) s = .next (multiplied o.1 s.y (accum x s (postMod n m o.2)))) ∧
    (∀ n m w, let o := dataRead (s.addr n) s
      exec (long n m w x) s = .next (multiplied w o.1 (accum x s (postMod n m o.2)))) ∧
    (∀ j jj i k, 0xFC00 ≤ (s.addr (regJ j)).toNat → (s.addr (regI i)).toNat ≤ 0xFBFF →
      let oy := dataRead (s.addr (regJ j)) s
      let ox := dataRead (s.addr (regI i)) oy.2
      exec (pair j jj i k x) s =
        .next (multiplied ox.1 oy.1 (accum x s (postMod (regI i) k (postMod (regJ j) jj ox.2))))) ∧
    ∀ c : Reg, c.isWord = true → bars c x = false → Readable c s →
      ∃ o, regRead false c s = .next o ∧ exec (reg c x) s = .next (multiplied o.1 s.y (accum x s o.2))

/-- The three forms of sqr, sqra, sqrs (41_multiply R202): the accumulator by `accum`, then x, y and p. -/
def SquareForms (reg : Reg → Acc → Instr) (ind : Fin 6 → PostMod → Acc → Instr) (dir : BitVec 8 → Acc → Instr)
    (bars : Reg → Acc → Bool) (accum : Acc → State → State → State) (ready : State → Prop) : Prop :=
  ∀ (x : Acc) (s : State), ready s →
    (∀ a, let o := dataRead (direct a s) s; exec (dir a x) s = .next (multiplied o.1 o.1 (accum x s o.2))) ∧
    (∀ n m, let o := dataRead (s.addr n) s
      exec (ind n m x) s = .next (multiplied o.1 o.1 (accum x s (postMod n m o.2)))) ∧
    ∀ c : Reg, c.isWord = true → bars c x = false → Readable c s →
      ∃ o, regRead false c s = .next o ∧ exec (reg c x) s = .next (multiplied o.1 o.1 (accum x s o.2))

end Sys2Proof.Machine
end

