-- ==== Sys2Proof/Certificates/Slice0/Obligations.lean ====
section
/-! DEFINITION. The statements. The terms they use are in Safety.lean; an equation
`exec i s = .next t` says the whole next state, so that what t does not name is unchanged. -/

open Sys2Proof Sys2Proof.Machine

/-! Encoding. -/

/-- Decoding the bytes of any instruction gives it back, with the bytes that follow it, whatever the code tables are.
Choices: log 4, log 42. -/
def Obligations.DecodeOfEncode : Prop :=
  ∀ (c : Params) (i : Instr) (rest : List Byte), c.wf = true →
    (∀ w, i = .unused w → isUnusedWord c w = true) → decode c (encodeBytes c i ++ rest) = .ok (i, rest)

/-- The first word alone decides the length; a second word is the instruction's own, and the word after a one-word
instruction is not looked at (R110, R128). And no bit that its row prints as x is decoded (R126, D8), nor bit 8 of mpy, mpys
and sqr (R132, D38): two first words that differ in such bits alone decode alike, or are both unused. The model's choice: an
unused pattern is one word long (log 30), and bit 8 of mpys is ignored (log 38). Choices: log 30, log 38, log 42. -/
def Obligations.SecondWordTaken : Prop :=
  ∀ (c : Params) (w w1 : Word),
    (∀ i, decodeWords c w w1 = .ok i → i.secondWord = if isTwoWord w then some w1 else none) ∧
    (isTwoWord w = false → ∀ w2, decodeWords c w w1 = decodeWords c w w2) ∧
    (let n := w.toNat
      let op := n / 512 % 16
      isTwoWord w = true ↔ n / 512 ∈ [10, 11, 24, 25, 46] ∨
        n / 8192 = 4 ∧ (n / 64 % 4 = 1 ∧ 6 ≤ op ∧ op ≤ 8 ∨ n / 64 % 4 = 3 ∧ op ≤ 5)) ∧
    ∀ v : Word, (∀ k, k ∉ undecodedBits c w.toNat → v.getLsbD k = w.getLsbD k) →
      decodeWords c v w1 = decodeWords c w w1 ∨
        (decodeWords c v w1 = .ok (.unused v) ∧ decodeWords c w w1 = .ok (.unused w))

/-- The words that decode to `unused`, as the ranges of R127, and that each of them is refused. Choices: log 17, log 42. -/
def Obligations.UnusedRanges : Prop :=
  ∀ (c : Params) (w w1 v : Word),
    (decodeWords c w w1 = .ok (.unused v) ↔
      v = w ∧
        let n := w.toNat
        let op := n / 512 % 16
        (0x0300 ≤ n ∧ n ≤ 0x03FF) ∨ (0x0A00 ≤ n ∧ n ≤ 0x0BFF) ∨ (0x3A00 ≤ n ∧ n ≤ 0x3BFF) ∨
        (0x3E00 ≤ n ∧ n ≤ 0x3FFF) ∨ (0x4400 ≤ n ∧ n ≤ 0x47FF) ∨ (0x5E00 ≤ n ∧ n ≤ 0x5FFF) ∨
        (0xC000 ≤ n ∧ n ≤ 0xCBFF) ∨ (0xD200 ≤ n ∧ n ≤ 0xDFFF) ∨ (0xEE00 ≤ n ∧ n ≤ 0xFFFF) ∨
        (0xC000 ≤ n ∧ n ≤ 0xDFFF ∧ n / 128 % 2 = 1) ∨
        (0x1800 ≤ n ∧ n ≤ 0x1FFF ∧ c.modaCode[n / 16 % 16]? = some none) ∨
        (0x8000 ≤ n ∧ n ≤ 0x9FFF ∧ n / 64 % 4 = 1 ∧ (op ≤ 5 ∨ 9 ≤ op)) ∨
        (0x8000 ≤ n ∧ n ≤ 0x9FFF ∧ n / 64 % 4 = 3 ∧ 6 ≤ op)) ∧
    ∀ s, exec (.unused w) s = .refused .unusedOpcode

/-- The words that do not decode (R127): one with a register code that names no register, and one with `NNN` = 6 or 7
where the field names an address register; no other. A step that fetches such a word is refused under that name.
Choices: log 17, log 42. -/
def Obligations.UndecodableWords : Prop :=
  ∀ (c : Params) (w w1 : Word),
    let noReg := ∃ k ∈ regFields w.toNat, c.regCode[k]? = some none
    (decodeWords c w w1 = .error .registerCode31 ↔ noReg) ∧
    (decodeWords c w w1 = .error .addressRegister67 ↔ ¬ noReg ∧ ∃ k ∈ addrFields w.toNat, 6 ≤ k) ∧
    decodeWords c w w1 ≠ .error .truncated ∧
    ∀ s : State,
      let q := sample s
      q.RunsInstr → q.store1 = none → q.store2 = none → Plain (progMap q.params q.pc) →
      (isTwoWord w = true → Plain (progMap q.params (q.pc + 1))) → progWord q.pc q = w → q.params = c →
      (noReg → step s = .refused .registerCode31) ∧
      (¬ noReg → (∃ k ∈ addrFields w.toNat, 6 ≤ k) → step s = .refused .addressRegister67)

/-- Words written out from the spec's encodings decode to their instructions. Choices: log 1. -/
def Obligations.ExampleWordsDecode : Prop :=
  decodeWords Params.default 0x8007 0 = .ok (.addReg (.r 1) .a0) ∧
  decodeWords Params.default 0x81C0 0xFFFF = .ok (.addLong 0xFFFF .a1) ∧
  decodeWords Params.default 0x8099 0 = .ok (.addInd 1 .step .a0) ∧
  decodeWords Params.default 0x1981 0 = .ok (.clr .a1 .eq) ∧
  decodeWords Params.default 0x0C08 0 = .ok (.norm .a0 0 .inc) ∧
  decodeWords Params.default 0xD15D 0 = .ok (.msuPair 1 .dec 1 .step .a1) ∧
  decodeWords Params.default 0x4989 0 = .ok (.movRegInd .x 1 .inc) ∧
  decodeWords Params.default 0x42A8 0 = .ok (.movpIndInd 0 .inc 1 .inc) ∧
  decodeWords Params.default 0x1607 0x0105 = .ok (.bkrepReg (.r 1) 0x0105) ∧
  decodeWords Params.default 0x2FE7 0 = .ok (.brr 0x7E .nn) ∧
  decodeWords Params.default 0x08FF 0 = .ok (.lpg 0xFF) ∧
  decodeWords Params.default 0x0300 0 = .ok (.unused 0x0300)

/-! The step. -/

/-- With no reset, no STOP mode, no interrupt, plain memory at pc, and no recent store into the words there, a step runs
the instruction that those words decode to, on the state with pc past them, and then the units; and so it does for
whatever words the fetch gives. That pc goes from FFFFh to 0000h, also between two words, is the model's choice (D20).
Choices: log 8, log 28. -/
def Obligations.StepRunsDecoded : Prop :=
  ∀ (s : State) (i : Instr),
    let q := sample s
    q.RunsInstr →
    (q.store1 = none → q.store2 = none → Plain (progMap q.params q.pc) →
      (i.secondWord ≠ none → Plain (progMap q.params (q.pc + 1))) →
      decodeWords q.params (progWord q.pc q) (progWord (q.pc + 1) q) = .ok i →
      let len : Word := if i.secondWord.isSome then 2 else 1
      let f : State := { q with pc := q.pc + len, codeCtr := q.codeCtr + len.toNat, storeNow := none }
      sequenceRefusal i f = none →
      step s = andThen (exec i f) fun t => .next (afterInstr i q.pc (q.pc + len - 1) q.pcPending t)) ∧
    ∀ (w : Fetched) (f : State), fetch q = .next (w, f) → decodeWords q.params w.w0 w.w1 = .ok i →
      sequenceRefusal i f = none →
      step s = andThen (exec i f) fun t => .next (afterInstr i q.pc (f.pc - 1) q.pcPending t)

/-- After an instruction: what is noted of it, then the repeat unit, then a pc write that was pending, then the
block-repeat unit, which has the last word on pc (steps 7 to 9 of R16). Choices: log 18, log 23, log 24. -/
def Obligations.AfterInstruction : Prop :=
  ∀ (i : Instr) (start last : Word) (p : Option Word) (t : State), (t.repArmed = true → t.repActive = false) →
    let u := noted i t
    let v : State := match p with
      | none => u
      | some a => { u with pc := a, pcPending := none }
    let r := afterInstr i start last p t
    let once := isRepeat i = true ∨ (t.repArmed = false ∧ t.repActive = false)
    let again := isRepeat i = false ∧ (t.repArmed = true ∨ t.repActive = true)
    (once → ¬ InLoop t → r = v) ∧
    (once → InLoop t → last ≠ t.bkEnd → r = { v with lpLate := t.lpLate - 1 }) ∧
    (once → InLoop t → last = t.bkEnd → t.lc.toNat % 256 ≠ 0 →
      r = { v with lc := t.lc - 1, pc := t.bkStart, lpLate := t.lpLate - 1 }) ∧
    (once → InLoop t → last = t.bkEnd → t.lc.toNat % 256 = 0 →
      r = { v with lc := t.lc + 255, st2 := { t.st2 with lp := false }, lpLate := 0 }) ∧
    (again → t.repCnt ≠ 0 →
      r = { u with repArmed := false, repActive := true, repCnt := t.repCnt - 1, pc := start }) ∧
    (again → t.repCnt = 0 → r = afterInstr i start last p { t with repArmed := false, repActive := false })

/-- After a move to pc only nop may follow (R373); a repeated instruction and the last two of a live loop are
restricted (R375, R376); and no other sequence is refused. That the last rule binds where the loop is live when its last
instruction ends, and how the length of the next instruction is known, are the model's choices (log 19, log 20, log 30).
Choices: log 17, log 19, log 20, log 30. -/
def Obligations.SequenceRules : Prop :=
  ∀ (i : Instr) (start : Word) (s : State),
    let ends := transfersOrLoops i = true ∨ movesTo i = some .pc
    let single := i.secondWord = none ∧ breaksContinuity i = false ∧ isProgramMove i = false ∧ movesTo i ≠ some .pc
    let repeats := s.repArmed = true ∨ s.repActive = true
    (s.pcPending ≠ none → i ≠ .nop → runInstr i start s = .refused .nopRequired) ∧
    (s.pcPending = none → repeats → ¬ single → runInstr i start s = .refused .notRepeatable) ∧
    (s.pcPending = none → ¬ repeats → OfLastTwo s → ends → runInstr i start s = .refused .loopEndRestricted) ∧
    (sequenceRefusal i s = none ↔
      (s.pcPending ≠ none → i = .nop) ∧ (repeats → single) ∧ (OfLastTwo s → ¬ ends)) ∧
    (sequenceRefusal i s = none → runInstr i start s =
      andThen (exec i s) fun t => .next (afterInstr i start (s.pc - 1) s.pcPending t))

/-- The word at a program address, fetched or read by movp: memory's in plain memory, but for a fetched word that one of
the two preceding instructions replaced, which may be the old one (R104); the environment's answer at a Device address;
at an Absent one the fetch is refused and movp reads any value (R86). And what is looked at ahead, during an instruction
that has done its stores, is the word that the next step fetches. Choices: log 5, log 6, log 8, log 17, log 19, log 24. -/
def Obligations.FetchedWord : Prop :=
  ∀ (a : Word) (s : State),
    (Plain (progMap s.params a) → progRead a s = (progWord a s, s) ∧ ∃ o, fetchWord a s = .next o ∧
      (o.1 = progWord a s ∨
        ∃ c, (s.store1 = some c ∨ s.store2 = some c) ∧ c.addr = a ∧ o.1 = c.old) ∧
      o.2 = { s with codeCtr := s.codeCtr + 1 } ∧
      ((∀ c, s.store1 = some c ∨ s.store2 = some c → c.addr ≠ a) → o.1 = progWord a s)) ∧
    (progMap s.params a = .device →
      AnswersRead .prog a s { s with freeCtr := s.freeCtr + 1 } (progRead a s) ∧
      let t := { s with codeCtr := s.codeCtr + 1 }
      ∃ o, fetchWord a s = .next o ∧ AnswersRead .prog a t t o) ∧
    (progMap s.params a = .absent →
      fetchWord a s = .refused .fetchAbsent ∧ (progRead a s).2 = { s with freeCtr := s.freeCtr + 1 }) ∧
    ∀ (i : Instr) (start last : Word) (p : Option Word) (w : Word),
      (∃ t, fetchWord a (sample (afterInstr i start last p s)) = .next (w, t)) ↔ ∃ t, fetchWord a s.ahead = .next (w, t)

/-! Reset and STOP mode. -/

/-- RESET before anything else: the listed bits and the hidden state are cleared, the rest is kept; and the
state after power-up has the reset values (R75, R360). Choices: log 9, log 10. -/
def Obligations.ResetState : Prop :=
  (∀ s : State, (sample s).pins.reset = true →
    let q := sample s
    step s = .next
      { q with
        pc := 0
        st0 := ⟨false, false, false, false, false, false, false, false, false, false, false, false⟩
        st1 := ⟨0, q.st1.page⟩
        st2 := ⟨false, false, false, false, 0⟩
        stk := [], repArmed := false, repActive := false, lpLate := 0, pcPending := none
        inBpi := false, inTrap := false, holdOff := false
        st0Hazard := false, storeNow := none, store1 := none, store2 := none, irqTaken := [] }) ∧
  let z := State.reset
  z.pc = 0 ∧ z.st0 = ⟨false, false, false, false, false, false, false, false, false, false, false, false⟩ ∧
    z.st1.sp = 0 ∧ z.st2 = ⟨false, false, false, false, 0⟩ ∧ z.stk = [] ∧ z.repArmed = false ∧
    z.repActive = false ∧ z.lpLate = 0 ∧ z.pcPending = none ∧ z.inBpi = false ∧ z.inTrap = false ∧ z.holdOff = false ∧
    z.st0Hazard = false ∧ z.storeNow = none ∧ z.store1 = none ∧ z.store2 = none ∧ z.irqTaken = []

/-- In STOP mode a step changes nothing but what the environment changes: pins, ext registers, the answers of the
devices (R345). Choices: log 25, log 6. -/
def Obligations.StopModeFreezes : Prop :=
  ∀ s : State,
    ((sample s).pins.reset = false → s.st2.stp = true → step s = .next (sample s)) ∧
    let q := sample s
    q = { s with pins := q.pins, inputs := q.inputs, iack := false, ext := q.ext, answers := q.answers, bus := [] }

/-- A step takes what the environment does from the head of `inputs`: the pin levels (R322), the changes of ext registers
(R44), the answers of the devices (R100); with nothing listed the pins are low and nothing else happens. No step takes
more than that one. Choices: log 6, log 7. -/
def Obligations.InputsSampled : Prop :=
  ∀ s : State,
    (∀ e rest, s.inputs = e :: rest →
      (sample s).pins = e.pins ∧ (sample s).answers = e.answers ∧ (sample s).inputs = rest ∧
      (∀ k before v after, e.ext = before ++ (k, v) :: after → (∀ q ∈ after, q.1 ≠ k) →
        (sample s).extReg k = v) ∧
      ∀ k, (∀ q ∈ e.ext, q.1 ≠ k) → (sample s).extReg k = s.extReg k) ∧
    (s.inputs = [] → sample s = { s with pins := Pins.low, iack := false, answers := [], bus := [] }) ∧
    ∀ t, step s = .next t →
      t.inputs = s.inputs.tail ∧ t.pins = (s.inputs.head?.map EnvInput.pins).getD Pins.low

/-! Invariants and rules of the whole machine. -/

/-- Every step from a legal state leads to a legal state, and leaves the parameters as they are (R7).
Choices: log 42. -/
def Obligations.LegalKept : Prop := ∀ s t : State, s.Legal → step s = .next t → t.Legal ∧ t.params = s.params

/-- The state after reset is legal. -/
def Obligations.ResetLegal : Prop := State.reset.Legal

/-- No step changes a program word that the spaces do not share, nor one of the common ROM (R80, R86, R89). That no
store reaches program space otherwise (the window A000h to BFFFh is the environment's) is the model's choice.
Choices: log 5, log 6. -/
def Obligations.ProgramWordsKept : Prop :=
  ∀ (s t : State) (a : Word), step s = .next t → progMap s.params a ≠ .shared → progWord a t = progWord a s

/-- The only stuck states are a push on a full stack and a pop of an empty one (R41, R42). Choices: log 16. -/
def Obligations.FaultsAreStackFaults : Prop :=
  ∀ (s : State) (e : Fault), step s = .fault e →
    (e = .stackOverflow ∧ 16 ≤ s.stk.length) ∨ (e = .stackUnderflow ∧ s.stk = [])

/-- L is sticky (R58), and R is changed by modr and norm alone (R59), but for a write of st0. And no instruction changes a
flag that its row of the table of R390, or for a move its page (R222), does not list. That of the reads of aXh and aXl only
those of mov touch L, and that divs leaves V, C, L and R, are the model's choices. Choices: log 11, log 15. -/
def Obligations.StickyFlags : Prop :=
  ∀ (i : Instr) (s t : State), exec i s = .next t →
    (movesTo i ≠ some .st0 → (s.st0.l = true → t.st0.l = true) ∧ (setsR i = false → t.st0.r = s.st0.r)) ∧
    let f := flagColumn i
    (f.zmne = false → t.st0.z = s.st0.z ∧ t.st0.m = s.st0.m ∧ t.st0.n = s.st0.n ∧ t.st0.e = s.st0.e) ∧
    (f.v = false → t.st0.v = s.st0.v) ∧ (f.c = false → t.st0.c = s.st0.c) ∧
    (f.l = false → t.st0.l = s.st0.l) ∧ (f.r = false → t.st0.r = s.st0.r)

/-- Who writes the special registers: p, lc, cfgi, cfgj, st1, the stored bits of st2, ext0 to ext7 and the loop
unit's own registers (R38, R49). That a read of an ext register leaves it as it is, is the model's choice (R44 leaves it to
the device). Choices: log 6. -/
def Obligations.SpecialRegisterWriters : Prop :=
  ∀ (i : Instr) (s t : State), exec i s = .next t →
    (multiplies i = false → movesTo i ≠ some .p → t.p = s.p) ∧
    (isBkrep i = false → movesTo i ≠ some .lc → t.lc = s.lc) ∧
    (movesTo i ≠ some .cfgi → t.cfgi = s.cfgi) ∧ (movesTo i ≠ some .cfgj → t.cfgj = s.cfgj) ∧
    (movesTo i ≠ some .st1 → t.st1.sp = s.st1.sp ∧ (isLpg i = false → t.st1.page = s.st1.page)) ∧
    (movesTo i ≠ some .st2 → t.st2.stp = s.st2.stp ∧ t.st2.ou1 = s.st2.ou1 ∧ t.st2.ou0 = s.st2.ou0 ∧
      t.st2.m = s.st2.m) ∧
    (isBkrep i = false → (s.st2.lp = false → t.st2.lp = false) ∧ t.bkStart = s.bkStart ∧ t.bkEnd = s.bkEnd) ∧
    (isRepeat i = false → t.repCnt = s.repCnt ∧ t.repArmed = s.repArmed) ∧ t.repActive = s.repActive ∧
    ∀ k, movesTo i ≠ some (.ext k) → t.extReg k = s.extReg k

/-- Who writes the interrupt controls: IM0, IM1, SAT only a write of st0; IE also eint, dint, reti; the
in-service bits only trap and reti (R60, R61, R62, R332). Choices: log 21. -/
def Obligations.InterruptControls : Prop :=
  ∀ (i : Instr) (s t : State), exec i s = .next t →
    (movesTo i ≠ some .st0 → t.st0.im0 = s.st0.im0 ∧ t.st0.im1 = s.st0.im1 ∧ t.st0.sat = s.st0.sat ∧
      (i ≠ .eint → i ≠ .dint → i ≠ .reti → t.st0.ie = s.st0.ie)) ∧
    (i ≠ .trap → i ≠ .reti → t.inTrap = s.inTrap ∧ t.inBpi = s.inBpi)

/-- Where instructions stop on their operands: an ill-formed one never completes; the accumulator itself, a wide
register, an empty stack where tos is a source, SP = 11, addresses outside the spaces, and the notes of the mov page each
have their named stop (R33, R41, R101, R152, R221, R231, R246, R265). That tos pops in every source field, and which stop
is named where two rules are broken, are the model's choices. Choices: log 16, log 17, log 34, log 37, log 39. -/
def Obligations.OperandStops : Prop :=
  (∀ (i : Instr) (s t : State), exec i s = .next t → i.wf s.params = true) ∧
  ∀ (s : State) (x : Acc),
    (∀ c : Reg, c.partOf x = true → ∀ i ∈ anyRegForms c x ++ wordRegForms c x,
      exec i s = .refused .sameAccumulator) ∧
    (∀ c : Reg, c.isWord = false →
      (c.partOf x = false → ∀ i ∈ wordRegForms c x, exec i s = .refused .notWordRegister) ∧
      ∀ n m last, ∀ i ∈ [Instr.mpyReg c, .sqrReg c, .repReg c, .bkrepReg c last, .movRegInd c n m],
        exec i s = .refused .notWordRegister) ∧
    (s.stk = [] → s.st1.sp ≠ 3 →
      ∀ i ∈ anyRegForms .tos x ++ wordRegForms .tos x ++ [.mpyReg .tos, .sqrReg .tos, .repReg .tos],
        exec i s = .fault .stackUnderflow) ∧
    (s.stk = [] →
      (∀ dst : Reg, dst ≠ .tos → exec (.movRegReg .tos dst) s = .fault .stackUnderflow) ∧
      (∀ n m, exec (.movRegInd .tos n m) s = .fault .stackUnderflow) ∧
      ∀ last, s.st2.lp = false → exec (.bkrepReg .tos last) s = .fault .stackUnderflow) ∧
    (s.st1.sp = 3 →
      (∀ i ∈ Instr.movRegReg .p (.acc x) :: anyRegForms .p x, exec i s = .refused .spReserved) ∧
      (∀ a n m w j i k, ∀ f ∈ accumulateForms x a n m w j i k, exec f s = .refused .spReserved) ∧
      (∀ c : Reg, c.isWord = true → c.partOf x = false →
        ∀ f ∈ [Instr.macReg c x, .msuReg c x, .sqraReg c x, .sqrsReg c x], exec f s = .refused .spReserved) ∧
      ∀ cc, condTrue cc s = true → exec (.pacr x cc) s = .refused .spReserved) ∧
    (∀ j jj i k, ((s.addr (regJ j)).toNat < 0xFC00 ∨ 0xFBFF < (s.addr (regI i)).toNat) →
      exec (.mpyPair j jj i k) s = .refused .pairOutsideSpaces ∧
      (s.st1.sp ≠ 3 → exec (.macPair j jj i k x) s = .refused .pairOutsideSpaces ∧
        exec (.msuPair j jj i k x) s = .refused .pairOutsideSpaces)) ∧
    (∀ n m, m ≠ .keep → exec (.movRegInd (.r n) n m) s = .refused .movPostModified ∧
      exec (.movIndReg n m (.r n)) s = .refused .movPostModified) ∧
    (∀ e n m, s.params.xramWords ≤ (s.addr n).toNat → (s.addr n).toNat < 65536 - s.params.yramWords →
      exec (.movRegInd (.ext e) n m) s = .refused .movExtOffCore ∧
      exec (.movIndReg n m (.ext e)) s = .refused .movExtOffCore) ∧
    (∀ dst : Reg, (∀ z, dst ≠ .acc z) → exec (.movRegReg (.acc x) dst) s = .refused .movAccumulatorSource ∧
      (dst ≠ .p → exec (.movRegReg .p dst) s = .refused .movProductSource)) ∧
    (∀ n m i k, n = regI i → exec (.movpIndInd n m i k) s = .refused .movpSameRegister) ∧
    ∀ last, exec (.bkrepReg .pc last) s = .refused .bkrepCountPc

/-! Memory. -/

/-- Every byte of memory outside the word an instruction stores to reads as before; all of memory for an
instruction that stores nothing. Which two bytes are a word's, and that a store to a Device address (the windows A000h to
BFFFh and E000h to EFFFh) changes no byte, are the model's choices. Choices: log 4, log 5, log 6. -/
def Obligations.StoreFrame : Prop :=
  ∀ (i : Instr) (s t : State), exec i s = .next t →
    ∀ k : Nat, (∀ a, storeAddress i s = some a → k ≠ 2 * a.toNat ∧ k ≠ 2 * a.toNat + 1) →
      t.mem.read k = s.mem.read k

/-- What stands behind an address: 1000h to 7FFFh is common to both spaces, and the 2K words of common ROM in it cannot be
written; the on-core RAM, the windows of the devices and the 1K words of program ROM; elsewhere the chip's spans, and RAM by
default (R6, R80, R83, R84, R86, D37). Two addresses name one cell only if they are one common address.
Choices: log 4, log 5, log 42. -/
def Obligations.MemoryMap : Prop :=
  (∀ (c : Params) (a : Word),
    let n := a.toNat
    let within := fun (base : Option Word) (size : Nat) => ∃ b, base = some b ∧ b.toNat ≤ n ∧ n < b.toNat + size
    (0x1000 ≤ n ∧ n ≤ 0x7FFF → progMap c a = dataMap c a ∧
      (within c.commonRom 2048 → dataMap c a = .rom) ∧ (¬ within c.commonRom 2048 → dataMap c a = .shared)) ∧
    (¬ (0x1000 ≤ n ∧ n ≤ 0x7FFF) → dataMap c a ≠ .shared ∧ progMap c a ≠ .shared ∧
      (n < c.xramWords ∨ 65536 - c.yramWords ≤ n → dataMap c a = .ram) ∧
      (c.wf = true → (0xA000 ≤ n ∧ n ≤ 0xBFFF ∨ 0xE000 ≤ n ∧ n ≤ 0xEFFF) → dataMap c a = .device) ∧
      (within c.progRom 1024 → progMap c a = .rom))) ∧
  (∀ a : Word, ¬ (0x1000 ≤ a.toNat ∧ a.toNat ≤ 0x7FFF) → progMap .default a = .ram ∧
    (¬ (0xA000 ≤ a.toNat ∧ a.toNat ≤ 0xBFFF ∨ 0xE000 ≤ a.toNat ∧ a.toNat ≤ 0xEFFF) → dataMap .default a = .ram)) ∧
  ∀ a b : Word, (progCell a = dataCell b ↔ a = b ∧ 0x1000 ≤ a.toNat ∧ a.toNat ≤ 0x7FFF) ∧
    (progCell a = progCell b → a = b) ∧ (dataCell a = dataCell b → a = b)

/-- Data accesses (R88, R86, R100): plain memory gives the word it holds, a Device address what the environment answers;
a store changes the word in RAM and the shared words, goes to the environment at a Device address, and changes nothing in ROM
or where nothing is; a stored word reads back, in program space too where it is shared, and every other word stays
(R80, R102). Choices: log 5, log 6, log 8. -/
def Obligations.DataAccess : Prop :=
  ∀ (a v : Word) (s : State),
    let r := dataMap s.params a
    let t := dataWrite a v s
    (Plain r → dataRead a s = (heldWord a s, s)) ∧
    (r = .device → AnswersRead .data a s { s with freeCtr := s.freeCtr + 1 } (dataRead a s) ∧ t = { s with bus := .write a v :: s.bus }) ∧
    (r = .absent → (dataRead a s).2 = { s with freeCtr := s.freeCtr + 1 } ∧ t = s) ∧
    (r = .rom → t = s) ∧
    (r = .ram → t = { s with mem := t.mem }) ∧
    (r = .shared → t = { s with mem := t.mem, storeNow := some ⟨a, heldWord a s⟩ }) ∧
    (s.mem.wf → t.mem.wf ∧ (r = .ram ∨ r = .shared → heldWord a t = v) ∧ (r = .shared → progWord a t = v) ∧
      ∀ b, b ≠ a → heldWord b t = heldWord b s ∧ progWord b t = progWord b s)

/-- The address of a direct operand is the page and the 8 bits of the instruction (R92). -/
def Obligations.DirectAddress : Prop :=
  ∀ (a : BitVec 8) (s : State), (direct a s).toNat = s.st1.page.toNat * 256 + a.toNat

/-- Linear post-modification: rN + q modulo 65,536, with q from the modifier and STEPx; modulo where the Mn bit is set;
nothing else changes (R95). Whether the register wrapped, which the R flag of modr and norm asks (R59), is what the modulo
modifier says, and never so elsewhere. That the modulo modifier acts also where the conditions of R97 fail is D36.
Choices: log 36. -/
def Obligations.PostModification : Prop :=
  ∀ (n : Fin 6) (m : PostMod) (s : State),
    let cfg := if n.val ≤ 3 then s.cfgi else s.cfgj
    let step : Int := if cfg.toNat % 128 < 64 then (cfg.toNat % 128 : Nat) else (cfg.toNat % 128 : Nat) - 128
    let q : Int := match m with
      | .keep => 0
      | .inc => 1
      | .dec => -1
      | .step => step
    let linear : Word := BitVec.ofInt 16 ((s.addr n).toNat + q)
    let new : Word × Bool :=
      if m = .keep ∨ s.st2.m.getLsbD n.val = false then (linear, false)
      else modulo (s.addr n) q (cfg.toNat / 128)
    modified n m s = new ∧ postMod n m s = { s with r := s.r.set n new.1 }

/-- The modulo modifier (R96): with k the least integer such that 2^k > MOD, the register wraps from MOD to 0
in its k low bits upward and from 0 to MOD downward, and adds q otherwise. That this holds of every register value, step
and MOD, also where the conditions for proper modulo calculation fail (R97), is D36. Choices: log 36. -/
def Obligations.ModuloModifier : Prop :=
  ∀ (old : Word) (q : Int) (md k : Nat), md < 512 → md < 2 ^ k → (∀ j, md < 2 ^ j → k ≤ j) →
    let low := old.toNat % 2 ^ k
    (0 < q → low = md → modulo old q md = (BitVec.ofNat 16 (old.toNat - low), true)) ∧
    (q < 0 → low = 0 → modulo old q md = (BitVec.ofNat 16 (old.toNat + md), true)) ∧
    (¬ (0 < q ∧ low = md) → ¬ (q < 0 ∧ low = 0) →
      modulo old q md = (BitVec.ofInt 16 (old.toNat + q), false))

/-! Registers. -/

/-- Z, M, E and N of a 36-bit result as facts about the signed number (R51, R53, R54, R57). Choices: log 12. -/
def Obligations.ResultFlags : Prop :=
  ∀ (f : St0) (out : Accum), setZMNE f out = zmneOf f out

/-- Registers as 16-bit sources (R46): the plain ones, tos, lc, open in the instruction before the last of a loop and in
the only one of a one-instruction loop (R271), and what cannot be read. That ext0 to ext7 hold their value and are not
changed by a read, the value of pc, and that an interrupt's return address taken off is remembered, are the model's choices
(log 6, log 28, log 20). Choices: log 6, log 8, log 16, log 17, log 19, log 20, log 28, log 34. -/
def Obligations.RegisterReads : Prop :=
  ∀ (b : Bool) (s : State),
    (∀ n, regRead b (.r n) s = .next (s.r[n], s)) ∧ regRead b .x s = .next (s.x, s) ∧
    regRead b .y s = .next (s.y, s) ∧ regRead b .pc s = .next (s.pc, s) ∧
    regRead b .cfgi s = .next (s.cfgi, s) ∧ regRead b .cfgj s = .next (s.cfgj, s) ∧
    (∀ k, regRead b (.ext k) s = .next (s.ext[k], s)) ∧
    (∀ v rest, s.stk = v :: rest → regRead b .tos s = .next (v.value,
      { s with stk := rest, irqTaken := if v.irq then v.value :: s.irqTaken else s.irqTaken })) ∧
    (s.stk = [] → regRead b .tos s = .fault .stackUnderflow) ∧
    (∃ v, (LcOpen v s → regRead b .lc s = .next (v, { s with freeCtr := s.freeCtr + 1 })) ∧
      (¬ LcOpen v s → regRead b .lc s = .next (s.lc, s))) ∧
    regRead b .p s = .refused .notWordRegister ∧ ∀ x, regRead b (.acc x) s = .refused .notWordRegister

/-- The halves of an accumulator over the data bus: limited to 32 bits while SAT = 0, and then L is set by
`mov`; the accumulator is unchanged (R48, log 11). -/
def Obligations.SaturatedReads : Prop :=
  ∀ (b : Bool) (x : Acc) (s : State),
    regRead b (.acch x) s = .next (BitVec.ofInt 16 (busNumber x s / 65536), limitNoted b x s) ∧
    regRead b (.accl x) s = .next (BitVec.ofInt 16 (busNumber x s), limitNoted b x s)

/-- The status registers as sources: the named bits in their places, the pins in st2, and no register
changed (R36, R37, R38); LP is open in the instruction before the
last of a loop (R270), the other bits are whatever they are. Choices: log 8, log 19, log 23. -/
def Obligations.StatusReads : Prop :=
  ∀ (b : Bool) (s : State),
    (∃ v, regRead b .st0 s = .next (v, { s with freeCtr := s.freeCtr + 1 }) ∧
      (s.st0Hazard = false →
        v[11] = s.st0.z ∧ v[10] = s.st0.m ∧ v[9] = s.st0.n ∧ v[8] = s.st0.v ∧ v[7] = s.st0.c ∧
        v[6] = s.st0.e ∧ v[5] = s.st0.l ∧ v[4] = s.st0.r ∧ v[3] = s.st0.im1 ∧ v[2] = s.st0.im0 ∧
        v[1] = s.st0.ie ∧ v[0] = s.st0.sat)) ∧
    (∃ v, regRead b .st1 s = .next (v, { s with freeCtr := s.freeCtr + 1 }) ∧
      v.toNat / 1024 % 4 = s.st1.sp.toNat ∧ v.toNat % 256 = s.st1.page.toNat) ∧
    ∃ v, regRead b .st2 s = .next (v, { s with freeCtr := s.freeCtr + 1 }) ∧
      v[15] = s.pins.int1 ∧ v[14] = s.pins.int0 ∧ v[13] = s.st2.stp ∧
      (¬ LpOpen v s → v[12] = s.st2.lp) ∧ v[11] = s.pins.iuser1 ∧ v[10] = s.pins.iuser0 ∧
      v[9] = s.st2.ou1 ∧ v[8] = s.st2.ou0 ∧ v.toNat % 64 = s.st2.m.toNat

/-- Registers as 16-bit destinations (R47), with the accumulator's widening (R22) and flags, ph, the
delayed pc write, the push, and the status registers; and where a write stops: on a full stack (R41, R42, D21), in a loop (R269,
R271). N after a write of an
accumulator, ext as plain storage, the late clear of LP, that a pc write to the loop's end stops outside the
loop's body too, until when it stops, and the mark of an interrupt's return address put back on tos are the
model's choices, and so is the fault of a push on a full stack. Choices: log 6, log 12, log 16, log 17, log 18, log 20, log 22, log 35. -/
def Obligations.RegisterWrites : Prop :=
  ∀ (c : Reg) (v : Word) (s : State),
    (Writable c v s → regWrite c v s = .next (written c v s)) ∧
    (c = .tos → 16 ≤ s.stk.length → regWrite c v s = .fault .stackOverflow) ∧
    (c = .lc → s.st2.lp = true → regWrite c v s = .refused .lcWrittenInLoop) ∧
    (c = .pc → InLoopAfter 2 s → v = s.bkEnd → regWrite c v s = .refused .jumpToLoopEnd)

/-- Shifted p is p, half of p rounded down, or twice p, as ST1.SP says; SP = 11 is refused (R33). Choices: log 17. -/
def Obligations.ShiftedProduct : Prop :=
  ∀ s : State,
    (s.st1.sp ≠ 3 → shiftedP s = .next (BitVec.ofInt 36 (shiftedNumber s)) ∧
      (BitVec.ofInt 36 (shiftedNumber s)).toInt = shiftedNumber s) ∧
    (s.st1.sp = 3 → shiftedP s = .refused .spReserved)

/-! The ALU group. -/

/-- add, sub and cmp in all their forms: the exact sum or difference, its low 36 bits, and the seven flags; cmp sets the
flags of the subtraction and no register (R155 to R157). Choices: log 12, log 31. -/
def Obligations.AddSub : Prop :=
  AluForms .addReg .addInd .addDir .addLong (fun x v => added x v.toInt) (fun x v => added x v.toInt) ∧
  (∀ (imm : BitVec 8) (x : Acc) (s : State), exec (.addImm imm x) s = .next (added x imm.toNat s)) ∧
  AluForms .subReg .subInd .subDir .subLong (fun x v => subtracted x v.toInt)
    (fun x v => subtracted x v.toInt) ∧
  (∀ (imm : BitVec 8) (x : Acc) (s : State), exec (.subImm imm x) s = .next (subtracted x imm.toNat s)) ∧
  AluForms .cmpReg .cmpInd .cmpDir .cmpLong (fun x v => compared x v.toInt) (fun x v => compared x v.toInt) ∧
  ∀ (imm : BitVec 8) (x : Acc) (s : State), exec (.cmpImm imm x) s = .next (compared x imm.toNat s)

/-- or and xor in all their forms: the 16-bit operand with zeros above it, all 36 bits of the wide ones; Z M N E
alone (R158, R160). Choices: log 12, log 32. -/
def Obligations.OrXor : Prop :=
  AluForms .orReg .orInd .orDir .orLong
    (fun x v s => moved x (BitVec.ofNat 36 ((s.acc x).toNat ||| v.toNat)) s)
    (fun x v s => moved x (s.acc x ||| v) s) ∧
  (∀ (imm : BitVec 8) (x : Acc) (s : State),
    exec (.orImm imm x) s = .next (moved x (BitVec.ofNat 36 ((s.acc x).toNat ||| imm.toNat)) s)) ∧
  AluForms .xorReg .xorInd .xorDir .xorLong
    (fun x v s => moved x (BitVec.ofNat 36 ((s.acc x).toNat ^^^ v.toNat)) s)
    (fun x v s => moved x (s.acc x ^^^ v) s) ∧
  ∀ (imm : BitVec 8) (x : Acc) (s : State),
    exec (.xorImm imm x) s = .next (moved x (BitVec.ofNat 36 ((s.acc x).toNat ^^^ imm.toNat)) s)

/-- and in all its forms: a 16-bit operand clears bits 35:16; the short immediate keeps bits 15:8 and shows the
flags the low byte alone (R159). Choices: log 12, log 32. -/
def Obligations.AndForms : Prop :=
  AluForms .andReg .andInd .andDir .andLong
    (fun x v s => moved x (BitVec.ofNat 36 ((s.acc x).toNat % 65536 &&& v.toNat)) s)
    (fun x v s => moved x (s.acc x &&& v) s) ∧
  ∀ (imm : BitVec 8) (x : Acc) (s : State),
    let a := (s.acc x).toNat
    let low := a % 256 &&& imm.toNat
    exec (.andImm imm x) s =
      .next { s.setAcc x (BitVec.ofNat 36 (a / 256 % 256 * 256 + low)) with
              st0 := zmneOf s.st0 (BitVec.ofNat 36 low) }

/-- addl, subl, addh, subh in all their forms (R161 to R164). Choices: log 12, log 31. -/
def Obligations.LowHighArith : Prop :=
  WordForms .addlReg .addlInd .addlDir (fun x v => added x v.toNat) ∧
  WordForms .sublReg .sublInd .sublDir (fun x v => subtracted x v.toNat) ∧
  WordForms .addhReg .addhInd .addhDir (fun x v => added x (v.toInt * 65536)) ∧
  WordForms .subhReg .subhInd .subhDir (fun x v => subtracted x (v.toInt * 65536))

/-! moda, norm, divs. -/

/-- shr, shr4, shl, shl4, ror, rol where the condition is met: the result, C, V, and Z M N E; V and L as each
rule says (R171, R172, R174 to R178). The N of every result is the
repaired formula of D13, the model's choice of D14 is what a shift moves in and out. Choices: log 12, log 13, log 14, log 42. -/
def Obligations.ShiftsAndRotates : Prop :=
  ∀ (x : Acc) (cc : Cond) (s : State), condTrue cc s = true →
    let a := (s.acc x).toInt
    let n := (s.acc x).toNat
    let right := fun d : Int => BitVec.ofInt 36 (a / d)
    let left := fun d : Int => BitVec.ofInt 36 (a * d)
    let ror := BitVec.ofNat 36 (n / 2 + if s.st0.c then 2 ^ 35 else 0)
    let rol := BitVec.ofNat 36 (n * 2 + if s.st0.c then 1 else 0)
    exec (.shr x cc) s = .next { moved x (right 2) s with
      st0 := { zmneOf s.st0 (right 2) with v := false, c := decide (a % 2 = 1) } } ∧
    exec (.shr4 x cc) s = .next { moved x (right 16) s with
      st0 := { zmneOf s.st0 (right 16) with v := false, c := decide (a / 8 % 2 = 1) } } ∧
    exec (.shl x cc) s = .next { moved x (left 2) s with
      st0 := { zmneOf s.st0 (left 2) with v := !inBits 35 a, c := decide (a < 0) } } ∧
    exec (.shl4 x cc) s = .next { moved x (left 16) s with
      st0 := { zmneOf s.st0 (left 16) with v := !inBits s.params.shl4VBits a, c := decide (n / 2 ^ 32 % 2 = 1) } } ∧
    exec (.ror x cc) s = .next { moved x ror s with
      st0 := { zmneOf s.st0 ror with c := decide (n % 2 = 1) } } ∧
    exec (.rol x cc) s = .next { moved x rol s with
      st0 := { zmneOf s.st0 rol with c := decide (a < 0) } }

/-- neg, rnd, pacr, not, clr, copy, clrr where the condition is met (R179 to R185); C and V of rnd
and pacr are those of the 36-bit addition (log 31). Choices: log 12, log 13, log 31. -/
def Obligations.AccumulatorFunctions : Prop :=
  ∀ (x : Acc) (cc : Cond) (s : State), condTrue cc s = true →
    let a := (s.acc x).toInt
    let q := shiftedNumber s
    exec (.neg x cc) s = .next { s.setAcc x (BitVec.ofInt 36 (-a)) with
      st0 := arithOf s.st0 (-a) (decide (a ≠ 0)) } ∧
    exec (.rnd x cc) s = .next (added x 32768 s) ∧
    (s.st1.sp ≠ 3 → exec (.pacr x cc) s = .next { s.setAcc x (BitVec.ofInt 36 (q + 32768)) with
      st0 := arithOf s.st0 (q + 32768) (decide (-32768 ≤ q ∧ q < 0)) }) ∧
    exec (.not x cc) s = .next (moved x (BitVec.ofInt 36 (-1 - a)) s) ∧
    exec (.clr x cc) s = .next (moved x 0 s) ∧
    exec (.copy x cc) s = .next (moved x (s.acc x.other) s) ∧
    exec (.clrr x cc) s = .next (moved x 0x8000 s)

/-- The sixteen conditions on the flags and the user pins; with a false condition the thirteen functions of
moda, and br, brr, call, callr, ret, change nothing (R119, R170, R280). Choices: log 33. -/
def Obligations.Conditions : Prop :=
  ∀ s : State,
    [Cond.always, .eq, .neq, .gt, .ge, .lt, .le, .nn, .v, .c, .e, .l, .nr, .niu0, .iu0, .iu1].map
      (fun cc => condTrue cc s) =
    [true, s.st0.z, !s.st0.z, !s.st0.m && !s.st0.z, !s.st0.m, s.st0.m, s.st0.m || s.st0.z, !s.st0.n, s.st0.v,
      s.st0.c, s.st0.e, s.st0.l, !s.st0.r, !s.pins.iuser0, s.pins.iuser0, s.pins.iuser1] ∧
    ∀ (x : Acc) (cc : Cond), condTrue cc s = false →
      (∀ i ∈ [Instr.shr x cc, .shl x cc, .shr4 x cc, .shl4 x cc, .ror x cc, .rol x cc, .not x cc, .neg x cc,
          .clr x cc, .copy x cc, .rnd x cc, .pacr x cc, .clrr x cc, .ret cc], exec i s = .next s) ∧
      (∀ a, exec (.br a cc) s = .next s ∧ exec (.call a cc) s = .next s) ∧
      ∀ d, exec (.brr d cc) s = .next s ∧ exec (.callr d cc) s = .next s

/-- norm: nothing at all when N = 1; else aX doubled with the flags of the doubling, rN modified, and R from
the modification (R186). Choices: log 12, log 13. -/
def Obligations.NormStep : Prop :=
  ∀ (x : Acc) (n : Fin 6) (m : PostMod) (s : State),
    let a := (s.acc x).toInt
    let o := modified n m s
    (s.st0.n = true → exec (.norm x n m) s = .next s) ∧
    (s.st0.n = false → exec (.norm x n m) s = .next
      { s.setAcc x (BitVec.ofInt 36 (2 * a)) with
        r := s.r.set n o.1
        st0 := { arithOf s.st0 (2 * a) (decide (a < 0)) with r := decide (o.1 = 0) && !o.2 } })

/-- divs: one step of the division, with Z M N E open; a divisor with bit 15 set is refused (R188).
Choices: log 8, log 15, log 17. -/
def Obligations.DivideStep : Prop :=
  ∀ (d : BitVec 8) (x : Acc) (s : State),
    let o := dataRead (direct d s) s
    let v := o.1.toNat
    let out : Accum := BitVec.ofInt 36 ((s.acc x).toInt - v * 32768)
    let new : Accum := BitVec.ofInt 36 (if out.toInt < 0 then (s.acc x).toInt * 2 else out.toInt * 2 + 1)
    (v < 32768 → ∃ z m n e, exec (.divs d x) s = .next
      { o.2.setAcc x new with
        freeCtr := o.2.freeCtr + 1, st0 := { s.st0 with z := z, m := m, n := n, e := e } }) ∧
    (32768 ≤ v → exec (.divs d x) s = .refused .divisorNotPositive)

/-! Multiplication. -/

/-- mpy in its five forms: x, y and p, and nothing else but the operand's own side effects (R200, R201, R203).
Choices: log 37. -/
def Obligations.MultiplyForms : Prop :=
  MulForms (fun c _ => .mpyReg c) (fun n m _ => .mpyInd n m) (fun a _ => .mpyDir a)
    (fun j jj i k _ => .mpyPair j jj i k) (fun n m w _ => .mpyIndLong n m w) (fun _ _ => false)
    (fun _ _ t => t) (fun _ => True)

/-- mac and msu in their five forms: the old shifted p is added to or subtracted from aX with all arithmetic
flags, then the new product (R204, R205, R210). Choices: log 12, log 31, log 32, log 37. -/
def Obligations.MultiplyAccumulate : Prop :=
  MulForms .macReg .macInd .macDir .macPair .macIndLong Reg.partOf
    (fun x s t => added x (shiftedNumber s) t) (fun s => s.st1.sp ≠ 3) ∧
  MulForms .msuReg .msuInd .msuDir .msuPair .msuIndLong Reg.partOf
    (fun x s t => subtracted x (shiftedNumber s) t) (fun s => s.st1.sp ≠ 3)

/-- sqr, sqra and sqrs in their three forms, and mpys (R202, R206 to R210). Choices: log 12, log 31, log 32, log 38. -/
def Obligations.SquaresAndShort : Prop :=
  SquareForms (fun c _ => .sqrReg c) (fun n m _ => .sqrInd n m) (fun a _ => .sqrDir a) (fun _ _ => false)
    (fun _ _ t => t) (fun _ => True) ∧
  (∀ (imm : BitVec 8) (s : State),
    exec (.mpys imm) s = .next (multiplied (BitVec.ofInt 16 imm.toInt) s.y s)) ∧
  SquareForms .sqraReg .sqraInd .sqraDir Reg.partOf (fun x s t => added x (shiftedNumber s) t)
    (fun s => s.st1.sp ≠ 3) ∧
  SquareForms .sqrsReg .sqrsInd .sqrsDir Reg.partOf (fun x s t => subtracted x (shiftedNumber s) t)
    (fun s => s.st1.sp ≠ 3)

/-! Moves. -/

/-- mov between registers: 16 bits, or 36 bits between the accumulators and from shifted p (R223 to R225). What the read
and the write of a register do rests on the model's choices that RegisterReads, StatusReads and RegisterWrites name.
Choices: log 6, log 12, log 17, log 18, log 20, log 22, log 35. -/
def Obligations.MoveRegisters : Prop :=
  ∀ (src dst : Reg) (s : State),
    (src.isWord = true → src ≠ dst → Readable src s →
      ∃ o, regRead true src s = .next o ∧
        (Writable dst o.1 o.2 → exec (.movRegReg src dst) s = .next (written dst o.1 o.2))) ∧
    (∀ x : Acc, exec (.movRegReg (.acc x) (.acc x.other)) s = .next (moved x.other (s.acc x) s) ∧
      (s.st1.sp ≠ 3 →
        exec (.movRegReg .p (.acc x)) s = .next (moved x (BitVec.ofInt 36 (shiftedNumber s)) s))) ∧
    (src = dst → exec (.movRegReg src dst) s = .refused .movSameRegister)

/-- mov between a register and (rN)mm: the address is rN before its modification, which happens after a store
and before the write of a loaded register (R227, R228, R231). The store is announced to the read, which changes what lc and
LP read as where it overwrites the next instruction (log 19). N after a load of an accumulator, ph, ext, the delayed pc and
the late clear of LP are the model's choices. Choices: log 6, log 12, log 18, log 19, log 20, log 22, log 35, log 37. -/
def Obligations.MoveIndirect : Prop :=
  ∀ (c : Reg) (n : Fin 6) (m : PostMod) (s : State), (c = .r n → m = .keep) →
    ((∃ k, c = .ext k) →
      (s.addr n).toNat < s.params.xramWords ∨ 65536 - s.params.yramWords ≤ (s.addr n).toNat) →
    (c.isWord = true → Readable c s → ∃ o, regRead true c (s.announced (s.addr n)) = .next o ∧
      exec (.movRegInd c n m) s = .next (postMod n m (dataWrite (s.addr n) o.1 o.2))) ∧
    let o := dataRead (s.addr n) s
    Writable c o.1 s → exec (.movIndReg n m c) s = .next (written c o.1 (postMod n m o.2))

/-- mov of an immediate to a register (R229, R238 to R240). What the write of a register does rests on the model's choices
that RegisterWrites names. Choices: log 6, log 12, log 18, log 20, log 22, log 35. -/
def Obligations.MoveImmediate : Prop :=
  ∀ s : State,
    (∀ (w : Word) (c : Reg), Writable c w s → exec (.movLongReg w c) s = .next (written c w s)) ∧
    (∀ (imm : BitVec 8) (x : Acc),
      exec (.movImmAccl imm x) s = .next (moved x (BitVec.ofNat 36 imm.toNat) s) ∧
      exec (.movSimmAcch imm x) s = .next (moved x (BitVec.ofInt 36 (imm.toInt * 65536)) s)) ∧
    ∀ (imm : BitVec 8) (q : RnStar),
      exec (.movSimmRn imm q) s = .next (written (starReg q) (BitVec.ofInt 16 imm.toInt) s)

/-- mov to a direct address: a half of an accumulator, limited while SAT = 0, or r0 to r5, y, x (R230, R232); and from
one: to aX, aXh, aXl with their widening and flags, to aXh with eu, to r0 to r5 and y; to x it is refused (R233 to R237).
Choices: log 11, log 12, log 17. -/
def Obligations.MoveDirect : Prop :=
  ∀ (a : BitVec 8) (s : State),
    let o := dataRead (direct a s) s
    (∀ x : Acc,
      exec (.movAcclDir x a) s =
        .next (dataWrite (direct a s) (BitVec.ofInt 16 (busNumber x s)) (limitNoted true x s)) ∧
      exec (.movAcchDir x a) s =
        .next (dataWrite (direct a s) (BitVec.ofInt 16 (busNumber x s / 65536)) (limitNoted true x s))) ∧
    (∀ q : RnStar, ∃ v, regRead true (starReg q) s = .next (v, s) ∧
      exec (.movRnDir q a) s = .next (dataWrite (direct a s) v s)) ∧
    (∀ x : Acc,
      exec (.movDirAcc a x) s = .next (written (.acc x) o.1 o.2) ∧
      exec (.movDirAcch a x) s = .next (written (.acch x) o.1 o.2) ∧
      exec (.movDirAccl a x) s = .next (written (.accl x) o.1 o.2) ∧
      exec (.movDirAcchEu a x) s = .next
        { o.2.setAcc x (BitVec.ofNat 36 ((s.acc x).toNat / 2 ^ 32 * 2 ^ 32 + o.1.toNat * 65536)) with
          st0 := zmneOf s.st0 (BitVec.ofInt 36 (o.1.toInt * 65536)) }) ∧
    (∀ q : RnStar, q ≠ .x → exec (.movDirRn a q) s = .next (written (starReg q) o.1 o.2)) ∧
    exec (.movDirRn a .x) s = .refused .movDirectToX

/-- movp: from the program word at aXl to a register, and from the program word at rN to the data word at rI
with both registers modified (R245, R246). N after a move to an accumulator, ph, ext, the delayed pc and the late clear of LP
are the model's choices. Choices: log 6, log 12, log 17, log 18, log 20, log 22, log 35. -/
def Obligations.MoveProgram : Prop :=
  ∀ s : State,
    (∀ (x : Acc) (c : Reg),
      let o := progRead (BitVec.ofInt 16 (s.acc x).toInt) s
      (s.st0.sat = true ∨ inBits 32 (s.acc x).toInt = true) → Writable c o.1 s →
        exec (.movpAccReg x c) s = .next (written c o.1 o.2)) ∧
    (∀ (x : Acc) (c : Reg), s.st0.sat = false → inBits 32 (s.acc x).toInt = false →
      exec (.movpAccReg x c) s = .refused .accumulatorTooWide) ∧
    ∀ (n : Fin 6) (m : PostMod) (i : Fin 4) (k : PostMod), n.val ≠ i.val →
      let o := progRead (s.addr n) s
      exec (.movpIndInd n m i k) s =
        .next (postMod (regI i) k (postMod n m (dataWrite (s.addr (regI i)) o.1 o.2)))

/-! Loops. -/

/-- rep loads the repeat counter and arms the unit; bkrep loads lc, the loop's bounds and LP, its short form with
lc[15:8] open; a second bkrep is refused (R260, R265). Choices: log 17, log 18. -/
def Obligations.LoopSetup : Prop :=
  ∀ s : State,
    (∀ imm : BitVec 8, exec (.repImm imm) s = .next { s with repCnt := imm, repArmed := true }) ∧
    (∀ c : Reg, c.isWord = true → Readable c s → ∃ o, regRead false c s = .next o ∧
      exec (.repReg c) s = .next { o.2 with repCnt := BitVec.ofNat 8 o.1.toNat, repArmed := true }) ∧
    (∀ (imm : BitVec 8) (last : Word),
      (s.st2.lp = false → ∃ high : BitVec 8, exec (.bkrepImm imm last) s = .next
        { s with
          lc := BitVec.ofNat 16 (high.toNat * 256 + imm.toNat), freeCtr := s.freeCtr + 1
          bkStart := s.pc, bkEnd := last, st2 := { s.st2 with lp := true }, lpLate := 0 }) ∧
      (s.st2.lp = true → exec (.bkrepImm imm last) s = .refused .bkrepNested)) ∧
    ∀ (c : Reg) (last : Word), c.isWord = true → c ≠ .pc →
      (s.st2.lp = false → Readable c s → ∃ o, regRead false c s = .next o ∧
        exec (.bkrepReg c last) s = .next
          { o.2 with
            lc := o.1, bkStart := s.pc, bkEnd := last, st2 := { s.st2 with lp := true }, lpLate := 0 }) ∧
      (s.st2.lp = true → exec (.bkrepReg c last) s = .refused .bkrepNested)

/-- The repeat unit after an instruction other than rep: while the count is not 0 it sends pc back and counts
down, and at 0 it ends; armed with n it sends back n times, so that the instruction runs n + 1 times (R262). -/
def Obligations.RepeatUnit : Prop :=
  ∀ (start : Word) (s : State), (s.repArmed = true ∨ s.repActive = true) →
    (s.repCnt ≠ 0 → repUnit false start s =
      (true, { s with repArmed := false, repActive := true, repCnt := s.repCnt - 1, pc := start })) ∧
    (s.repCnt = 0 → (repUnit false start s).1 = false ∧
      (s.repArmed = true → s.repActive = false → (repUnit false start s).2 = { s with repArmed := false }) ∧
      (s.repArmed = false → (repUnit false start s).2 = { s with repActive := false })) ∧
    let pass := fun t => (repUnit false start t).2
    (∀ k < s.repCnt.toNat, (repUnit false start (pass^[k] s)).1 = true) ∧
    (repUnit false start (pass^[s.repCnt.toNat] s)).1 = false

/-- The block-repeat unit at the loop's last word: at count 0 it leaves the loop with FFh in the counter, else it
counts down and goes to the loop's start; lc[15:8] never changes; n in the counter gives n jumps back (R268).
Choices: log 18. -/
def Obligations.BlockUnit : Prop :=
  ∀ s : State, InLoop s →
    (s.lc.toNat % 256 = 0 → blockUnit s.bkEnd s =
      { s with lc := s.lc + 255, st2 := { s.st2 with lp := false }, lpLate := 0 }) ∧
    (s.lc.toNat % 256 ≠ 0 → blockUnit s.bkEnd s =
      { s with lc := s.lc - 1, pc := s.bkStart, lpLate := s.lpLate - 1 }) ∧
    (∀ last, last ≠ s.bkEnd → blockUnit last s = { s with lpLate := s.lpLate - 1 }) ∧
    (s.st2.lp = true →
      (∀ k, 0 < k → k ≤ s.lc.toNat % 256 →
        ((blockUnit s.bkEnd)^[k] s).pc = s.bkStart ∧ ((blockUnit s.bkEnd)^[k] s).st2.lp = true ∧
        ((blockUnit s.bkEnd)^[k] s).lc = s.lc - BitVec.ofNat 16 k) ∧
      ((blockUnit s.bkEnd)^[s.lc.toNat % 256 + 1] s).st2.lp = false)

/-- LP cleared by a write of st2: seen by the third boundary, so that the last two instructions of the loop clear
it for the next pass only, and a one-instruction loop that clears LP runs three times (R270). Choices: log 18. -/
def Obligations.LateClear : Prop :=
  ∀ (s : State) (d : Word), s.st2.lp = true → d[12] = true →
    let t0 := written .st2 d s
    t0.st2.lp = false ∧
    (∀ l1 l2 l3, l1 ≠ s.bkEnd → l2 ≠ s.bkEnd →
      blockUnit l3 (blockUnit l2 (blockUnit l1 t0)) = { t0 with lpLate := 0 }) ∧
    (s.lc.toNat % 256 ≠ 0 →
      (blockUnit s.bkEnd t0).pc = s.bkStart ∧ (blockUnit s.bkEnd t0).lc = s.lc - 1 ∧
      ∀ l1, l1 ≠ s.bkEnd →
        (blockUnit s.bkEnd (blockUnit l1 t0)).pc = s.bkStart ∧
        (blockUnit s.bkEnd (blockUnit l1 t0)).lc = s.lc - 1) ∧
    (2 ≤ s.lc.toNat % 256 →
      let t1 := blockUnit s.bkEnd t0
      let t2 := blockUnit s.bkEnd (written .st2 d { t1 with pc := s.bkEnd + 1 })
      let t3 := blockUnit s.bkEnd (written .st2 d { t2 with pc := s.bkEnd + 1 })
      t1.pc = s.bkStart ∧ t2.pc = s.bkStart ∧ t3.pc = s.bkEnd + 1 ∧ t3.lc = s.lc - 2)

/-! Branches and calls. -/

/-- br and brr where the condition is met: pc, and nothing else; refused where they would enter the end
of a loop (R282, R283, R269); that this holds outside the loop's body too is the model's choice (log 20). Choices: log 17, log 19, log 20, log 30. -/
def Obligations.Branches : Prop :=
  ∀ (cc : Cond) (s : State), condTrue cc s = true →
    (∀ a : Word,
      (¬ EntersLoopEnd a s → exec (.br a cc) s = .next { s with pc := a }) ∧
      (EntersLoopEnd a s → exec (.br a cc) s = .refused .jumpToLoopEnd)) ∧
    ∀ d : BitVec 7,
      let a : Word := BitVec.ofInt 16 (s.pc.toNat + d.toInt)
      (¬ EntersLoopEnd a s → exec (.brr d cc) s = .next { s with pc := a }) ∧
      (EntersLoopEnd a s → exec (.brr d cc) s = .refused .jumpToLoopEnd)

/-- call, callr (condition met) and calla: the address of the next instruction is pushed; a full stack is the
named fault; calla refuses an accumulator that saturation would change (R284 to R286, R41); a call
into the end of a live loop is refused (R269), where how the length of the word there is known and until when a cleared loop
counts as live, and that the call may stand outside the loop's body, are the model's choices. Choices: log 16, log 17, log 19, log 20, log 30. -/
def Obligations.Calls : Prop :=
  ∀ s : State,
    let goes := fun (i : Instr) (a : Word) =>
      (s.stk.length < 16 → ¬ EntersLoopEnd a s →
        exec i s = .next { s with pc := a, stk := ⟨s.pc, false⟩ :: s.stk }) ∧
      (s.stk.length < 16 → EntersLoopEnd a s → exec i s = .refused .jumpToLoopEnd) ∧
      (16 ≤ s.stk.length → exec i s = .fault .stackOverflow)
    (∀ (a : Word) (cc : Cond), condTrue cc s = true → goes (.call a cc) a) ∧
    (∀ (d : BitVec 7) (cc : Cond), condTrue cc s = true →
      goes (.callr d cc) (BitVec.ofInt 16 (s.pc.toNat + d.toInt))) ∧
    ∀ x : Acc,
      ((s.st0.sat = true ∨ inBits 32 (s.acc x).toInt = true) → goes (.calla x) (BitVec.ofInt 16 (s.acc x).toInt)) ∧
      (s.st0.sat = false → inBits 32 (s.acc x).toInt = false → exec (.calla x) s = .refused .accumulatorTooWide)

/-- ret (condition met) and reti: pc is popped; reti ends the innermost BPI or trap routine and leaves IE, or else
sets IE; an empty stack is the named fault (R287, R288, R337, R41). A return into the end of a live loop is refused (R269),
from outside the loop's body too (the model's choice, log 20), but for the return of an interrupt: the level that its entry
pushed, or that the program put back. Choices: log 16, log 17, log 19, log 20, log 21, log 30. -/
def Obligations.Returns : Prop :=
  ∀ s : State,
    (∀ cc, condTrue cc s = true → s.stk = [] → exec (.ret cc) s = .fault .stackUnderflow) ∧
    (s.stk = [] → exec .reti s = .fault .stackUnderflow) ∧
    ∀ (v : Word) (irq : Bool) (rest : List Slot), s.stk = ⟨v, irq⟩ :: rest →
      (irq = false → EntersLoopEnd v s →
        exec .reti s = .refused .jumpToLoopEnd ∧
          ∀ cc, condTrue cc s = true → exec (.ret cc) s = .refused .jumpToLoopEnd) ∧
      (irq = true ∨ ¬ EntersLoopEnd v s →
        let t := { s with pc := v, stk := rest }
        (∀ cc, condTrue cc s = true → exec (.ret cc) s = .next t) ∧
        (s.inBpi = true → exec .reti s = .next { t with inBpi := false }) ∧
        (s.inBpi = false → s.inTrap = true → exec .reti s = .next { t with inTrap := false }) ∧
        (s.inBpi = false → s.inTrap = false →
          exec .reti s = .next { t with st0 := { s.st0 with ie := true } }))

/-! Control, exceptions and interrupts. -/

/-- nop, eint, dint, lpg, modr (R300 to R303, R305). -/
def Obligations.ControlInstructions : Prop :=
  ∀ s : State,
    exec .nop s = .next s ∧
    exec .eint s = .next { s with st0 := { s.st0 with ie := true } } ∧
    exec .dint s = .next { s with st0 := { s.st0 with ie := false } } ∧
    (∀ imm, exec (.lpg imm) s = .next { s with st1 := { s.st1 with page := imm } }) ∧
    ∀ n m, exec (.modr n m) s = .next
      { postMod n m s with
        st0 := { s.st0 with r := decide ((postMod n m s).addr n = 0) && !(modified n m s).2 } }

/-- trap: pc is pushed, control goes to 000Ah, the trap routine is marked, no bit of st0 changes; refused
inside a trap or BPI routine, and where the instruction at 000Ah is the last of a live loop, so that trap is one of its last
two; a full stack is the named fault (R304, R333, R269). Choices: log 16, log 17, log 19, log 20, log 21, log 30. -/
def Obligations.TrapEntry : Prop :=
  ∀ s : State,
    let goes := s.inTrap = false ∧ s.inBpi = false ∧ ¬ (InLoopAfter 1 s ∧ EndsAt 0x000A s.bkEnd s)
    (goes → s.stk.length < 16 →
      exec .trap s = .next { s with pc := 0x000A, stk := ⟨s.pc, false⟩ :: s.stk, inTrap := true }) ∧
    (goes → 16 ≤ s.stk.length → exec .trap s = .fault .stackOverflow) ∧
    (s.inTrap = true ∨ s.inBpi = true → exec .trap s = .refused .trapInRoutine) ∧
    (s.inTrap = false → s.inBpi = false → InLoopAfter 1 s → EndsAt 0x000A s.bkEnd s →
      exec .trap s = .refused .loopEndRestricted)

/-- Which interrupt a boundary accepts: none while a repeat, a pending pc write or a hold-off is in force; BPI
unless in a BPI routine; else INT0, then INT1, if enabled and in no trap or BPI routine (R326, R327).
Choices: log 21, log 22. -/
def Obligations.Acceptance : Prop :=
  ∀ q : State,
    let free := q.repArmed = false ∧ q.repActive = false ∧ q.pcPending = none ∧ q.holdOff = false
    let maskable := q.inBpi = false ∧ q.inTrap = false ∧ q.st0.ie = true ∧ q.pins.bpi = false
    (acceptInterrupt q = some .bpi ↔ free ∧ q.pins.bpi = true ∧ q.inBpi = false) ∧
    (acceptInterrupt q = some .int0 ↔ free ∧ maskable ∧ q.pins.int0 = true ∧ q.st0.im0 = true) ∧
    (acceptInterrupt q = some .int1 ↔
      free ∧ maskable ∧ ¬ (q.pins.int0 = true ∧ q.st0.im0 = true) ∧ q.pins.int1 = true ∧ q.st0.im1 = true)

/-- The entry of an accepted interrupt: pc pushed, the routine's address, IACK; BPI marks its routine and leaves
IE, INT0 and INT1 clear IE; a full stack is the named fault, a clear of LP in flight is refused (R334, R335, R270).
The level is marked as an interrupt's. Choices: log 16, log 17, log 20, log 21, log 27. -/
def Obligations.InterruptEntry : Prop :=
  ∀ s : State, (sample s).pins.reset = false → s.st2.stp = false →
    let q := sample s
    let entered := { q with stk := ⟨q.pc, true⟩ :: q.stk, iack := true }
    (s.lpLate = 0 → s.stk.length < 16 →
      (acceptInterrupt q = some .bpi → step s = .next { entered with pc := 0x0008, inBpi := true }) ∧
      (acceptInterrupt q = some .int0 →
        step s = .next { entered with pc := 0x000C, st0 := { q.st0 with ie := false } }) ∧
      (acceptInterrupt q = some .int1 →
        step s = .next { entered with pc := 0x000E, st0 := { q.st0 with ie := false } })) ∧
    (s.lpLate = 0 → 16 ≤ s.stk.length → acceptInterrupt q ≠ none → step s = .fault .stackOverflow) ∧
    (0 < s.lpLate → acceptInterrupt q ≠ none → step s = .refused .interruptWhileLpLate)
end

