-- ==== Sys2Proof/Laws/Encoding.lean ====
section
/-! SUPPORT. The encodings as numbers: the bounds of every field, the number of a packed word, and the
two-word and unused ranges as arithmetic on the first word. -/

namespace Sys2Proof

/-! Every name is in its list, and, in a table that the spec allows, has a code. -/

theorem Reg.mem_all (r : Reg) : r ∈ Reg.all := by
  cases r with
  | acc x | acch x | accl x => cases x <;> decide
  | r n => revert n; decide
  | ext k => revert k; decide
  | _ => decide

theorem Cond.mem_all (c : Cond) : c ∈ Cond.all := by cases c <;> decide

theorem ModaFn.mem_all (f : ModaFn) : f ∈ ModaFn.all := by cases f <;> decide

theorem HiOp.mem_all (h : HiOp) : h ∈ HiOp.all := by cases h <;> decide

theorem PostMod.mem_all (m : PostMod) : m ∈ PostMod.all := by cases m <;> decide

/-- What an allowed table means: every name has a code. -/
structure Params.Complete (c : Params) : Prop where
  reg : ∀ r, some r ∈ c.regCode.toList
  cond : ∀ k, k ∈ c.condCode.toList
  moda : ∀ f, some f ∈ c.modaCode.toList
  hi : ∀ h, h ∈ c.operHi.toList
  mm : ∀ m, m ∈ c.mmCode.toList

theorem Params.wf_complete {c : Params} (h : c.wf = true) : c.Complete := by
  simp only [Params.wf, Bool.and_eq_true, List.all_eq_true, beq_iff_eq] at h
  obtain ⟨⟨⟨⟨⟨⟨⟨⟨⟨h1, h2⟩, h3⟩, h4⟩, h5⟩, -⟩, -⟩, -⟩, -⟩, -⟩ := h
  exact ⟨fun r => List.count_pos_iff.1 (by rw [h1 r r.mem_all]; decide),
    fun r => List.count_pos_iff.1 (by rw [h2 r r.mem_all]; decide),
    fun r => List.count_pos_iff.1 (by rw [h3 r r.mem_all]; decide),
    fun r => List.count_pos_iff.1 (by rw [h4 r r.mem_all]; decide),
    fun r => List.count_pos_iff.1 (by rw [h5 r r.mem_all]; decide)⟩

/-- The code of a name in a table, and the name at that code. -/
theorem idxOf_code {α : Type} [BEq α] [LawfulBEq α] {n : Nat} (v : Vector α n) {x : α} (h : x ∈ v.toList) :
    ∃ hl : v.toList.idxOf x < n, v[v.toList.idxOf x] = x := by
  have hl : v.toList.idxOf x < v.toList.length := List.idxOf_lt_length_iff.2 h
  have hn : v.toList.idxOf x < n := by simpa using hl
  exact ⟨hn, (Vector.getElem_toList hl).symm.trans (List.getElem_idxOf hl)⟩

/-! Bounds of the fields. -/

theorem encodeAcc_lt (x : Acc) : encodeAcc x < 2 := by cases x <;> decide

theorem encodeReg_lt {c : Params} (h : c.Complete) (r : Reg) : encodeReg c r < 32 := (idxOf_code _ (h.reg r)).1

theorem encodeCond_lt {c : Params} (h : c.Complete) (cc : Cond) : encodeCond c cc < 16 := (idxOf_code _ (h.cond cc)).1

theorem encodeModa_lt {c : Params} (h : c.Complete) (f : ModaFn) : encodeModa c f < 16 := (idxOf_code _ (h.moda f)).1

theorem encodeHi_bounds {c : Params} (h : c.Complete) (o : HiOp) : 9 ≤ encodeHi c o ∧ encodeHi c o < 16 := by
  have := (idxOf_code _ (h.hi o)).1
  unfold encodeHi; omega

theorem encodeMod_lt {c : Params} (h : c.Complete) (m : PostMod) : encodeMod c m < 4 := (idxOf_code _ (h.mm m)).1

theorem encodeRnStar_lt (c : Params) (q : RnStar) : encodeRnStar c q < 8 := by
  cases q with
  | r n => have := n.isLt; simp only [encodeRnStar]; omega
  | _ => simp only [encodeRnStar]; split <;> decide

theorem packInd_lt {c : Params} (h : c.Complete) (n : Fin 6) (m : PostMod) : packInd c n m < 32 := by
  have := encodeMod_lt h m
  have := n.isLt
  unfold packInd; omega

theorem packPair_lt {c : Params} (h : c.Complete) (j : Fin 2) (jj : PostMod) (i : Fin 4) (k : PostMod) :
    packPair c j jj i k < 128 := by
  have := encodeMod_lt h jj
  have := encodeMod_lt h k
  have := j.isLt
  have := i.isLt
  unfold packPair; omega

/-! Decoding a field undoes its encoding. -/

@[simp] theorem decodeAcc_encodeAcc (x : Acc) : decodeAcc (encodeAcc x) = x := by cases x <;> rfl

theorem decodeReg_encodeReg {c : Params} (h : c.Complete) (r : Reg) : decodeReg c (encodeReg c r) = .ok r := by
  obtain ⟨hl, e⟩ := idxOf_code _ (h.reg r)
  simp only [decodeReg, encodeReg, Nat.mod_eq_of_lt hl, e]

theorem decodeCond_encodeCond {c : Params} (h : c.Complete) (cc : Cond) : decodeCond c (encodeCond c cc) = cc := by
  obtain ⟨hl, e⟩ := idxOf_code _ (h.cond cc)
  simp only [decodeCond, encodeCond, Nat.mod_eq_of_lt hl, e]

theorem decodeMod_encodeMod {c : Params} (h : c.Complete) (m : PostMod) : decodeMod c (encodeMod c m) = m := by
  obtain ⟨hl, e⟩ := idxOf_code _ (h.mm m)
  simp only [decodeMod, encodeMod, Nat.mod_eq_of_lt hl, e]

theorem decodeHi_encodeHi {c : Params} (h : c.Complete) (o : HiOp) : decodeHi c (encodeHi c o) = o := by
  obtain ⟨hl, e⟩ := idxOf_code _ (h.hi o)
  simp only [decodeHi, encodeHi, Nat.add_sub_cancel_left, Nat.mod_eq_of_lt hl, e]

theorem modaCode_encodeModa {c : Params} (h : c.Complete) (f : ModaFn) :
    c.modaCode[encodeModa c f % 16] = some f := by
  obtain ⟨hl, e⟩ := idxOf_code _ (h.moda f)
  simp only [encodeModa, Nat.mod_eq_of_lt hl, e]

@[simp] theorem decodeRnStar_encodeRnStar (c : Params) (q : RnStar) : decodeRnStar c (encodeRnStar c q) = q := by
  cases q with
  | r n => simp [decodeRnStar, encodeRnStar]
  | _ => cases h : c.rnStarXY <;> simp [decodeRnStar, encodeRnStar, h]

@[simp] theorem decodeAddr_val (n : Fin 6) : decodeAddr n.val = .ok n := by simp [decodeAddr]

@[simp] theorem decodeI_val (i : Fin 4) : decodeI i.val = i := by
  simp [decodeI, Nat.mod_eq_of_lt i.isLt]

@[simp] theorem decodeJ_val (j : Fin 2) : decodeJ j.val = j := by
  simp [decodeJ, Nat.mod_eq_of_lt j.isLt]

/-! Packed words as numbers. -/

theorem packWord_toNat {top a low : Nat} (ht : top < 128) (ha : a < 2) (hl : low < 256) :
    (packWord top a low).toNat = top * 512 + a * 256 + low := by
  simp only [packWord, BitVec.toNat_ofNat]; omega

theorem field_packWord {top a low : Nat} (ht : top < 128) (ha : a < 2) (hl : low < 256) :
    field (packWord top a low) 9 7 = top ∧ field (packWord top a low) 8 1 = a ∧
      field (packWord top a low) 0 8 = low := by
  simp only [field, packWord_toNat ht ha hl]; omega

/-- The two-word first words as ranges of numbers (30_encoding R128). -/
theorem isTwoWord_iff (w : Word) :
    isTwoWord w = true ↔
      (w.toNat / 512 = 10 ∨ w.toNat / 512 = 11 ∨ w.toNat / 512 = 24 ∨ w.toNat / 512 = 25 ∨ w.toNat / 512 = 46) ∨
      (w.toNat / 8192 = 4 ∧
        ((w.toNat / 64 % 4 = 1 ∧ 6 ≤ w.toNat / 512 % 16 ∧ w.toNat / 512 % 16 ≤ 8) ∨
          (w.toNat / 64 % 4 = 3 ∧ w.toNat / 512 % 16 ≤ 5))) := by
  have := w.isLt
  unfold isTwoWord field
  split
  · simp only [Bool.or_eq_true, beq_iff_eq]; omega
  · simp only [beq_iff_eq]; omega
  · simp only [Bool.or_eq_true, Bool.and_eq_true, beq_iff_eq, decide_eq_true_eq]; omega
  · next h0 h1 h2 =>
    simp only [Bool.false_eq_true, false_iff]
    have g0 : w.toNat / 2 ^ 14 % 2 ^ 2 ≠ 0 := fun e => h0 e
    have g1 : w.toNat / 2 ^ 14 % 2 ^ 2 ≠ 1 := fun e => h1 e
    have g2 : ¬ (w.toNat / 2 ^ 14 % 2 ^ 2 = 2 ∧ w.toNat / 2 ^ 13 % 2 ^ 1 = 0) := fun e => h2 e.1 e.2
    omega

/-- An unused word is one word long. -/
theorem isTwoWord_of_unused {c : Params} {w : Word} (h : isUnusedWord c w = true) : isTwoWord w = false := by
  rw [← Bool.not_eq_true, isTwoWord_iff]
  have := w.isLt
  unfold isUnusedWord field at h
  simp only [Bool.or_eq_true, Bool.and_eq_true, beq_iff_eq, decide_eq_true_eq] at h
  omega

end Sys2Proof
end

