-- ==== Sys2Proof/Laws/Memory.lean ====
section
/-! SUPPORT. Memory: a read after a write, what a write leaves alone, and the canonical form. -/

namespace Sys2Proof.Machine

/-! Bytes. -/

theorem Memory.read_cons_same (m : Memory) (a : Nat) (b : Byte) (h : m.read a = Memory.unlisted) :
    (Memory.cons a b m).read a = b := by
  unfold Memory.cons
  split
  · next e => rw [h, e]
  · simp [Memory.read]

theorem Memory.read_cons_other (m : Memory) {a k : Nat} (b : Byte) (h : k ≠ a) :
    (Memory.cons a b m).read k = m.read k := by
  unfold Memory.cons
  split
  · rfl
  · simp [Memory.read, h]

/-- A write leaves every other byte alone, in any memory. -/
theorem Memory.read_write_other (m : Memory) {a k : Nat} (b : Byte) (h : k ≠ a) :
    (m.write a b).read k = m.read k := by
  induction m with
  | nil => exact Memory.read_cons_other [] b h
  | cons c m ih =>
    obtain ⟨j, v⟩ := c
    simp only [Memory.write]
    split
    · exact Memory.read_cons_other _ b h
    · split
      · next e => subst e; simp [Memory.read_cons_other _ b h, Memory.read, h]
      · simp only [Memory.read, ih]

theorem Memory.read_eq_unlisted (m : Memory) (a : Nat) (h : ∀ c ∈ m, a < c.1) : m.read a = Memory.unlisted := by
  induction m with
  | nil => rfl
  | cons c m ih =>
    obtain ⟨j, v⟩ := c
    have hj : a < j := h (j, v) (by simp)
    have : a ≠ j := by omega
    simp only [Memory.read, if_neg this]
    exact ih fun c hc => h c (by simp [hc])

/-- A read after a write to the same byte of a canonical memory gives what was written. -/
theorem Memory.read_write_same (m : Memory) (a : Nat) (b : Byte) (h : m.wf) : (m.write a b).read a = b := by
  induction m with
  | nil => exact Memory.read_cons_same [] a b rfl
  | cons c m ih =>
    obtain ⟨j, v⟩ := c
    obtain ⟨hp, hv⟩ := h
    rw [List.pairwise_cons] at hp
    simp only [Memory.write]
    split
    · next hlt =>
      refine Memory.read_cons_same _ a b (Memory.read_eq_unlisted _ a fun c hc => ?_)
      rcases List.mem_cons.1 hc with rfl | hc
      · exact hlt
      · exact lt_trans hlt (hp.1 c hc)
    · split
      · next e => subst e; exact Memory.read_cons_same _ a b (Memory.read_eq_unlisted _ a hp.1)
      · next hne =>
        simp only [Memory.read, if_neg hne]
        exact ih ⟨hp.2, fun c hc => hv c (by simp [hc])⟩

theorem Memory.mem_cons_cases {m : Memory} {a : Nat} {b : Byte} {c : Host.Cell}
    (h : c ∈ Memory.cons a b m) : c ∈ m ∨ (c = (a, b) ∧ b ≠ Memory.unlisted) := by
  unfold Memory.cons at h
  split at h
  · exact .inl h
  · next hb => rcases List.mem_cons.1 h with rfl | h'
               · exact .inr ⟨rfl, hb⟩
               · exact .inl h'

theorem Memory.mem_write_cases {m : Memory} {a : Nat} {b : Byte} {c : Host.Cell}
    (h : c ∈ m.write a b) : c ∈ m ∨ (c = (a, b) ∧ b ≠ Memory.unlisted) := by
  induction m with
  | nil => exact Memory.mem_cons_cases h
  | cons d m ih =>
    obtain ⟨j, v⟩ := d
    simp only [Memory.write] at h
    split at h
    · exact Memory.mem_cons_cases h
    · split at h
      · exact (Memory.mem_cons_cases h).imp_left fun hc => List.mem_cons_of_mem _ hc
      · rcases List.mem_cons.1 h with rfl | hc
        · exact .inl (by simp)
        · exact (ih hc).imp_left fun hc => List.mem_cons_of_mem _ hc

theorem Memory.pairwise_cons (m : Memory) (a : Nat) (b : Byte) (h : m.Pairwise (fun a b => a.1 < b.1))
    (ha : ∀ c ∈ m, a < c.1) : (Memory.cons a b m).Pairwise (fun a b => a.1 < b.1) := by
  unfold Memory.cons
  split
  · exact h
  · exact List.pairwise_cons.2 ⟨ha, h⟩

/-- A write keeps the canonical form. -/
theorem Memory.wf_write (m : Memory) (a : Nat) (b : Byte) (h : m.wf) : (m.write a b).wf := by
  refine ⟨?_, fun c hc => ?_⟩
  · obtain ⟨hp, -⟩ := h
    induction m with
    | nil => exact Memory.pairwise_cons [] a b .nil (by simp)
    | cons c m ih =>
      obtain ⟨j, v⟩ := c
      have hp' := List.pairwise_cons.1 hp
      simp only [Memory.write]
      split
      · next hlt =>
        refine Memory.pairwise_cons _ a b hp fun c hc => ?_
        rcases List.mem_cons.1 hc with rfl | hc
        · exact hlt
        · exact lt_trans hlt (hp'.1 c hc)
      · split
        · next e => subst e; exact Memory.pairwise_cons _ a b hp'.2 hp'.1
        · next hge hne =>
          refine List.pairwise_cons.2 ⟨fun c hc => ?_, ih hp'.2⟩
          rcases Memory.mem_write_cases hc with hc | ⟨rfl, -⟩
          · exact hp'.1 c hc
          · show j < a; omega
  · rcases Memory.mem_write_cases hc with hc | ⟨rfl, hb⟩
    · exact h.2 c hc
    · exact hb

/-! Words. -/

theorem wordOfBytes_extract (v : Word) : wordOfBytes (v.extractLsb' 0 8) (v.extractLsb' 8 8) = v := by
  unfold wordOfBytes
  refine BitVec.eq_of_getLsbD_eq fun i hi => ?_
  rw [BitVec.getLsbD_append]
  by_cases h : i < 8
  · simp [h]
  · have h8 : 8 + (i - 8) = i := by omega
    simp [h, h8, show i - 8 < 8 by omega]

@[simp] theorem Memory.readWord_writeWord_same (m : Memory) (c : Nat) (v : Word) (h : m.wf) :
    (m.writeWord c v).readWord c = v := by
  have h1 : (m.write (2 * c) (v.extractLsb' 0 8)).wf := Memory.wf_write _ _ _ h
  simp only [Memory.readWord, Memory.writeWord]
  rw [Memory.read_write_other _ _ (by omega), Memory.read_write_same _ _ _ h, Memory.read_write_same _ _ _ h1]
  exact wordOfBytes_extract v

theorem Memory.readWord_writeWord_other (m : Memory) {c k : Nat} (v : Word) (h : k ≠ c) :
    (m.writeWord c v).readWord k = m.readWord k := by
  simp only [Memory.readWord, Memory.writeWord]
  rw [Memory.read_write_other _ _ (by omega), Memory.read_write_other _ _ (by omega),
    Memory.read_write_other _ _ (by omega), Memory.read_write_other _ _ (by omega)]

/-- A word write leaves every byte outside the word alone. -/
theorem Memory.read_writeWord_other (m : Memory) {c k : Nat} (v : Word) (h : k ≠ 2 * c) (h' : k ≠ 2 * c + 1) :
    (m.writeWord c v).read k = m.read k := by
  simp only [Memory.writeWord]
  rw [Memory.read_write_other _ _ h', Memory.read_write_other _ _ h]

theorem Memory.wf_writeWord (m : Memory) (c : Nat) (v : Word) (h : m.wf) : (m.writeWord c v).wf :=
  Memory.wf_write _ _ _ (Memory.wf_write _ _ _ h)

/-! The operations over State. -/

theorem dataWrite_mem_wf (a v : Word) (s : State) (h : s.mem.wf) : (dataWrite a v s).mem.wf := by
  unfold dataWrite
  split <;> first | exact h | exact Memory.wf_writeWord _ _ _ h

theorem pokeProg_mem_wf (a v : Word) (s : State) (h : s.mem.wf) : (pokeProg a v s).mem.wf :=
  Memory.wf_writeWord _ _ _ h

theorem placeFetchWord_mem_wf (s : State) (nbits w : Nat) (h : s.mem.wf) : (placeFetchWord s nbits w).mem.wf :=
  pokeProg_mem_wf _ _ _ (pokeProg_mem_wf _ _ _ h)

theorem reset_mem_wf : State.reset.mem.wf := by
  refine ⟨?_, ?_⟩ <;> simp [State.reset]

end Sys2Proof.Machine
end

