-- ==== Sys2Proof/Laws/State.lean ====
section
/-! SUPPORT. The fields of State after each named update of a register: what was written, and that
every other field is as before. -/

namespace Sys2Proof.Machine

/-! Reading back what was written. -/

@[simp] theorem State.setAcc_acc_same (s : State) (x : Acc) (v : Accum) : (s.setAcc x v).acc x = v := by
  cases x <;> rfl

theorem State.setAcc_acc_ne (s : State) {x z : Acc} (v : Accum) (h : z ≠ x) :
    (s.setAcc x v).acc z = s.acc z := by
  cases x <;> cases z <;> first | rfl | exact absurd rfl h

@[simp] theorem State.setAcc_acc_other (s : State) (x : Acc) (v : Accum) :
    (s.setAcc x v).acc x.other = s.acc x.other := by
  cases x <;> rfl

@[simp] theorem State.setAddr_addr_same (s : State) (n : Fin 6) (v : Word) : (s.setAddr n v).addr n = v := by
  simp [State.addr, State.setAddr]

theorem State.setAddr_addr_ne (s : State) {n k : Fin 6} (v : Word) (h : k ≠ n) :
    (s.setAddr n v).addr k = s.addr k := by
  have : n.val ≠ k.val := fun e => h (Fin.ext e.symm)
  simp [State.addr, State.setAddr, Vector.getElem_set_ne _ _ this]

@[simp] theorem State.setExt_extReg_same (s : State) (k : Fin 8) (v : Word) : (s.setExt k v).extReg k = v := by
  simp [State.extReg, State.setExt]

theorem State.setExt_extReg_ne (s : State) {k j : Fin 8} (v : Word) (h : j ≠ k) :
    (s.setExt k v).extReg j = s.extReg j := by
  have : k.val ≠ j.val := fun e => h (Fin.ext e.symm)
  simp [State.extReg, State.setExt, Vector.getElem_set_ne _ _ this]

@[simp] theorem State.free_fst (s : State) : s.free.1 = Config.freeWord s.freeCtr := rfl

@[simp] theorem State.free_freeCtr (s : State) : s.free.2.freeCtr = s.freeCtr + 1 := rfl

/-! Every other field. -/

@[simp] theorem State.setAcc_x (s : State) (x : Acc) (v : Accum) : (s.setAcc x v).x = s.x := by cases x <;> rfl
@[simp] theorem State.setAcc_y (s : State) (x : Acc) (v : Accum) : (s.setAcc x v).y = s.y := by cases x <;> rfl
@[simp] theorem State.setAcc_p (s : State) (x : Acc) (v : Accum) : (s.setAcc x v).p = s.p := by cases x <;> rfl
@[simp] theorem State.setAcc_r (s : State) (x : Acc) (v : Accum) : (s.setAcc x v).r = s.r := by cases x <;> rfl
@[simp] theorem State.setAcc_cfgi (s : State) (x : Acc) (v : Accum) : (s.setAcc x v).cfgi = s.cfgi := by cases x <;> rfl
@[simp] theorem State.setAcc_cfgj (s : State) (x : Acc) (v : Accum) : (s.setAcc x v).cfgj = s.cfgj := by cases x <;> rfl
@[simp] theorem State.setAcc_pc (s : State) (x : Acc) (v : Accum) : (s.setAcc x v).pc = s.pc := by cases x <;> rfl
@[simp] theorem State.setAcc_lc (s : State) (x : Acc) (v : Accum) : (s.setAcc x v).lc = s.lc := by cases x <;> rfl
@[simp] theorem State.setAcc_st0 (s : State) (x : Acc) (v : Accum) : (s.setAcc x v).st0 = s.st0 := by cases x <;> rfl
@[simp] theorem State.setAcc_st1 (s : State) (x : Acc) (v : Accum) : (s.setAcc x v).st1 = s.st1 := by cases x <;> rfl
@[simp] theorem State.setAcc_st2 (s : State) (x : Acc) (v : Accum) : (s.setAcc x v).st2 = s.st2 := by cases x <;> rfl
@[simp] theorem State.setAcc_stk (s : State) (x : Acc) (v : Accum) : (s.setAcc x v).stk = s.stk := by cases x <;> rfl
@[simp] theorem State.setAcc_ext (s : State) (x : Acc) (v : Accum) : (s.setAcc x v).ext = s.ext := by cases x <;> rfl
@[simp] theorem State.setAcc_bkStart (s : State) (x : Acc) (v : Accum) : (s.setAcc x v).bkStart = s.bkStart := by cases x <;> rfl
@[simp] theorem State.setAcc_bkEnd (s : State) (x : Acc) (v : Accum) : (s.setAcc x v).bkEnd = s.bkEnd := by cases x <;> rfl
@[simp] theorem State.setAcc_repCnt (s : State) (x : Acc) (v : Accum) : (s.setAcc x v).repCnt = s.repCnt := by cases x <;> rfl
@[simp] theorem State.setAcc_repArmed (s : State) (x : Acc) (v : Accum) : (s.setAcc x v).repArmed = s.repArmed := by cases x <;> rfl
@[simp] theorem State.setAcc_repActive (s : State) (x : Acc) (v : Accum) : (s.setAcc x v).repActive = s.repActive := by cases x <;> rfl
@[simp] theorem State.setAcc_lpLate (s : State) (x : Acc) (v : Accum) : (s.setAcc x v).lpLate = s.lpLate := by cases x <;> rfl
@[simp] theorem State.setAcc_pcPending (s : State) (x : Acc) (v : Accum) : (s.setAcc x v).pcPending = s.pcPending := by cases x <;> rfl
@[simp] theorem State.setAcc_inBpi (s : State) (x : Acc) (v : Accum) : (s.setAcc x v).inBpi = s.inBpi := by cases x <;> rfl
@[simp] theorem State.setAcc_inTrap (s : State) (x : Acc) (v : Accum) : (s.setAcc x v).inTrap = s.inTrap := by cases x <;> rfl
@[simp] theorem State.setAcc_holdOff (s : State) (x : Acc) (v : Accum) : (s.setAcc x v).holdOff = s.holdOff := by cases x <;> rfl
@[simp] theorem State.setAcc_iack (s : State) (x : Acc) (v : Accum) : (s.setAcc x v).iack = s.iack := by cases x <;> rfl
@[simp] theorem State.setAcc_mem (s : State) (x : Acc) (v : Accum) : (s.setAcc x v).mem = s.mem := by cases x <;> rfl
@[simp] theorem State.setAcc_st0Hazard (s : State) (x : Acc) (v : Accum) : (s.setAcc x v).st0Hazard = s.st0Hazard := by cases x <;> rfl
@[simp] theorem State.setAcc_storeNow (s : State) (x : Acc) (v : Accum) : (s.setAcc x v).storeNow = s.storeNow := by cases x <;> rfl
@[simp] theorem State.setAcc_store1 (s : State) (x : Acc) (v : Accum) : (s.setAcc x v).store1 = s.store1 := by cases x <;> rfl
@[simp] theorem State.setAcc_store2 (s : State) (x : Acc) (v : Accum) : (s.setAcc x v).store2 = s.store2 := by cases x <;> rfl
@[simp] theorem State.setAcc_freeCtr (s : State) (x : Acc) (v : Accum) : (s.setAcc x v).freeCtr = s.freeCtr := by cases x <;> rfl
@[simp] theorem State.setAcc_codeCtr (s : State) (x : Acc) (v : Accum) : (s.setAcc x v).codeCtr = s.codeCtr := by cases x <;> rfl
@[simp] theorem State.setAcc_irqTaken (s : State) (x : Acc) (v : Accum) : (s.setAcc x v).irqTaken = s.irqTaken := by cases x <;> rfl
@[simp] theorem State.setAcc_pins (s : State) (x : Acc) (v : Accum) : (s.setAcc x v).pins = s.pins := by cases x <;> rfl
@[simp] theorem State.setAcc_inputs (s : State) (x : Acc) (v : Accum) : (s.setAcc x v).inputs = s.inputs := by cases x <;> rfl
@[simp] theorem State.setAcc_answers (s : State) (x : Acc) (v : Accum) : (s.setAcc x v).answers = s.answers := by cases x <;> rfl
@[simp] theorem State.setAcc_bus (s : State) (x : Acc) (v : Accum) : (s.setAcc x v).bus = s.bus := by cases x <;> rfl
@[simp] theorem State.setAcc_params (s : State) (x : Acc) (v : Accum) : (s.setAcc x v).params = s.params := by cases x <;> rfl

@[simp] theorem State.setAddr_a0 (s : State) (n : Fin 6) (v : Word) : (s.setAddr n v).a0 = s.a0 := rfl
@[simp] theorem State.setAddr_a1 (s : State) (n : Fin 6) (v : Word) : (s.setAddr n v).a1 = s.a1 := rfl
@[simp] theorem State.setAddr_x (s : State) (n : Fin 6) (v : Word) : (s.setAddr n v).x = s.x := rfl
@[simp] theorem State.setAddr_y (s : State) (n : Fin 6) (v : Word) : (s.setAddr n v).y = s.y := rfl
@[simp] theorem State.setAddr_p (s : State) (n : Fin 6) (v : Word) : (s.setAddr n v).p = s.p := rfl
@[simp] theorem State.setAddr_cfgi (s : State) (n : Fin 6) (v : Word) : (s.setAddr n v).cfgi = s.cfgi := rfl
@[simp] theorem State.setAddr_cfgj (s : State) (n : Fin 6) (v : Word) : (s.setAddr n v).cfgj = s.cfgj := rfl
@[simp] theorem State.setAddr_pc (s : State) (n : Fin 6) (v : Word) : (s.setAddr n v).pc = s.pc := rfl
@[simp] theorem State.setAddr_lc (s : State) (n : Fin 6) (v : Word) : (s.setAddr n v).lc = s.lc := rfl
@[simp] theorem State.setAddr_st0 (s : State) (n : Fin 6) (v : Word) : (s.setAddr n v).st0 = s.st0 := rfl
@[simp] theorem State.setAddr_st1 (s : State) (n : Fin 6) (v : Word) : (s.setAddr n v).st1 = s.st1 := rfl
@[simp] theorem State.setAddr_st2 (s : State) (n : Fin 6) (v : Word) : (s.setAddr n v).st2 = s.st2 := rfl
@[simp] theorem State.setAddr_stk (s : State) (n : Fin 6) (v : Word) : (s.setAddr n v).stk = s.stk := rfl
@[simp] theorem State.setAddr_ext (s : State) (n : Fin 6) (v : Word) : (s.setAddr n v).ext = s.ext := rfl
@[simp] theorem State.setAddr_bkStart (s : State) (n : Fin 6) (v : Word) : (s.setAddr n v).bkStart = s.bkStart := rfl
@[simp] theorem State.setAddr_bkEnd (s : State) (n : Fin 6) (v : Word) : (s.setAddr n v).bkEnd = s.bkEnd := rfl
@[simp] theorem State.setAddr_repCnt (s : State) (n : Fin 6) (v : Word) : (s.setAddr n v).repCnt = s.repCnt := rfl
@[simp] theorem State.setAddr_repArmed (s : State) (n : Fin 6) (v : Word) : (s.setAddr n v).repArmed = s.repArmed := rfl
@[simp] theorem State.setAddr_repActive (s : State) (n : Fin 6) (v : Word) : (s.setAddr n v).repActive = s.repActive := rfl
@[simp] theorem State.setAddr_lpLate (s : State) (n : Fin 6) (v : Word) : (s.setAddr n v).lpLate = s.lpLate := rfl
@[simp] theorem State.setAddr_pcPending (s : State) (n : Fin 6) (v : Word) : (s.setAddr n v).pcPending = s.pcPending := rfl
@[simp] theorem State.setAddr_inBpi (s : State) (n : Fin 6) (v : Word) : (s.setAddr n v).inBpi = s.inBpi := rfl
@[simp] theorem State.setAddr_inTrap (s : State) (n : Fin 6) (v : Word) : (s.setAddr n v).inTrap = s.inTrap := rfl
@[simp] theorem State.setAddr_holdOff (s : State) (n : Fin 6) (v : Word) : (s.setAddr n v).holdOff = s.holdOff := rfl
@[simp] theorem State.setAddr_iack (s : State) (n : Fin 6) (v : Word) : (s.setAddr n v).iack = s.iack := rfl
@[simp] theorem State.setAddr_mem (s : State) (n : Fin 6) (v : Word) : (s.setAddr n v).mem = s.mem := rfl
@[simp] theorem State.setAddr_st0Hazard (s : State) (n : Fin 6) (v : Word) : (s.setAddr n v).st0Hazard = s.st0Hazard := rfl
@[simp] theorem State.setAddr_storeNow (s : State) (n : Fin 6) (v : Word) : (s.setAddr n v).storeNow = s.storeNow := rfl
@[simp] theorem State.setAddr_store1 (s : State) (n : Fin 6) (v : Word) : (s.setAddr n v).store1 = s.store1 := rfl
@[simp] theorem State.setAddr_store2 (s : State) (n : Fin 6) (v : Word) : (s.setAddr n v).store2 = s.store2 := rfl
@[simp] theorem State.setAddr_freeCtr (s : State) (n : Fin 6) (v : Word) : (s.setAddr n v).freeCtr = s.freeCtr := rfl
@[simp] theorem State.setAddr_codeCtr (s : State) (n : Fin 6) (v : Word) : (s.setAddr n v).codeCtr = s.codeCtr := rfl
@[simp] theorem State.setAddr_irqTaken (s : State) (n : Fin 6) (v : Word) : (s.setAddr n v).irqTaken = s.irqTaken := rfl
@[simp] theorem State.setAddr_pins (s : State) (n : Fin 6) (v : Word) : (s.setAddr n v).pins = s.pins := rfl
@[simp] theorem State.setAddr_inputs (s : State) (n : Fin 6) (v : Word) : (s.setAddr n v).inputs = s.inputs := rfl
@[simp] theorem State.setAddr_answers (s : State) (n : Fin 6) (v : Word) : (s.setAddr n v).answers = s.answers := rfl
@[simp] theorem State.setAddr_bus (s : State) (n : Fin 6) (v : Word) : (s.setAddr n v).bus = s.bus := rfl
@[simp] theorem State.setAddr_params (s : State) (n : Fin 6) (v : Word) : (s.setAddr n v).params = s.params := rfl

@[simp] theorem State.setExt_a0 (s : State) (k : Fin 8) (v : Word) : (s.setExt k v).a0 = s.a0 := rfl
@[simp] theorem State.setExt_a1 (s : State) (k : Fin 8) (v : Word) : (s.setExt k v).a1 = s.a1 := rfl
@[simp] theorem State.setExt_x (s : State) (k : Fin 8) (v : Word) : (s.setExt k v).x = s.x := rfl
@[simp] theorem State.setExt_y (s : State) (k : Fin 8) (v : Word) : (s.setExt k v).y = s.y := rfl
@[simp] theorem State.setExt_p (s : State) (k : Fin 8) (v : Word) : (s.setExt k v).p = s.p := rfl
@[simp] theorem State.setExt_r (s : State) (k : Fin 8) (v : Word) : (s.setExt k v).r = s.r := rfl
@[simp] theorem State.setExt_cfgi (s : State) (k : Fin 8) (v : Word) : (s.setExt k v).cfgi = s.cfgi := rfl
@[simp] theorem State.setExt_cfgj (s : State) (k : Fin 8) (v : Word) : (s.setExt k v).cfgj = s.cfgj := rfl
@[simp] theorem State.setExt_pc (s : State) (k : Fin 8) (v : Word) : (s.setExt k v).pc = s.pc := rfl
@[simp] theorem State.setExt_lc (s : State) (k : Fin 8) (v : Word) : (s.setExt k v).lc = s.lc := rfl
@[simp] theorem State.setExt_st0 (s : State) (k : Fin 8) (v : Word) : (s.setExt k v).st0 = s.st0 := rfl
@[simp] theorem State.setExt_st1 (s : State) (k : Fin 8) (v : Word) : (s.setExt k v).st1 = s.st1 := rfl
@[simp] theorem State.setExt_st2 (s : State) (k : Fin 8) (v : Word) : (s.setExt k v).st2 = s.st2 := rfl
@[simp] theorem State.setExt_stk (s : State) (k : Fin 8) (v : Word) : (s.setExt k v).stk = s.stk := rfl
@[simp] theorem State.setExt_bkStart (s : State) (k : Fin 8) (v : Word) : (s.setExt k v).bkStart = s.bkStart := rfl
@[simp] theorem State.setExt_bkEnd (s : State) (k : Fin 8) (v : Word) : (s.setExt k v).bkEnd = s.bkEnd := rfl
@[simp] theorem State.setExt_repCnt (s : State) (k : Fin 8) (v : Word) : (s.setExt k v).repCnt = s.repCnt := rfl
@[simp] theorem State.setExt_repArmed (s : State) (k : Fin 8) (v : Word) : (s.setExt k v).repArmed = s.repArmed := rfl
@[simp] theorem State.setExt_repActive (s : State) (k : Fin 8) (v : Word) : (s.setExt k v).repActive = s.repActive := rfl
@[simp] theorem State.setExt_lpLate (s : State) (k : Fin 8) (v : Word) : (s.setExt k v).lpLate = s.lpLate := rfl
@[simp] theorem State.setExt_pcPending (s : State) (k : Fin 8) (v : Word) : (s.setExt k v).pcPending = s.pcPending := rfl
@[simp] theorem State.setExt_inBpi (s : State) (k : Fin 8) (v : Word) : (s.setExt k v).inBpi = s.inBpi := rfl
@[simp] theorem State.setExt_inTrap (s : State) (k : Fin 8) (v : Word) : (s.setExt k v).inTrap = s.inTrap := rfl
@[simp] theorem State.setExt_holdOff (s : State) (k : Fin 8) (v : Word) : (s.setExt k v).holdOff = s.holdOff := rfl
@[simp] theorem State.setExt_iack (s : State) (k : Fin 8) (v : Word) : (s.setExt k v).iack = s.iack := rfl
@[simp] theorem State.setExt_mem (s : State) (k : Fin 8) (v : Word) : (s.setExt k v).mem = s.mem := rfl
@[simp] theorem State.setExt_st0Hazard (s : State) (k : Fin 8) (v : Word) : (s.setExt k v).st0Hazard = s.st0Hazard := rfl
@[simp] theorem State.setExt_storeNow (s : State) (k : Fin 8) (v : Word) : (s.setExt k v).storeNow = s.storeNow := rfl
@[simp] theorem State.setExt_store1 (s : State) (k : Fin 8) (v : Word) : (s.setExt k v).store1 = s.store1 := rfl
@[simp] theorem State.setExt_store2 (s : State) (k : Fin 8) (v : Word) : (s.setExt k v).store2 = s.store2 := rfl
@[simp] theorem State.setExt_freeCtr (s : State) (k : Fin 8) (v : Word) : (s.setExt k v).freeCtr = s.freeCtr := rfl
@[simp] theorem State.setExt_codeCtr (s : State) (k : Fin 8) (v : Word) : (s.setExt k v).codeCtr = s.codeCtr := rfl
@[simp] theorem State.setExt_irqTaken (s : State) (k : Fin 8) (v : Word) : (s.setExt k v).irqTaken = s.irqTaken := rfl
@[simp] theorem State.setExt_pins (s : State) (k : Fin 8) (v : Word) : (s.setExt k v).pins = s.pins := rfl
@[simp] theorem State.setExt_inputs (s : State) (k : Fin 8) (v : Word) : (s.setExt k v).inputs = s.inputs := rfl
@[simp] theorem State.setExt_answers (s : State) (k : Fin 8) (v : Word) : (s.setExt k v).answers = s.answers := rfl
@[simp] theorem State.setExt_bus (s : State) (k : Fin 8) (v : Word) : (s.setExt k v).bus = s.bus := rfl
@[simp] theorem State.setExt_params (s : State) (k : Fin 8) (v : Word) : (s.setExt k v).params = s.params := rfl

@[simp] theorem State.setFlags_a0 (s : State) (f : St0) : (s.setFlags f).a0 = s.a0 := rfl
@[simp] theorem State.setFlags_a1 (s : State) (f : St0) : (s.setFlags f).a1 = s.a1 := rfl
@[simp] theorem State.setFlags_x (s : State) (f : St0) : (s.setFlags f).x = s.x := rfl
@[simp] theorem State.setFlags_y (s : State) (f : St0) : (s.setFlags f).y = s.y := rfl
@[simp] theorem State.setFlags_p (s : State) (f : St0) : (s.setFlags f).p = s.p := rfl
@[simp] theorem State.setFlags_r (s : State) (f : St0) : (s.setFlags f).r = s.r := rfl
@[simp] theorem State.setFlags_cfgi (s : State) (f : St0) : (s.setFlags f).cfgi = s.cfgi := rfl
@[simp] theorem State.setFlags_cfgj (s : State) (f : St0) : (s.setFlags f).cfgj = s.cfgj := rfl
@[simp] theorem State.setFlags_pc (s : State) (f : St0) : (s.setFlags f).pc = s.pc := rfl
@[simp] theorem State.setFlags_lc (s : State) (f : St0) : (s.setFlags f).lc = s.lc := rfl
@[simp] theorem State.setFlags_st0 (s : State) (f : St0) : (s.setFlags f).st0 = f := rfl
@[simp] theorem State.setFlags_st1 (s : State) (f : St0) : (s.setFlags f).st1 = s.st1 := rfl
@[simp] theorem State.setFlags_st2 (s : State) (f : St0) : (s.setFlags f).st2 = s.st2 := rfl
@[simp] theorem State.setFlags_stk (s : State) (f : St0) : (s.setFlags f).stk = s.stk := rfl
@[simp] theorem State.setFlags_ext (s : State) (f : St0) : (s.setFlags f).ext = s.ext := rfl
@[simp] theorem State.setFlags_bkStart (s : State) (f : St0) : (s.setFlags f).bkStart = s.bkStart := rfl
@[simp] theorem State.setFlags_bkEnd (s : State) (f : St0) : (s.setFlags f).bkEnd = s.bkEnd := rfl
@[simp] theorem State.setFlags_repCnt (s : State) (f : St0) : (s.setFlags f).repCnt = s.repCnt := rfl
@[simp] theorem State.setFlags_repArmed (s : State) (f : St0) : (s.setFlags f).repArmed = s.repArmed := rfl
@[simp] theorem State.setFlags_repActive (s : State) (f : St0) : (s.setFlags f).repActive = s.repActive := rfl
@[simp] theorem State.setFlags_lpLate (s : State) (f : St0) : (s.setFlags f).lpLate = s.lpLate := rfl
@[simp] theorem State.setFlags_pcPending (s : State) (f : St0) : (s.setFlags f).pcPending = s.pcPending := rfl
@[simp] theorem State.setFlags_inBpi (s : State) (f : St0) : (s.setFlags f).inBpi = s.inBpi := rfl
@[simp] theorem State.setFlags_inTrap (s : State) (f : St0) : (s.setFlags f).inTrap = s.inTrap := rfl
@[simp] theorem State.setFlags_holdOff (s : State) (f : St0) : (s.setFlags f).holdOff = s.holdOff := rfl
@[simp] theorem State.setFlags_iack (s : State) (f : St0) : (s.setFlags f).iack = s.iack := rfl
@[simp] theorem State.setFlags_mem (s : State) (f : St0) : (s.setFlags f).mem = s.mem := rfl
@[simp] theorem State.setFlags_st0Hazard (s : State) (f : St0) : (s.setFlags f).st0Hazard = s.st0Hazard := rfl
@[simp] theorem State.setFlags_storeNow (s : State) (f : St0) : (s.setFlags f).storeNow = s.storeNow := rfl
@[simp] theorem State.setFlags_store1 (s : State) (f : St0) : (s.setFlags f).store1 = s.store1 := rfl
@[simp] theorem State.setFlags_store2 (s : State) (f : St0) : (s.setFlags f).store2 = s.store2 := rfl
@[simp] theorem State.setFlags_freeCtr (s : State) (f : St0) : (s.setFlags f).freeCtr = s.freeCtr := rfl
@[simp] theorem State.setFlags_codeCtr (s : State) (f : St0) : (s.setFlags f).codeCtr = s.codeCtr := rfl
@[simp] theorem State.setFlags_irqTaken (s : State) (f : St0) : (s.setFlags f).irqTaken = s.irqTaken := rfl
@[simp] theorem State.setFlags_pins (s : State) (f : St0) : (s.setFlags f).pins = s.pins := rfl
@[simp] theorem State.setFlags_inputs (s : State) (f : St0) : (s.setFlags f).inputs = s.inputs := rfl
@[simp] theorem State.setFlags_answers (s : State) (f : St0) : (s.setFlags f).answers = s.answers := rfl
@[simp] theorem State.setFlags_bus (s : State) (f : St0) : (s.setFlags f).bus = s.bus := rfl
@[simp] theorem State.setFlags_params (s : State) (f : St0) : (s.setFlags f).params = s.params := rfl

@[simp] theorem State.free_snd_a0 (s : State) : s.free.2.a0 = s.a0 := rfl
@[simp] theorem State.free_snd_a1 (s : State) : s.free.2.a1 = s.a1 := rfl
@[simp] theorem State.free_snd_x (s : State) : s.free.2.x = s.x := rfl
@[simp] theorem State.free_snd_y (s : State) : s.free.2.y = s.y := rfl
@[simp] theorem State.free_snd_p (s : State) : s.free.2.p = s.p := rfl
@[simp] theorem State.free_snd_r (s : State) : s.free.2.r = s.r := rfl
@[simp] theorem State.free_snd_cfgi (s : State) : s.free.2.cfgi = s.cfgi := rfl
@[simp] theorem State.free_snd_cfgj (s : State) : s.free.2.cfgj = s.cfgj := rfl
@[simp] theorem State.free_snd_pc (s : State) : s.free.2.pc = s.pc := rfl
@[simp] theorem State.free_snd_lc (s : State) : s.free.2.lc = s.lc := rfl
@[simp] theorem State.free_snd_st0 (s : State) : s.free.2.st0 = s.st0 := rfl
@[simp] theorem State.free_snd_st1 (s : State) : s.free.2.st1 = s.st1 := rfl
@[simp] theorem State.free_snd_st2 (s : State) : s.free.2.st2 = s.st2 := rfl
@[simp] theorem State.free_snd_stk (s : State) : s.free.2.stk = s.stk := rfl
@[simp] theorem State.free_snd_ext (s : State) : s.free.2.ext = s.ext := rfl
@[simp] theorem State.free_snd_bkStart (s : State) : s.free.2.bkStart = s.bkStart := rfl
@[simp] theorem State.free_snd_bkEnd (s : State) : s.free.2.bkEnd = s.bkEnd := rfl
@[simp] theorem State.free_snd_repCnt (s : State) : s.free.2.repCnt = s.repCnt := rfl
@[simp] theorem State.free_snd_repArmed (s : State) : s.free.2.repArmed = s.repArmed := rfl
@[simp] theorem State.free_snd_repActive (s : State) : s.free.2.repActive = s.repActive := rfl
@[simp] theorem State.free_snd_lpLate (s : State) : s.free.2.lpLate = s.lpLate := rfl
@[simp] theorem State.free_snd_pcPending (s : State) : s.free.2.pcPending = s.pcPending := rfl
@[simp] theorem State.free_snd_inBpi (s : State) : s.free.2.inBpi = s.inBpi := rfl
@[simp] theorem State.free_snd_inTrap (s : State) : s.free.2.inTrap = s.inTrap := rfl
@[simp] theorem State.free_snd_holdOff (s : State) : s.free.2.holdOff = s.holdOff := rfl
@[simp] theorem State.free_snd_iack (s : State) : s.free.2.iack = s.iack := rfl
@[simp] theorem State.free_snd_mem (s : State) : s.free.2.mem = s.mem := rfl
@[simp] theorem State.free_snd_st0Hazard (s : State) : s.free.2.st0Hazard = s.st0Hazard := rfl
@[simp] theorem State.free_snd_storeNow (s : State) : s.free.2.storeNow = s.storeNow := rfl
@[simp] theorem State.free_snd_store1 (s : State) : s.free.2.store1 = s.store1 := rfl
@[simp] theorem State.free_snd_store2 (s : State) : s.free.2.store2 = s.store2 := rfl
@[simp] theorem State.free_snd_pins (s : State) : s.free.2.pins = s.pins := rfl
@[simp] theorem State.free_snd_inputs (s : State) : s.free.2.inputs = s.inputs := rfl
@[simp] theorem State.free_snd_answers (s : State) : s.free.2.answers = s.answers := rfl
@[simp] theorem State.free_snd_bus (s : State) : s.free.2.bus = s.bus := rfl
@[simp] theorem State.free_snd_params (s : State) : s.free.2.params = s.params := rfl

@[simp] theorem State.setAddr_acc (s : State) (n : Fin 6) (v : Word) (z : Acc) : (s.setAddr n v).acc z = s.acc z := by cases z <;> rfl
@[simp] theorem State.setExt_acc (s : State) (k : Fin 8) (v : Word) (z : Acc) : (s.setExt k v).acc z = s.acc z := by cases z <;> rfl
@[simp] theorem State.setFlags_acc (s : State) (f : St0) (z : Acc) : (s.setFlags f).acc z = s.acc z := by cases z <;> rfl
@[simp] theorem State.free_snd_acc (s : State) (z : Acc) : s.free.2.acc z = s.acc z := by cases z <;> rfl
@[simp] theorem State.setAcc_addr (s : State) (x : Acc) (v : Accum) (j : Fin 6) : (s.setAcc x v).addr j = s.addr j := by cases x <;> rfl
@[simp] theorem State.setExt_addr (s : State) (k : Fin 8) (v : Word) (j : Fin 6) : (s.setExt k v).addr j = s.addr j := rfl
@[simp] theorem State.setFlags_addr (s : State) (f : St0) (j : Fin 6) : (s.setFlags f).addr j = s.addr j := rfl
@[simp] theorem State.free_snd_addr (s : State) (j : Fin 6) : s.free.2.addr j = s.addr j := rfl

end Sys2Proof.Machine
end

