-- ==== Sys2Proof/Laws/Ops.lean ====
section
/-! SUPPORT. What each shared operation of Machine/Ops.lean can do, said once: when it goes on and with
what state, when it faults, when it refuses. -/

namespace Sys2Proof.Machine

/-! Sequencing. -/

@[simp] theorem andThen_next {α β : Type} (a : α) (f : α → Res β) : andThen (.next a) f = f a := rfl

@[simp] theorem andThen_fault {α β : Type} (e : Fault) (f : α → Res β) : andThen (.fault e : Res α) f = .fault e :=
  rfl

@[simp] theorem andThen_refused {α β : Type} (e : Refusal) (f : α → Res β) :
    andThen (.refused e : Res α) f = .refused e := rfl

theorem andThen_eq_next {α β : Type} {x : Res α} {f : α → Res β} {b : β} :
    andThen x f = .next b ↔ ∃ a, x = .next a ∧ f a = .next b := by
  cases x <;> simp [andThen]

theorem andThen_eq_fault {α β : Type} {x : Res α} {f : α → Res β} {e : Fault} :
    andThen x f = .fault e ↔ x = .fault e ∨ ∃ a, x = .next a ∧ f a = .fault e := by
  cases x <;> simp [andThen]

@[simp] theorem refuseIf_false {α : Type} (why : Refusal) (k : Res α) : refuseIf false why k = k := rfl

@[simp] theorem refuseIf_true {α : Type} (why : Refusal) (k : Res α) : refuseIf true why k = .refused why := rfl

theorem refuseIf_eq_next {α : Type} {b : Bool} {why : Refusal} {k : Res α} {a : α} :
    refuseIf b why k = .next a ↔ b = false ∧ k = .next a := by
  cases b <;> simp

theorem refuseIf_eq_fault {α : Type} {b : Bool} {why : Refusal} {k : Res α} {e : Fault} :
    refuseIf b why k = .fault e ↔ b = false ∧ k = .fault e := by
  cases b <;> simp

/-! Memory. -/

/-- t is s after a word has been read or fetched: free values used, answers used, accesses on the bus. -/
def MemFrame (s t : State) : Prop :=
  t = { s with freeCtr := t.freeCtr, codeCtr := t.codeCtr, answers := t.answers, bus := t.bus }

theorem MemFrame.refl (s : State) : MemFrame s s := rfl

theorem MemFrame.trans {s t u : State} (h : MemFrame s t) (k : MemFrame t u) : MemFrame s u := by
  unfold MemFrame at *; rw [k, h]

theorem MemFrame.acc {s t : State} (h : MemFrame s t) (x : Acc) : t.acc x = s.acc x := by
  rw [h]; cases x <;> rfl

theorem free_frame (s : State) : MemFrame s s.free.2 := rfl

theorem deviceGives_frame (sp : Space) (a : Word) {o : Word × State} {s t : State} (ho : MemFrame s o.2)
    (ht : MemFrame s t) : MemFrame s (deviceGives sp a o t).2 := by
  unfold deviceGives MemFrame at *; dsimp only; split
  · simp only; rw [ht]
  · simp only; rw [ho]

theorem deviceRead_frame (sp : Space) (a : Word) (s : State) : MemFrame s (deviceRead sp a s).2 :=
  deviceGives_frame sp a (free_frame s) (.refl s)

theorem freeCode_frame (a : Word) (s : State) : MemFrame s (s.freeCode a).2 := rfl

theorem dataRead_frame (a : Word) (s : State) : MemFrame s (dataRead a s).2 := by
  unfold dataRead; split
  · exact free_frame s
  · exact deviceRead_frame ..
  all_goals exact .refl s

theorem progRead_frame (a : Word) (s : State) : MemFrame s (progRead a s).2 := by
  unfold progRead; split
  · exact free_frame s
  · exact deviceRead_frame ..
  all_goals exact .refl s

/-- What a Device read answers, said as the environment sees it. -/
theorem deviceGives_answers (sp : Space) (a : Word) (o : Word × State) (s : State) :
    o.2.bus = s.bus → AnswersRead sp a s o.2 (deviceGives sp a o s) := by
  intro hb'
  unfold deviceGives
  constructor
  · intro before v after h hb
    have hn : ∀ e ∈ before, (e.space == sp && e.addr == a) = false := by
      intro e he; have := hb e he; simpa using this
    have h1 : s.answers.find? (fun e => e.space == sp && e.addr == a) = some ⟨sp, a, v⟩ := by
      rw [h, List.find?_append, List.find?_eq_none.2 (by simpa using hb)]; simp
    have h2 : s.answers.eraseP (fun e => e.space == sp && e.addr == a) = before ++ after := by
      rw [h, List.eraseP_append_right _ (fun e he => by simp [hn e he])]; simp
    simp only [h1, h2]
  · intro h
    have h1 : s.answers.find? (fun e => e.space == sp && e.addr == a) = none :=
      List.find?_eq_none.2 (by simpa using h)
    simp only [h1, hb']

theorem deviceRead_answers (sp : Space) (a : Word) (s : State) :
    AnswersRead sp a s { s with freeCtr := s.freeCtr + 1 } (deviceRead sp a s) :=
  deviceGives_answers sp a s.free s rfl

theorem dataRead_plain {a : Word} {s : State} (h : Plain (dataMap s.params a)) : dataRead a s = (heldWord a s, s) := by
  unfold dataRead; split
  · next e => exact absurd e h.2
  · next e => exact absurd e h.1
  all_goals rfl

theorem progRead_plain {a : Word} {s : State} (h : Plain (progMap s.params a)) : progRead a s = (progWord a s, s) := by
  unfold progRead; split
  · next e => exact absurd e h.2
  · next e => exact absurd e h.1
  all_goals rfl

theorem readInd_frame (n : Fin 6) (m : PostMod) (s : State) :
    ∃ t, MemFrame s t ∧ (readInd n m s).2 = postMod n m t := ⟨_, dataRead_frame (s.addr n) s, rfl⟩

/-- An announcement changes the note of a store into a program word alone. -/
theorem announced_eq (a : Word) (s : State) : s.announced a = { s with storeNow := (s.announced a).storeNow } := by
  unfold State.announced; split <;> rfl

/-- An announced store is the store. -/
theorem dataWrite_announced (a v : Word) (s : State) : dataWrite a v (s.announced a) = dataWrite a v s := by
  unfold dataWrite State.announced
  cases h : dataMap s.params a <;> simp [h]

/-- A data write changes the word in memory, the note of a store into a program word, or the bus. -/
theorem dataWrite_frame (a v : Word) (s : State) :
    ∃ m c b, dataWrite a v s = { s with mem := m, storeNow := c, bus := b } := by
  unfold dataWrite; split <;> exact ⟨_, _, _, rfl⟩

/-- The memory after a data write: the word is written, or nothing is. -/
theorem dataWrite_mem (a v : Word) (s : State) :
    (dataWrite a v s).mem = s.mem ∨ (dataWrite a v s).mem = s.mem.writeWord a.toNat v := by
  unfold dataWrite; split <;> simp [dataCell]

theorem spanAt_ne_shared (l : List Span) (a : Word) : spanAt l a ≠ .shared := by
  induction l with
  | nil => simp [spanAt]
  | cons p l ih =>
    unfold spanAt; split
    · cases p.what <;> simp [Backing.region]
    · exact ih

/-- The shared words are those of 1000h to 7FFFh that are not ROM, in both maps. -/
theorem dataMap_shared {c : Params} {a : Word} : dataMap c a = .shared ↔ isSharedAddr a = true ∧ progMap c a = .shared := by
  unfold dataMap progMap
  by_cases h : isSharedAddr a = true
  · simp [h]
  · simp only [h, Bool.false_eq_true, if_false, false_and, iff_false]
    have := spanAt_ne_shared c.dataSpans a
    split <;> [simp; (split <;> simp [this])]

theorem progMap_shared {c : Params} {a : Word} : progMap c a = .shared ↔ isSharedAddr a = true ∧ dataMap c a = .shared := by
  unfold dataMap progMap
  by_cases h : isSharedAddr a = true
  · simp [h]
  · simp only [h, Bool.false_eq_true, if_false, false_and, iff_false]
    have := spanAt_ne_shared c.progSpans a
    split <;> simp [this]

theorem progCell_shared {a : Word} (h : isSharedAddr a = true) : progCell a = dataCell a := by
  simp [progCell, dataCell, h]

theorem progCell_private {a : Word} (h : isSharedAddr a = false) (b : Word) : progCell a ≠ dataCell b := by
  have := b.isLt
  simp only [progCell, dataCell, h, Bool.false_eq_true, if_false]; omega

/-- Two program words have one storage place only if they are one word. -/
theorem progCell_inj {a b : Word} (h : progCell a = progCell b) : a = b := by
  have := a.isLt; have := b.isLt
  unfold progCell at h
  apply BitVec.eq_of_toNat_eq
  split at h <;> split at h <;> omega

/-! Address modification changes address registers alone. -/

theorem postMod_eq (n : Fin 6) (m : PostMod) (s : State) :
    postMod n m s = { s with r := s.r.set n (modified n m s).1 } := rfl

@[simp] theorem postMod_acc (n : Fin 6) (m : PostMod) (s : State) (x : Acc) : (postMod n m s).acc x = s.acc x := by
  cases x <;> rfl

@[simp] theorem postMod_addr_same (n : Fin 6) (m : PostMod) (s : State) :
    (postMod n m s).addr n = (modified n m s).1 := by
  simp [postMod]

theorem postMod_addr_ne {n k : Fin 6} (m : PostMod) (s : State) (h : k ≠ n) :
    (postMod n m s).addr k = s.addr k := by
  simp [postMod, State.setAddr_addr_ne _ _ h]

@[simp] theorem postMod_heldWord (n : Fin 6) (m : PostMod) (s : State) (a : Word) :
    heldWord a (postMod n m s) = heldWord a s := rfl

@[simp] theorem modified_keep (n : Fin 6) (s : State) : modified n .keep s = (s.addr n, false) := rfl

/-! The hardware stack. -/

theorem pushSlot_eq_next {v : Slot} {s t : State} :
    pushSlot v s = .next t ↔ s.stk.length < 16 ∧ t = { s with stk := v :: s.stk } := by
  unfold pushSlot Config.stackDepth; split <;> simp_all [eq_comm]

theorem pushSlot_eq_fault {v : Slot} {s : State} {e : Fault} :
    pushSlot v s = .fault e ↔ 16 ≤ s.stk.length ∧ e = .stackOverflow := by
  unfold pushSlot Config.stackDepth; split <;> simp_all [eq_comm]

theorem push_eq_next {v : Word} {s t : State} :
    push v s = .next t ↔ s.stk.length < 16 ∧ t = { s with stk := ⟨v, false⟩ :: s.stk } := pushSlot_eq_next

theorem push_eq_fault {v : Word} {s : State} {e : Fault} :
    push v s = .fault e ↔ 16 ≤ s.stk.length ∧ e = .stackOverflow := pushSlot_eq_fault

theorem pop_eq_next {s : State} {o : Slot × State} :
    pop s = .next o ↔ s.stk = o.1 :: o.2.stk ∧ o.2 = { s with stk := o.2.stk } := by
  unfold pop
  rcases o with ⟨v, t⟩
  split
  · next h => simp [h]
  · next w rest h =>
    rw [h]
    simp only [Host.Outcome.next.injEq, Prod.mk.injEq, List.cons.injEq]
    constructor
    · rintro ⟨rfl, rfl⟩; simp
    · rintro ⟨⟨rfl, h1⟩, h2⟩
      exact ⟨rfl, by rw [h2, h1]⟩

theorem pop_eq_fault {s : State} {e : Fault} : pop s = .fault e ↔ s.stk = [] ∧ e = .stackUnderflow := by
  unfold pop; split <;> simp_all [eq_comm]

theorem takeOff_eq_next {s : State} {o : Word × State} :
    takeOff s = .next o ↔ ∃ v rest, s.stk = v :: rest ∧
      o = (v.value, { s with stk := rest, irqTaken := if v.irq then v.value :: s.irqTaken else s.irqTaken }) := by
  unfold takeOff pop
  rcases h : s.stk with _ | ⟨v, rest⟩
  · simp
  · simp only [andThen_next, Host.Outcome.next.injEq, List.cons.injEq]
    constructor
    · rintro rfl; refine ⟨v, rest, ⟨rfl, rfl⟩, ?_⟩; cases v.irq <;> rfl
    · rintro ⟨_, _, ⟨rfl, rfl⟩, rfl⟩; cases v.irq <;> rfl

theorem takeOff_eq_fault {s : State} {e : Fault} : takeOff s = .fault e ↔ s.stk = [] ∧ e = .stackUnderflow := by
  simp [takeOff, andThen_eq_fault, pop_eq_fault]

theorem putOn_eq_next {v : Word} {s t : State} :
    putOn v s = .next t ↔ s.stk.length < 16 ∧
      t = { s with stk := ⟨v, decide (v ∈ s.irqTaken)⟩ :: s.stk, irqTaken := s.irqTaken.erase v } := pushSlot_eq_next

theorem putOn_eq_fault {v : Word} {s : State} {e : Fault} :
    putOn v s = .fault e ↔ 16 ≤ s.stk.length ∧ e = .stackOverflow := pushSlot_eq_fault

/-! The fetch. -/

/-- A fetched word is the present one or the one that a store at its address replaced. -/
theorem seenThrough_cases (c : Option CodeStore) (b : Bool) (a v : Word) :
    seenThrough c b a v = v ∨ ∃ d, c = some d ∧ d.addr = a ∧ seenThrough c b a v = d.old := by
  unfold seenThrough
  cases c with
  | none => exact .inl rfl
  | some d =>
    by_cases h : d.addr = a ∧ b = true
    · exact .inr ⟨d, rfl, h.1, if_pos h⟩
    · exact .inl (if_neg h)

theorem seenThrough_miss {c : Option CodeStore} {a : Word} (b : Bool) (v : Word) (h : ∀ d, c = some d → d.addr ≠ a) :
    seenThrough c b a v = v := by
  rcases seenThrough_cases c b a v with e | ⟨d, hd, ha, _⟩
  · exact e
  · exact absurd ha (h d hd)

theorem fetchPlain_snd (a : Word) (s : State) : (fetchPlain a s).2 = { s with codeCtr := s.codeCtr + 1 } := rfl

/-- What a plain word may be fetched as. -/
theorem fetchPlain_cases (a : Word) (s : State) :
    (fetchPlain a s).1 = progWord a s ∨
      ∃ c, (s.store1 = some c ∨ s.store2 = some c) ∧ c.addr = a ∧ (fetchPlain a s).1 = c.old := by
  unfold fetchPlain
  dsimp only
  rcases seenThrough_cases s.store2 ((s.freeCode a).1.getLsbD 1) a
    (seenThrough s.store1 ((s.freeCode a).1.getLsbD 0) a (progWord a s)) with h2 | ⟨d, hd, ha, h2⟩
  · rcases seenThrough_cases s.store1 ((s.freeCode a).1.getLsbD 0) a (progWord a s) with h1 | ⟨d, hd, ha, h1⟩
    · exact .inl (h2.trans h1)
    · exact .inr ⟨d, .inl hd, ha, h2.trans h1⟩
  · exact .inr ⟨d, .inr hd, ha, h2⟩

theorem fetchPlain_miss {a : Word} {s : State} (h : ∀ c, s.store1 = some c ∨ s.store2 = some c → c.addr ≠ a) :
    fetchPlain a s = (progWord a s, { s with codeCtr := s.codeCtr + 1 }) := by
  unfold fetchPlain
  dsimp only
  rw [seenThrough_miss _ _ fun d hd => h d (.inr hd), seenThrough_miss _ _ fun d hd => h d (.inl hd)]; rfl

theorem fetchWord_plain {a : Word} {s : State} (h : Plain (progMap s.params a)) :
    fetchWord a s = .next (fetchPlain a s) := by
  unfold fetchWord; split
  · next e => exact absurd e h.2
  · next e => exact absurd e h.1
  all_goals rfl

/-- From plain memory, with no store in flight, the fetched word is memory's. -/
theorem fetchWord_clean {s : State} {a : Word} (h : Plain (progMap s.params a)) (h1 : s.store1 = none)
    (h2 : s.store2 = none) : fetchWord a s = .next (progWord a s, { s with codeCtr := s.codeCtr + 1 }) := by
  rw [fetchWord_plain h, fetchPlain_miss (by simp [h1, h2])]

theorem fetchWord_frame {a : Word} {s : State} {o : Word × State} (h : fetchWord a s = .next o) :
    MemFrame s o.2 := by
  unfold fetchWord at h
  split at h <;> cases h
  · exact deviceGives_frame _ _ (freeCode_frame a s) (freeCode_frame a s)
  all_goals exact freeCode_frame a s

theorem fetchWord_ne_fault {a : Word} {s : State} {e : Fault} : fetchWord a s ≠ .fault e := by
  unfold fetchWord; split <;> nofun

/-- The word that a fetch gives depends on the map, memory, the stores in flight, the answers, and the number of words
fetched before. -/
theorem fetchWord_congr {a : Word} {s t : State} (hp : t.params = s.params) (hm : t.mem = s.mem)
    (h1 : t.store1 = s.store1) (h2 : t.store2 = s.store2) (ha : t.answers = s.answers) (hc : t.codeCtr = s.codeCtr)
    {o : Word × State} (h : fetchWord a s = .next o) : ∃ u, fetchWord a t = .next (o.1, u) := by
  unfold fetchWord at *
  rw [hp]
  split at h <;> cases h
  · unfold deviceGives State.freeCode; rw [ha, hc]; dsimp only; split <;> exact ⟨_, rfl⟩
  all_goals
    unfold fetchPlain State.freeCode progWord; rw [h1, h2, hc, hm]; exact ⟨_, rfl⟩

/-! Control transfers, exceptions and their returns. -/

theorem loopLiveAfter_iff {k : Nat} {s : State} : s.loopLiveAfter k = true ↔ InLoopAfter k s := by
  simp [State.loopLiveAfter, InLoopAfter]

theorem loopLive_iff {s : State} : s.loopLive = true ↔ InLoop s := loopLiveAfter_iff

theorem endsAt_iff {a e : Word} {s : State} : s.endsAt a e = true ↔ EndsAt a e s := by
  unfold State.endsAt EndsAt
  cases fetchWord a s.ahead with
  | next o => simp only [Host.Outcome.next.injEq, exists_eq_left']; split <;> simp
  | fault => simp
  | refused => simp

theorem entersLoopEnd_iff {a : Word} {s : State} : s.entersLoopEnd a = true ↔ EntersLoopEnd a s := by
  simp only [State.entersLoopEnd, EntersLoopEnd, Bool.and_eq_true, Bool.or_eq_true, loopLiveAfter_iff, beq_iff_eq,
    endsAt_iff]

/-- What the instruction at a is depends on what a fetch sees. -/
theorem endsAt_congr {a e : Word} {s t : State} (hp : t.params = s.params) (hm : t.mem = s.mem)
    (h1 : t.storeNow = s.storeNow) (h2 : t.store1 = s.store1) (ha : t.inputs = s.inputs) (hc : t.codeCtr = s.codeCtr)
    (h : EndsAt a e s) : EndsAt a e t := by
  obtain ⟨o, ho, h⟩ := h
  obtain ⟨u, hu⟩ := fetchWord_congr (s := s.ahead) (t := t.ahead) hp hm h1 h2
    (congrArg (fun l : List EnvInput => (l.head?.map EnvInput.answers).getD []) ha) hc ho
  exact ⟨_, hu, h⟩

theorem jumpTo_eq_next {a : Word} {s t : State} :
    jumpTo a s = .next t ↔ ¬ EntersLoopEnd a s ∧ t = { s with pc := a } := by
  simp only [jumpTo, refuseIf_eq_next, ← entersLoopEnd_iff, Host.Outcome.next.injEq, Bool.not_eq_true]
  exact and_congr_right fun _ => eq_comm

theorem jumpTo_ne_fault {a : Word} {s : State} {e : Fault} : jumpTo a s ≠ .fault e := by
  simp [jumpTo, refuseIf_eq_fault]

/-- A push or a pop leaves alone what decides whether a transfer enters the end of a loop. -/
theorem entersLoopEnd_stk (a : Word) (s : State) (l : List Slot) :
    EntersLoopEnd a { s with stk := l } ↔ EntersLoopEnd a s :=
  and_congr_right fun _ => or_congr_right
    ⟨endsAt_congr rfl rfl rfl rfl rfl rfl, endsAt_congr rfl rfl rfl rfl rfl rfl⟩

theorem callTo_eq_next {a : Word} {s t : State} :
    callTo a s = .next t ↔ s.stk.length < 16 ∧ ¬ EntersLoopEnd a s ∧
      t = { s with stk := ⟨s.pc, false⟩ :: s.stk, pc := a } := by
  simp only [callTo, andThen_eq_next, push_eq_next, jumpTo_eq_next]
  constructor
  · rintro ⟨_, ⟨h, rfl⟩, h', rfl⟩; exact ⟨h, (entersLoopEnd_stk ..).not.1 h', rfl⟩
  · rintro ⟨h, h', rfl⟩; exact ⟨_, ⟨h, rfl⟩, (entersLoopEnd_stk ..).not.2 h', rfl⟩

theorem callTo_eq_fault {a : Word} {s : State} {e : Fault} :
    callTo a s = .fault e ↔ 16 ≤ s.stk.length ∧ e = .stackOverflow := by
  simp [callTo, andThen_eq_fault, push_eq_fault, jumpTo_ne_fault]

/-- A return pops the address; an interrupt's may enter the end of a loop. -/
theorem returnTo_eq_next {s t : State} :
    returnTo s = .next t ↔ ∃ v rest, s.stk = v :: rest ∧ (v.irq = true ∨ ¬ EntersLoopEnd v.value s) ∧
      t = { s with stk := rest, pc := v.value } := by
  unfold returnTo pop
  rcases h : s.stk with _ | ⟨v, rest⟩
  · simp
  · simp only [andThen_next, List.cons.injEq]
    cases hm : v.irq
    · simp only [Bool.false_eq_true, if_false, jumpTo_eq_next]
      constructor
      · rintro ⟨hj, rfl⟩; exact ⟨v, rest, ⟨rfl, rfl⟩, .inr ((entersLoopEnd_stk ..).not.1 hj), rfl⟩
      · rintro ⟨_, _, ⟨rfl, rfl⟩, hj, rfl⟩
        exact ⟨(entersLoopEnd_stk ..).not.2 (hj.resolve_left (by simp [hm])), rfl⟩
    · simp only [if_true, Host.Outcome.next.injEq]
      constructor
      · rintro rfl; exact ⟨v, rest, ⟨rfl, rfl⟩, .inl hm, rfl⟩
      · rintro ⟨_, _, ⟨rfl, rfl⟩, _, rfl⟩; rfl

theorem returnTo_eq_fault {s : State} {e : Fault} : returnTo s = .fault e ↔ s.stk = [] ∧ e = .stackUnderflow := by
  simp only [returnTo, andThen_eq_fault, pop_eq_fault, or_iff_left_iff_imp, forall_exists_index, and_imp]
  intro o _ h
  split at h
  · cases h
  · exact absurd h jumpTo_ne_fault

/-- TRAP entry goes on where the stack is not full and trap is not one of the last two instructions of a loop. -/
theorem enterTrap_eq_next {s t : State} :
    enterTrap s = .next t ↔ ¬ (InLoopAfter 1 s ∧ EndsAt 0x000A s.bkEnd s) ∧ s.stk.length < 16 ∧
      t = { s with stk := ⟨s.pc, false⟩ :: s.stk, pc := 0x000A, inTrap := true } := by
  simp only [enterTrap, enterRoutine, refuseIf_eq_next, andThen_eq_next, pushSlot_eq_next, Host.Outcome.next.injEq,
    ← Bool.not_eq_true, Bool.and_eq_true, loopLiveAfter_iff, endsAt_iff, trapVector]
  refine and_congr_right fun _ => ⟨?_, ?_⟩
  · rintro ⟨_, ⟨_, ⟨h, rfl⟩, rfl⟩, rfl⟩; exact ⟨h, rfl⟩
  · rintro ⟨h, rfl⟩; exact ⟨_, ⟨_, ⟨h, rfl⟩, rfl⟩, rfl⟩

theorem enterTrap_eq_fault {s : State} {e : Fault} :
    enterTrap s = .fault e ↔ ¬ (InLoopAfter 1 s ∧ EndsAt 0x000A s.bkEnd s) ∧ 16 ≤ s.stk.length ∧ e = .stackOverflow := by
  simp [enterTrap, enterRoutine, refuseIf_eq_fault, andThen_eq_fault, andThen_eq_next, pushSlot_eq_fault,
    ← Bool.not_eq_true, loopLiveAfter_iff, endsAt_iff, trapVector]

theorem enterInterrupt_eq_next {i : Irq} {s t : State} :
    enterInterrupt i s = .next t ↔ s.lpLate = 0 ∧ s.stk.length < 16 ∧
      t = markEntry i { s with stk := ⟨s.pc, true⟩ :: s.stk, pc := i.vector, iack := true } := by
  simp only [enterInterrupt, enterRoutine, refuseIf_eq_next, andThen_eq_next, pushSlot_eq_next,
    Host.Outcome.next.injEq, decide_eq_false_iff_not, Nat.not_lt, Nat.le_zero]
  constructor
  · rintro ⟨h0, _, ⟨_, ⟨h, rfl⟩, rfl⟩, rfl⟩; exact ⟨h0, h, rfl⟩
  · rintro ⟨h0, h, rfl⟩; exact ⟨h0, _, ⟨_, ⟨h, rfl⟩, rfl⟩, rfl⟩

theorem enterInterrupt_eq_fault {i : Irq} {s : State} {e : Fault} :
    enterInterrupt i s = .fault e ↔ s.lpLate = 0 ∧ 16 ≤ s.stk.length ∧ e = .stackOverflow := by
  simp [enterInterrupt, enterRoutine, refuseIf_eq_fault, andThen_eq_fault, andThen_eq_next, pushSlot_eq_fault]

/-- The end of a routine changes in_bpi, in_trap or IE. -/
theorem endRoutine_eq (s : State) :
    endRoutine s = { s with inBpi := (endRoutine s).inBpi, inTrap := (endRoutine s).inTrap,
                            st0 := { s.st0 with ie := (endRoutine s).st0.ie } } := by
  unfold endRoutine; split
  · rfl
  · split <;> rfl

theorem returnFromException_eq_next {s t : State} :
    returnFromException s = .next t ↔ ∃ u, returnTo s = .next u ∧ t = endRoutine u := by
  simp only [returnFromException, andThen_eq_next, Host.Outcome.next.injEq]
  exact exists_congr fun _ => and_congr_right fun _ => eq_comm

theorem returnFromException_eq_fault {s : State} {e : Fault} :
    returnFromException s = .fault e ↔ s.stk = [] ∧ e = .stackUnderflow := by
  simp [returnFromException, andThen_eq_fault, returnTo_eq_fault]

end Sys2Proof.Machine
end

