-- ==== Sys2Proof/Laws/Operands.lean ====
section
/-! SUPPORT. What reading and writing an operand can do, and the operations of Machine/Flags.lean and
Machine/Operands.lean as facts about exact numbers. -/

namespace Sys2Proof.Machine

/-! Reading a register. -/

/-- t is s after a register has been read: L may be set, the stack popped once and an interrupt's address noted, a free
value used. -/
def ReadFrame (s t : State) : Prop :=
  t = { s with st0 := { s.st0 with l := t.st0.l }, stk := t.stk, irqTaken := t.irqTaken, freeCtr := t.freeCtr } ∧
    (s.st0.l = true → t.st0.l = true) ∧ (t.stk = s.stk ∨ ∃ v, s.stk = v :: t.stk)

theorem ReadFrame.refl (s : State) : ReadFrame s s := ⟨rfl, id, .inl rfl⟩

theorem ReadFrame.acc {s t : State} (h : ReadFrame s t) (x : Acc) : t.acc x = s.acc x := by
  rw [h.1]; cases x <;> rfl

theorem ReadFrame.stack {s t : State} (h : ReadFrame s t) : t.stk.length ≤ s.stk.length := by
  rcases h.2.2 with h | ⟨v, h⟩ <;> simp [h]

/-- The free value has been used. -/
theorem ReadFrame.free (s : State) : ReadFrame s { s with freeCtr := s.freeCtr + 1 } := ⟨rfl, id, .inl rfl⟩

theorem readSt0_snd (s : State) : (readSt0 s).2 = { s with freeCtr := s.freeCtr + 1 } := by
  unfold readSt0; simp only; split <;> rfl

theorem regRead_frame {b : Bool} {c : Reg} {s : State} {o : Word × State} (h : regRead b c s = .next o) :
    ReadFrame s o.2 ∧ c.isWord = true := by
  cases c <;> simp only [regRead, reduceCtorEq, Host.Outcome.next.injEq] at h
  case tos =>
    obtain ⟨v, rest, hs, rfl⟩ := takeOff_eq_next.1 h
    exact ⟨⟨rfl, id, .inr ⟨v, hs⟩⟩, rfl⟩
  case acch x | accl x =>
    subst h
    exact ⟨⟨rfl, fun hl => by simp [noteLimit, hl], .inl rfl⟩, rfl⟩
  case lc =>
    subst h; refine ⟨?_, rfl⟩
    unfold readLc; dsimp only; split
    · exact .free s
    · exact .refl s
  case st0 => subst h; rw [readSt0_snd]; exact ⟨.free s, rfl⟩
  all_goals subst h; first | exact ⟨.refl s, rfl⟩ | exact ⟨.free s, rfl⟩

theorem regRead_eq_fault {b : Bool} {c : Reg} {s : State} {e : Fault} (h : regRead b c s = .fault e) :
    c = .tos ∧ s.stk = [] ∧ e = .stackUnderflow := by
  cases c <;> simp only [regRead, reduceCtorEq] at h
  exact ⟨rfl, takeOff_eq_fault.1 h⟩

/-- Every register but the accumulators and p can be read, tos where the stack is not empty. -/
theorem regRead_completes (b : Bool) {c : Reg} {s : State} (hw : c.isWord = true) (hr : Readable c s) :
    ∃ o, regRead b c s = .next o := by
  cases c <;> simp_all [Reg.isWord, regRead, Readable]
  unfold takeOff pop; split <;> simp_all

theorem wordReg_frame {x : Acc} {c : Reg} {s : State} {o : Word × State} (h : wordReg x c s = .next o) :
    ReadFrame s o.2 ∧ c.isWord = true ∧ c.partOf x = false := by
  rw [wordReg, refuseIf_eq_next] at h
  exact ⟨(regRead_frame h.2).1, (regRead_frame h.2).2, h.1⟩

theorem wordReg_eq_fault {x : Acc} {c : Reg} {s : State} {e : Fault} (h : wordReg x c s = .fault e) :
    c = .tos ∧ s.stk = [] ∧ e = .stackUnderflow := by
  rw [wordReg, refuseIf_eq_fault] at h
  exact regRead_eq_fault h.2

theorem shiftedP_ne_fault {s : State} {e : Fault} : shiftedP s ≠ .fault e := by
  simp only [shiftedP]; repeat' split
  all_goals simp

theorem aluReg_frame {x : Acc} {c : Reg} {s : State} {o : Src × State} (h : aluReg x c s = .next o) :
    ReadFrame s o.2 ∧ c.partOf x = false := by
  unfold aluReg at h
  rw [refuseIf_eq_next] at h
  obtain ⟨hp, h⟩ := h
  refine ⟨?_, hp⟩
  cases c <;> simp only [andThen_eq_next, Host.Outcome.next.injEq] at h
  case acc a => subst h; exact .refl s
  case p => obtain ⟨_, _, rfl⟩ := h; exact .refl s
  all_goals obtain ⟨_, h, rfl⟩ := h; exact (regRead_frame h).1

theorem aluReg_eq_fault {x : Acc} {c : Reg} {s : State} {e : Fault} (h : aluReg x c s = .fault e) :
    c = .tos ∧ s.stk = [] ∧ e = .stackUnderflow := by
  unfold aluReg at h
  rw [refuseIf_eq_fault] at h
  obtain ⟨_, h⟩ := h
  cases c <;> simp only [andThen_eq_fault, reduceCtorEq, and_false, exists_false, or_false] at h
  case p => exact absurd h shiftedP_ne_fault
  all_goals exact regRead_eq_fault h

/-- A register with 16 bits as ALU source is read as a word. -/
theorem aluReg_word {x : Acc} {c : Reg} {s : State} (hw : c.isWord = true) (hp : c.partOf x = false) :
    aluReg x c s = andThen (regRead false c s) fun o => .next (.w16 o.1, o.2) := by
  cases c <;> simp_all [Reg.isWord, aluReg]

/-! Writing a register. -/

/-- t is s after register c has been written: only what c is made of may differ. -/
structure WriteFrame (c : Reg) (s t : State) : Prop where
  rest : t = { s with
    a0 := t.a0, a1 := t.a1, x := t.x, y := t.y, p := t.p, r := t.r, cfgi := t.cfgi, cfgj := t.cfgj, lc := t.lc
    st0 := t.st0, st1 := t.st1, st2 := t.st2, stk := t.stk, ext := t.ext, pcPending := t.pcPending
    lpLate := t.lpLate, irqTaken := t.irqTaken }
  p : c ≠ .p → t.p = s.p
  cfgi : c ≠ .cfgi → t.cfgi = s.cfgi
  cfgj : c ≠ .cfgj → t.cfgj = s.cfgj
  lc : c ≠ .lc → t.lc = s.lc
  st1 : c ≠ .st1 → t.st1 = s.st1
  st2 : c ≠ .st2 → t.st2 = s.st2 ∧ t.lpLate = s.lpLate
  stk : c ≠ .tos → t.stk = s.stk
  push : t.stk.length ≤ s.stk.length + 1
  pcPending : c ≠ .pc → t.pcPending = s.pcPending
  ext : ∀ k, c ≠ .ext k → t.extReg k = s.extReg k
  st0 : c ≠ .st0 → t.st0 = { s.st0 with z := t.st0.z, m := t.st0.m, n := t.st0.n, e := t.st0.e }
  lp : t.st2.lp = true → s.st2.lp = true ∧ t.lpLate = s.lpLate
  late : t.lpLate = s.lpLate ∨ t.lpLate = 2 ∧ s.st2.lp = true ∧ t.st2.lp = false

theorem setZMNE_eq (f : St0) (v : Accum) :
    setZMNE f v = { f with z := (setZMNE f v).z, m := (setZMNE f v).m, n := (setZMNE f v).n, e := (setZMNE f v).e } :=
  rfl

theorem moveAcc_eq (x : Acc) (v : Accum) (s : State) :
    moveAcc x v s = { s with
      a0 := if x = .a0 then v else s.a0, a1 := if x = .a1 then v else s.a1, st0 := setZMNE s.st0 v } := by
  cases x <;> rfl

/-- A write of c, where it goes on: on tos the stack was not full, on lc no loop is active, and on pc
the target is not the last address of a loop. -/
theorem regWrite_frame {c : Reg} {v : Word} {s t : State} (h : regWrite c v s = .next t) :
    WriteFrame c s t ∧ Writable c v s := by
  cases c <;> simp only [regWrite, Host.Outcome.next.injEq] at h
  case pc =>
    simp only [writePc, refuseIf_eq_next, Bool.and_eq_false_iff, beq_eq_false_iff_ne, Host.Outcome.next.injEq] at h
    obtain ⟨h, rfl⟩ := h
    refine ⟨by constructor <;> simp [State.extReg], ?_⟩
    simp only [Writable, reduceCtorEq, false_implies, true_and, forall_const]
    intro hl; exact h.resolve_left (by simp [loopLiveAfter_iff.2 hl])
  case lc =>
    simp only [writeLc, refuseIf_eq_next, Host.Outcome.next.injEq] at h
    obtain ⟨h, rfl⟩ := h
    exact ⟨by constructor <;> simp [State.extReg], by simp [Writable, h]⟩
  case tos =>
    obtain ⟨hl, rfl⟩ := putOn_eq_next.1 h
    exact ⟨by constructor <;> simp [State.extReg], by simp [Writable, hl]⟩
  case ext k =>
    subst h
    refine ⟨?_, by simp [Writable]⟩
    constructor
    case rest => rfl
    case ext => exact fun j hj => State.setExt_extReg_ne s v fun e => hj (by rw [e])
    all_goals simp
  case acc x | acch x | accl x =>
    subst h; rw [moveAcc_eq]
    refine ⟨?_, by simp [Writable]⟩
    constructor
    case st0 => exact fun _ => setZMNE_eq _ _
    all_goals simp [State.extReg]
  case st2 =>
    subst h
    refine ⟨?_, by simp [Writable]⟩
    constructor
    case lp => simp only [writeSt2]; cases v.getLsbD 12 <;> simp
    case late =>
      simp only [writeSt2]
      cases v.getLsbD 12 <;> cases s.st2.lp <;> simp
    all_goals simp [State.extReg, writeSt2]
  all_goals
    subst h
    exact ⟨by constructor <;> simp [State.extReg, State.setAddr, State.setFlags, writePh], by simp [Writable]⟩

theorem regWrite_eq_fault {c : Reg} {v : Word} {s : State} {e : Fault} (h : regWrite c v s = .fault e) :
    c = .tos ∧ 16 ≤ s.stk.length ∧ e = .stackOverflow := by
  cases c <;> simp only [regWrite, writePc, writeLc, refuseIf_eq_fault, reduceCtorEq, and_false] at h
  exact ⟨rfl, putOn_eq_fault.1 h⟩

/-! Exact numbers. -/

/-- v is a number that the accumulator can hold. -/
theorem inBits_iff (n : Nat) (v : Int) : inBits n v = true ↔ -(2 ^ (n - 1)) ≤ v ∧ v < 2 ^ (n - 1) := by
  simp [inBits]

theorem inBits36_iff (v : Int) : inBits 36 v = true ↔ -34359738368 ≤ v ∧ v < 34359738368 := by
  rw [inBits_iff]; norm_num

theorem inBits36_acc (v : Accum) : inBits 36 v.toInt = true := by
  have h1 := BitVec.toInt_lt (x := v)
  have h2 := BitVec.le_toInt (x := v)
  rw [inBits36_iff]; norm_num at *; omega

theorem inBits36_word (v : Word) : inBits 36 v.toInt = true := by
  have h1 := BitVec.toInt_lt (x := v)
  have h2 := BitVec.le_toInt (x := v)
  rw [inBits36_iff]; norm_num at *; omega

theorem inBits36_high (v : Word) : inBits 36 (v.toInt * 65536) = true := by
  have h1 := BitVec.toInt_lt (x := v)
  have h2 := BitVec.le_toInt (x := v)
  rw [inBits36_iff]; norm_num at *; omega

theorem inBits36_nat {w : Nat} (hw : w ≤ 16) (v : BitVec w) : inBits 36 v.toNat = true := by
  have h1 := v.isLt
  have : 2 ^ w ≤ 2 ^ 16 := Nat.pow_le_pow_right (by norm_num) hw
  rw [inBits36_iff]; norm_num at *; omega

theorem inBits36_shifted (s : State) : inBits 36 (shiftedNumber s) = true := by
  have h1 := BitVec.toInt_lt (x := s.p)
  have h2 := BitVec.le_toInt (x := s.p)
  rw [inBits36_iff]
  unfold shiftedNumber
  norm_num at *
  split <;> [skip; split] <;> constructor <;> omega

theorem toInt_ofInt36 {n : Int} (h : inBits 36 n = true) : (BitVec.ofInt 36 n).toInt = n := by
  rw [inBits36_iff] at h
  rw [BitVec.toInt_ofInt, Int.bmod_def]
  norm_num
  split <;> omega

theorem signExtend36 (v : Word) : v.signExtend 36 = BitVec.ofInt 36 v.toInt := by simp [BitVec.signExtend]

theorem setWidth36 {w : Nat} (v : BitVec w) : v.setWidth 36 = BitVec.ofInt 36 v.toNat := by
  apply BitVec.eq_of_toNat_eq; simp

theorem highOperand_eq (v : Word) : highOperand v = BitVec.ofInt 36 (v.toInt * 65536) := by
  unfold highOperand
  rw [signExtend36, BitVec.shiftLeft_eq_mul_twoPow, mul_comm, BitVec.ofInt_mul, mul_comm]
  congr 1

theorem bit35_eq (v : Accum) : v.getLsbD 35 = decide (v.toInt < 0) := by
  rw [← BitVec.msb_eq_toInt (x := v), BitVec.msb_eq_getLsbD_last]

theorem fits32_eq (v : Accum) : fits32 v = inBits 32 v.toInt := by
  have h := BitVec.toInt_eq_toNat_cond v
  have hl := v.isLt
  have hz : (0 : BitVec 5).toNat = 0 := rfl
  rw [Bool.eq_iff_iff, inBits_iff]; unfold fits32
  simp only [Bool.or_eq_true, beq_iff_eq, ← BitVec.toNat_inj, BitVec.extractLsb'_toNat, BitVec.toNat_allOnes,
    Nat.shiftRight_eq_div_pow, hz]
  split at h <;> omega

theorem limits_eq (x : Acc) (s : State) : s.limits x = (!s.st0.sat && !inBits 32 (s.acc x).toInt) := by
  simp [State.limits, fits32_eq]

/-- The adder's result, carry and overflow for an operand given as a number. -/
theorem add36_eq (a : Accum) (n : Int) (h : inBits 36 n = true) :
    add36 a (BitVec.ofInt 36 n) =
      ⟨BitVec.ofInt 36 (a.toInt + n), decide (2 ^ 36 ≤ a.toNat + (BitVec.ofInt 36 n).toNat),
        !inBits 36 (a.toInt + n)⟩ := by
  have h1 : a + BitVec.ofInt 36 n = BitVec.ofInt 36 (a.toInt + n) := by rw [BitVec.ofInt_add, BitVec.ofInt_toInt]
  have ha := BitVec.toInt_lt (x := a)
  have ha' := BitVec.le_toInt (x := a)
  unfold add36
  simp only [h1, bit35_eq, toInt_ofInt36 h, AluOut.mk.injEq, true_and]
  rw [inBits36_iff] at h
  rw [Bool.eq_iff_iff]
  simp only [Bool.and_eq_true, beq_iff_eq, bne_iff_ne, ne_eq, decide_eq_decide, Bool.not_eq_true',
    ← Bool.not_eq_true, inBits36_iff]
  rw [BitVec.toInt_ofInt, Int.bmod_def]
  norm_num at *
  split <;> omega

/-- The subtracter's result, borrow and overflow for an operand given as a number. -/
theorem sub36_eq (a : Accum) (n : Int) (h : inBits 36 n = true) :
    sub36 a (BitVec.ofInt 36 n) =
      ⟨BitVec.ofInt 36 (a.toInt - n), decide (a.toNat < (BitVec.ofInt 36 n).toNat), !inBits 36 (a.toInt - n)⟩ := by
  have h1 : a - BitVec.ofInt 36 n = BitVec.ofInt 36 (a.toInt - n) := by
    rw [sub_eq_add_neg, Int.sub_eq_add_neg, BitVec.ofInt_add, BitVec.ofInt_toInt, BitVec.ofInt_neg]
  have ha := BitVec.toInt_lt (x := a)
  have ha' := BitVec.le_toInt (x := a)
  unfold sub36
  simp only [h1, bit35_eq, toInt_ofInt36 h, AluOut.mk.injEq, true_and]
  rw [inBits36_iff] at h
  rw [Bool.eq_iff_iff]
  simp only [Bool.and_eq_true, bne_iff_ne, ne_eq, decide_eq_decide, Bool.not_eq_true', ← Bool.not_eq_true,
    inBits36_iff]
  rw [BitVec.toInt_ofInt, Int.bmod_def]
  norm_num at *
  split <;> omega

end Sys2Proof.Machine
end

