-- ==== Sys2Proof/Laws/Frames.lean ====
section
/-! SUPPORT. What the instructions that compute may change: the accumulators, x, y, p, the address registers,
the flags, and, through their operand, the stack, the noted return addresses of interrupts, the counts of free values, and
the answers and accesses of devices. Everything else is kept. -/

namespace Sys2Proof.Machine

/-- s with all that an instruction of the ALU, moda and multiply groups may write blanked out. -/
def State.blank (s : State) : State :=
  { s with
    a0 := 0, a1 := 0, x := 0, y := 0, p := 0, r := Vector.replicate 6 0, stk := [], freeCtr := 0, codeCtr := 0
    irqTaken := [], answers := [], bus := []
    st0 := { s.st0 with
             z := false, m := false, n := false, v := false, c := false, e := false, l := false, r := false } }

/-- t keeps of s all that such an instruction leaves alone: the blanked rest, a set L, what lies deeper in the
stack, p unless `mul`, and R unless `rr`. -/
structure Kept (mul rr : Bool) (s t : State) : Prop where
  rest : t.blank = s.blank
  l : s.st0.l = true → t.st0.l = true
  stk : t.stk <:+ s.stk
  p : mul = false → t.p = s.p
  r : rr = false → t.st0.r = s.st0.r

theorem Kept.refl (mul rr : Bool) (s : State) : Kept mul rr s s :=
  ⟨rfl, id, List.suffix_refl _, fun _ => rfl, fun _ => rfl⟩

theorem Kept.trans {mul rr : Bool} {s t u : State} (h : Kept mul rr s t) (k : Kept mul rr t u) : Kept mul rr s u :=
  ⟨k.rest.trans h.rest, fun x => k.l (h.l x), k.stk.trans h.stk, fun x => (k.p x).trans (h.p x),
    fun x => (k.r x).trans (h.r x)⟩

theorem Kept.of_read {mul rr : Bool} {s t : State} (h : ReadFrame s t) : Kept mul rr s t := by
  refine ⟨by rw [h.1]; rfl, h.2.1, ?_, fun _ => by rw [h.1], fun _ => by rw [h.1]⟩
  rcases h.2.2 with h | ⟨v, h⟩
  · rw [h]
  · rw [h]; exact List.suffix_cons ..

/-- A read of memory. -/
theorem Kept.of_mem {mul rr : Bool} {s t : State} (h : MemFrame s t) : Kept mul rr s t := by
  rw [h]; exact ⟨rfl, id, List.suffix_refl _, fun _ => rfl, fun _ => rfl⟩

/-- An update that leaves the blanked rest, L, the stack, p and R alone. -/
theorem Kept.of_eq {mul rr : Bool} {s t : State} (h : t.blank = s.blank) (hl : t.st0.l = s.st0.l)
    (hs : t.stk = s.stk) (hp : t.p = s.p) (hr : t.st0.r = s.st0.r) : Kept mul rr s t :=
  ⟨h, fun x => hl.trans x, by rw [hs], fun _ => hp, fun _ => hr⟩

theorem kept_postMod (mul rr : Bool) (n : Fin 6) (m : PostMod) (s : State) : Kept mul rr s (postMod n m s) :=
  .of_eq rfl rfl rfl rfl rfl

theorem kept_settle (mul rr : Bool) (x : Acc) (o : AluOut) (s : State) : Kept mul rr s (settle x o s) := by
  cases x <;> exact ⟨rfl, fun h => by simp [settle, setArith, h], List.suffix_refl _, fun _ => rfl, fun _ => rfl⟩

theorem kept_moveAcc (mul rr : Bool) (x : Acc) (v : Accum) (s : State) : Kept mul rr s (moveAcc x v s) := by
  cases x <;> exact .of_eq rfl rfl rfl rfl rfl

theorem kept_compareWith (mul rr : Bool) (x : Acc) (b : Accum) (s : State) : Kept mul rr s (compareWith x b s) :=
  ⟨rfl, fun h => by simp [compareWith, setArith, h], List.suffix_refl _, fun _ => rfl, fun _ => rfl⟩

theorem kept_andShort (mul rr : Bool) (x : Acc) (imm : BitVec 8) (s : State) : Kept mul rr s (andShort x imm s) := by
  cases x <;> exact .of_eq rfl rfl rfl rfl rfl

theorem kept_shiftAcc (mul rr : Bool) (x : Acc) (out : Accum) (v c : Bool) (s : State) :
    Kept mul rr s (shiftAcc x out v c s) := by
  cases x <;> exact .of_eq rfl rfl rfl rfl rfl

theorem kept_rotateAcc (mul rr : Bool) (x : Acc) (out : Accum) (c : Bool) (s : State) :
    Kept mul rr s (rotateAcc x out c s) := by
  cases x <;> exact .of_eq rfl rfl rfl rfl rfl

theorem kept_normalize (mul : Bool) (x : Acc) (n : Fin 6) (m : PostMod) (s : State) :
    Kept mul true s (normalize x n m s) := by
  cases x <;>
    exact ⟨rfl, fun h => by simp [normalize, setArith, h], List.suffix_refl _, fun _ => rfl, fun h => by cases h⟩

theorem kept_divideStep (mul rr : Bool) (x : Acc) (d : Word) (s : State) : Kept mul rr s (divideStep x d s) := by
  cases x <;> exact .of_eq rfl rfl rfl rfl rfl

theorem kept_multiply (rr : Bool) (s : State) : Kept true rr s (multiply s) :=
  ⟨rfl, id, List.suffix_refl _, fun h => (by cases h), fun _ => rfl⟩

theorem kept_loadX (mul rr : Bool) (o : Word × State) : Kept mul rr o.2 (loadX o) := .of_eq rfl rfl rfl rfl rfl

theorem kept_loadXY (mul rr : Bool) (o : Word × State) : Kept mul rr o.2 (loadXY o) := .of_eq rfl rfl rfl rfl rfl

theorem kept_readInd (mul rr : Bool) (n : Fin 6) (m : PostMod) (s : State) : Kept mul rr s (readInd n m s).2 := by
  obtain ⟨t, ht, e⟩ := readInd_frame n m s
  rw [e]; exact (Kept.of_mem ht).trans (kept_postMod ..)

theorem kept_readDir (mul rr : Bool) (a : BitVec 8) (s : State) : Kept mul rr s (readDir a s).2 := by
  exact .of_mem (dataRead_frame ..)

theorem kept_loadIndLong (mul rr : Bool) (n : Fin 6) (m : PostMod) (w : Word) (s : State) :
    Kept mul rr s (loadIndLong n m w s) :=
  (kept_readInd mul rr n m s).trans (.of_eq rfl rfl rfl rfl rfl)

/-- The pair load goes on where rJ points into the Y space and rI into the X space. -/
theorem loadPair_eq_next {j : Fin 2} {jj : PostMod} {i : Fin 4} {k : PostMod} {s t : State} :
    loadPair j jj i k s = .next t ↔
      (0xFC00 ≤ (s.addr (regJ j)).toNat ∧ (s.addr (regI i)).toNat ≤ 0xFBFF) ∧
        let oy := dataRead (s.addr (regJ j)) s
        let ox := dataRead (s.addr (regI i)) oy.2
        t = { postMod (regI i) k (postMod (regJ j) jj ox.2) with y := oy.1, x := ox.1 } := by
  simp only [loadPair, refuseIf_eq_next, pairInSpaces, Host.Outcome.next.injEq, Bool.not_eq_false',
    decide_eq_true_eq]
  exact and_congr_right fun _ => eq_comm

theorem kept_loadPair {mul rr : Bool} {j : Fin 2} {jj : PostMod} {i : Fin 4} {k : PostMod} {s t : State}
    (h : loadPair j jj i k s = .next t) : Kept mul rr s t := by
  obtain ⟨_, rfl⟩ := loadPair_eq_next.1 h
  exact (Kept.of_mem ((dataRead_frame ..).trans (dataRead_frame ..))).trans (.of_eq rfl rfl rfl rfl rfl)

/-- What mac, msu, sqra, sqrs do around their load. -/
theorem accumulate_eq_next {op : Accum → Accum → AluOut} {x : Acc} {s t : State} {load : Out} :
    accumulate op x s load = .next t ↔
      ∃ q u, shiftedP s = .next q ∧ load = .next u ∧ t = settle x (op (s.acc x) q) (multiply u) := by
  simp only [accumulate, andThen_eq_next, Host.Outcome.next.injEq]
  constructor
  · rintro ⟨q, hq, u, hu, rfl⟩; exact ⟨q, u, hq, hu, rfl⟩
  · rintro ⟨q, u, hq, hu, rfl⟩; exact ⟨q, hq, u, hu, rfl⟩

theorem kept_accumulate {rr : Bool} {op : Accum → Accum → AluOut} {x : Acc} {s t : State} {load : Out}
    (h : accumulate op x s load = .next t) (hl : ∀ u, load = .next u → Kept true rr s u) : Kept true rr s t := by
  obtain ⟨q, u, _, hu, rfl⟩ := accumulate_eq_next.1 h
  exact ((hl u hu).trans (kept_multiply rr u)).trans (kept_settle ..)

theorem kept_whenCond {mul rr : Bool} {cc : Cond} {s t : State} {k : Out} (h : whenCond cc s k = .next t)
    (hk : k = .next t → Kept mul rr s t) : Kept mul rr s t := by
  unfold whenCond at h
  split at h
  · exact hk h
  · cases h; exact .refl ..

/-! The operand forms. -/

theorem kept_aluReg {mul rr : Bool} {x : Acc} {c : Reg} {s t : State} {f : Src × State → State}
    (h : (andThen (aluReg x c s) fun o => .next (f o)) = .next t) (hf : ∀ o, Kept mul rr o.2 (f o)) :
    Kept mul rr s t := by
  obtain ⟨o, ho, e⟩ := andThen_eq_next.1 h
  cases e
  exact (Kept.of_read (aluReg_frame ho).1).trans (hf _)

theorem kept_wordReg {mul rr : Bool} {x : Acc} {c : Reg} {s t : State} {f : Word × State → State}
    (h : (andThen (wordReg x c s) fun o => .next (f o)) = .next t) (hf : ∀ o, Kept mul rr o.2 (f o)) :
    Kept mul rr s t := by
  obtain ⟨o, ho, e⟩ := andThen_eq_next.1 h
  cases e
  exact (Kept.of_read (wordReg_frame ho).1).trans (hf _)

theorem kept_regRead {mul rr b : Bool} {c : Reg} {s t : State} {f : Word × State → State}
    (h : (andThen (regRead b c s) fun o => .next (f o)) = .next t)
    (hf : ∀ o, Kept mul rr o.2 (f o)) : Kept mul rr s t := by
  obtain ⟨o, ho, e⟩ := andThen_eq_next.1 h
  cases e
  exact (Kept.of_read (regRead_frame ho).1).trans (hf _)

theorem kept_ind {mul rr : Bool} {n : Fin 6} {m : PostMod} {s t : State} {f : Word × State → State}
    (h : (Host.Outcome.next (f (readInd n m s)) : Out) = .next t) (hf : ∀ o, Kept mul rr o.2 (f o)) :
    Kept mul rr s t := by
  cases h; exact (kept_readInd mul rr n m s).trans (hf _)

theorem kept_dir {mul rr : Bool} {a : BitVec 8} {s t : State} {f : Word × State → State}
    (h : (Host.Outcome.next (f (readDir a s)) : Out) = .next t) (hf : ∀ o, Kept mul rr o.2 (f o)) :
    Kept mul rr s t := by
  cases h; exact (kept_readDir mul rr a s).trans (hf _)

/-- mac, msu, sqra, sqrs with a register. -/
theorem kept_accumulateReg {rr : Bool} {op : Accum → Accum → AluOut} {x : Acc} {c : Reg} {s t : State}
    {f : Word × State → State} {b1 b2 : Bool} {w1 w2 : Refusal}
    (h : (refuseIf b1 w1 <| refuseIf b2 w2 <|
      accumulate op x s (andThen (regRead false c s) fun o => .next (f o))) = .next t)
    (hf : ∀ o, Kept true rr o.2 (f o)) : Kept true rr s t :=
  kept_accumulate (refuseIf_eq_next.1 (refuseIf_eq_next.1 h).2).2 fun _ hu => kept_regRead hu hf

/-! The groups. -/

/-- add, sub, or, xor, and, cmp, addl, subl, addh, subh. -/
def isAluGroup : Instr → Bool
  | .addReg _ _ | .addInd _ _ _ | .addDir _ _ | .addLong _ _ | .addImm _ _ | .subReg _ _ | .subInd _ _ _
  | .subDir _ _ | .subLong _ _ | .subImm _ _ | .orReg _ _ | .orInd _ _ _ | .orDir _ _ | .orLong _ _
  | .orImm _ _ | .xorReg _ _ | .xorInd _ _ _ | .xorDir _ _ | .xorLong _ _ | .xorImm _ _ | .andReg _ _
  | .andInd _ _ _ | .andDir _ _ | .andLong _ _ | .andImm _ _ | .cmpReg _ _ | .cmpInd _ _ _ | .cmpDir _ _
  | .cmpLong _ _ | .cmpImm _ _ | .addlReg _ _ | .addlInd _ _ _ | .addlDir _ _ | .sublReg _ _ | .sublInd _ _ _
  | .sublDir _ _ | .addhReg _ _ | .addhInd _ _ _ | .addhDir _ _ | .subhReg _ _ | .subhInd _ _ _ | .subhDir _ _ => true
  | _ => false

theorem kept_aluGroup {i : Instr} {s t : State} (h : exec i s = .next t) (hi : isAluGroup i = true) :
    Kept (multiplies i) (setsR i) s t := by
  cases i <;> cases hi
  case addReg | subReg =>
    simp only [exec, execAddReg, execSubReg] at h
    exact kept_aluReg h fun _ => by exact kept_settle ..
  case addInd | subInd | addlInd | sublInd | addhInd | subhInd =>
    cases h; exact (kept_readInd ..).trans (kept_settle ..)
  case addDir | subDir | addlDir | sublDir | addhDir | subhDir =>
    cases h; exact (kept_readDir ..).trans (kept_settle ..)
  case addLong | addImm | subLong | subImm =>
    cases h; exact kept_settle ..
  case orReg | xorReg | andReg =>
    simp only [exec, execOrReg, execXorReg, execAndReg] at h
    exact kept_aluReg h fun _ => by exact kept_moveAcc ..
  case orInd | xorInd | andInd =>
    cases h; exact (kept_readInd ..).trans (kept_moveAcc ..)
  case orDir | xorDir | andDir =>
    cases h; exact (kept_readDir ..).trans (kept_moveAcc ..)
  case orLong | orImm | xorLong | xorImm | andLong =>
    cases h; exact kept_moveAcc ..
  case andImm =>
    cases h; exact kept_andShort ..
  case cmpReg =>
    simp only [exec, execCmpReg] at h
    exact kept_aluReg h fun _ => by exact kept_compareWith ..
  case cmpInd =>
    simp only [exec, execCmpInd] at h
    cases h; exact (kept_readInd ..).trans (kept_compareWith ..)
  case cmpDir =>
    simp only [exec, execCmpDir] at h
    cases h; exact (kept_readDir ..).trans (kept_compareWith ..)
  case cmpLong | cmpImm =>
    simp only [exec, execCmpLong, execCmpImm] at h
    cases h; exact kept_compareWith ..
  case addlReg | sublReg | addhReg | subhReg =>
    simp only [exec, execAddlReg, execSublReg, execAddhReg, execSubhReg] at h
    exact kept_wordReg h fun _ => by exact kept_settle ..

/-- The functions of moda, norm and divs. -/
def isModaGroup : Instr → Bool
  | .norm _ _ _ | .shr _ _ | .shl _ _ | .shr4 _ _ | .shl4 _ _ | .ror _ _ | .rol _ _ | .not _ _ | .neg _ _
  | .clr _ _ | .copy _ _ | .rnd _ _ | .pacr _ _ | .clrr _ _ | .divs _ _ => true
  | _ => false

theorem kept_modaGroup {i : Instr} {s t : State} (h : exec i s = .next t) (hi : isModaGroup i = true) :
    Kept (multiplies i) (setsR i) s t := by
  cases i <;> cases hi
  case norm =>
    cases h; split; exacts [.refl .., kept_normalize ..]
  case shr | shl | shr4 | shl4 =>
    simp only [exec, execShr, execShl, execShr4, execShl4] at h
    exact kept_whenCond h fun h => by cases h; exact kept_shiftAcc ..
  case ror | rol =>
    simp only [exec, execRor, execRol] at h
    exact kept_whenCond h fun h => by cases h; exact kept_rotateAcc ..
  case not | clr | copy | clrr =>
    simp only [exec, execNot, execClr, execCopy, execClrr] at h
    exact kept_whenCond h fun h => by cases h; exact kept_moveAcc ..
  case neg | rnd =>
    simp only [exec, execNeg, execRnd] at h
    exact kept_whenCond h fun h => by cases h; exact kept_settle ..
  case pacr =>
    simp only [exec, execPacr] at h
    exact kept_whenCond h fun h => (by obtain ⟨_, _, e⟩ := andThen_eq_next.1 h; cases e; exact kept_settle ..)
  case divs =>
    obtain ⟨_, h⟩ := refuseIf_eq_next.1 h; cases h; exact (kept_readDir ..).trans (kept_divideStep ..)

/-- mpy, mac, msu, mpys, sqr, sqra, sqrs. -/
def isMulGroup : Instr → Bool
  | .mpyReg _ | .mpyIndLong _ _ _ | .mpyInd _ _ | .mpyDir _ | .mpyPair _ _ _ _ | .macReg _ _
  | .macIndLong _ _ _ _ | .macInd _ _ _ | .macDir _ _ | .macPair _ _ _ _ _ | .msuReg _ _ | .msuIndLong _ _ _ _
  | .msuInd _ _ _ | .msuDir _ _ | .msuPair _ _ _ _ _ | .sqrReg _ | .sqrInd _ _ | .sqrDir _ | .sqraReg _ _
  | .sqraInd _ _ _ | .sqraDir _ _ | .sqrsReg _ _ | .sqrsInd _ _ _ | .sqrsDir _ _ | .mpys _ => true
  | _ => false

theorem kept_mulGroup {i : Instr} {s t : State} (h : exec i s = .next t) (hi : isMulGroup i = true) :
    Kept (multiplies i) (setsR i) s t := by
  cases i <;> cases hi
  case mpyReg =>
    simp only [exec, execMpyReg] at h
    exact kept_regRead h (fun o => (kept_loadX true false o).trans (kept_multiply ..))
  case mpyIndLong =>
    cases h; exact (kept_loadIndLong ..).trans (kept_multiply ..)
  case mpyInd =>
    simp only [exec, execMpyInd] at h
    exact kept_ind h (fun o => (kept_loadX true false o).trans (kept_multiply ..))
  case mpyDir =>
    simp only [exec, execMpyDir] at h
    exact kept_dir h (fun o => (kept_loadX true false o).trans (kept_multiply ..))
  case mpyPair =>
    obtain ⟨_, hu, e⟩ := andThen_eq_next.1 h; cases e; exact (kept_loadPair hu).trans (kept_multiply ..)
  case macReg | msuReg =>
    simp only [exec, execMacReg, execMsuReg] at h
    exact kept_accumulateReg h fun _ => kept_loadX ..
  case macIndLong | msuIndLong =>
    simp only [exec, execMacIndLong, execMsuIndLong] at h
    exact kept_accumulate h fun _ hu => by cases hu; exact kept_loadIndLong ..
  case macInd | msuInd =>
    simp only [exec, execMacInd, execMsuInd] at h
    exact kept_accumulate h fun _ hu => kept_ind hu fun _ => kept_loadX ..
  case macDir | msuDir =>
    simp only [exec, execMacDir, execMsuDir] at h
    exact kept_accumulate h fun _ hu => kept_dir hu fun _ => kept_loadX ..
  case macPair | msuPair =>
    simp only [exec, execMacPair, execMsuPair] at h
    exact kept_accumulate h fun _ hu => kept_loadPair hu
  case sqrReg =>
    simp only [exec, execSqrReg] at h
    exact kept_regRead h (fun o => (kept_loadXY true false o).trans (kept_multiply ..))
  case sqrInd =>
    simp only [exec, execSqrInd] at h
    exact kept_ind h (fun o => (kept_loadXY true false o).trans (kept_multiply ..))
  case sqrDir =>
    simp only [exec, execSqrDir] at h
    exact kept_dir h (fun o => (kept_loadXY true false o).trans (kept_multiply ..))
  case sqraReg | sqrsReg =>
    simp only [exec, execSqraReg, execSqrsReg] at h
    exact kept_accumulateReg h fun _ => kept_loadXY ..
  case sqraInd | sqrsInd =>
    simp only [exec, execSqraInd, execSqrsInd] at h
    exact kept_accumulate h fun _ hu => kept_ind hu fun _ => kept_loadXY ..
  case sqraDir | sqrsDir =>
    simp only [exec, execSqraDir, execSqrsDir] at h
    exact kept_accumulate h fun _ hu => kept_dir hu fun _ => kept_loadXY ..
  case mpys =>
    simp only [exec, execMpys] at h
    cases h; exact ⟨rfl, id, List.suffix_refl _, fun h => (by cases h), fun _ => rfl⟩

end Sys2Proof.Machine
end

