-- ==== Sys2Proof/Laws/PerInstr.lean ====
section
/-! SUPPORT. Statements made of each instruction: that the first word of its encoding says how many words
it has (30_encoding R110, R128). -/

namespace Sys2Proof.Laws.SecondWordAgrees

/-- The first word of i is a two-word first word exactly if i has a second word, whatever the code tables are. -/
def Statement (i : Instr) : Prop :=
  ∀ c : Params, c.wf = true → i.wf c = true → isTwoWord (encodeFirst c i) = i.secondWord.isSome

/-- A one-word instruction from the number of its first word. -/
theorem one {c : Params} {i : Instr} (n : Nat) (e : (encodeFirst c i).toNat = n) (hs : i.secondWord = none)
    (h : n / 512 ≠ 10 ∧ n / 512 ≠ 11 ∧ n / 512 ≠ 24 ∧ n / 512 ≠ 25 ∧ n / 512 ≠ 46 ∧
      (n / 8192 ≠ 4 ∨ (n / 64 % 4 ≠ 1 ∧ n / 64 % 4 ≠ 3))) : isTwoWord (encodeFirst c i) = i.secondWord.isSome := by
  rw [hs, Option.isSome_none, ← Bool.not_eq_true, isTwoWord_iff, e]
  omega

/-- A two-word instruction from the number of its first word. -/
theorem two {c : Params} {i : Instr} (n : Nat) (e : (encodeFirst c i).toNat = n) (hs : i.secondWord ≠ none)
    (h : (n / 512 = 10 ∨ n / 512 = 11 ∨ n / 512 = 24 ∨ n / 512 = 25 ∨ n / 512 = 46) ∨
      (n / 8192 = 4 ∧ ((n / 64 % 4 = 1 ∧ 6 ≤ n / 512 % 16 ∧ n / 512 % 16 ≤ 8) ∨
        (n / 64 % 4 = 3 ∧ n / 512 % 16 ≤ 5)))) : isTwoWord (encodeFirst c i) = i.secondWord.isSome := by
  rw [Option.isSome_iff_ne_none.2 hs, isTwoWord_iff, e]
  exact h

theorem nop : Statement .nop := by intro _ _ _; simp only [encodeFirst]; rfl

theorem trap : Statement .trap := by intro _ _ _; simp only [encodeFirst]; rfl

theorem eint : Statement .eint := by intro _ _ _; simp only [encodeFirst]; rfl

theorem dint : Statement .dint := by intro _ _ _; simp only [encodeFirst]; rfl

theorem lpg (imm : BitVec 8) : Statement (.lpg imm) := by
  intro p _ _
  have := imm.isLt
  refine one (4 * 512 + 0 * 256 + imm.toNat) ?_ rfl (by omega)
  simp only [encodeFirst, packWord, BitVec.toNat_ofNat]; omega

theorem norm (x : Acc) (n : Fin 6) (m : PostMod) : Statement (.norm x n m) := by
  intro p hp _
  have hc := Params.wf_complete hp
  have := encodeAcc_lt x; have := packInd_lt hc n m
  refine one (6 * 512 + (encodeAcc x) * 256 + (packInd p n m)) ?_ rfl (by omega)
  simp only [encodeFirst, packWord, BitVec.toNat_ofNat]; omega

theorem modr (n : Fin 6) (m : PostMod) : Statement (.modr n m) := by
  intro p hp _
  have hc := Params.wf_complete hp
  have := packInd_lt hc n m
  refine one (7 * 512 + 0 * 256 + (packInd p n m)) ?_ rfl (by omega)
  simp only [encodeFirst, packWord, BitVec.toNat_ofNat]; omega

theorem repImm (imm : BitVec 8) : Statement (.repImm imm) := by
  intro p _ _
  have := imm.isLt
  refine one (8 * 512 + 0 * 256 + imm.toNat) ?_ rfl (by omega)
  simp only [encodeFirst, packWord, BitVec.toNat_ofNat]; omega

theorem repReg (c : Reg) : Statement (.repReg c) := by
  intro p hp _
  have hc := Params.wf_complete hp
  have := encodeReg_lt hc c
  refine one (9 * 512 + 0 * 256 + (encodeReg p c)) ?_ rfl (by omega)
  simp only [encodeFirst, packWord, BitVec.toNat_ofNat]; omega

theorem bkrepImm (imm : BitVec 8) (last : Word) : Statement (.bkrepImm imm last) := by
  intro p _ _
  have := imm.isLt
  refine two (10 * 512 + 0 * 256 + imm.toNat) ?_ nofun (by omega)
  simp only [encodeFirst, packWord, BitVec.toNat_ofNat]; omega

theorem bkrepReg (c : Reg) (last : Word) : Statement (.bkrepReg c last) := by
  intro p hp _
  have hc := Params.wf_complete hp
  have := encodeReg_lt hc c
  refine two (11 * 512 + 0 * 256 + (encodeReg p c)) ?_ nofun (by omega)
  simp only [encodeFirst, packWord, BitVec.toNat_ofNat]; omega

theorem shr (x : Acc) (cc : Cond) : Statement (.shr x cc) := by
  intro p hp _
  have hc := Params.wf_complete hp
  have := encodeAcc_lt x; have := encodeModa_lt hc .shr; have := encodeCond_lt hc cc
  refine one (12 * 512 + encodeAcc x * 256 + (encodeModa p .shr * 16 + encodeCond p cc)) ?_ rfl (by omega)
  simp only [encodeFirst, packModa, packWord, BitVec.toNat_ofNat]; omega

theorem shl (x : Acc) (cc : Cond) : Statement (.shl x cc) := by
  intro p hp _
  have hc := Params.wf_complete hp
  have := encodeAcc_lt x; have := encodeModa_lt hc .shl; have := encodeCond_lt hc cc
  refine one (12 * 512 + encodeAcc x * 256 + (encodeModa p .shl * 16 + encodeCond p cc)) ?_ rfl (by omega)
  simp only [encodeFirst, packModa, packWord, BitVec.toNat_ofNat]; omega

theorem shr4 (x : Acc) (cc : Cond) : Statement (.shr4 x cc) := by
  intro p hp _
  have hc := Params.wf_complete hp
  have := encodeAcc_lt x; have := encodeModa_lt hc .shr4; have := encodeCond_lt hc cc
  refine one (12 * 512 + encodeAcc x * 256 + (encodeModa p .shr4 * 16 + encodeCond p cc)) ?_ rfl (by omega)
  simp only [encodeFirst, packModa, packWord, BitVec.toNat_ofNat]; omega

theorem shl4 (x : Acc) (cc : Cond) : Statement (.shl4 x cc) := by
  intro p hp _
  have hc := Params.wf_complete hp
  have := encodeAcc_lt x; have := encodeModa_lt hc .shl4; have := encodeCond_lt hc cc
  refine one (12 * 512 + encodeAcc x * 256 + (encodeModa p .shl4 * 16 + encodeCond p cc)) ?_ rfl (by omega)
  simp only [encodeFirst, packModa, packWord, BitVec.toNat_ofNat]; omega

theorem ror (x : Acc) (cc : Cond) : Statement (.ror x cc) := by
  intro p hp _
  have hc := Params.wf_complete hp
  have := encodeAcc_lt x; have := encodeModa_lt hc .ror; have := encodeCond_lt hc cc
  refine one (12 * 512 + encodeAcc x * 256 + (encodeModa p .ror * 16 + encodeCond p cc)) ?_ rfl (by omega)
  simp only [encodeFirst, packModa, packWord, BitVec.toNat_ofNat]; omega

theorem rol (x : Acc) (cc : Cond) : Statement (.rol x cc) := by
  intro p hp _
  have hc := Params.wf_complete hp
  have := encodeAcc_lt x; have := encodeModa_lt hc .rol; have := encodeCond_lt hc cc
  refine one (12 * 512 + encodeAcc x * 256 + (encodeModa p .rol * 16 + encodeCond p cc)) ?_ rfl (by omega)
  simp only [encodeFirst, packModa, packWord, BitVec.toNat_ofNat]; omega

theorem not (x : Acc) (cc : Cond) : Statement (.not x cc) := by
  intro p hp _
  have hc := Params.wf_complete hp
  have := encodeAcc_lt x; have := encodeModa_lt hc .not; have := encodeCond_lt hc cc
  refine one (12 * 512 + encodeAcc x * 256 + (encodeModa p .not * 16 + encodeCond p cc)) ?_ rfl (by omega)
  simp only [encodeFirst, packModa, packWord, BitVec.toNat_ofNat]; omega

theorem neg (x : Acc) (cc : Cond) : Statement (.neg x cc) := by
  intro p hp _
  have hc := Params.wf_complete hp
  have := encodeAcc_lt x; have := encodeModa_lt hc .neg; have := encodeCond_lt hc cc
  refine one (12 * 512 + encodeAcc x * 256 + (encodeModa p .neg * 16 + encodeCond p cc)) ?_ rfl (by omega)
  simp only [encodeFirst, packModa, packWord, BitVec.toNat_ofNat]; omega

theorem clr (x : Acc) (cc : Cond) : Statement (.clr x cc) := by
  intro p hp _
  have hc := Params.wf_complete hp
  have := encodeAcc_lt x; have := encodeModa_lt hc .clr; have := encodeCond_lt hc cc
  refine one (12 * 512 + encodeAcc x * 256 + (encodeModa p .clr * 16 + encodeCond p cc)) ?_ rfl (by omega)
  simp only [encodeFirst, packModa, packWord, BitVec.toNat_ofNat]; omega

theorem copy (x : Acc) (cc : Cond) : Statement (.copy x cc) := by
  intro p hp _
  have hc := Params.wf_complete hp
  have := encodeAcc_lt x; have := encodeModa_lt hc .copy; have := encodeCond_lt hc cc
  refine one (12 * 512 + encodeAcc x * 256 + (encodeModa p .copy * 16 + encodeCond p cc)) ?_ rfl (by omega)
  simp only [encodeFirst, packModa, packWord, BitVec.toNat_ofNat]; omega

theorem rnd (x : Acc) (cc : Cond) : Statement (.rnd x cc) := by
  intro p hp _
  have hc := Params.wf_complete hp
  have := encodeAcc_lt x; have := encodeModa_lt hc .rnd; have := encodeCond_lt hc cc
  refine one (12 * 512 + encodeAcc x * 256 + (encodeModa p .rnd * 16 + encodeCond p cc)) ?_ rfl (by omega)
  simp only [encodeFirst, packModa, packWord, BitVec.toNat_ofNat]; omega

theorem pacr (x : Acc) (cc : Cond) : Statement (.pacr x cc) := by
  intro p hp _
  have hc := Params.wf_complete hp
  have := encodeAcc_lt x; have := encodeModa_lt hc .pacr; have := encodeCond_lt hc cc
  refine one (12 * 512 + encodeAcc x * 256 + (encodeModa p .pacr * 16 + encodeCond p cc)) ?_ rfl (by omega)
  simp only [encodeFirst, packModa, packWord, BitVec.toNat_ofNat]; omega

theorem clrr (x : Acc) (cc : Cond) : Statement (.clrr x cc) := by
  intro p hp _
  have hc := Params.wf_complete hp
  have := encodeAcc_lt x; have := encodeModa_lt hc .clrr; have := encodeCond_lt hc cc
  refine one (12 * 512 + encodeAcc x * 256 + (encodeModa p .clrr * 16 + encodeCond p cc)) ?_ rfl (by omega)
  simp only [encodeFirst, packModa, packWord, BitVec.toNat_ofNat]; omega

theorem callr (off : BitVec 7) (cc : Cond) : Statement (.callr off cc) := by
  intro p hp _
  have hc := Params.wf_complete hp
  have := encodeCond_lt hc cc; have := off.isLt
  refine one (4 * 2048 + off.toNat * 16 + encodeCond p cc) ?_ rfl (by omega)
  simp only [encodeFirst, BitVec.toNat_ofNat]; omega

theorem brr (off : BitVec 7) (cc : Cond) : Statement (.brr off cc) := by
  intro p hp _
  have hc := Params.wf_complete hp
  have := encodeCond_lt hc cc; have := off.isLt
  refine one (5 * 2048 + off.toNat * 16 + encodeCond p cc) ?_ rfl (by omega)
  simp only [encodeFirst, BitVec.toNat_ofNat]; omega

theorem call (addr : Word) (cc : Cond) : Statement (.call addr cc) := by
  intro p hp _
  have hc := Params.wf_complete hp
  have := encodeCond_lt hc cc
  refine two (24 * 512 + 0 * 256 + (encodeCond p cc)) ?_ nofun (by omega)
  simp only [encodeFirst, packWord, BitVec.toNat_ofNat]; omega

theorem br (addr : Word) (cc : Cond) : Statement (.br addr cc) := by
  intro p hp _
  have hc := Params.wf_complete hp
  have := encodeCond_lt hc cc
  refine two (25 * 512 + 0 * 256 + (encodeCond p cc)) ?_ nofun (by omega)
  simp only [encodeFirst, packWord, BitVec.toNat_ofNat]; omega

theorem ret (cc : Cond) : Statement (.ret cc) := by
  intro p hp _
  have hc := Params.wf_complete hp
  have := encodeCond_lt hc cc
  refine one (26 * 512 + 0 * 256 + (encodeCond p cc)) ?_ rfl (by omega)
  simp only [encodeFirst, packWord, BitVec.toNat_ofNat]; omega

theorem reti : Statement .reti := by intro _ _ _; simp only [encodeFirst]; rfl

theorem calla (x : Acc) : Statement (.calla x) := by
  intro p _ _
  have := encodeAcc_lt x
  refine one (28 * 512 + (encodeAcc x) * 256 + 0) ?_ rfl (by omega)
  simp only [encodeFirst, packWord, BitVec.toNat_ofNat]; omega

theorem divs (a : BitVec 8) (x : Acc) : Statement (.divs a x) := by
  intro p _ _
  have := encodeAcc_lt x; have := a.isLt
  refine one (30 * 512 + (encodeAcc x) * 256 + a.toNat) ?_ rfl (by omega)
  simp only [encodeFirst, packWord, BitVec.toNat_ofNat]; omega

theorem movpAccReg (x : Acc) (c : Reg) : Statement (.movpAccReg x c) := by
  intro p hp _
  have hc := Params.wf_complete hp
  have := encodeAcc_lt x; have := encodeReg_lt hc c
  refine one (32 * 512 + (encodeAcc x) * 256 + (encodeReg p c)) ?_ rfl (by omega)
  simp only [encodeFirst, packWord, BitVec.toNat_ofNat]; omega

theorem movpIndInd (n : Fin 6) (m : PostMod) (i : Fin 4) (k : PostMod) : Statement (.movpIndInd n m i k) := by
  intro p hp _
  have hc := Params.wf_complete hp
  have := encodeMod_lt hc k; have := packInd_lt hc n m; have := i.isLt
  refine one (33 * 512 + encodeMod p k * 128 + i.val * 32 + packInd p n m) ?_ rfl (by omega)
  simp only [encodeFirst, BitVec.toNat_ofNat]; omega

theorem movRegInd (c : Reg) (n : Fin 6) (m : PostMod) : Statement (.movRegInd c n m) := by
  intro p hp _
  have hc := Params.wf_complete hp
  have := encodeReg_lt hc c; have := packInd_lt hc n m
  refine one (18 * 1024 + encodeReg p c * 32 + packInd p n m) ?_ rfl (by omega)
  simp only [encodeFirst, BitVec.toNat_ofNat]; omega

theorem movIndReg (n : Fin 6) (m : PostMod) (c : Reg) : Statement (.movIndReg n m c) := by
  intro p hp _
  have hc := Params.wf_complete hp
  have := encodeReg_lt hc c; have := packInd_lt hc n m
  refine one (19 * 1024 + encodeReg p c * 32 + packInd p n m) ?_ rfl (by omega)
  simp only [encodeFirst, BitVec.toNat_ofNat]; omega

theorem movSimmRn (imm : BitVec 8) (q : RnStar) : Statement (.movSimmRn imm q) := by
  intro p _ _
  have := encodeRnStar_lt p q; have := imm.isLt
  refine one (10 * 2048 + encodeRnStar p q * 256 + imm.toNat) ?_ rfl (by omega)
  simp only [encodeFirst, packRnStar, BitVec.toNat_ofNat]; omega

theorem movRegReg (src : Reg) (dst : Reg) : Statement (.movRegReg src dst) := by
  intro p hp _
  have hc := Params.wf_complete hp
  have := encodeReg_lt hc dst; have := encodeReg_lt hc src
  refine one (22 * 1024 + encodeReg p dst * 32 + encodeReg p src) ?_ rfl (by omega)
  simp only [encodeFirst, BitVec.toNat_ofNat]; omega

theorem movLongReg (w : Word) (c : Reg) : Statement (.movLongReg w c) := by
  intro p hp _
  have hc := Params.wf_complete hp
  have := encodeReg_lt hc c
  refine two (46 * 512 + 0 * 256 + (encodeReg p c)) ?_ nofun (by omega)
  simp only [encodeFirst, packWord, BitVec.toNat_ofNat]; omega

theorem movDirAcc (a : BitVec 8) (x : Acc) : Statement (.movDirAcc a x) := by
  intro p _ _
  have := encodeAcc_lt x; have := a.isLt
  refine one (48 * 512 + (encodeAcc x) * 256 + a.toNat) ?_ rfl (by omega)
  simp only [encodeFirst, packWord, BitVec.toNat_ofNat]; omega

theorem movDirAcch (a : BitVec 8) (x : Acc) : Statement (.movDirAcch a x) := by
  intro p _ _
  have := encodeAcc_lt x; have := a.isLt
  refine one (49 * 512 + (encodeAcc x) * 256 + a.toNat) ?_ rfl (by omega)
  simp only [encodeFirst, packWord, BitVec.toNat_ofNat]; omega

theorem movDirAccl (a : BitVec 8) (x : Acc) : Statement (.movDirAccl a x) := by
  intro p _ _
  have := encodeAcc_lt x; have := a.isLt
  refine one (50 * 512 + (encodeAcc x) * 256 + a.toNat) ?_ rfl (by omega)
  simp only [encodeFirst, packWord, BitVec.toNat_ofNat]; omega

theorem movDirAcchEu (a : BitVec 8) (x : Acc) : Statement (.movDirAcchEu a x) := by
  intro p _ _
  have := encodeAcc_lt x; have := a.isLt
  refine one (51 * 512 + (encodeAcc x) * 256 + a.toNat) ?_ rfl (by omega)
  simp only [encodeFirst, packWord, BitVec.toNat_ofNat]; omega

theorem movRnDir (q : RnStar) (a : BitVec 8) : Statement (.movRnDir q a) := by
  intro p _ _
  have := encodeRnStar_lt p q; have := a.isLt
  refine one (13 * 2048 + encodeRnStar p q * 256 + a.toNat) ?_ rfl (by omega)
  simp only [encodeFirst, packRnStar, BitVec.toNat_ofNat]; omega

theorem movDirRn (a : BitVec 8) (q : RnStar) : Statement (.movDirRn a q) := by
  intro p _ _
  have := encodeRnStar_lt p q; have := a.isLt
  refine one (14 * 2048 + encodeRnStar p q * 256 + a.toNat) ?_ rfl (by omega)
  simp only [encodeFirst, packRnStar, BitVec.toNat_ofNat]; omega

theorem movAcclDir (x : Acc) (a : BitVec 8) : Statement (.movAcclDir x a) := by
  intro p _ _
  have := encodeAcc_lt x; have := a.isLt
  refine one (60 * 512 + (encodeAcc x) * 256 + a.toNat) ?_ rfl (by omega)
  simp only [encodeFirst, packWord, BitVec.toNat_ofNat]; omega

theorem movAcchDir (x : Acc) (a : BitVec 8) : Statement (.movAcchDir x a) := by
  intro p _ _
  have := encodeAcc_lt x; have := a.isLt
  refine one (61 * 512 + (encodeAcc x) * 256 + a.toNat) ?_ rfl (by omega)
  simp only [encodeFirst, packWord, BitVec.toNat_ofNat]; omega

theorem movImmAccl (imm : BitVec 8) (x : Acc) : Statement (.movImmAccl imm x) := by
  intro p _ _
  have := encodeAcc_lt x; have := imm.isLt
  refine one (62 * 512 + (encodeAcc x) * 256 + imm.toNat) ?_ rfl (by omega)
  simp only [encodeFirst, packWord, BitVec.toNat_ofNat]; omega

theorem movSimmAcch (imm : BitVec 8) (x : Acc) : Statement (.movSimmAcch imm x) := by
  intro p _ _
  have := encodeAcc_lt x; have := imm.isLt
  refine one (63 * 512 + (encodeAcc x) * 256 + imm.toNat) ?_ rfl (by omega)
  simp only [encodeFirst, packWord, BitVec.toNat_ofNat]; omega

theorem addReg (c : Reg) (x : Acc) : Statement (.addReg c x) := by
  intro p hp _
  have hc := Params.wf_complete hp
  have := encodeAcc_lt x; have := encodeReg_lt hc c
  refine one (64 * 512 + (encodeAcc x) * 256 + (encodeReg p c)) ?_ rfl (by omega)
  simp only [encodeFirst, packWord, BitVec.toNat_ofNat]; omega

theorem addInd (n : Fin 6) (m : PostMod) (x : Acc) : Statement (.addInd n m x) := by
  intro p hp _
  have hc := Params.wf_complete hp
  have := encodeAcc_lt x; have := packInd_lt hc n m
  refine one (64 * 512 + (encodeAcc x) * 256 + (128 + packInd p n m)) ?_ rfl (by omega)
  simp only [encodeFirst, packWord, BitVec.toNat_ofNat]; omega

theorem addDir (a : BitVec 8) (x : Acc) : Statement (.addDir a x) := by
  intro p _ _
  have := encodeAcc_lt x; have := a.isLt
  refine one (80 * 512 + (encodeAcc x) * 256 + a.toNat) ?_ rfl (by omega)
  simp only [encodeFirst, packWord, BitVec.toNat_ofNat]; omega

theorem addLong (w : Word) (x : Acc) : Statement (.addLong w x) := by
  intro p _ _
  have := encodeAcc_lt x
  refine two (64 * 512 + (encodeAcc x) * 256 + 192) ?_ nofun (by omega)
  simp only [encodeFirst, packWord, BitVec.toNat_ofNat]; omega

theorem addImm (imm : BitVec 8) (x : Acc) : Statement (.addImm imm x) := by
  intro p _ _
  have := encodeAcc_lt x; have := imm.isLt
  refine one (112 * 512 + (encodeAcc x) * 256 + imm.toNat) ?_ rfl (by omega)
  simp only [encodeFirst, packWord, BitVec.toNat_ofNat]; omega

theorem subReg (c : Reg) (x : Acc) : Statement (.subReg c x) := by
  intro p hp _
  have hc := Params.wf_complete hp
  have := encodeAcc_lt x; have := encodeReg_lt hc c
  refine one (65 * 512 + (encodeAcc x) * 256 + (encodeReg p c)) ?_ rfl (by omega)
  simp only [encodeFirst, packWord, BitVec.toNat_ofNat]; omega

theorem subInd (n : Fin 6) (m : PostMod) (x : Acc) : Statement (.subInd n m x) := by
  intro p hp _
  have hc := Params.wf_complete hp
  have := encodeAcc_lt x; have := packInd_lt hc n m
  refine one (65 * 512 + (encodeAcc x) * 256 + (128 + packInd p n m)) ?_ rfl (by omega)
  simp only [encodeFirst, packWord, BitVec.toNat_ofNat]; omega

theorem subDir (a : BitVec 8) (x : Acc) : Statement (.subDir a x) := by
  intro p _ _
  have := encodeAcc_lt x; have := a.isLt
  refine one (81 * 512 + (encodeAcc x) * 256 + a.toNat) ?_ rfl (by omega)
  simp only [encodeFirst, packWord, BitVec.toNat_ofNat]; omega

theorem subLong (w : Word) (x : Acc) : Statement (.subLong w x) := by
  intro p _ _
  have := encodeAcc_lt x
  refine two (65 * 512 + (encodeAcc x) * 256 + 192) ?_ nofun (by omega)
  simp only [encodeFirst, packWord, BitVec.toNat_ofNat]; omega

theorem subImm (imm : BitVec 8) (x : Acc) : Statement (.subImm imm x) := by
  intro p _ _
  have := encodeAcc_lt x; have := imm.isLt
  refine one (113 * 512 + (encodeAcc x) * 256 + imm.toNat) ?_ rfl (by omega)
  simp only [encodeFirst, packWord, BitVec.toNat_ofNat]; omega

theorem orReg (c : Reg) (x : Acc) : Statement (.orReg c x) := by
  intro p hp _
  have hc := Params.wf_complete hp
  have := encodeAcc_lt x; have := encodeReg_lt hc c
  refine one (66 * 512 + (encodeAcc x) * 256 + (encodeReg p c)) ?_ rfl (by omega)
  simp only [encodeFirst, packWord, BitVec.toNat_ofNat]; omega

theorem orInd (n : Fin 6) (m : PostMod) (x : Acc) : Statement (.orInd n m x) := by
  intro p hp _
  have hc := Params.wf_complete hp
  have := encodeAcc_lt x; have := packInd_lt hc n m
  refine one (66 * 512 + (encodeAcc x) * 256 + (128 + packInd p n m)) ?_ rfl (by omega)
  simp only [encodeFirst, packWord, BitVec.toNat_ofNat]; omega

theorem orDir (a : BitVec 8) (x : Acc) : Statement (.orDir a x) := by
  intro p _ _
  have := encodeAcc_lt x; have := a.isLt
  refine one (82 * 512 + (encodeAcc x) * 256 + a.toNat) ?_ rfl (by omega)
  simp only [encodeFirst, packWord, BitVec.toNat_ofNat]; omega

theorem orLong (w : Word) (x : Acc) : Statement (.orLong w x) := by
  intro p _ _
  have := encodeAcc_lt x
  refine two (66 * 512 + (encodeAcc x) * 256 + 192) ?_ nofun (by omega)
  simp only [encodeFirst, packWord, BitVec.toNat_ofNat]; omega

theorem orImm (imm : BitVec 8) (x : Acc) : Statement (.orImm imm x) := by
  intro p _ _
  have := encodeAcc_lt x; have := imm.isLt
  refine one (114 * 512 + (encodeAcc x) * 256 + imm.toNat) ?_ rfl (by omega)
  simp only [encodeFirst, packWord, BitVec.toNat_ofNat]; omega

theorem xorReg (c : Reg) (x : Acc) : Statement (.xorReg c x) := by
  intro p hp _
  have hc := Params.wf_complete hp
  have := encodeAcc_lt x; have := encodeReg_lt hc c
  refine one (67 * 512 + (encodeAcc x) * 256 + (encodeReg p c)) ?_ rfl (by omega)
  simp only [encodeFirst, packWord, BitVec.toNat_ofNat]; omega

theorem xorInd (n : Fin 6) (m : PostMod) (x : Acc) : Statement (.xorInd n m x) := by
  intro p hp _
  have hc := Params.wf_complete hp
  have := encodeAcc_lt x; have := packInd_lt hc n m
  refine one (67 * 512 + (encodeAcc x) * 256 + (128 + packInd p n m)) ?_ rfl (by omega)
  simp only [encodeFirst, packWord, BitVec.toNat_ofNat]; omega

theorem xorDir (a : BitVec 8) (x : Acc) : Statement (.xorDir a x) := by
  intro p _ _
  have := encodeAcc_lt x; have := a.isLt
  refine one (83 * 512 + (encodeAcc x) * 256 + a.toNat) ?_ rfl (by omega)
  simp only [encodeFirst, packWord, BitVec.toNat_ofNat]; omega

theorem xorLong (w : Word) (x : Acc) : Statement (.xorLong w x) := by
  intro p _ _
  have := encodeAcc_lt x
  refine two (67 * 512 + (encodeAcc x) * 256 + 192) ?_ nofun (by omega)
  simp only [encodeFirst, packWord, BitVec.toNat_ofNat]; omega

theorem xorImm (imm : BitVec 8) (x : Acc) : Statement (.xorImm imm x) := by
  intro p _ _
  have := encodeAcc_lt x; have := imm.isLt
  refine one (115 * 512 + (encodeAcc x) * 256 + imm.toNat) ?_ rfl (by omega)
  simp only [encodeFirst, packWord, BitVec.toNat_ofNat]; omega

theorem andReg (c : Reg) (x : Acc) : Statement (.andReg c x) := by
  intro p hp _
  have hc := Params.wf_complete hp
  have := encodeAcc_lt x; have := encodeReg_lt hc c
  refine one (68 * 512 + (encodeAcc x) * 256 + (encodeReg p c)) ?_ rfl (by omega)
  simp only [encodeFirst, packWord, BitVec.toNat_ofNat]; omega

theorem andInd (n : Fin 6) (m : PostMod) (x : Acc) : Statement (.andInd n m x) := by
  intro p hp _
  have hc := Params.wf_complete hp
  have := encodeAcc_lt x; have := packInd_lt hc n m
  refine one (68 * 512 + (encodeAcc x) * 256 + (128 + packInd p n m)) ?_ rfl (by omega)
  simp only [encodeFirst, packWord, BitVec.toNat_ofNat]; omega

theorem andDir (a : BitVec 8) (x : Acc) : Statement (.andDir a x) := by
  intro p _ _
  have := encodeAcc_lt x; have := a.isLt
  refine one (84 * 512 + (encodeAcc x) * 256 + a.toNat) ?_ rfl (by omega)
  simp only [encodeFirst, packWord, BitVec.toNat_ofNat]; omega

theorem andLong (w : Word) (x : Acc) : Statement (.andLong w x) := by
  intro p _ _
  have := encodeAcc_lt x
  refine two (68 * 512 + (encodeAcc x) * 256 + 192) ?_ nofun (by omega)
  simp only [encodeFirst, packWord, BitVec.toNat_ofNat]; omega

theorem andImm (imm : BitVec 8) (x : Acc) : Statement (.andImm imm x) := by
  intro p _ _
  have := encodeAcc_lt x; have := imm.isLt
  refine one (116 * 512 + (encodeAcc x) * 256 + imm.toNat) ?_ rfl (by omega)
  simp only [encodeFirst, packWord, BitVec.toNat_ofNat]; omega

theorem cmpReg (c : Reg) (x : Acc) : Statement (.cmpReg c x) := by
  intro p hp _
  have hc := Params.wf_complete hp
  have := encodeAcc_lt x; have := encodeReg_lt hc c
  refine one (69 * 512 + (encodeAcc x) * 256 + (encodeReg p c)) ?_ rfl (by omega)
  simp only [encodeFirst, packWord, BitVec.toNat_ofNat]; omega

theorem cmpInd (n : Fin 6) (m : PostMod) (x : Acc) : Statement (.cmpInd n m x) := by
  intro p hp _
  have hc := Params.wf_complete hp
  have := encodeAcc_lt x; have := packInd_lt hc n m
  refine one (69 * 512 + (encodeAcc x) * 256 + (128 + packInd p n m)) ?_ rfl (by omega)
  simp only [encodeFirst, packWord, BitVec.toNat_ofNat]; omega

theorem cmpDir (a : BitVec 8) (x : Acc) : Statement (.cmpDir a x) := by
  intro p _ _
  have := encodeAcc_lt x; have := a.isLt
  refine one (85 * 512 + (encodeAcc x) * 256 + a.toNat) ?_ rfl (by omega)
  simp only [encodeFirst, packWord, BitVec.toNat_ofNat]; omega

theorem cmpLong (w : Word) (x : Acc) : Statement (.cmpLong w x) := by
  intro p _ _
  have := encodeAcc_lt x
  refine two (69 * 512 + (encodeAcc x) * 256 + 192) ?_ nofun (by omega)
  simp only [encodeFirst, packWord, BitVec.toNat_ofNat]; omega

theorem cmpImm (imm : BitVec 8) (x : Acc) : Statement (.cmpImm imm x) := by
  intro p _ _
  have := encodeAcc_lt x; have := imm.isLt
  refine one (117 * 512 + (encodeAcc x) * 256 + imm.toNat) ?_ rfl (by omega)
  simp only [encodeFirst, packWord, BitVec.toNat_ofNat]; omega

theorem mpyReg (c : Reg) : Statement (.mpyReg c) := by
  intro p hp _
  have hc := Params.wf_complete hp
  have := encodeReg_lt hc c
  refine one (70 * 512 + 0 * 256 + (encodeReg p c)) ?_ rfl (by omega)
  simp only [encodeFirst, packWord, BitVec.toNat_ofNat]; omega

theorem mpyIndLong (n : Fin 6) (m : PostMod) (w : Word) : Statement (.mpyIndLong n m w) := by
  intro p hp _
  have hc := Params.wf_complete hp
  have := packInd_lt hc n m
  refine two (70 * 512 + 0 * 256 + (64 + packInd p n m)) ?_ nofun (by omega)
  simp only [encodeFirst, packWord, BitVec.toNat_ofNat]; omega

theorem mpyInd (n : Fin 6) (m : PostMod) : Statement (.mpyInd n m) := by
  intro p hp _
  have hc := Params.wf_complete hp
  have := packInd_lt hc n m
  refine one (70 * 512 + 0 * 256 + (128 + packInd p n m)) ?_ rfl (by omega)
  simp only [encodeFirst, packWord, BitVec.toNat_ofNat]; omega

theorem mpyDir (a : BitVec 8) : Statement (.mpyDir a) := by
  intro p _ _
  have := a.isLt
  refine one (86 * 512 + 0 * 256 + a.toNat) ?_ rfl (by omega)
  simp only [encodeFirst, packWord, BitVec.toNat_ofNat]; omega

theorem mpyPair (j : Fin 2) (jj : PostMod) (i : Fin 4) (k : PostMod) : Statement (.mpyPair j jj i k) := by
  intro p hp _
  have hc := Params.wf_complete hp
  have := packPair_lt hc j jj i k
  refine one (102 * 512 + 0 * 256 + (packPair p j jj i k)) ?_ rfl (by omega)
  simp only [encodeFirst, packWord, BitVec.toNat_ofNat]; omega

theorem macReg (c : Reg) (x : Acc) : Statement (.macReg c x) := by
  intro p hp _
  have hc := Params.wf_complete hp
  have := encodeAcc_lt x; have := encodeReg_lt hc c
  refine one (71 * 512 + (encodeAcc x) * 256 + (encodeReg p c)) ?_ rfl (by omega)
  simp only [encodeFirst, packWord, BitVec.toNat_ofNat]; omega

theorem macIndLong (n : Fin 6) (m : PostMod) (w : Word) (x : Acc) : Statement (.macIndLong n m w x) := by
  intro p hp _
  have hc := Params.wf_complete hp
  have := encodeAcc_lt x; have := packInd_lt hc n m
  refine two (71 * 512 + (encodeAcc x) * 256 + (64 + packInd p n m)) ?_ nofun (by omega)
  simp only [encodeFirst, packWord, BitVec.toNat_ofNat]; omega

theorem macInd (n : Fin 6) (m : PostMod) (x : Acc) : Statement (.macInd n m x) := by
  intro p hp _
  have hc := Params.wf_complete hp
  have := encodeAcc_lt x; have := packInd_lt hc n m
  refine one (71 * 512 + (encodeAcc x) * 256 + (128 + packInd p n m)) ?_ rfl (by omega)
  simp only [encodeFirst, packWord, BitVec.toNat_ofNat]; omega

theorem macDir (a : BitVec 8) (x : Acc) : Statement (.macDir a x) := by
  intro p _ _
  have := encodeAcc_lt x; have := a.isLt
  refine one (87 * 512 + (encodeAcc x) * 256 + a.toNat) ?_ rfl (by omega)
  simp only [encodeFirst, packWord, BitVec.toNat_ofNat]; omega

theorem macPair (j : Fin 2) (jj : PostMod) (i : Fin 4) (k : PostMod) (x : Acc) : Statement (.macPair j jj i k x) := by
  intro p hp _
  have hc := Params.wf_complete hp
  have := encodeAcc_lt x; have := packPair_lt hc j jj i k
  refine one (103 * 512 + (encodeAcc x) * 256 + (packPair p j jj i k)) ?_ rfl (by omega)
  simp only [encodeFirst, packWord, BitVec.toNat_ofNat]; omega

theorem msuReg (c : Reg) (x : Acc) : Statement (.msuReg c x) := by
  intro p hp _
  have hc := Params.wf_complete hp
  have := encodeAcc_lt x; have := encodeReg_lt hc c
  refine one (72 * 512 + (encodeAcc x) * 256 + (encodeReg p c)) ?_ rfl (by omega)
  simp only [encodeFirst, packWord, BitVec.toNat_ofNat]; omega

theorem msuIndLong (n : Fin 6) (m : PostMod) (w : Word) (x : Acc) : Statement (.msuIndLong n m w x) := by
  intro p hp _
  have hc := Params.wf_complete hp
  have := encodeAcc_lt x; have := packInd_lt hc n m
  refine two (72 * 512 + (encodeAcc x) * 256 + (64 + packInd p n m)) ?_ nofun (by omega)
  simp only [encodeFirst, packWord, BitVec.toNat_ofNat]; omega

theorem msuInd (n : Fin 6) (m : PostMod) (x : Acc) : Statement (.msuInd n m x) := by
  intro p hp _
  have hc := Params.wf_complete hp
  have := encodeAcc_lt x; have := packInd_lt hc n m
  refine one (72 * 512 + (encodeAcc x) * 256 + (128 + packInd p n m)) ?_ rfl (by omega)
  simp only [encodeFirst, packWord, BitVec.toNat_ofNat]; omega

theorem msuDir (a : BitVec 8) (x : Acc) : Statement (.msuDir a x) := by
  intro p _ _
  have := encodeAcc_lt x; have := a.isLt
  refine one (88 * 512 + (encodeAcc x) * 256 + a.toNat) ?_ rfl (by omega)
  simp only [encodeFirst, packWord, BitVec.toNat_ofNat]; omega

theorem msuPair (j : Fin 2) (jj : PostMod) (i : Fin 4) (k : PostMod) (x : Acc) : Statement (.msuPair j jj i k x) := by
  intro p hp _
  have hc := Params.wf_complete hp
  have := encodeAcc_lt x; have := packPair_lt hc j jj i k
  refine one (104 * 512 + (encodeAcc x) * 256 + (packPair p j jj i k)) ?_ rfl (by omega)
  simp only [encodeFirst, packWord, BitVec.toNat_ofNat]; omega

theorem sqrReg (c : Reg) : Statement (.sqrReg c) := by
  intro p hp _
  have hc := Params.wf_complete hp
  have := encodeHi_bounds hc .sqr
  have := encodeReg_lt hc c
  refine one ((64 + encodeHi p .sqr) * 512 + 0 * 256 + (encodeReg p c)) ?_ rfl (by omega)
  simp only [encodeFirst, packWord, BitVec.toNat_ofNat]; omega

theorem sqrInd (n : Fin 6) (m : PostMod) : Statement (.sqrInd n m) := by
  intro p hp _
  have hc := Params.wf_complete hp
  have := encodeHi_bounds hc .sqr
  have := packInd_lt hc n m
  refine one ((64 + encodeHi p .sqr) * 512 + 0 * 256 + (128 + packInd p n m)) ?_ rfl (by omega)
  simp only [encodeFirst, packWord, BitVec.toNat_ofNat]; omega

theorem sqrDir (a : BitVec 8) : Statement (.sqrDir a) := by
  intro p hp _
  have hc := Params.wf_complete hp
  have := encodeHi_bounds hc .sqr
  have := a.isLt
  refine one ((80 + encodeHi p .sqr) * 512 + 0 * 256 + a.toNat) ?_ rfl (by omega)
  simp only [encodeFirst, packWord, BitVec.toNat_ofNat]; omega

theorem sqraReg (c : Reg) (x : Acc) : Statement (.sqraReg c x) := by
  intro p hp _
  have hc := Params.wf_complete hp
  have := encodeHi_bounds hc .sqra
  have := encodeAcc_lt x; have := encodeReg_lt hc c
  refine one ((64 + encodeHi p .sqra) * 512 + (encodeAcc x) * 256 + (encodeReg p c)) ?_ rfl (by omega)
  simp only [encodeFirst, packWord, BitVec.toNat_ofNat]; omega

theorem sqraInd (n : Fin 6) (m : PostMod) (x : Acc) : Statement (.sqraInd n m x) := by
  intro p hp _
  have hc := Params.wf_complete hp
  have := encodeHi_bounds hc .sqra
  have := encodeAcc_lt x; have := packInd_lt hc n m
  refine one ((64 + encodeHi p .sqra) * 512 + (encodeAcc x) * 256 + (128 + packInd p n m)) ?_ rfl (by omega)
  simp only [encodeFirst, packWord, BitVec.toNat_ofNat]; omega

theorem sqraDir (a : BitVec 8) (x : Acc) : Statement (.sqraDir a x) := by
  intro p hp _
  have hc := Params.wf_complete hp
  have := encodeHi_bounds hc .sqra
  have := encodeAcc_lt x; have := a.isLt
  refine one ((80 + encodeHi p .sqra) * 512 + (encodeAcc x) * 256 + a.toNat) ?_ rfl (by omega)
  simp only [encodeFirst, packWord, BitVec.toNat_ofNat]; omega

theorem sqrsReg (c : Reg) (x : Acc) : Statement (.sqrsReg c x) := by
  intro p hp _
  have hc := Params.wf_complete hp
  have := encodeHi_bounds hc .sqrs
  have := encodeAcc_lt x; have := encodeReg_lt hc c
  refine one ((64 + encodeHi p .sqrs) * 512 + (encodeAcc x) * 256 + (encodeReg p c)) ?_ rfl (by omega)
  simp only [encodeFirst, packWord, BitVec.toNat_ofNat]; omega

theorem sqrsInd (n : Fin 6) (m : PostMod) (x : Acc) : Statement (.sqrsInd n m x) := by
  intro p hp _
  have hc := Params.wf_complete hp
  have := encodeHi_bounds hc .sqrs
  have := encodeAcc_lt x; have := packInd_lt hc n m
  refine one ((64 + encodeHi p .sqrs) * 512 + (encodeAcc x) * 256 + (128 + packInd p n m)) ?_ rfl (by omega)
  simp only [encodeFirst, packWord, BitVec.toNat_ofNat]; omega

theorem sqrsDir (a : BitVec 8) (x : Acc) : Statement (.sqrsDir a x) := by
  intro p hp _
  have hc := Params.wf_complete hp
  have := encodeHi_bounds hc .sqrs
  have := encodeAcc_lt x; have := a.isLt
  refine one ((80 + encodeHi p .sqrs) * 512 + (encodeAcc x) * 256 + a.toNat) ?_ rfl (by omega)
  simp only [encodeFirst, packWord, BitVec.toNat_ofNat]; omega

theorem addlReg (c : Reg) (x : Acc) : Statement (.addlReg c x) := by
  intro p hp _
  have hc := Params.wf_complete hp
  have := encodeHi_bounds hc .addl
  have := encodeAcc_lt x; have := encodeReg_lt hc c
  refine one ((64 + encodeHi p .addl) * 512 + (encodeAcc x) * 256 + (encodeReg p c)) ?_ rfl (by omega)
  simp only [encodeFirst, packWord, BitVec.toNat_ofNat]; omega

theorem addlInd (n : Fin 6) (m : PostMod) (x : Acc) : Statement (.addlInd n m x) := by
  intro p hp _
  have hc := Params.wf_complete hp
  have := encodeHi_bounds hc .addl
  have := encodeAcc_lt x; have := packInd_lt hc n m
  refine one ((64 + encodeHi p .addl) * 512 + (encodeAcc x) * 256 + (128 + packInd p n m)) ?_ rfl (by omega)
  simp only [encodeFirst, packWord, BitVec.toNat_ofNat]; omega

theorem addlDir (a : BitVec 8) (x : Acc) : Statement (.addlDir a x) := by
  intro p hp _
  have hc := Params.wf_complete hp
  have := encodeHi_bounds hc .addl
  have := encodeAcc_lt x; have := a.isLt
  refine one ((80 + encodeHi p .addl) * 512 + (encodeAcc x) * 256 + a.toNat) ?_ rfl (by omega)
  simp only [encodeFirst, packWord, BitVec.toNat_ofNat]; omega

theorem sublReg (c : Reg) (x : Acc) : Statement (.sublReg c x) := by
  intro p hp _
  have hc := Params.wf_complete hp
  have := encodeHi_bounds hc .subl
  have := encodeAcc_lt x; have := encodeReg_lt hc c
  refine one ((64 + encodeHi p .subl) * 512 + (encodeAcc x) * 256 + (encodeReg p c)) ?_ rfl (by omega)
  simp only [encodeFirst, packWord, BitVec.toNat_ofNat]; omega

theorem sublInd (n : Fin 6) (m : PostMod) (x : Acc) : Statement (.sublInd n m x) := by
  intro p hp _
  have hc := Params.wf_complete hp
  have := encodeHi_bounds hc .subl
  have := encodeAcc_lt x; have := packInd_lt hc n m
  refine one ((64 + encodeHi p .subl) * 512 + (encodeAcc x) * 256 + (128 + packInd p n m)) ?_ rfl (by omega)
  simp only [encodeFirst, packWord, BitVec.toNat_ofNat]; omega

theorem sublDir (a : BitVec 8) (x : Acc) : Statement (.sublDir a x) := by
  intro p hp _
  have hc := Params.wf_complete hp
  have := encodeHi_bounds hc .subl
  have := encodeAcc_lt x; have := a.isLt
  refine one ((80 + encodeHi p .subl) * 512 + (encodeAcc x) * 256 + a.toNat) ?_ rfl (by omega)
  simp only [encodeFirst, packWord, BitVec.toNat_ofNat]; omega

theorem addhReg (c : Reg) (x : Acc) : Statement (.addhReg c x) := by
  intro p hp _
  have hc := Params.wf_complete hp
  have := encodeHi_bounds hc .addh
  have := encodeAcc_lt x; have := encodeReg_lt hc c
  refine one ((64 + encodeHi p .addh) * 512 + (encodeAcc x) * 256 + (encodeReg p c)) ?_ rfl (by omega)
  simp only [encodeFirst, packWord, BitVec.toNat_ofNat]; omega

theorem addhInd (n : Fin 6) (m : PostMod) (x : Acc) : Statement (.addhInd n m x) := by
  intro p hp _
  have hc := Params.wf_complete hp
  have := encodeHi_bounds hc .addh
  have := encodeAcc_lt x; have := packInd_lt hc n m
  refine one ((64 + encodeHi p .addh) * 512 + (encodeAcc x) * 256 + (128 + packInd p n m)) ?_ rfl (by omega)
  simp only [encodeFirst, packWord, BitVec.toNat_ofNat]; omega

theorem addhDir (a : BitVec 8) (x : Acc) : Statement (.addhDir a x) := by
  intro p hp _
  have hc := Params.wf_complete hp
  have := encodeHi_bounds hc .addh
  have := encodeAcc_lt x; have := a.isLt
  refine one ((80 + encodeHi p .addh) * 512 + (encodeAcc x) * 256 + a.toNat) ?_ rfl (by omega)
  simp only [encodeFirst, packWord, BitVec.toNat_ofNat]; omega

theorem subhReg (c : Reg) (x : Acc) : Statement (.subhReg c x) := by
  intro p hp _
  have hc := Params.wf_complete hp
  have := encodeHi_bounds hc .subh
  have := encodeAcc_lt x; have := encodeReg_lt hc c
  refine one ((64 + encodeHi p .subh) * 512 + (encodeAcc x) * 256 + (encodeReg p c)) ?_ rfl (by omega)
  simp only [encodeFirst, packWord, BitVec.toNat_ofNat]; omega

theorem subhInd (n : Fin 6) (m : PostMod) (x : Acc) : Statement (.subhInd n m x) := by
  intro p hp _
  have hc := Params.wf_complete hp
  have := encodeHi_bounds hc .subh
  have := encodeAcc_lt x; have := packInd_lt hc n m
  refine one ((64 + encodeHi p .subh) * 512 + (encodeAcc x) * 256 + (128 + packInd p n m)) ?_ rfl (by omega)
  simp only [encodeFirst, packWord, BitVec.toNat_ofNat]; omega

theorem subhDir (a : BitVec 8) (x : Acc) : Statement (.subhDir a x) := by
  intro p hp _
  have hc := Params.wf_complete hp
  have := encodeHi_bounds hc .subh
  have := encodeAcc_lt x; have := a.isLt
  refine one ((80 + encodeHi p .subh) * 512 + (encodeAcc x) * 256 + a.toNat) ?_ rfl (by omega)
  simp only [encodeFirst, packWord, BitVec.toNat_ofNat]; omega

theorem mpys (imm : BitVec 8) : Statement (.mpys imm) := by
  intro p _ _
  have := imm.isLt
  refine one (118 * 512 + 0 * 256 + imm.toNat) ?_ rfl (by omega)
  simp only [encodeFirst, packWord, BitVec.toNat_ofNat]; omega

theorem unused (w : Word) : Statement (.unused w) := fun _ _ h => isTwoWord_of_unused h

end Sys2Proof.Laws.SecondWordAgrees
end

