-- ==== Sys2Proof/Laws/Units.lean ====
section
/-! SUPPORT. What surrounds an instruction, said once: the sampled inputs, the fetch, the repeat and
block-repeat units, and the ways in which a step can go. -/

namespace Sys2Proof.Machine

/-! The classes of instructions of the rules on sequences. -/

theorem moveDest_eq (i : Instr) : i.moveDest = movesTo i := by cases i <;> rfl

theorem isRep_eq (i : Instr) : i.isRep = isRepeat i := by cases i <;> rfl

theorem breaksFlow_eq (i : Instr) : i.breaksFlow = transfersOrLoops i := by cases i <;> rfl

/-- What may follow rep: br, call and bkrep are excluded by their length (43_loop R264). -/
theorem repeatable_iff {i : Instr} :
    i.repeatable = true ↔
      i.secondWord = none ∧ breaksContinuity i = false ∧ isProgramMove i = false ∧ movesTo i ≠ some .pc := by
  cases i <;> simp [Instr.repeatable, Instr.secondWord, Instr.breaksFlow, Instr.isMovp, Instr.movesPc, Instr.moveDest,
    breaksContinuity, isProgramMove, movesTo]

theorem carriesFlags_eq : Reg.carriesFlags = fun c => c == .st0 || ofAccumulator c := by funext c; cases c <;> rfl

theorem changesFlags_eq (i : Instr) : i.changesFlags = precedesOpenSt0 i := by
  have h : i.isAlu = isAluInstruction i := by cases i <;> rfl
  simp only [Instr.changesFlags, precedesOpenSt0, h, moveDest_eq, carriesFlags_eq]

theorem noteExecuted_eq (i : Instr) (s : State) : noteExecuted i s = noted i s := by
  simp only [noteExecuted, noted, Instr.holdsOff, changesFlags_eq, moveDest_eq]

/-! The sampled inputs. -/

theorem applyExt_eq (l : List (Fin 8 × Word)) (s : State) : applyExt l s = { s with ext := (applyExt l s).ext } := by
  induction l generalizing s with
  | nil => rfl
  | cons a l ih => simp only [applyExt]; rw [ih]; rfl

/-- Sampling changes pins, inputs, iack, ext registers and what the devices are asked alone. -/
theorem sample_eq (s : State) :
    sample s = { s with pins := (sample s).pins, inputs := (sample s).inputs, iack := false
                        ext := (sample s).ext, answers := (sample s).answers, bus := [] } := by
  unfold sample
  split
  · rfl
  · simp only; rw [applyExt_eq]

@[simp] theorem sample_mem (s : State) : (sample s).mem = s.mem := by rw [sample_eq]

@[simp] theorem sample_params (s : State) : (sample s).params = s.params := by rw [sample_eq]

/-! The fetch. -/

/-- A fetch moves pc, uses free values, and asks devices. -/
theorem fetch_frame {s : State} {o : Fetched × State} (h : fetch s = .next o) :
    o.2 = { s with
      freeCtr := o.2.freeCtr, codeCtr := o.2.codeCtr, answers := o.2.answers, bus := o.2.bus, pc := o.2.pc,
      storeNow := none } := by
  obtain ⟨o1, h1, h⟩ := andThen_eq_next.1 h
  have hk : MemFrame _ _ := fetchWord_frame h1
  unfold MemFrame at hk
  split at h
  · obtain ⟨o2, h2, h⟩ := andThen_eq_next.1 h
    have hk2 : MemFrame _ _ := fetchWord_frame h2
    unfold MemFrame at hk2
    cases h; simp only; rw [hk2, hk]
  · cases h; simp only; rw [hk]

theorem fetch_ne_fault {s : State} {e : Fault} : fetch s ≠ .fault e := by
  intro h
  rcases andThen_eq_fault.1 h with h | ⟨o, _, h⟩
  · exact fetchWord_ne_fault h
  · split at h
    · rcases andThen_eq_fault.1 h with h | ⟨_, _, h⟩
      · exact fetchWord_ne_fault h
      · cases h
    · cases h

/-! The units. -/

theorem repUnit_rep (start : Word) (s : State) : repUnit true start s = (false, s) := rfl

theorem repUnit_idle {b : Bool} {start : Word} {s : State} (h1 : s.repArmed = false) (h2 : s.repActive = false) :
    repUnit b start s = (false, s) := by
  simp [repUnit, h1, h2]

/-- The low 8 bits of lc are zero, as a number. -/
theorem lowCount_eq_zero (lc : Word) : lc.extractLsb' 0 8 = 0 ↔ lc.toNat % 256 = 0 := by
  rw [← BitVec.toNat_inj]; simp

theorem lcWithLow_toNat (lc : Word) (k : BitVec 8) : (lcWithLow lc k).toNat = lc.toNat / 256 * 256 + k.toNat := by
  have := lc.isLt
  simp only [lcWithLow, BitVec.toNat_append, BitVec.extractLsb'_toNat, Nat.shiftRight_eq_div_pow]
  rw [← Nat.shiftLeft_add_eq_or_of_lt k.isLt, Nat.shiftLeft_eq]
  omega

/-- Elsewhere than at the loop's end, or with no loop, the block-repeat unit only counts lp_late down. -/
theorem blockUnit_other {last : Word} {s : State} (h : last ≠ s.bkEnd ∨ s.loopLive = false) :
    blockUnit last s = { s with lpLate := s.lpLate - 1 } := by
  have : (s.loopLive && last == s.bkEnd) = false := by
    rcases h with h | h
    · rw [beq_false_of_ne h, Bool.and_false]
    · rw [h, Bool.false_and]
  simp [blockUnit, this]

theorem repUnit_mem (b : Bool) (start : Word) (s : State) : (repUnit b start s).2.mem = s.mem := by
  unfold repUnit; repeat' split
  all_goals rfl

theorem blockUnit_mem (last : Word) (s : State) : (blockUnit last s).mem = s.mem := by
  unfold blockUnit; dsimp only; repeat' split
  all_goals rfl

theorem settlePc_mem (p : Option Word) (s : State) : (settlePc p s).mem = s.mem := by cases p <;> rfl

theorem afterInstr_mem (i : Instr) (start last : Word) (p : Option Word) (s : State) :
    (afterInstr i start last p s).mem = s.mem := by
  unfold afterInstr; dsimp only; split
  · rw [repUnit_mem]; rfl
  · rw [blockUnit_mem, settlePc_mem, repUnit_mem]; rfl

/-! The ways in which a step can go. -/

/-- t is what one step makes of s: reset, STOP mode, an interrupt's entry, or an instruction that was
fetched as f, ran to u, and was followed by the units. -/
inductive Stepped (s t : State) : Prop where
  | reset (hp : (sample s).pins.reset = true) (h : t = resetState (sample s))
  | stop (hp : (sample s).st2.stp = true) (h : t = sample s)
  | interrupt (irq : Irq) (hp : acceptInterrupt (sample s) = some irq) (h : enterInterrupt irq (sample s) = .next t)
  | run (i : Instr) (f u : State) (start last : Word)
      (hf : f = { sample s with
                  freeCtr := f.freeCtr, codeCtr := f.codeCtr, answers := f.answers, bus := f.bus, pc := f.pc,
                  storeNow := none })
      (hs : sequenceRefusal i f = none) (hx : exec i f = .next u)
      (h : t = afterInstr i start last f.pcPending u)

theorem stepped {s t : State} (h : step s = .next t) : Stepped s t := by
  have h : stepSampled (sample s) = .next t := h
  simp only [stepSampled] at h
  split at h
  · next hp => cases h; exact .reset hp rfl
  · split at h
    · next hp => cases h; exact .stop hp rfl
    · split at h
      · next hp => exact .interrupt _ hp h
      · unfold runNext at h
        obtain ⟨o, ho, h⟩ := andThen_eq_next.1 h
        have e := fetch_frame ho
        split at h
        · cases h
        · unfold runInstr at h
          split at h
          · cases h
          · next hs =>
            obtain ⟨u, hu, h⟩ := andThen_eq_next.1 h
            cases h
            exact .run _ _ u _ _ e hs hu rfl

/-- A step faults only in an interrupt's entry or in the instruction that it runs. -/
theorem step_fault {s : State} {e : Fault} (h : step s = .fault e) :
    (∃ irq, acceptInterrupt (sample s) = some irq ∧ enterInterrupt irq (sample s) = .fault e) ∨
      ∃ i f, f = { sample s with
                   freeCtr := f.freeCtr, codeCtr := f.codeCtr, answers := f.answers, bus := f.bus, pc := f.pc,
                   storeNow := none } ∧
        exec i f = .fault e := by
  have h : stepSampled (sample s) = .fault e := h
  simp only [stepSampled] at h
  split at h
  · cases h
  · split at h
    · cases h
    · split at h
      · next hp => exact .inl ⟨_, hp, h⟩
      · unfold runNext at h
        rcases andThen_eq_fault.1 h with h | ⟨o, ho, h⟩
        · exact absurd h fetch_ne_fault
        · have e' := fetch_frame ho
          split at h
          · cases h
          · unfold runInstr at h
            split at h
            · cases h
            · rcases andThen_eq_fault.1 h with h | ⟨_, _, h⟩
              · exact .inr ⟨_, _, e', h⟩
              · cases h

end Sys2Proof.Machine
end

