-- ==== Sys2Proof/Tests/Slice0.lean ====
section
/-! SUPPORT. Tests: ill-formed instructions, words written out from the encodings, single steps from the
spec's vectors, and a witness for the hypotheses of every statement that has some. -/

namespace Sys2Proof.Tests

set_option Elab.async false

open Sys2Proof.Machine

/-! Helpers. -/

/-- The start state of the vectors (95_test_vectors, conventions). -/
def at100 : State := { State.reset with pc := 0x100 }

/-- The words w0, w1 stored at pc. -/
def put (w0 w1 : Word) (s : State) : State := pokeProg (s.pc + 1) w1 (pokeProg s.pc w0 s)

/-- The data word at a set to v. -/
def dataAt (a v : Word) (s : State) : State := { s with mem := s.mem.writeWord a.toNat v }

def setR (n : Fin 6) (v : Word) (s : State) : State := s.setAddr n v

def nextOf {α : Type} : Res α → Option α
  | .next s => some s
  | .fault _ | .refused _ => none

def faultOf : Out → Option Fault
  | .fault e => some e
  | .next _ | .refused _ => none

def refusalOf : Out → Option Refusal
  | .refused e => some e
  | .next _ | .fault _ => none

/-- The state after one step on the words w0, w1. -/
def ran (w0 w1 : Word) (s : State) : Option State := nextOf (step (put w0 w1 s))

/-- Levels of the hardware stack that no interrupt pushed. -/
def levels (l : List Word) : List Slot := l.map fun v => ⟨v, false⟩

/-- The flags in the order Z M N V C E L R. -/
def flags (s : State) : BitVec 8 :=
  BitVec.ofBool s.st0.z ++ BitVec.ofBool s.st0.m ++ BitVec.ofBool s.st0.n ++ BitVec.ofBool s.st0.v ++
    BitVec.ofBool s.st0.c ++ BitVec.ofBool s.st0.e ++ BitVec.ofBool s.st0.l ++ BitVec.ofBool s.st0.r

/-- A loop from 0x80 to 0x100 with count n, at its last word; pc is after it. -/
def looped (n : Word) : State :=
  { at100 with pc := 0x101, bkStart := 0x80, bkEnd := 0x100, lc := n, st2 := ⟨false, true, false, false, 0⟩ }

/-- The same loop, with LP cleared and n boundaries still to pass before the clear is seen. -/
def cleared (n : Nat) : State := { looped 1 with lpLate := n, st2 := ⟨false, false, false, false, 0⟩ }

/-! Ill-formed instructions: each check of WellFormed refuses one, and so does its meaning. -/

/-- The instruction is ill formed, and exec refuses it for the reason given. -/
def refused (i : Instr) (why : Refusal) : Bool := !i.wf Params.default && refusalOf (exec i at100) == some why

theorem test_wf_word_register :
    refused (.repReg (.acc .a0)) .notWordRegister ∧ refused (.mpyReg .p) .notWordRegister ∧
    refused (.sqrReg (.acc .a1)) .notWordRegister ∧ refused (.bkrepReg .p 0x200) .notWordRegister ∧
    refused (.movRegInd (.acc .a0) 0 .keep) .notWordRegister ∧ refused (.macReg .p .a0) .notWordRegister ∧
    refused (.msuReg (.acc .a1) .a0) .notWordRegister ∧ refused (.sqraReg .p .a0) .notWordRegister ∧
    refused (.sqrsReg .p .a0) .notWordRegister ∧ refused (.addlReg (.acc .a1) .a0) .notWordRegister ∧
    refused (.sublReg .p .a0) .notWordRegister ∧ refused (.addhReg .p .a0) .notWordRegister ∧
    refused (.subhReg .p .a0) .notWordRegister := by decide +kernel

theorem test_wf_same_accumulator :
    refused (.addReg (.acc .a0) .a0) .sameAccumulator ∧ refused (.subReg (.acch .a0) .a0) .sameAccumulator ∧
    refused (.orReg (.accl .a1) .a1) .sameAccumulator ∧ refused (.xorReg (.acc .a1) .a1) .sameAccumulator ∧
    refused (.andReg (.acch .a1) .a1) .sameAccumulator ∧ refused (.cmpReg (.accl .a0) .a0) .sameAccumulator ∧
    refused (.macReg (.accl .a0) .a0) .sameAccumulator ∧ refused (.subhReg (.acch .a1) .a1) .sameAccumulator := by
  decide +kernel

theorem test_wf_moves :
    refused (.bkrepReg .pc 0x200) .bkrepCountPc ∧ refused (.movpIndInd 2 .keep 2 .inc) .movpSameRegister ∧
    refused (.movRegInd (.r 3) 3 .dec) .movPostModified ∧ refused (.movIndReg 3 .step (.r 3)) .movPostModified ∧
    refused (.movRegReg .y .y) .movSameRegister ∧ refused (.movRegReg (.acc .a0) .x) .movAccumulatorSource ∧
    refused (.movRegReg .p .x) .movProductSource ∧ refused (.movDirRn 5 .x) .movDirectToX := by decide +kernel

theorem test_wf_unused : (Instr.unused 0x0000).wf Params.default = false ∧ (Instr.unused 0x0300).wf Params.default = true := by decide

/-! Words written out from the encodings. -/

/-- Words of the control rows, bit by bit from the patterns of 30_encoding R114. -/
theorem test_decode_control :
    decodeWords Params.default 0b0000000000000000 0 = .ok .nop ∧
    decodeWords Params.default 0b0000001000000000 0 = .ok .trap ∧
    decodeWords Params.default 0b0000010000000000 0 = .ok .eint ∧
    decodeWords Params.default 0b0000011000000000 0 = .ok .dint ∧
    decodeWords Params.default 0b0000100000101100 0 = .ok (.lpg 0x2c) ∧
    decodeWords Params.default 0b0000110111100100 0 = .ok (.norm .a1 4 .keep) ∧
    decodeWords Params.default 0b0000111111100100 0 = .ok (.modr 4 .keep) ∧
    decodeWords Params.default 0b0001000101101100 0 = .ok (.repImm 0x6c) ∧
    decodeWords Params.default 0b0001001111110111 0 = .ok (.repReg (.ext 0)) ∧
    decodeWords Params.default 0b0001010001110100 0xE921 = .ok (.bkrepImm 0x74 0xE921) ∧
    decodeWords Params.default 0b0001011111110110 0x9EBB = .ok (.bkrepReg .cfgj 0x9EBB) ∧
    decodeWords Params.default 0b0010010001001010 0 = .ok (.callr 0x44 .e) ∧
    decodeWords Params.default 0b0010100000001001 0 = .ok (.brr 0x0 .c) ∧
    decodeWords Params.default 0b0011000000000101 0x0A65 = .ok (.call 0x0A65 .lt) ∧
    decodeWords Params.default 0b0011001111111110 0x01A3 = .ok (.br 0x01A3 .iu0) ∧
    decodeWords Params.default 0b0011010000000010 0 = .ok (.ret .neq) ∧
    decodeWords Params.default 0b0011011111111111 0 = .ok .reti ∧
    decodeWords Params.default 0b0011100100000000 0 = .ok (.calla .a1) ∧
    decodeWords Params.default 0b0011110100001100 0 = .ok (.divs 0xc .a1) := by
  decide +kernel

/-- Words of the moda rows, bit by bit from the patterns of 30_encoding R114, R120. -/
theorem test_decode_moda :
    decodeWords Params.default 0b0001100000001011 0 = .ok (.shr .a0 .l) ∧
    decodeWords Params.default 0b0001111100011100 0 = .ok (.shl .a1 .nr) ∧
    decodeWords Params.default 0b0001100100100110 0 = .ok (.shr4 .a1 .le) ∧
    decodeWords Params.default 0b0001111000111111 0 = .ok (.shl4 .a0 .iu1) ∧
    decodeWords Params.default 0b0001111001001000 0 = .ok (.ror .a0 .v) ∧
    decodeWords Params.default 0b0001100001011000 0 = .ok (.rol .a0 .v) ∧
    decodeWords Params.default 0b0001111001101011 0 = .ok (.not .a0 .l) ∧
    decodeWords Params.default 0b0001100001110101 0 = .ok (.neg .a0 .lt) ∧
    decodeWords Params.default 0b0001111110000110 0 = .ok (.clr .a1 .le) ∧
    decodeWords Params.default 0b0001111110011010 0 = .ok (.copy .a1 .e) ∧
    decodeWords Params.default 0b0001100010101110 0 = .ok (.rnd .a0 .iu0) ∧
    decodeWords Params.default 0b0001111010110100 0 = .ok (.pacr .a0 .ge) ∧
    decodeWords Params.default 0b0001100111000101 0 = .ok (.clrr .a1 .lt) := by
  decide +kernel

/-- Words of the move rows, bit by bit from the patterns of 30_encoding R115. -/
theorem test_decode_move :
    decodeWords Params.default 0b0100000100011010 0 = .ok (.movpAccReg .a1 (.ext 3)) ∧
    decodeWords Params.default 0b0100001111010100 0 = .ok (.movpIndInd 4 .dec 2 .step) ∧
    decodeWords Params.default 0b0100101111011101 0 = .ok (.movRegInd (.ext 7) 5 .step) ∧
    decodeWords Params.default 0b0100110101010101 0 = .ok (.movIndReg 5 .dec (.r 4)) ∧
    decodeWords Params.default 0b0101000000000100 0 = .ok (.movSimmRn 0x4 (.r 0)) ∧
    decodeWords Params.default 0b0101100010101000 0 = .ok (.movRegReg (.r 2) (.accl .a1)) ∧
    decodeWords Params.default 0b0101110111101000 0xAF2B = .ok (.movLongReg 0xAF2B (.r 2)) ∧
    decodeWords Params.default 0b0110000010010000 0 = .ok (.movDirAcc 0x90 .a0) ∧
    decodeWords Params.default 0b0110001011011100 0 = .ok (.movDirAcch 0xdc .a0) ∧
    decodeWords Params.default 0b0110010011101110 0 = .ok (.movDirAccl 0xee .a0) ∧
    decodeWords Params.default 0b0110011011011110 0 = .ok (.movDirAcchEu 0xde .a0) ∧
    decodeWords Params.default 0b0110111101100001 0 = .ok (.movRnDir .x 0x61) ∧
    decodeWords Params.default 0b0111000110101111 0 = .ok (.movDirRn 0xaf (.r 1)) ∧
    decodeWords Params.default 0b0111100000010110 0 = .ok (.movAcclDir .a0 0x16) ∧
    decodeWords Params.default 0b0111101111000101 0 = .ok (.movAcchDir .a1 0xc5) ∧
    decodeWords Params.default 0b0111110100101100 0 = .ok (.movImmAccl 0x2c .a1) ∧
    decodeWords Params.default 0b0111111110110100 0 = .ok (.movSimmAcch 0xb4 .a1) := by
  decide +kernel

/-- Words of the alu register rows, bit by bit from the patterns of 30_encoding R116, R117. -/
theorem test_decode_alu_register :
    decodeWords Params.default 0b1000000100110010 0 = .ok (.addReg .st0 .a1) ∧
    decodeWords Params.default 0b1000001000010000 0 = .ok (.subReg .lc .a0) ∧
    decodeWords Params.default 0b1000010000010000 0 = .ok (.orReg .lc .a0) ∧
    decodeWords Params.default 0b1000011000101101 0 = .ok (.xorReg .y .a0) ∧
    decodeWords Params.default 0b1000100000100000 0 = .ok (.andReg (.acc .a0) .a0) ∧
    decodeWords Params.default 0b1000101100001101 0 = .ok (.cmpReg .y .a1) ∧
    decodeWords Params.default 0b1000110100100101 0 = .ok (.mpyReg (.accl .a1)) ∧
    decodeWords Params.default 0b1000111000010101 0 = .ok (.macReg .cfgi .a0) ∧
    decodeWords Params.default 0b1001000100111010 0 = .ok (.msuReg (.ext 3) .a1) ∧
    decodeWords Params.default 0b1001001000000000 0 = .ok (.sqrReg (.acc .a0)) ∧
    decodeWords Params.default 0b1001010100001111 0 = .ok (.sqraReg .pc .a1) ∧
    decodeWords Params.default 0b1001011000110001 0 = .ok (.sqrsReg .tos .a0) ∧
    decodeWords Params.default 0b1001100100010001 0 = .ok (.addlReg .tos .a1) ∧
    decodeWords Params.default 0b1001101100011001 0 = .ok (.sublReg (.ext 2) .a1) ∧
    decodeWords Params.default 0b1001110000011100 0 = .ok (.addhReg (.ext 5) .a0) ∧
    decodeWords Params.default 0b1001111000001101 0 = .ok (.subhReg .y .a0) := by
  decide +kernel

/-- Words of the alu indirect rows, bit by bit from the patterns of 30_encoding R116. -/
theorem test_decode_alu_indirect :
    decodeWords Params.default 0b1000000110000001 0 = .ok (.addInd 1 .keep .a1) ∧
    decodeWords Params.default 0b1000001010011101 0 = .ok (.subInd 5 .step .a0) ∧
    decodeWords Params.default 0b1000010010011101 0 = .ok (.orInd 5 .step .a0) ∧
    decodeWords Params.default 0b1000011010011011 0 = .ok (.xorInd 3 .step .a0) ∧
    decodeWords Params.default 0b1000100010000001 0 = .ok (.andInd 1 .keep .a0) ∧
    decodeWords Params.default 0b1000101010001010 0 = .ok (.cmpInd 2 .inc .a0) ∧
    decodeWords Params.default 0b1000110010011000 0 = .ok (.mpyInd 0 .step) ∧
    decodeWords Params.default 0b1000111010001100 0 = .ok (.macInd 4 .inc .a0) ∧
    decodeWords Params.default 0b1001000010111010 0 = .ok (.msuInd 2 .step .a0) ∧
    decodeWords Params.default 0b1001001010011011 0 = .ok (.sqrInd 3 .step) ∧
    decodeWords Params.default 0b1001010010001101 0 = .ok (.sqraInd 5 .inc .a0) ∧
    decodeWords Params.default 0b1001011010011101 0 = .ok (.sqrsInd 5 .step .a0) ∧
    decodeWords Params.default 0b1001100010101010 0 = .ok (.addlInd 2 .inc .a0) ∧
    decodeWords Params.default 0b1001101010001001 0 = .ok (.sublInd 1 .inc .a0) ∧
    decodeWords Params.default 0b1001110110000011 0 = .ok (.addhInd 3 .keep .a1) ∧
    decodeWords Params.default 0b1001111110101100 0 = .ok (.subhInd 4 .inc .a1) := by
  decide +kernel

/-- Words of the alu direct rows, bit by bit from the patterns of 30_encoding R116. -/
theorem test_decode_alu_direct :
    decodeWords Params.default 0b1010000000101010 0 = .ok (.addDir 0x2a .a0) ∧
    decodeWords Params.default 0b1010001110101101 0 = .ok (.subDir 0xad .a1) ∧
    decodeWords Params.default 0b1010010110100111 0 = .ok (.orDir 0xa7 .a1) ∧
    decodeWords Params.default 0b1010011001101111 0 = .ok (.xorDir 0x6f .a0) ∧
    decodeWords Params.default 0b1010100001011110 0 = .ok (.andDir 0x5e .a0) ∧
    decodeWords Params.default 0b1010101011001011 0 = .ok (.cmpDir 0xcb .a0) ∧
    decodeWords Params.default 0b1010110010010101 0 = .ok (.mpyDir 0x95) ∧
    decodeWords Params.default 0b1010111000010011 0 = .ok (.macDir 0x13 .a0) ∧
    decodeWords Params.default 0b1011000110110011 0 = .ok (.msuDir 0xb3 .a1) ∧
    decodeWords Params.default 0b1011001001001111 0 = .ok (.sqrDir 0x4f) ∧
    decodeWords Params.default 0b1011010101001110 0 = .ok (.sqraDir 0x4e .a1) ∧
    decodeWords Params.default 0b1011011011001001 0 = .ok (.sqrsDir 0xc9 .a0) ∧
    decodeWords Params.default 0b1011100001111101 0 = .ok (.addlDir 0x7d .a0) ∧
    decodeWords Params.default 0b1011101111010000 0 = .ok (.sublDir 0xd0 .a1) ∧
    decodeWords Params.default 0b1011110101010001 0 = .ok (.addhDir 0x51 .a1) ∧
    decodeWords Params.default 0b1011111110101111 0 = .ok (.subhDir 0xaf .a1) := by
  decide +kernel

/-- Words of the alu long rows, bit by bit from the patterns of 30_encoding R116. -/
theorem test_decode_alu_long :
    decodeWords Params.default 0b1000110001010100 0x7AAF = .ok (.mpyIndLong 4 .dec 0x7AAF) ∧
    decodeWords Params.default 0b1000111001001011 0x8F27 = .ok (.macIndLong 3 .inc 0x8F27 .a0) ∧
    decodeWords Params.default 0b1001000001000010 0x3B71 = .ok (.msuIndLong 2 .keep 0x3B71 .a0) ∧
    decodeWords Params.default 0b1000000011000000 0x0F09 = .ok (.addLong 0x0F09 .a0) ∧
    decodeWords Params.default 0b1000001111111111 0x32DF = .ok (.subLong 0x32DF .a1) ∧
    decodeWords Params.default 0b1000010011111111 0x64E9 = .ok (.orLong 0x64E9 .a0) ∧
    decodeWords Params.default 0b1000011111111111 0x055B = .ok (.xorLong 0x055B .a1) ∧
    decodeWords Params.default 0b1000100011000000 0xF26F = .ok (.andLong 0xF26F .a0) ∧
    decodeWords Params.default 0b1000101111000000 0x085D = .ok (.cmpLong 0x085D .a1) := by
  decide +kernel

/-- Words of the alu pair rows, bit by bit from the patterns of 30_encoding R116. -/
theorem test_decode_alu_pair :
    decodeWords Params.default 0b1100110000001111 0 = .ok (.mpyPair 1 .keep 3 .inc) ∧
    decodeWords Params.default 0b1100111101000111 0 = .ok (.macPair 1 .dec 3 .keep .a1) ∧
    decodeWords Params.default 0b1101000100100010 0 = .ok (.msuPair 0 .inc 2 .keep .a1) := by
  decide +kernel

/-- Words of the alu short rows, bit by bit from the patterns of 30_encoding R116. -/
theorem test_decode_alu_short :
    decodeWords Params.default 0b1110000110010100 0 = .ok (.addImm 0x94 .a1) ∧
    decodeWords Params.default 0b1110001010100000 0 = .ok (.subImm 0xa0 .a0) ∧
    decodeWords Params.default 0b1110010001110000 0 = .ok (.orImm 0x70 .a0) ∧
    decodeWords Params.default 0b1110011110011011 0 = .ok (.xorImm 0x9b .a1) ∧
    decodeWords Params.default 0b1110100110111001 0 = .ok (.andImm 0xb9 .a1) ∧
    decodeWords Params.default 0b1110101101100010 0 = .ok (.cmpImm 0x62 .a1) ∧
    decodeWords Params.default 0b1110110010110000 0 = .ok (.mpys 0xb0) := by
  decide +kernel
/-- What does not decode: register code 31, and NNN = 6, 7 outside the `Rn*` rows (30_encoding R127). -/
theorem test_decode_errors :
    decodeWords Params.default 0b1000000000011111 0 = .error .registerCode31 ∧
    decodeWords Params.default 0b1000000010000110 0 = .error .addressRegister67 ∧
    decodeWords Params.default 0b0000111000000111 0 = .error .addressRegister67 ∧
    decode Params.default [0x07] = .error .truncated ∧ decode Params.default [0xC0, 0x81, 0xFF] = .error .truncated := by
  decide +kernel

/-- The first and the last word of ranges marked "unused" in the opcode table. -/
theorem test_decode_unused :
    [0x0300, 0x03FF, 0x0A00, 0x0BFF, 0x3A00, 0x3BFF, 0x3E00, 0x3FFF, 0x4400, 0x47FF, 0x5E00, 0x5FFF, 0x18D0,
      0x1FFF, 0x8040, 0x8A7F, 0x92C0, 0x9FFF, 0xC000, 0xCBFF, 0xCC80, 0xD200, 0xDFFF, 0xEE00, 0xFFFF].all
      (fun w => decodeWords Params.default w 0 = .ok (.unused w)) = true := by decide +kernel

/-- The table's numbering: the second word is bits 31 to 16, and bits above nbits are 0. -/
theorem test_table_word :
    decodeTableWord 32 0xFFFF81C0 = some (.addLong 0xFFFF .a1) ∧ decodeTableWord 16 0x81C0 = some (.addLong 0 .a1) ∧
    decodeTableWord 16 0x801F = none := by decide +kernel

/-- The bytes of a two-word instruction, low byte first. -/
theorem test_decode_bytes :
    decode Params.default [0xC0, 0x81, 0x34, 0x12, 0x55] = .ok (.addLong 0x1234 .a1, [0x55]) ∧
    encodeBytes Params.default (.addLong 0x1234 .a1) = [0xC0, 0x81, 0x34, 0x12] := by decide +kernel

/-- `withFetchWord` makes the next step run the word. -/
theorem test_withFetchWord :
    (nextOf (step (State.reset.withFetchWord 16 0xE001))).map (fun s => (s.a0, s.pc)) = some (1, 1) ∧
    (nextOf (step (State.reset.withFetchWord 32 0x020081C0))).map (fun s => (s.a1, s.pc)) = some (0x200, 2) := by
  decide +kernel

/-! One step of one instruction. The states and results are vectors of 95_test_vectors part B, named in
each comment. -/

/-- B1 1, 2: the short immediate is unsigned, the long one signed. -/
theorem test_add_immediates :
    (ran 0xE0FF 0 { at100 with a0 := 0x3E9 }).map (fun s => (s.a0, flags s)) = some (0x4E8, 0) ∧
    (ran 0x81C0 0xFFFF { at100 with a1 := 0x20 }).map (fun s => (s.a1, flags s, s.pc)) =
      some (0x1F, 0b00001000, 0x102) := by decide +kernel

/-- B1 3, 6: overflow without and with a carry. -/
theorem test_add_overflow :
    (ran 0x8007 0 ((setR 1 1 at100).setAcc .a0 0x7FFFFFFFF)).map (fun s => (s.a0, flags s)) =
      some (0x800000000, 0b01010110) ∧
    (ran 0x8007 0 ((setR 1 0xFFFF at100).setAcc .a0 0x800000000)).map (fun s => (s.a0, flags s)) =
      some (0x7FFFFFFFF, 0b00011110) := by decide +kernel

/-- B1 9, 10: a source half is limited while SAT = 0 and L stays 0. -/
theorem test_add_limited_source :
    (ran 0x8003 0 { at100 with a1 := 0x80000000 }).map (fun s => (s.a0, flags s)) = some (0x7FFF, 0) ∧
    (ran 0x8003 0 { at100 with a1 := 0x80000000, st0 := { at100.st0 with sat := true } }).map
      (fun s => (s.a0, flags s)) = some (0xFFFFF8000, 0b01000000) := by decide +kernel

/-- B1 11, 12, 13: shifted p, for SP = 0, 1, 2; 14: SP = 3. -/
theorem test_add_shifted_p :
    (ran 0x800E 0 { at100 with p := 0xFFFFFFFA, a0 := 0xA }).map (fun s => (s.a0, flags s)) = some (4, 0b00001000) ∧
    (ran 0x800E 0 { at100 with p := 0xFFFFFFFA, st1 := ⟨1, 0⟩ }).map (fun s => (s.a0, flags s)) =
      some (0xFFFFFFFFD, 0b01000000) ∧
    (ran 0x800E 0 { at100 with p := 0x40000000, st1 := ⟨2, 0⟩ }).map (fun s => (s.a0, flags s)) =
      some (0x80000000, 0b00000100) ∧
    refusalOf (step (put 0x800E 0 { at100 with st1 := ⟨3, 0⟩ })) = some .spReserved := by decide +kernel

/-- B1 15, 16: indirect with a step, and direct on page 3. -/
theorem test_add_memory :
    (ran 0x8099 0 { dataAt 0x20 0x8000 (setR 1 0x20 at100) with cfgi := 3 }).map
      (fun s => (s.a0, s.addr 1, flags s)) = some (0xFFFFF8000, 0x23, 0b01000000) ∧
    (ran 0xA102 0 { dataAt 0x302 5 at100 with st1 := ⟨0, 3⟩, a1 := 0xFFFFFFFFB }).map
      (fun s => (s.a1, flags s)) = some (0, 0b10101000) := by decide +kernel

/-- B1 17, 18: borrow, and overflow. -/
theorem test_sub :
    (ran 0x820C 0 { at100 with a0 := 5, x := 7 }).map (fun s => (s.a0, flags s)) = some (0xFFFFFFFFE, 0b01001000) ∧
    (ran 0x820C 0 { at100 with a0 := 0x800000000, x := 1 }).map (fun s => (s.a0, flags s)) =
      some (0x7FFFFFFFF, 0b00010110) := by decide +kernel

/-- B1 21, 22: the accumulator stays; tos as a source pops. -/
theorem test_cmp :
    (ran 0xEB05 0 { at100 with a1 := 4 }).map (fun s => (s.a1, flags s)) = some (4, 0b01001000) ∧
    (ran 0x8A11 0 { at100 with a0 := 3, stk := levels [3, 9] }).map (fun s => (s.a0, s.stk.map Slot.value, flags s)) =
      some (3, [9], 0b10100000) := by decide +kernel

/-- B2 1, 2. -/
theorem test_or :
    (ran 0x84C0 0x8000 { at100 with a0 := 0xF00000001 }).map (fun s => (s.a0, flags s)) =
      some (0xF00008001, 0b01000100) ∧
    (ran 0x8401 0 { at100 with a0 := 0xF0, a1 := 0x800000001 }).map (fun s => (s.a0, flags s)) =
      some (0x8000000F1, 0b01000100) := by decide +kernel

/-- B2 3, 5: bits 15:8 stay under the short immediate, and the flags see the low byte. -/
theorem test_and :
    (ran 0xE80F 0 { at100 with a0 := 0x0123456F0 }).map (fun s => (s.a0, flags s)) = some (0x5600, 0b10100000) ∧
    (ran 0x88C0 0xFF00 { at100 with a0 := 0xF123456F5 }).map (fun s => (s.a0, flags s)) = some (0x5600, 0) := by
  decide +kernel

/-- B2 8, 9. -/
theorem test_xor :
    (ran 0xE6FF 0 { at100 with a0 := 0xFF }).map (fun s => (s.a0, flags s)) = some (0, 0b10100000) ∧
    (ran 0x860D 0 { at100 with a0 := 0x800000000, y := 0xFFFF }).map (fun s => (s.a0, flags s)) =
      some (0x80000FFFF, 0b01000100) := by decide +kernel

/-- B3 1, 2. -/
theorem test_addl_subl :
    (ran 0x9888 0 { dataAt 0x40 0xFFFF (setR 0 0x40 at100) with a0 := 1 }).map
      (fun s => (s.a0, s.addr 0, flags s)) = some (0x10000, 0x41, 0) ∧
    (ran 0x9B0D 0 { at100 with y := 0xFFFF }).map (fun s => (s.a1, flags s)) = some (0xFFFFF0001, 0b01001000) := by
  decide +kernel

/-- B3 4, 5. -/
theorem test_addh_subh :
    (ran 0xBC10 0 { dataAt 0x10 0x7FFF at100 with a0 := 0x780010000 }).map (fun s => (s.a0, flags s)) =
      some (0x800000000, 0b01010110) ∧
    (ran 0x9E08 0 { setR 2 1 at100 with a0 := 5 }).map (fun s => (s.a0, flags s)) =
      some (0xFFFFF0005, 0b01001000) := by decide +kernel

/-- The start state of B4's table. -/
def moda (v : Accum) : State :=
  { at100 with a0 := v, a1 := 0x011112222, p := 0x00018000, st0 := { at100.st0 with c := true } }

/-- B4, columns 1 and 4: shr and shr4. -/
theorem test_shr_shr4 :
    [0x1800, 0x1820].map (fun w => (ran w 0 (moda 0x800000001)).map fun s => (s.a0, flags s)) =
      [some (0xC00000000, 0b01001100), some (0xF80000000, 0b01100000)] ∧
    [0x1800, 0x1820].map (fun w => (ran w 0 (moda 0x0C0000000)).map fun s => (s.a0, flags s)) =
      [some (0x060000000, 0b00100000), some (0x00C000000, 0)] := by decide +kernel

/-- B4, columns 1 and 2: shl and shl4. -/
theorem test_shl_shl4 :
    [0x1810, 0x1830].map (fun w => (ran w 0 (moda 0x800000001)).map fun s => (s.a0, flags s)) =
      [some (0x000000002, 0b00011000), some (0x000000010, 0b00010000)] ∧
    [0x1810, 0x1830].map (fun w => (ran w 0 (moda 0x340000005)).map fun s => (s.a0, flags s)) =
      [some (0x68000000A, 0b00000100), some (0x400000050, 0b00011100)] := by decide +kernel

/-- B4, column 2, and 9 of the vectors after it: ror, rol; shl4 without L. -/
theorem test_ror_rol :
    [0x1840, 0x1850].map (fun w => (ran w 0 (moda 0x340000005)).map fun s => (s.a0, flags s)) =
      [some (0x9A0000002, 0b01001100), some (0x68000000B, 0b00000100)] ∧
    (ran 0x1830 0 { at100 with a0 := 0x040000000 }).map (fun s => (s.a0, flags s)) =
      some (0x400000000, 0b00010100) := by decide +kernel

/-- B4, column 3: not, neg, clr, copy. -/
theorem test_not_neg_clr_copy :
    [0x1860, 0x1870, 0x1880, 0x1890].map (fun w => (ran w 0 (moda 0x00000FFFF)).map fun s => (s.a0, flags s)) =
      [some (0xFFFFF0000, 0b01001000), some (0xFFFFF0001, 0b01001000), some (0, 0b10101000),
        some (0x011112222, 0b00001000)] := by decide +kernel

/-- B4, column 2: rnd, pacr, clrr; and 4, 7 of the vectors after the table. -/
theorem test_rnd_pacr_clrr :
    [0x18A0, 0x18B0, 0x18C0].map (fun w => (ran w 0 (moda 0x340000005)).map fun s => (s.a0, flags s)) =
      [some (0x340008005, 0b00000100), some (0x000020000, 0), some (0x8000, 0b00001000)] ∧
    (ran 0x1870 0 { at100 with a0 := 0x800000000 }).map (fun s => (s.a0, flags s)) =
      some (0x800000000, 0b01011110) ∧
    (ran 0x18A0 0 { at100 with a0 := 0x7FFFF8000 }).map (fun s => (s.a0, flags s)) =
      some (0x800000000, 0b01010110) := by decide +kernel

/-- B4, 1 and 2 after the table: the condition. -/
theorem test_moda_condition :
    (ran 0x1901 0 { at100 with a1 := 4 }).map (fun s => (s.a1, flags s, s.pc)) = some (4, 0, 0x101) ∧
    (ran 0x1901 0 { at100 with a1 := 4, st0 := { at100.st0 with z := true } }).map (fun s => (s.a1, flags s)) =
      some (2, 0) := by decide +kernel

/-- B4 norm 2, 3, 4. -/
theorem test_norm :
    (ran 0x0C08 0 { at100 with a0 := 0x4000, st0 := { at100.st0 with n := true } }).map
      (fun s => (s.a0, s.addr 0)) = some (0x4000, 0) ∧
    (ran 0x0C10 0 { setR 0 1 at100 with a0 := 0x020000000 }).map (fun s => (s.a0, s.addr 0, flags s)) =
      some (0x040000000, 0, 0b00100001) ∧
    (ran 0x0C08 0 { setR 0 5 at100 with a0 := 0x400000000 }).map (fun s => (s.a0, s.addr 0, flags s)) =
      some (0x800000000, 6, 0b01010110) := by decide +kernel

/-- B5: steps 1 and 15 of 7 / 2, and the refused divisor. V, C, L, R stay. -/
theorem test_divs :
    (ran 0x3C05 0 { dataAt 5 2 at100 with a0 := 7 }).map (fun s => (s.a0, s.st0.v, s.st0.c, s.st0.l, s.st0.r)) =
      some (0xE, false, false, false, false) ∧
    (ran 0x3C05 0 { dataAt 5 2 at100 with a0 := 0x1C000 }).map (fun s => s.a0) = some 0x18001 ∧
    refusalOf (step (put 0x3C05 0 (dataAt 5 0x8000 at100))) = some .divisorNotPositive := by decide +kernel

/-- B6 1, 2. -/
theorem test_mpy :
    (ran 0x8C8A 0 { dataAt 0x30 0xFFFD (setR 2 0x30 at100) with y := 2 }).map
      (fun s => (s.x, s.p, s.addr 2)) = some (0xFFFD, 0xFFFFFFFA, 0x31) ∧
    (ran 0x8C40 0x1234 (dataAt 0x40 2 (setR 0 0x40 at100))).map (fun s => (s.y, s.x, s.p, s.pc)) =
      some (2, 0x1234, 0x2468, 0x102) := by decide +kernel

/-- B6 3, 4: -32768 squared, and an address outside the Y space. -/
theorem test_mpy_pair :
    (ran 0xCC28 0 (dataAt 0xFF00 0x8000 (dataAt 0 0x8000 (setR 4 0xFF00 at100)))).map
      (fun s => (s.y, s.x, s.p, s.addr 4, s.addr 0)) = some (0x8000, 0x8000, 0x40000000, 0xFF01, 1) ∧
    refusalOf (step (put 0xCC00 0 (setR 4 0x100 at100))) = some .pairOutsideSpaces := by decide +kernel

/-- B6 8, 9: the old product is accumulated. -/
theorem test_mac :
    (ran 0xCE28 0 { dataAt 0xFF00 3 (dataAt 0x10 4 (setR 4 0xFF00 (setR 0 0x10 at100))) with
        a0 := 0xA, p := 6 }).map (fun s => (s.a0, s.y, s.x, s.p)) = some (0x10, 3, 4, 0xC) ∧
    (ran 0xAE10 0 { dataAt 0x10 0x7FFF at100 with st1 := ⟨1, 0⟩, p := 0xFFFFFFFB, y := 0x7FFF }).map
      (fun s => (s.a0, s.x, s.p, flags s)) = some (0xFFFFFFFFD, 0x7FFF, 0x3FFF0001, 0b01000000) := by decide +kernel

/-- B6 11. -/
theorem test_msu :
    (ran 0xD15D 0 { dataAt 0xFFFF 2 (dataAt 0x10 0xFFFF (setR 5 0xFFFF (setR 1 0x10 at100))) with
        p := 1, cfgi := 0x7E }).map (fun s => (s.a1, s.y, s.x, s.p, s.addr 5, s.addr 1, flags s)) =
      some (0xFFFFFFFFF, 2, 0xFFFF, 0xFFFFFFFE, 0xFFFE, 0xE, 0b01001000) := by decide +kernel

/-- B6 12 with bit 8 clear and set. -/
theorem test_mpys :
    [0xECFE, 0xEDFE].map (fun w => (ran w 0 { at100 with y := 3 }).map fun s => (s.x, s.p)) =
      [some (0xFFFE, 0xFFFFFFFA), some (0xFFFE, 0xFFFFFFFA)] := by decide +kernel

/-- B6 13, 14, 15. -/
theorem test_sqr_sqra_sqrs :
    (ran 0x9288 0 (dataAt 0x40 0x8000 (setR 0 0x40 at100))).map (fun s => (s.x, s.y, s.p, s.addr 0)) =
      some (0x8000, 0x8000, 0x40000000, 0x41) ∧
    (ran 0x9509 0 { setR 3 0xFFFF at100 with a1 := 1, p := 0x10 }).map (fun s => (s.a1, s.x, s.y, s.p)) =
      some (0x11, 0xFFFF, 0xFFFF, 1) ∧
    (ran 0xB620 0 { dataAt 0x20 4 at100 with p := 1 }).map (fun s => (s.a0, s.x, s.y, s.p, flags s)) =
      some (0xFFFFFFFFF, 4, 4, 0x10, 0b01001000) := by decide +kernel

/-- B7 1, 3: 36-bit moves. -/
theorem test_mov_wide :
    (ran 0x5820 0 { at100 with a0 := 0x800000001 }).map (fun s => (s.a1, flags s)) =
      some (0x800000001, 0b01000100) ∧
    (ran 0x580E 0 { at100 with p := 0x80000000, st1 := ⟨2, 0⟩ }).map (fun s => (s.a0, flags s)) =
      some (0xF00000000, 0b01000100) := by decide +kernel

/-- B7 5, 7: limited reads set L. -/
theorem test_mov_limited :
    (ran 0x58C3 0 { at100 with a1 := 0x080000000 }).map (fun s => (s.addr 0, flags s)) = some (0x7FFF, 0b00000010) ∧
    (ran 0x58C5 0 { at100 with a1 := 0xF7FFFFFFF }).map (fun s => (s.addr 0, flags s)) = some (0, 0b00000010) := by
  decide +kernel

/-- B7 9, 10, 13: aXh, aXl, ph as destinations. -/
theorem test_mov_to_parts :
    (ran 0x5846 0 (setR 0 0x8001 at100)).map (fun s => (s.a0, flags s)) = some (0xF80010000, 0b01100000) ∧
    (ran 0x5886 0 (setR 0 0x8001 { at100 with a0 := 0xFFFFFFFFF })).map (fun s => (s.a0, flags s)) =
      some (0x8001, 0) ∧
    (ran 0x59CC 0 { at100 with x := 0xABCD, p := 0x11112222 }).map (fun s => s.p) = some 0xABCD2222 := by
  decide +kernel

/-- B7 15, 16, 17: the status registers as destinations. -/
theorem test_mov_to_status :
    (ran 0x5C12 0x0FA5 at100).map (fun s => s.st0) =
      some ⟨true, true, true, true, true, false, true, false, false, true, false, true⟩ ∧
    (ran 0x5C13 0x0C05 at100).map (fun s => s.st1) = some ⟨3, 5⟩ ∧
    (ran 0x5C14 0x033F at100).map (fun s => s.st2) = some ⟨false, false, true, true, 0x3F⟩ := by decide +kernel

/-- B7 19, 20, 21, 22: tos and pc. -/
theorem test_mov_tos_pc :
    (ran 0x5A26 0 { setR 0 0x1234 at100 with stk := levels [1] }).map (fun s => s.stk.map Slot.value) = some [0x1234, 1] ∧
    (ran 0x58D1 0 { at100 with stk := levels [0xAAAA, 0xBBBB] }).map (fun s => (s.addr 0, s.stk.map Slot.value)) =
      some (0xAAAA, [0xBBBB]) ∧
    faultOf (step (put 0x58D1 0 at100)) = some .stackUnderflow ∧
    (ran 0x58CF 0 at100).map (fun s => s.addr 0) = some 0x101 := by decide +kernel

/-- B7 23, 24, 26, 27: immediates. -/
theorem test_mov_immediates :
    (ran 0x7CC8 0 { at100 with a0 := 0xFFFFFFFFF }).map (fun s => (s.a0, flags s)) = some (0xC8, 0) ∧
    (ran 0x7FFF 0 at100).map (fun s => (s.a1, flags s)) = some (0xFFFFF0000, 0b01000000) ∧
    (ran 0x52FD 0 at100).map (fun s => (s.addr 2, flags s)) = some (0xFFFD, 0) ∧
    (ran 0x5780 0 at100).map (fun s => s.x) = some 0xFF80 := by decide +kernel

/-- B8 1, 2, 4: indirect stores and loads. -/
theorem test_mov_indirect :
    (ran 0x4989 0 { setR 1 0x80 at100 with x := 0xBEEF }).map (fun s => (heldWord 0x80 s, s.addr 1)) =
      some (0xBEEF, 0x81) ∧
    (ran 0x4DB2 0 (dataAt 0x90 7 (setR 2 0x90 at100))).map (fun s => (s.y, s.addr 2)) = some (7, 0x8F) ∧
    (ran 0x4D02 0 (dataAt 0x90 7 (setR 2 0x90 at100))).map (fun s => s.addr 2) = some 7 := by decide +kernel

/-- B8 5, 6, 7: direct stores. -/
theorem test_mov_store_direct :
    (ran 0x7B20 0 { at100 with a1 := 0x080000000 }).map (fun s => (heldWord 0x20 s, flags s)) =
      some (0x7FFF, 0b00000010) ∧
    (ran 0x7810 0 { at100 with a0 := 0x012345678, st1 := ⟨0, 2⟩ }).map (heldWord 0x210) = some 0x5678 ∧
    (ran 0x6B05 0 { setR 3 0x1111 at100 with st1 := ⟨0, 1⟩ }).map (heldWord 0x105) = some 0x1111 := by decide +kernel

/-- B8 9, 11, 12, 13: direct loads. -/
theorem test_mov_load_direct :
    (ran 0x7305 0 { dataAt 0x105 0x4444 at100 with st1 := ⟨0, 1⟩ }).map (fun s => s.addr 3) = some 0x4444 ∧
    (ran 0x6007 0 (dataAt 7 0x8000 at100)).map (fun s => (s.a0, flags s)) = some (0xFFFFF8000, 0b01000000) ∧
    (ran 0x6307 0 (dataAt 7 0x8000 at100)).map (fun s => (s.a1, flags s)) = some (0xF80000000, 0b01100000) ∧
    (ran 0x6407 0 { dataAt 7 0x8000 at100 with a0 := 0xFFFFFFFFF }).map (fun s => (s.a0, flags s)) =
      some (0x8000, 0) := by decide +kernel

/-- B8 14: eu keeps the extension, and the flags are those of the plain move. -/
theorem test_mov_eu :
    (ran 0x6607 0 { dataAt 7 0x8000 at100 with a0 := 0x311112222 }).map (fun s => (s.a0, flags s)) =
      some (0x380000000, 0b01100000) := by decide +kernel

/-- B8 16, 18, 19: movp. -/
theorem test_movp :
    (ran 0x4007 0 { pokeProg 0x200 0xCAFE at100 with a0 := 0x200 }).map (fun s => s.addr 1) = some 0xCAFE ∧
    refusalOf (step (put 0x4007 0 { at100 with a0 := 0x080000200 })) = some .accumulatorTooWide ∧
    (ran 0x42A8 0 (setR 0 0x200 (setR 1 0x20 (pokeProg 0x200 0xCAFE at100)))).map
      (fun s => (heldWord 0x20 s, s.addr 0, s.addr 1)) = some (0xCAFE, 0x201, 0x21) := by decide +kernel

/-- B9 1, 3, 5, 7: the wrap of `(r0)+`, `(r0)+S`, `(r0)-`, and MOD = 511. -/
theorem test_modulo :
    (ran 0x0E08 0 { setR 0 0x16 at100 with cfgi := 0x0301, st2 := ⟨false, false, false, false, 1⟩ }).map
      (fun s => (s.addr 0, s.st0.r)) = some (0x10, false) ∧
    (ran 0x0E18 0 { setR 0 0x16 at100 with cfgi := 0x0302, st2 := ⟨false, false, false, false, 1⟩ }).map
      (fun s => s.addr 0) = some 0x10 ∧
    (ran 0x0E10 0 { setR 0 0x10 at100 with cfgi := 0x0301, st2 := ⟨false, false, false, false, 1⟩ }).map
      (fun s => s.addr 0) = some 0x16 ∧
    (ran 0x0E08 0 { setR 0 0x1FF at100 with cfgi := 0xFF81, st2 := ⟨false, false, false, false, 1⟩ }).map
      (fun s => (s.addr 0, s.st0.r)) = some (0, false) := by decide +kernel

/-- B10 1, 2, 3, 7: br and brr. -/
theorem test_branches :
    (ran 0x3201 0x200 { at100 with st0 := { at100.st0 with z := true } }).map (fun s => s.pc) = some 0x200 ∧
    (ran 0x3201 0x200 at100).map (fun s => s.pc) = some 0x102 ∧
    (ran 0x2FE7 0 at100).map (fun s => s.pc) = some 0xFF ∧
    (ran 0x2C00 0 State.reset).map (fun s => s.pc) = some 0xFFC1 := by decide +kernel

/-- B10 10, 12, 13, 18: call, callr, calla. -/
theorem test_calls :
    (ran 0x3000 0x200 at100).map (fun s => (s.pc, s.stk.map Slot.value)) = some (0x200, [0x102]) ∧
    (ran 0x2051 0 { at100 with st0 := { at100.st0 with z := true } }).map (fun s => (s.pc, s.stk.map Slot.value)) =
      some (0x106, [0x101]) ∧
    (ran 0x3800 0 { at100 with a0 := 0xFFFFF0345 }).map (fun s => (s.pc, s.stk.map Slot.value)) = some (0x345, [0x101]) ∧
    faultOf (step (put 0x3000 0x200 { at100 with stk := levels (List.replicate 16 0) })) = some .stackOverflow := by
  decide +kernel

/-- B10 15, 17, 19, 21: ret and reti. -/
theorem test_returns :
    (ran 0x3400 0 { at100 with stk := levels [0x222, 0x333] }).map (fun s => (s.pc, s.stk.map Slot.value)) = some (0x222, [0x333]) ∧
    faultOf (step (put 0x3400 0 at100)) = some .stackUnderflow ∧
    (ran 0x3600 0 { at100 with stk := levels [0x222] }).map (fun s => (s.pc, s.st0.ie)) = some (0x222, true) ∧
    (ran 0x3600 0 { at100 with stk := levels [0x222], inTrap := true, inBpi := true }).map
      (fun s => (s.inTrap, s.inBpi, s.st0.ie)) = some (true, false, false) := by decide +kernel

/-- B11 1: rep, the first execution and the last. -/
theorem test_rep :
    (ran 0x1003 0 at100).map (fun s => (s.repCnt, s.repArmed, s.pc)) = some (3, true, 0x101) ∧
    (ran 0xE001 0 { at100 with repCnt := 3, repArmed := true }).map
      (fun s => (s.a0, s.repCnt, s.repActive, s.pc)) = some (1, 2, true, 0x100) ∧
    (ran 0xE001 0 { at100 with repCnt := 0, repActive := true }).map (fun s => (s.repActive, s.pc)) =
      some (false, 0x101) ∧
    (ran 0x1206 0 (setR 0 0x1FF at100)).map (fun s => s.repCnt) = some 0xFF := by decide +kernel

/-- B12 2, 3, 4, 5, 7, and 1 with don't-care bits set. -/
theorem test_control :
    (ran 0x01FF 0 at100).map (fun s => s.pc) = some 0x101 ∧
    (ran 0x0E10 0 (setR 0 1 at100)).map (fun s => (s.addr 0, s.st0.r)) = some (0, true) ∧
    (ran 0x0400 0 at100).map (fun s => s.st0.ie) = some true ∧
    (ran 0x0600 0 { at100 with st0 := { at100.st0 with ie := true } }).map (fun s => (s.st0.ie, s.holdOff)) =
      some (false, true) ∧
    (ran 0x0200 0 { at100 with st0 := { at100.st0 with ie := true } }).map
      (fun s => (s.pc, s.stk.map Slot.value, s.inTrap, s.st0.ie)) = some (0xA, [0x101], true, true) ∧
    (ran 0x08FF 0 { at100 with st1 := ⟨2, 0⟩ }).map (fun s => s.st1) = some ⟨2, 0xFF⟩ := by decide +kernel

/-- B13 1, 5: bkrep sets the loop up; its last word sends pc back, or ends the loop. -/
theorem test_bkrep :
    (ran 0x1607 0x102 (setR 1 0x1203 at100)).map (fun s => (s.lc, s.bkStart, s.bkEnd, s.st2.lp)) =
      some (0x1203, 0x102, 0x102, true) ∧
    (ran 0xE002 0 { at100 with st2 := ⟨false, true, false, false, 0⟩, lc := 0x1202, bkStart := 0x90, bkEnd := 0x100 }).map
      (fun s => (s.pc, s.lc, s.st2.lp)) = some (0x90, 0x1201, true) ∧
    (ran 0xE002 0 { at100 with st2 := ⟨false, true, false, false, 0⟩, lc := 0x1200, bkStart := 0x90, bkEnd := 0x100 }).map
      (fun s => (s.pc, s.lc, s.st2.lp)) = some (0x101, 0x12FF, false) := by decide +kernel

/-- 43_loop R269: in a live loop, jumps to its last address and to a two-word last instruction, and a branch as
the last instruction. -/
theorem test_loop_end_rules :
    refusalOf (exec (.br 0x100 .always) (looped 1)) = some .jumpToLoopEnd ∧
    refusalOf (exec (.br 0xFF .always) (pokeProg 0xFF 0x81C0 (looped 1))) = some .jumpToLoopEnd ∧
    refusalOf (step (put 0x2FF0 0 { looped 1 with pc := 0x100 })) = some .loopEndRestricted := by decide +kernel

/-- The pins, with only those raised that f raises. -/
def pinned (f : Pins → Pins) (s : State) : State := { s with inputs := [⟨f Pins.low, [], []⟩] }

/-- B15 1, 2, 4, and reset of B16. -/
theorem test_interrupts :
    (nextOf (step (pinned (fun p => { p with int0 := true, int1 := true })
        { at100 with st0 := { at100.st0 with ie := true, im0 := true, im1 := true } }))).map
      (fun s => (s.pc, s.stk.map Slot.value, s.st0.ie, s.st0.im0, s.iack)) = some (0xC, [0x100], false, true, true) ∧
    (nextOf (step (pinned (fun p => { p with int0 := true, int1 := true })
        { at100 with st0 := { at100.st0 with ie := true, im1 := true } }))).map (fun s => s.pc) = some 0xE ∧
    (nextOf (step (pinned (fun p => { p with bpi := true }) at100))).map (fun s => (s.pc, s.stk.map Slot.value, s.inBpi)) =
      some (8, [0x100], true) ∧
    (nextOf (step (pinned (fun p => { p with reset := true }) { at100 with stk := levels [1, 2], st1 := ⟨2, 0x42⟩ }))).map
      (fun s => (s.pc, s.stk.map Slot.value, s.st1)) = some (0, [], ⟨0, 0x42⟩) := by decide +kernel

/-- B7 18: the pins and the stored bits in st2, whatever its bits 7 and 6 are. -/
theorem test_st2_word :
    ∀ f : BitVec 2, (St2.toWord ⟨false, false, true, false, 8⟩ { Pins.low with int1 := true, iuser0 := true } false f)
      = 0x8608 ||| (f.setWidth 16 <<< 6) := by decide

/-- B12 8, B4 11, and the two refused fields: words that the model must not execute. -/
theorem test_refused_words :
    [0x0300, 0x18D0, 0x18F0, 0x801F, 0x8086, 0x8087].map (fun w => refusalOf (step (put w 0 at100))) =
      [some .unusedOpcode, some .unusedOpcode, some .unusedOpcode, some .registerCode31,
        some .addressRegister67, some .addressRegister67] := by decide +kernel

/-- A read of a Device address is what the environment answers, not the last value written; the program space has devices
too; ROM keeps its word; an Absent address has none to fetch (20_memory R86, R100). -/
def deviceMap : Params :=
  { Params.default with progSpans := [⟨0x8000, 0x8001, .device⟩, ⟨0x9000, 0x9000, .absent⟩], commonRom := some 0x2000 }

theorem test_devices :
    (nextOf (step { put 0x4C41 0 { setR 1 0xE000 at100 with params := deviceMap } with
        inputs := [⟨Pins.low, [], [⟨.prog, 0xE000, 1⟩, ⟨.data, 0xE000, 0x77⟩]⟩] })).map
      (fun s => (s.a0, s.answers, s.bus)) =
      some (0x770000, [⟨.prog, 0xE000, 1⟩], [.read .data 0xE000 0x77]) ∧
    (ran 0x4981 0 { setR 1 0xE000 at100 with x := 5 }).map (fun s => (s.bus, s.mem.readWord 0xE000)) =
      some ([.write 0xE000 5], 0) := by decide +kernel

theorem test_program_devices :
    (nextOf (step { at100 with
        pc := 0x8000, params := deviceMap
        inputs := [⟨Pins.low, [], [⟨.prog, 0x8000, 0x81C0⟩, ⟨.prog, 0x8001, 7⟩]⟩] })).map
      (fun s => (s.a1, s.pc, s.answers)) = some (7, 0x8002, []) ∧
    refusalOf (step { at100 with pc := 0x9000, params := deviceMap }) = some .fetchAbsent ∧
    (nextOf (step (State.withFetchWord { at100 with pc := 0x8000, params := deviceMap } 32 0x000781C0))).map
      (fun s => (s.a1, s.pc)) = some (7, 0x8002) := by decide +kernel

theorem test_common_rom :
    [0x1FFF, 0x2000, 0x27FF, 0x2800].map (fun a => (ran 0x4981 0 { setR 1 a at100 with x := 5, params := deviceMap }).map
      fun s => (heldWord a s, progWord a s)) = [some (5, 5), some (0, 0), some (0, 0), some (5, 5)] := by
  decide +kernel

/-- Another code table (30_encoding R118): codes 6 and 31 exchanged, r0 at 31. -/
def otherCodes : Params := { Params.default with regCode := (defaultRegCode.set 31 (some (.r 0))).set 6 none }

theorem test_other_codes :
    otherCodes.wf = true ∧ decodeWords otherCodes 0x801F 0 = .ok (.addReg (.r 0) .a0) ∧
    decodeWords otherCodes 0x8006 0 = .error .registerCode31 ∧ encodeFirst otherCodes (.addReg (.r 0) .a0) = 0x801F ∧
    Params.default.wf = true ∧ (Params.withRoms 0x2000 0x0400).wf = true := by decide +kernel

/-- 43_loop R269: trap right before the last instruction of a loop at 000Ah; a return to the loop's end, by an
interrupt's level and by another. -/
theorem test_loop_end_exceptions :
    refusalOf (exec .trap { looped 1 with bkEnd := 0x000A }) = some .loopEndRestricted ∧
    (nextOf (exec .reti { looped 1 with stk := [⟨0x100, true⟩] })).map (fun s => s.pc) = some 0x100 ∧
    refusalOf (exec .reti { looped 1 with stk := [⟨0x100, false⟩, ⟨0x100, true⟩] }) = some .jumpToLoopEnd := by
  decide +kernel

/-- 43_loop R269, 92 D47: an interrupt's return address taken off tos and put back has its mark again; another address
has none. -/
theorem test_return_put_back :
    (nextOf (exec (.movRegReg .tos (.r 5)) { looped 1 with stk := [⟨0x100, true⟩] })).map
      (fun s => (s.addr 5, s.stk, s.irqTaken)) = some (0x100, [], [0x100]) ∧
    (nextOf (exec (.movRegReg (.r 5) .tos) { setR 5 0x100 (looped 1) with irqTaken := [0x100] })).map
      (fun s => (s.stk, s.irqTaken)) = some ([⟨0x100, true⟩], []) ∧
    (nextOf (exec (.movRegReg (.r 5) .tos) { setR 5 0x101 (looped 1) with irqTaken := [0x100] })).map
      (fun s => (s.stk, s.irqTaken)) = some ([⟨0x101, false⟩], [0x100]) := by decide +kernel

/-- 43_loop R269, R271 before words of a Device: the coming answer says whether the next instruction is the last one; and
the rule on the last two after a clear of LP (R270). -/
theorem test_last_two_ahead :
    (let s := fun w => { looped 7 with
       pc := 0x8000, bkEnd := 0x8001, params := deviceMap, inputs := [⟨Pins.low, [], [⟨.prog, 0x8000, w⟩]⟩] }
     sequenceRefusal (.brr 5 .eq) (s 0) = none ∧ (readLc (s 0)).1 = 7 ∧
     sequenceRefusal (.brr 5 .eq) (s 0x81C0) = some .loopEndRestricted) ∧
    sequenceRefusal (.brr 5 .eq) { cleared 1 with pc := 0x100 } = none ∧
    sequenceRefusal (.brr 5 .eq) (cleared 1) = some .loopEndRestricted ∧
    sequenceRefusal (.brr 5 .eq) (cleared 0) = none := by decide +kernel

/-! Witnesses: a concrete state and operands for the hypotheses of every statement that has some, each clause
at a boundary. -/

theorem next_of_isSome {o : Out} (h : (nextOf o).isSome = true) : ∃ t, o = .next t := by
  cases o with
  | next t => exact ⟨t, rfl⟩
  | fault e => cases h
  | refused e => cases h

theorem fault_of_some {o : Out} {e : Fault} (h : faultOf o = some e) : o = .fault e := by
  cases o with
  | next t => cases h
  | fault f => exact congrArg Host.Outcome.fault (Option.some.inj h)
  | refused f => cases h

theorem witness_DecodeOfEncode :
    Params.default.wf = true ∧ otherCodes.wf = true ∧
    (∀ w, Instr.unused 0x0300 = .unused w → isUnusedWord Params.default w = true) ∧
    (∀ w, Instr.unused 0xFFFF = .unused w → isUnusedWord Params.default w = true) ∧
    ∀ w, Instr.addLong 0xFFFF .a1 = .unused w → isUnusedWord otherCodes w = true := by
  refine ⟨by decide +kernel, by decide +kernel, ?_, ?_, ?_⟩ <;> intro w h <;> cases h <;> decide +kernel

theorem witness_SecondWordTaken :
    decodeWords Params.default 0x8007 0xFFFF = .ok (.addReg (.r 1) .a0) ∧ isTwoWord 0x8007 = false ∧
    decodeWords Params.default 0x81C0 0xFFFF = .ok (.addLong 0xFFFF .a1) ∧
    (undecodedBits .default 0x81C0 = [0, 1, 2, 3, 4, 5] ∧
      ∀ k, k ∉ undecodedBits .default 0x81C0 → (0x81FF : Word).getLsbD k = (0x81C0 : Word).getLsbD k) := by
  refine ⟨by decide +kernel, by decide +kernel, by decide +kernel, by decide +kernel, fun k hk => ?_⟩
  by_cases h : k < 16
  · have : ∀ k < 16, k ∉ undecodedBits .default 0x81C0 → (0x81FF : Word).getLsbD k = (0x81C0 : Word).getLsbD k := by
      decide +kernel
    exact this k h hk
  · simp [BitVec.getLsbD_of_ge _ k (not_lt.1 h)]

/-- The x bits set (30_encoding R114 to R116): nop, trap, moda shr, ret, the long add; bit 8 of mpy, mpys and sqr (R132). -/
theorem test_decode_undecoded_bits :
    [0x01FF, 0x02FF, 0x1E00, 0x35F0, 0x80FF, 0x8D20, 0xED05, 0x9320].map (decodeWords Params.default · 7) =
      [.nop, .trap, .shr .a0 .always, .ret .always, .addLong 7 .a0, .mpyReg (.acc .a0), .mpys 5, .sqrReg (.acc .a0)].map
        (.ok ·) := by decide +kernel

theorem witness_UnusedRanges :
    decodeWords Params.default 0x0300 0 = .ok (.unused 0x0300) ∧
    decodeWords Params.default 0xFFFF 0 = .ok (.unused 0xFFFF) ∧
    decodeWords Params.default 0x18D0 0 = .ok (.unused 0x18D0) := by decide +kernel

/-- The next step fetches w and what follows it from plain memory. -/
def fetches (q : State) (w : Word) : Bool :=
  !q.pins.reset && !q.st2.stp && (acceptInterrupt q).isNone && q.store1.isNone && q.store2.isNone &&
    decide (progMap q.params q.pc ∉ [.device, .absent] ∧ progMap q.params (q.pc + 1) ∉ [.device, .absent] ∧
      progWord q.pc q = w ∧ q.params = Params.default)

/-- A register field of w has a code that names no register. -/
def noRegister (w : Word) : Bool := (regFields w.toNat).any fun k => Params.default.regCode[k]? == some none

/-- A word of each kind of field with the code 31, and with `NNN` = 6 and 7, where the step fetches it. -/
theorem witness_UndecodableWords :
    [(0x121F : Word), 0x161F, 0x401F, 0x4BE0, 0x581F, 0x5BE0, 0x5C1F, 0x801F].all (fun w =>
      noRegister w && fetches (sample (put w 0 at100)) w) = true ∧
    [(0x0C06 : Word), 0x0E07, 0x4206, 0x4806, 0x8C47, 0x8086].all (fun w =>
      !noRegister w && (addrFields w.toNat).any (fun k => 6 ≤ k) && fetches (sample (put w 0 at100)) w) = true := by
  decide +kernel

/-- Both lengths; the last two words of the address space as well; and what the fetch gives. -/
theorem witness_StepRunsDecoded :
    [(put 0x81C0 0xFFFF at100, Instr.addLong 0xFFFF .a1, (2 : Word)), (put 0x0000 0 at100, .nop, 1),
        (put 0x81C0 0xFFFF { at100 with pc := 0xFFFE }, .addLong 0xFFFF .a1, 2)].all (fun c =>
      let q := sample c.1
      let w := progWord q.pc q
      let f := { q with pc := q.pc + c.2.2, codeCtr := q.codeCtr + c.2.2.toNat, storeNow := none }
      fetches q w && c.2.2 == (if c.2.1.secondWord.isSome then 2 else 1) &&
      decide (decodeWords .default w (progWord (q.pc + 1) q) = .ok c.2.1) &&
      sequenceRefusal c.2.1 f == none &&
      nextOf (fetch q) == some (⟨w, if c.2.2 = 2 then 0xFFFF else 0⟩, f)) = true := by
  decide +kernel

/-- Outside every loop; in a live loop with the counts 1 and 0; a repeat with the counts 255 and 0; rep itself. -/
theorem witness_AfterInstruction :
    (at100.repArmed = false ∧ at100.repActive = false ∧ ¬ InLoop at100) ∧
    (InLoop (looped 1) ∧ (looped 1).repArmed = false ∧ (looped 1).repActive = false ∧
      (looped 1).lc.toNat % 256 ≠ 0 ∧ (looped 0).lc.toNat % 256 = 0 ∧ InLoop (looped 0) ∧
      (0x100 : Word) = (looped 1).bkEnd ∧ (0xFF : Word) ≠ (looped 1).bkEnd) ∧
    (isRepeat .nop = false ∧ { at100 with repArmed := true, repCnt := 255 }.repArmed = true ∧
      { at100 with repCnt := 255 }.repCnt ≠ 0 ∧ { at100 with repActive := true }.repCnt = 0) ∧
    isRepeat (.repImm 1) = true := by unfold InLoop; decide +kernel

theorem witness_SequenceRules :
    ({ at100 with pcPending := some 0 }.pcPending ≠ none ∧ Instr.eint ≠ .nop) ∧
    (at100.pcPending = none ∧ { at100 with repArmed := true }.repArmed = true ∧
      (Instr.addLong 1 .a0).secondWord ≠ none ∧ transfersOrLoops .reti = true ∧
      isProgramMove (.movpAccReg .a0 .x) = true ∧ movesTo (.movRegReg .x .pc) = some .pc) ∧
    (OfLastTwo (looped 1) ∧ (looped 1).pcPending = none ∧ (looped 1).repArmed = false ∧
      (looped 1).repActive = false) ∧
    OfLastTwo (cleared 1) ∧ ¬ OfLastTwo (put 0 0 { cleared 1 with pc := 0x100 }) ∧
    OfLastTwo (put 0 0 { looped 1 with pc := 0x100 }) ∧ OfLastTwo (put 0x81C0 0 { looped 1 with pc := 0xFF }) ∧
    sequenceRefusal .nop (looped 1) = none ∧ sequenceRefusal .nop { at100 with pcPending := some 0 } = none := by
  unfold OfLastTwo InLoop InLoopAfter; simp only [← endsAt_iff]; decide +kernel

/-- Plain memory with stores in flight elsewhere; a Device and an Absent address. -/
theorem witness_FetchedWord :
    (let s := { at100 with store1 := some ⟨0x1000, 1⟩, store2 := some ⟨0x1002, 2⟩ }
     Plain (progMap s.params 0x1001) ∧ ∀ c, s.store1 = some c ∨ s.store2 = some c → c.addr ≠ 0x1001) ∧
    progMap deviceMap 0x8000 = .device ∧ progMap deviceMap 0x8001 = .device ∧ progMap deviceMap 0x9000 = .absent := by
  refine ⟨⟨by unfold Plain; decide +kernel, ?_⟩, by decide +kernel⟩
  rintro c (h | h) <;> cases h <;> decide

theorem witness_ResetState : (sample (pinned (fun p => { p with reset := true }) at100)).pins.reset = true := by decide

theorem witness_StopModeFreezes :
    (sample at100).pins.reset = false ∧ { at100 with st2 := ⟨true, false, false, false, 0⟩ }.st2.stp = true := by decide

/-- Two changes of ext 0, the second of which stays, and none of ext 7; no input at all; a step that completes. -/
theorem witness_InputsSampled :
    ([(0, 1), (0, 2)] = [(0, 1)] ++ (0, 2) :: ([] : List (Fin 8 × Word)) ∧
      ([(0, 1), (0, 2)] : List (Fin 8 × Word)).all (fun q => q.1 != 7) = true) ∧
    at100.inputs = [] ∧ ∃ t, step at100 = .next t := by
  exact ⟨⟨by decide +kernel, by decide +kernel⟩, by decide +kernel, next_of_isSome (by decide +kernel)⟩

/-- A legal state with a full stack and a listed memory that runs an instruction. -/
def legalState : State := put 0x3400 0 { at100 with stk := levels (List.replicate 16 0x200) }

theorem witness_LegalKept : legalState.Legal ∧ ∃ t, step legalState = .next t := by
  refine ⟨⟨?_, ?_, ?_, ?_, ?_, ?_, ?_, ?_⟩, next_of_isSome ?_⟩ <;> decide +kernel

/-- A store to the data word at each boundary address, and to the common ROM's first and last word. -/
theorem witness_ProgramWordsKept :
    [(0x0FFF : Word), 0x8000, 0x2000, 0x27FF].all (fun a =>
      (ran 0x4981 0 { setR 1 a at100 with x := 1, params := deviceMap }).isSome && progMap deviceMap a != .shared) =
      true := by decide +kernel

theorem witness_FaultsAreStackFaults :
    step (put 0x0200 0 { at100 with stk := levels (List.replicate 16 0) }) = .fault .stackOverflow ∧
    step (put 0x3400 0 at100) = .fault .stackUnderflow := by
  refine ⟨fault_of_some ?_, fault_of_some ?_⟩ <;> decide +kernel

/-- For each clause an instruction that completes and meets its hypotheses: the columns of nop are all blank. -/
theorem witness_StickyFlags :
    let s := { at100 with st0 := { at100.st0 with l := true, r := true } }
    (∃ t, exec (.addImm 1 .a0) s = .next t) ∧ movesTo (.addImm 1 .a0) ≠ some .st0 ∧ s.st0.l = true ∧
    setsR (.addImm 1 .a0) = false ∧ (∃ t, exec .nop s = .next t) ∧ flagColumn .nop = .none := by
  refine ⟨next_of_isSome ?_, ?_, ?_, ?_, next_of_isSome ?_, ?_⟩ <;> decide +kernel

/-- eint changes none of the special registers; every condition on it holds. -/
theorem witness_SpecialRegisterWriters :
    (∃ t, exec .eint at100 = .next t) ∧ multiplies .eint = false ∧ isBkrep .eint = false ∧ isLpg .eint = false ∧
    isRepeat .eint = false ∧ movesTo .eint = none ∧ at100.st2.lp = false :=
  ⟨next_of_isSome (by decide +kernel), by decide⟩

theorem witness_InterruptControls :
    (∃ t, exec (.addImm 1 .a0) at100 = .next t) ∧ movesTo (.addImm 1 .a0) ≠ some .st0 ∧
    Instr.addImm 1 .a0 ≠ .eint ∧ Instr.addImm 1 .a0 ≠ .dint ∧ Instr.addImm 1 .a0 ≠ .reti ∧
    Instr.addImm 1 .a0 ≠ .trap := ⟨next_of_isSome (by decide +kernel), by decide⟩

/-- A completing instruction; for each clause a register, a modifier or a state at the edge of its range. -/
theorem witness_OperandStops :
    (∃ t, exec (.movRegReg .x .y) at100 = .next t) ∧
    ((Reg.accl .a0).partOf .a0 = true ∧ Reg.p.isWord = false ∧ Reg.p.partOf .a0 = false ∧
      (Reg.acc .a1).isWord = false ∧ (Reg.acc .a1).partOf .a0 = false) ∧
    (at100.stk = [] ∧ at100.st1.sp ≠ 3 ∧ { at100 with st1 := ⟨3, 0⟩ }.st1.sp = 3 ∧ Reg.x.isWord = true ∧
      Reg.x.partOf .a0 = false ∧ condTrue .always at100 = true) ∧
    (((setR 4 0xFBFF at100).addr (regJ 0)).toNat < 0xFC00 ∧ 0xFBFF < ((setR 0 0xFC00 at100).addr (regI 0)).toNat) ∧
    PostMod.inc ≠ .keep ∧ 256 ≤ ((setR 0 0x0100 at100).addr 0).toNat ∧
    ((setR 0 0xFEFF at100).addr 0).toNat < 65280 ∧ Reg.x ≠ .acc .a0 ∧ Reg.x ≠ .acc .a1 ∧ Reg.x ≠ .p ∧
    (3 : Fin 6) = regI 3 :=
  ⟨next_of_isSome (by decide +kernel), by decide +kernel⟩

/-- A store to the last data word leaves the byte before it; an addition stores nothing. -/
theorem witness_StoreFrame :
    let s := setR 0 0xFFFF at100
    (∃ t, exec (.movRegInd .x 0 .inc) s = .next t) ∧
    (∀ a, storeAddress (.movRegInd .x 0 .inc) s = some a → 0x1FFFD ≠ 2 * a.toNat ∧ 0x1FFFD ≠ 2 * a.toNat + 1) ∧
    (∃ t, exec (.addImm 1 .a0) s = .next t) ∧ storeAddress (.addImm 1 .a0) s = none := by
  refine ⟨next_of_isSome ?_, ?_, next_of_isSome ?_, ?_⟩
  · decide +kernel
  · rintro a h; cases h; decide
  · decide +kernel
  · decide

/-- A region of each kind; memory in its form. -/
theorem witness_DataAccess :
    (dataAt 0x1000 1 at100).mem.wf ∧ Plain (dataMap deviceMap 0x0000) ∧ dataMap deviceMap 0xFFFF = .ram ∧
    dataMap deviceMap 0xA000 = .device ∧ dataMap deviceMap 0xEFFF = .device ∧ dataMap deviceMap 0x2000 = .rom ∧
    dataMap deviceMap 0x1000 = .shared ∧ dataMap deviceMap 0x7FFF = .shared ∧
    dataMap { Params.default with dataSpans := [⟨0x8000, 0x8000, .absent⟩] } 0x8000 = .absent ∧
    (0x1001 : Word) ≠ 0x1000 := by unfold Plain; decide +kernel

/-- Both ends of the common range, of the ROMs, of the on-core RAM and of the windows. -/
theorem witness_MemoryMap :
    (∃ b, (Params.withRoms 0x2000 0x8000).commonRom = some b ∧ b.toNat ≤ (0x27FF : Word).toNat ∧
      (0x27FF : Word).toNat < b.toNat + 2048) ∧
    (¬ ∃ b, (Params.withRoms 0x2000 0x8000).commonRom = some b ∧ b.toNat ≤ (0x2800 : Word).toNat ∧
      (0x2800 : Word).toNat < b.toNat + 2048) ∧
    (∃ b, (Params.withRoms 0x2000 0x8000).progRom = some b ∧ b.toNat ≤ (0x83FF : Word).toNat ∧
      (0x83FF : Word).toNat < b.toNat + 1024) ∧
    (0xFF : Word).toNat < Params.default.xramWords ∧ 65536 - Params.default.yramWords ≤ (0xFF00 : Word).toNat ∧
    0xA000 ≤ (0xA000 : Word).toNat ∧ (0xEFFF : Word).toNat ≤ 0xEFFF ∧ Params.default.wf = true ∧
    ¬ (0x1000 ≤ (0x0FFF : Word).toNat ∧ (0x0FFF : Word).toNat ≤ 0x7FFF) := by
  refine ⟨⟨_, rfl, by decide⟩, ?_, ⟨_, rfl, by decide⟩, by decide +kernel⟩
  rintro ⟨b, h, h1, h2⟩; cases h; revert h2; decide

/-- MOD = 0, 6 and 511 with their k, and a register for each clause: upward from MOD, downward from 0, neither. -/
theorem witness_ModuloModifier :
    (∀ j, 0 < 2 ^ j → 0 ≤ j) ∧ (∀ j, 6 < 2 ^ j → 3 ≤ j) ∧ (∀ j, 511 < 2 ^ j → 9 ≤ j) ∧
    ((0 : Int) < 1 ∧ (0x16 : Word).toNat % 2 ^ 3 = 6) ∧ ((-1 : Int) < 0 ∧ (0x10 : Word).toNat % 2 ^ 3 = 0) ∧
    (¬ ((0 : Int) < 1 ∧ (0x15 : Word).toNat % 2 ^ 3 = 6) ∧ ¬ ((1 : Int) < 0 ∧ (0x15 : Word).toNat % 2 ^ 3 = 0)) := by
  have key : ∀ (md k : Nat), 2 ^ (k - 1) ≤ md → ∀ j, md < 2 ^ j → k ≤ j := by
    intro md k h j hj
    have := (Nat.pow_lt_pow_iff_right (a := 2) (by decide)).mp (Nat.lt_of_le_of_lt h hj)
    omega
  exact ⟨fun _ _ => Nat.zero_le _, key 6 3 (by decide), key 511 9 (by decide), by decide, by decide, by decide⟩

/-- tos with one entry; lc outside a loop, away from its end, before its last instruction, and in the only one. -/
theorem witness_RegisterReads :
    { at100 with stk := [⟨0xAAAA, true⟩] }.stk = ⟨0xAAAA, true⟩ :: [] ∧ at100.stk = [] ∧
    ¬ LcOpen 0 at100 ∧ ¬ LcOpen 0 { looped 1 with pc := 0xFF } ∧ LcOpen 0 { looped 1 with pc := 0x100 } ∧
    LcOpen 0 { looped 1 with bkStart := 0x100 } ∧ ¬ LpOpen 0 { looped 1 with bkStart := 0x100 } := by
  unfold LcOpen LpOpen; simp only [← endsAt_iff]; decide +kernel

/-- Outside a loop, in the only instruction of one, and away from its end. -/
theorem witness_StatusReads : at100.st0Hazard = false ∧ at100.st2.lp = false ∧ (∀ v, ¬ LpOpen v at100) ∧
    ¬ LpOpen 0x1000 { looped 1 with bkStart := 0x100 } ∧ ¬ LpOpen 0x1000 { looped 1 with pc := 0x90 } := by
  refine ⟨by decide, by decide, fun v h => absurd h.1 (by decide), ?_⟩
  unfold LpOpen; simp only [← endsAt_iff]; decide +kernel

theorem witness_RegisterWrites :
    Writable .tos 1 { at100 with stk := levels (List.replicate 15 0) } ∧ Writable .lc 1 at100 ∧
    Writable .pc 0xFF (looped 1) ∧ Writable .pc 0x101 (looped 1) ∧
    16 ≤ { at100 with stk := levels (List.replicate 16 0) }.stk.length ∧ (looped 1).st2.lp = true ∧
    InLoopAfter 2 (looped 1) ∧ (0x100 : Word) = (looped 1).bkEnd := by
  unfold Writable InLoopAfter; decide +kernel

theorem witness_ShiftedProduct :
    (∀ n ∈ [(0 : BitVec 2), 1, 2], { at100 with st1 := ⟨n, 0⟩ }.st1.sp ≠ 3) ∧
    { at100 with st1 := ⟨3, 0⟩ }.st1.sp = 3 := by decide

/-- What `AluForms` asks: a readable 16-bit register that is no part of aX (tos with one entry), and SP = 10. -/
theorem witness_AddSub_OrXor_AndForms :
    let s := { at100 with stk := levels [5], st1 := ⟨2, 0⟩ }
    Reg.tos.isWord = true ∧ Reg.tos.partOf .a0 = false ∧ Readable .tos s ∧
    (Reg.acch .a1).isWord = true ∧ (Reg.acch .a1).partOf .a0 = false ∧ Readable (.acch .a1) at100 ∧ s.st1.sp ≠ 3 := by
  unfold Readable; decide +kernel

theorem witness_LowHighArith :
    Reg.tos.isWord = true ∧ Reg.tos.partOf .a1 = false ∧ Readable .tos { at100 with stk := levels [5] } := by
  unfold Readable; decide +kernel

theorem witness_ShiftsAndRotates_AccumulatorFunctions :
    condTrue .always at100 = true ∧ condTrue .neq at100 = true ∧ at100.st1.sp ≠ 3 := by decide

theorem witness_Conditions : condTrue .eq at100 = false ∧ condTrue .iu0 at100 = false := by decide

theorem witness_NormStep :
    { at100 with st0 := { at100.st0 with n := true } }.st0.n = true ∧ at100.st0.n = false := by decide

theorem witness_DivideStep :
    (dataRead (direct 5 at100) (dataAt 5 0x7FFF at100)).1.toNat < 32768 ∧
    32768 ≤ (dataRead (direct 5 at100) (dataAt 5 0x8000 at100)).1.toNat := by decide +kernel

/-- What `MulForms` and `SquareForms` ask: SP = 10, a register, and a pair at the edges of the two spaces. -/
theorem witness_MultiplyForms_MultiplyAccumulate :
    let s := setR 4 0xFC00 (setR 0 0xFBFF { at100 with stk := levels [5], st1 := ⟨2, 0⟩ })
    s.st1.sp ≠ 3 ∧ 0xFC00 ≤ (s.addr (regJ 0)).toNat ∧ (s.addr (regI 0)).toNat ≤ 0xFBFF ∧
    Reg.tos.isWord = true ∧ Reg.tos.partOf .a0 = false ∧ Readable .tos s := by
  unfold Readable; decide +kernel

theorem witness_SquaresAndShort :
    let s := { at100 with stk := levels [5], st1 := ⟨2, 0⟩ }
    s.st1.sp ≠ 3 ∧ Reg.tos.isWord = true ∧ Reg.tos.partOf .a1 = false ∧ Readable .tos s := by
  unfold Readable; decide +kernel

/-- tos to tos is refused; x to tos with one free entry; a1h to pc. -/
theorem witness_MoveRegisters :
    Reg.x.isWord = true ∧ Reg.x ≠ .tos ∧ Readable .x at100 ∧
    Writable .tos 1 { at100 with stk := levels (List.replicate 15 0) } ∧ Writable .pc 0 at100 ∧ at100.st1.sp ≠ 3 ∧
    Reg.tos = Reg.tos := by
  unfold Readable Writable InLoopAfter; decide +kernel

/-- A register other than rN; rN itself unmodified; ext 0 at the edges of on-core memory. -/
theorem witness_MoveIndirect :
    ((Reg.x = .r 0) → PostMod.inc = .keep) ∧ ((Reg.r 0 = .r 0) → PostMod.keep = .keep) ∧
    ((setR 0 0x00FF at100).addr 0).toNat < 256 ∧ 65280 ≤ ((setR 0 0xFF00 at100).addr 0).toNat ∧
    (Reg.ext 0).isWord = true ∧ Readable (.ext 0) at100 ∧ Writable (.ext 0) 0 at100 := by
  unfold Readable Writable InLoopAfter; decide +kernel

theorem witness_MoveImmediate : Writable .tos 1 { at100 with stk := levels (List.replicate 15 0) } := by
  unfold Writable InLoopAfter; decide +kernel

theorem witness_MoveDirect : RnStar.r 5 ≠ .x ∧ RnStar.y ≠ .x := by decide

theorem witness_MoveProgram :
    inBits 32 ({ at100 with a0 := 0x07FFFFFFF }.acc .a0).toInt = true ∧
    inBits 32 ({ at100 with a0 := 0xF80000000 }.acc .a0).toInt = true ∧
    inBits 32 ({ at100 with a0 := 0x080000000 }.acc .a0).toInt = false ∧ at100.st0.sat = false ∧
    Writable .x 0 at100 ∧ (4 : Fin 6).val ≠ (3 : Fin 4).val := by
  unfold Writable InLoopAfter; decide +kernel

theorem witness_LoopSetup :
    Reg.tos.isWord = true ∧ Readable .tos { at100 with stk := levels [5] } ∧ Reg.tos ≠ .pc ∧ at100.st2.lp = false ∧
    (looped 0).st2.lp = true := by
  unfold Readable; decide +kernel

theorem witness_RepeatUnit :
    ({ at100 with repArmed := true, repCnt := 255 }.repArmed = true ∧ { at100 with repCnt := 255 }.repCnt ≠ 0) ∧
    ({ at100 with repActive := true }.repActive = true ∧ at100.repCnt = 0 ∧ at100.repArmed = false) := by decide

theorem witness_BlockUnit :
    InLoop (looped 0x1200) ∧ (looped 0x1200).lc.toNat % 256 = 0 ∧ (looped 0x12FF).lc.toNat % 256 ≠ 0 ∧
    (looped 1).st2.lp = true ∧ (0xFF : Word) ≠ (looped 1).bkEnd := by unfold InLoop; decide

theorem witness_LateClear :
    (looped 2).st2.lp = true ∧ (0x1000 : Word)[12] = true ∧ 2 ≤ (looped 2).lc.toNat % 256 ∧
    (0xFF : Word) ≠ (looped 2).bkEnd ∧ (looped 1).st2.lp = true ∧ (looped 1).lc.toNat % 256 ≠ 0 := by decide

/-- Outside a loop; in one, to the address before its last, to its last, and to the first word of a two-word
last instruction. -/
theorem witness_Branches :
    condTrue .always (looped 1) = true ∧ ¬ EntersLoopEnd 0x200 at100 ∧ ¬ EntersLoopEnd 0xFF (looped 1) ∧
    EntersLoopEnd 0x100 (looped 1) ∧ EntersLoopEnd 0xFF (pokeProg 0xFF 0x81C0 (looped 1)) ∧
    BitVec.ofInt 16 ((looped 1).pc.toNat + (0x7F : BitVec 7).toInt) = (looped 1).bkEnd := by
  unfold EntersLoopEnd InLoopAfter; simp only [← endsAt_iff]; decide +kernel

theorem witness_Calls :
    { at100 with stk := levels (List.replicate 15 0) }.stk.length < 16 ∧ ¬ EntersLoopEnd 0x200 at100 ∧
    (looped 1).stk.length < 16 ∧ EntersLoopEnd 0x100 (looped 1) ∧
    16 ≤ { at100 with stk := levels (List.replicate 16 0) }.stk.length ∧ condTrue .always at100 = true ∧
    inBits 32 ({ at100 with a0 := 0x07FFFFFFF }.acc .a0).toInt = true ∧
    inBits 32 ({ at100 with a0 := 0x080000000 }.acc .a0).toInt = false ∧ at100.st0.sat = false := by
  unfold EntersLoopEnd InLoopAfter; simp only [← endsAt_iff]; decide +kernel

/-- A return elsewhere than to the loop's end, and to it, by another level and by an interrupt's. -/
theorem witness_Returns :
    condTrue .always at100 = true ∧ at100.stk = [] ∧
    { at100 with stk := [⟨0x222, false⟩] }.stk = ⟨0x222, false⟩ :: [] ∧
    ¬ EntersLoopEnd 0x222 (looped 1) ∧ EntersLoopEnd 0x100 (looped 1) ∧
    { looped 1 with stk := [⟨0x100, true⟩] }.stk = ⟨0x100, true⟩ :: [] ∧
    { at100 with inBpi := true }.inBpi = true ∧ at100.inBpi = false ∧ { at100 with inTrap := true }.inTrap = true ∧
    at100.inTrap = false := by
  unfold EntersLoopEnd InLoopAfter; simp only [← endsAt_iff]; decide +kernel

/-- Outside a loop, in one that ends elsewhere, and in one whose last instruction is at 000Ah, of one word and of two. -/
theorem witness_TrapEntry :
    at100.inTrap = false ∧ at100.inBpi = false ∧ ¬ (InLoopAfter 1 at100 ∧ EndsAt 0x000A at100.bkEnd at100) ∧
    ¬ (InLoopAfter 1 (looped 1) ∧ EndsAt 0x000A (looped 1).bkEnd (looped 1)) ∧
    { at100 with stk := levels (List.replicate 15 0) }.stk.length < 16 ∧
    { at100 with inTrap := true }.inTrap = true ∧ 16 ≤ { at100 with stk := levels (List.replicate 16 0) }.stk.length ∧
    (let s := { looped 1 with bkEnd := 0x000A }
     InLoopAfter 1 s ∧ EndsAt 0x000A s.bkEnd s) ∧
    let s := pokeProg 0x000A 0x81C0 { looped 1 with bkEnd := 0x000B }
    InLoopAfter 1 s ∧ EndsAt 0x000A s.bkEnd s := by
  unfold InLoopAfter; simp only [← endsAt_iff]; decide +kernel

/-- What each side of the three equivalences of `Acceptance` is met by. -/
theorem witness_Acceptance :
    let on := { at100 with st0 := { at100.st0 with ie := true, im0 := true, im1 := true } }
    acceptInterrupt { at100 with pins := { Pins.low with bpi := true } } = some .bpi ∧
    acceptInterrupt { on with pins := { Pins.low with int0 := true, int1 := true } } = some .int0 ∧
    acceptInterrupt { on with pins := { Pins.low with int1 := true } } = some .int1 := by decide

/-- Each interrupt with 15 entries on the stack; BPI with 16; BPI while a clear of LP is in flight. -/
theorem witness_InterruptEntry :
    let ready := { at100 with stk := levels (List.replicate 15 0), st0 := { at100.st0 with ie := true, im0 := true, im1 := true } }
    ((sample (pinned (fun p => { p with bpi := true }) ready)).pins.reset = false ∧ ready.st2.stp = false ∧
      ready.lpLate = 0 ∧ ready.stk.length < 16) ∧
    acceptInterrupt (sample (pinned (fun p => { p with bpi := true }) ready)) = some .bpi ∧
    acceptInterrupt (sample (pinned (fun p => { p with int0 := true }) ready)) = some .int0 ∧
    acceptInterrupt (sample (pinned (fun p => { p with int1 := true }) ready)) = some .int1 ∧
    (16 ≤ { ready with stk := levels (List.replicate 16 0) }.stk.length ∧
      acceptInterrupt (sample (pinned (fun p => { p with bpi := true })
        { ready with stk := levels (List.replicate 16 0) })) ≠ none) ∧
    (0 < { ready with lpLate := 2 }.lpLate ∧
      acceptInterrupt (sample (pinned (fun p => { p with bpi := true }) { ready with lpLate := 2 })) ≠ none) := by
  decide +kernel

end Sys2Proof.Tests
end

section
/-! PROOFS. The memory map, and which addresses name one cell (O22). -/

namespace Sys2Proof.Machine

theorem isSharedAddr_iff {a : Word} : isSharedAddr a = true ↔ 0x1000 ≤ a.toNat ∧ a.toNat ≤ 0x7FFF :=
  decide_eq_true_iff

theorem isDeviceAddr_iff {a : Word} :
    isDeviceAddr a = true ↔ (0xA000 ≤ a.toNat ∧ a.toNat ≤ 0xBFFF) ∨ (0xE000 ≤ a.toNat ∧ a.toNat ≤ 0xEFFF) :=
  decide_eq_true_iff

theorem onCore_iff {c : Params} {a : Word} :
    onCore c a = true ↔ a.toNat < c.xramWords ∨ 65536 - c.yramWords ≤ a.toNat := decide_eq_true_iff

theorem inBlock_iff {base : Option Word} {n : Nat} {a : Word} :
    inBlock base n a = true ↔ ∃ b, base = some b ∧ b.toNat ≤ a.toNat ∧ a.toNat < b.toNat + n := by
  cases base <;> simp [inBlock]

/-- The on-core RAM that the spec allows ends below the windows of the devices on either side (20_memory R83). -/
theorem Params.wf_ramWords {c : Params} (h : c.wf = true) : c.xramWords ≤ 1024 ∧ c.yramWords ≤ 1024 := by
  simp only [Params.wf, Bool.and_eq_true, decide_eq_true_eq] at h
  obtain ⟨⟨⟨⟨-, hx⟩, hy⟩, -⟩, -⟩ := h
  exact ⟨hx, hy⟩

/-! The common words. -/

theorem dataMap_of_shared {c : Params} {a : Word} (h : isSharedAddr a = true) : dataMap c a = sharedRegion c a := by
  simp [dataMap, h]

theorem progMap_of_shared {c : Params} {a : Word} (h : isSharedAddr a = true) : progMap c a = sharedRegion c a := by
  simp [progMap, h]

theorem sharedRegion_rom {c : Params} {a : Word} (h : inBlock c.commonRom 2048 a = true) : sharedRegion c a = .rom := by
  simp [sharedRegion, h]

theorem sharedRegion_shared {c : Params} {a : Word} (h : inBlock c.commonRom 2048 a = false) :
    sharedRegion c a = .shared := by
  simp [sharedRegion, h]

/-! The words of one space. -/

theorem dataMap_onCore {c : Params} {a : Word} (h : isSharedAddr a = false) (hc : onCore c a = true) :
    dataMap c a = .ram := by
  simp [dataMap, h, hc]

theorem dataMap_device {c : Params} {a : Word} (h : isSharedAddr a = false) (hc : onCore c a = false)
    (hd : isDeviceAddr a = true) : dataMap c a = .device := by
  simp [dataMap, h, hc, hd]

theorem progMap_rom {c : Params} {a : Word} (h : isSharedAddr a = false) (hr : inBlock c.progRom 1024 a = true) :
    progMap c a = .rom := by
  simp [progMap, h, hr]

/-- No on-core RAM that the spec allows reaches into a window of a device. -/
theorem onCore_of_device {c : Params} {a : Word} (h : c.wf = true) (hd : isDeviceAddr a = true) :
    onCore c a = false := by
  obtain ⟨hx, hy⟩ := Params.wf_ramWords h
  rw [isDeviceAddr_iff] at hd
  rw [← Bool.not_eq_true, onCore_iff]
  omega

theorem progMap_default {a : Word} (h : isSharedAddr a = false) : progMap .default a = .ram := by
  simp [progMap, h, Params.default, inBlock, spanAt]

theorem dataMap_default {a : Word} (h : isSharedAddr a = false) (hd : isDeviceAddr a = false) :
    dataMap .default a = .ram := by
  simp [dataMap, h, hd, Params.default, spanAt]

/-! Cells. -/

theorem dataCell_inj {a b : Word} (h : dataCell a = dataCell b) : a = b := BitVec.eq_of_toNat_eq h

/-- A program and a data address name one cell only as one common address (20_memory R80). -/
theorem progCell_eq_dataCell {a b : Word} : progCell a = dataCell b ↔ a = b ∧ isSharedAddr a = true := by
  cases h : isSharedAddr a
  · simp [progCell_private h b]
  · rw [progCell_shared h]
    exact ⟨fun e => ⟨dataCell_inj e, rfl⟩, fun e => congrArg dataCell e.1⟩

/-- Settles O22, by the kind of the address: common, on-core, a device's, in a ROM, or another. -/
theorem memoryMap : Obligations.MemoryMap := by
  refine ⟨fun c a => ?_, fun a h => ?_, fun a b => ⟨?_, progCell_inj, dataCell_inj⟩⟩
  · dsimp only
    simp only [← isSharedAddr_iff, ← isDeviceAddr_iff, ← onCore_iff, ← inBlock_iff, Bool.not_eq_true]
    refine ⟨fun h => ?_, fun h => ⟨?_, ?_, dataMap_onCore h, fun hw hd => ?_, progMap_rom h⟩⟩
    · rw [dataMap_of_shared h, progMap_of_shared h]
      exact ⟨rfl, sharedRegion_rom, sharedRegion_shared⟩
    · exact fun e => absurd (dataMap_shared.1 e).1 (by simp [h])
    · exact fun e => absurd (progMap_shared.1 e).1 (by simp [h])
    · exact dataMap_device h (onCore_of_device hw hd) hd
  · simp only [← isSharedAddr_iff, ← isDeviceAddr_iff, Bool.not_eq_true] at h ⊢
    exact ⟨progMap_default h, dataMap_default h⟩
  · rw [progCell_eq_dataCell, isSharedAddr_iff]

end Sys2Proof.Machine
end

section
/-! PROOFS. A decoded instruction and its second word (30_encoding R110, R111, R128), the fetch of its words, and the step
that runs it (O6). -/

namespace Sys2Proof

/-- Where r is an instruction, its second word is w1 if `two`, and it has none otherwise. -/
def HasSecond (two : Bool) (w1 : Word) (r : Except DecodeError Instr) : Prop :=
  ∀ i, r = .ok i → i.secondWord = if two then some w1 else none

section
variable {two : Bool} {w1 : Word}

theorem HasSecond.ok {i : Instr} (h : i.secondWord = if two then some w1 else none) : HasSecond two w1 (.ok i) :=
  fun _ e => by cases e; exact h

theorem HasSecond.map {α : Type} {r : Except DecodeError α} {f : α → Instr}
    (h : ∀ a, (f a).secondWord = if two then some w1 else none) : HasSecond two w1 (r.map f) := by
  cases r with
  | error => exact fun _ e => nomatch e
  | ok a => exact .ok (h a)

theorem HasSecond.bind {α : Type} {r : Except DecodeError α} {f : α → Except DecodeError Instr}
    (h : ∀ a, HasSecond two w1 (f a)) : HasSecond two w1 (r.bind f) := by
  cases r with
  | error => exact fun _ e => nomatch e
  | ok a => exact h a

end

/-! The forms with one word. -/

theorem decodeModa_secondWord (c : Params) (w : Word) : (decodeModa c w).secondWord = none := by
  unfold decodeModa
  split
  · next f _ => cases f <;> rfl
  · rfl

theorem aluRegForm_secondWord (c : Params) (op : Nat) (x : Acc) (r : Reg) :
    (aluRegForm c op x r).secondWord = none := by
  unfold aluRegForm
  split <;> try rfl
  cases decodeHi c op <;> rfl

theorem aluIndForm_secondWord (c : Params) (op : Nat) (x : Acc) (n : Fin 6) (m : PostMod) :
    (aluIndForm c op x n m).secondWord = none := by
  unfold aluIndForm
  split <;> try rfl
  cases decodeHi c op <;> rfl

theorem aluDirForm_secondWord (c : Params) (op : Nat) (x : Acc) (a : BitVec 8) :
    (aluDirForm c op x a).secondWord = none := by
  unfold aluDirForm
  split <;> try rfl
  cases decodeHi c op <;> rfl

theorem aluImmForm_secondWord (w : Word) (op : Nat) (x : Acc) : (aluImmForm w op x).secondWord = none := by
  unfold aluImmForm
  split <;> rfl

theorem mulPairForm_secondWord (c : Params) (w : Word) (op : Nat) (x : Acc) :
    (mulPairForm c w op x).secondWord = none := by
  unfold mulPairForm
  dsimp only
  split <;> rfl

/-! The groups: the second word of what they decode to, and that a one-word first word does not look at it. -/

theorem isTwoWord_control {w : Word} (h : field w 14 2 = 0) :
    isTwoWord w = (field w 9 5 == 10 || field w 9 5 == 11 || field w 9 5 == 24 || field w 9 5 == 25) := by
  simp only [isTwoWord, h]

theorem isTwoWord_move {w : Word} (h : field w 14 2 = 1) : isTwoWord w = (field w 9 5 == 14) := by
  simp only [isTwoWord, h]

theorem decodeControl_second (c : Params) {w : Word} (w1 : Word) (h : field w 14 2 = 0) :
    HasSecond (isTwoWord w) w1 (decodeControl c w w1) := by
  rw [isTwoWord_control h]
  unfold decodeControl
  dsimp only
  split
  case h_30 =>
    refine .ok ?_
    simp_all [Instr.secondWord]
  case h_2 e => rw [e]; refine .ok ?_; split <;> rfl
  case h_6 e | h_7 e | h_9 e | h_11 e => rw [e]; exact .map fun _ => rfl
  case h_12 e | h_13 e | h_14 e | h_15 e => rw [e]; exact .ok (decodeModa_secondWord c w)
  all_goals next e => rw [e]; exact .ok rfl

theorem decodeControl_single (c : Params) {w : Word} (h : field w 14 2 = 0) (h1 : isTwoWord w = false) (w1 w2 : Word) :
    decodeControl c w w1 = decodeControl c w w2 := by
  rw [isTwoWord_control h] at h1
  unfold decodeControl
  dsimp only
  split
  case h_10 e | h_11 e | h_24 e | h_25 e => rw [e] at h1; cases h1
  all_goals rfl

theorem decodeMove_second (c : Params) {w : Word} (w1 : Word) (h : field w 14 2 = 1) :
    HasSecond (isTwoWord w) w1 (decodeMove c w w1) := by
  rw [isTwoWord_move h]
  unfold decodeMove
  dsimp only
  split
  case h_30 =>
    refine .ok ?_
    simp_all [Instr.secondWord]
  case h_1 e | h_2 e | h_13 e => rw [e]; exact .map fun _ => rfl
  case h_3 e | h_4 e | h_5 e | h_6 e | h_11 e | h_12 e => rw [e]; exact .bind fun _ => .map fun _ => rfl
  all_goals next e => rw [e]; exact .ok rfl

theorem decodeMove_single (c : Params) {w : Word} (h : field w 14 2 = 1) (h1 : isTwoWord w = false) (w1 w2 : Word) :
    decodeMove c w w1 = decodeMove c w w2 := by
  rw [isTwoWord_move h] at h1
  unfold decodeMove
  dsimp only
  split
  case h_13 e => rw [e] at h1; cases h1
  all_goals rfl

/-- The two-word forms of the ALU group: (rN)mm, ##imm16 of mpy, mac and msu, and ##imm16 of add to cmp. -/
theorem isTwoWord_alu {w : Word} (h0 : field w 14 2 ≠ 0) (h1 : field w 14 2 ≠ 1) :
    isTwoWord w = (field w 13 2 == 0 &&
      (field w 6 2 == 1 && (field w 9 4 == 6 || field w 9 4 == 7 || field w 9 4 == 8) ||
        field w 6 2 == 3 && decide (field w 9 4 ≤ 5))) := by
  have := w.isLt
  rw [Bool.eq_iff_iff, isTwoWord_iff]
  simp only [Bool.or_eq_true, Bool.and_eq_true, beq_iff_eq, decide_eq_true_eq]
  unfold field at *
  omega

theorem field_eq_three {w : Word} {lo : Nat} (h0 : field w lo 2 ≠ 0) (h1 : field w lo 2 ≠ 1)
    (h2 : field w lo 2 ≠ 2) : field w lo 2 = 3 := by
  have : field w lo 2 < 4 := Nat.mod_lt _ (by decide)
  omega

theorem mulLongForm_second (c : Params) (w w1 : Word) (op : Nat) (x : Acc) :
    HasSecond (op == 6 || op == 7 || op == 8) w1 (mulLongForm c w w1 op x) := by
  unfold mulLongForm
  dsimp only
  split
  case h_4 =>
    refine .ok ?_
    simp_all [Instr.secondWord]
  all_goals exact .map fun _ => rfl

theorem aluLongForm_second (w w1 : Word) (op : Nat) (x : Acc) :
    HasSecond (decide (op ≤ 5)) w1 (.ok (aluLongForm w w1 op x)) := by
  refine .ok ?_
  unfold aluLongForm
  split
  case h_7 =>
    have : ¬ op ≤ 5 := by simp only [imp_false] at *; omega
    simp [Instr.secondWord, this]
  all_goals rfl

theorem decodeAlu_second (c : Params) {w : Word} (w1 : Word) (h0 : field w 14 2 ≠ 0) (h1 : field w 14 2 ≠ 1) :
    HasSecond (isTwoWord w) w1 (decodeAlu c w w1) := by
  rw [isTwoWord_alu h0 h1]
  unfold decodeAlu
  dsimp only
  split
  case h_1 ef eb => rw [ef, eb]; exact .map fun r => aluRegForm_secondWord c _ _ r
  case h_2 ef eb => rw [ef, eb]; simpa using mulLongForm_second c w w1 (field w 9 4) _
  case h_3 ef eb => rw [ef, eb]; exact .map fun n => aluIndForm_secondWord c _ _ n _
  case h_4 ef n0 n1 n2 =>
    rw [ef, field_eq_three n0 n1 n2]; simpa using aluLongForm_second w w1 (field w 9 4) _
  case h_5 ef => rw [ef]; exact .ok (aluDirForm_secondWord c _ _ _)
  case h_6 ef => rw [ef]; exact .ok (mulPairForm_secondWord c w _ _)
  case h_7 n0 _ _ _ _ _ =>
    rw [beq_eq_false_iff_ne.2 n0]; exact .ok (aluImmForm_secondWord w _ _)

theorem mulLongForm_single (c : Params) {w : Word} {op : Nat} (x : Acc)
    (h : (op == 6 || op == 7 || op == 8) = false) (w1 w2 : Word) :
    mulLongForm c w w1 op x = mulLongForm c w w2 op x := by
  unfold mulLongForm
  dsimp only
  split
  case h_4 => rfl
  all_goals cases h

theorem aluLongForm_single {w : Word} {op : Nat} (x : Acc) (h : ¬ op ≤ 5) (w1 w2 : Word) :
    aluLongForm w w1 op x = aluLongForm w w2 op x := by
  unfold aluLongForm
  split
  case h_7 => rfl
  all_goals exact absurd (by decide) h

theorem decodeAlu_single (c : Params) {w : Word} (h0 : field w 14 2 ≠ 0) (h1 : field w 14 2 ≠ 1)
    (hw : isTwoWord w = false) (w1 w2 : Word) : decodeAlu c w w1 = decodeAlu c w w2 := by
  rw [isTwoWord_alu h0 h1] at hw
  unfold decodeAlu
  dsimp only
  split
  case h_2 ef eb =>
    rw [ef, eb] at hw
    exact mulLongForm_single c _ (by simpa using hw) w1 w2
  case h_4 ef n0 n1 n2 =>
    rw [ef, field_eq_three n0 n1 n2] at hw
    rw [aluLongForm_single _ (by simpa using hw) w1 w2]
  all_goals rfl

/-- A decoded instruction has a second word exactly where the first says so, and it is the word after it. -/
theorem decodeWords_secondWord {c : Params} {w w1 : Word} {i : Instr} (h : decodeWords c w w1 = .ok i) :
    i.secondWord = if isTwoWord w then some w1 else none := by
  unfold decodeWords at h
  split at h
  · next e => exact decodeControl_second c w1 e i h
  · next e => exact decodeMove_second c w1 e i h
  · next h0 h1 => exact decodeAlu_second c w1 h0 h1 i h

theorem decodeWords_secondWord_isSome {c : Params} {w w1 : Word} {i : Instr} (h : decodeWords c w w1 = .ok i) :
    i.secondWord.isSome = isTwoWord w := by
  rw [decodeWords_secondWord h]
  cases isTwoWord w <;> rfl

/-- The word after a one-word instruction is not looked at. -/
theorem decodeWords_single (c : Params) {w : Word} (h : isTwoWord w = false) (w1 w2 : Word) :
    decodeWords c w w1 = decodeWords c w w2 := by
  unfold decodeWords
  split
  · next e => exact decodeControl_single c e h w1 w2
  · next e => exact decodeMove_single c e h w1 w2
  · next h0 h1 => exact decodeAlu_single c h0 h1 h w1 w2

end Sys2Proof

namespace Sys2Proof.Machine

/-! The fetch of one and of two words from plain memory. -/

/-- The state after a fetch of n words. -/
def fetchedState (n : Nat) (s : State) : State :=
  { s with pc := s.pc + BitVec.ofNat 16 n, codeCtr := s.codeCtr + n, storeNow := none }

theorem fetch_one {s : State} (h1 : s.store1 = none) (h2 : s.store2 = none) (hp : Plain (progMap s.params s.pc))
    (hw : isTwoWord (progWord s.pc s) = false) :
    fetch s = .next (⟨progWord s.pc s, 0⟩, fetchedState 1 s) := by
  unfold fetch
  rw [fetchWord_clean hp h1 h2, andThen_next]
  simp only [hw, Bool.false_eq_true, if_false]
  rfl

theorem fetch_two {s : State} (h1 : s.store1 = none) (h2 : s.store2 = none) (hp : Plain (progMap s.params s.pc))
    (hp' : Plain (progMap s.params (s.pc + 1))) (hw : isTwoWord (progWord s.pc s) = true) :
    fetch s = .next (⟨progWord s.pc s, progWord (s.pc + 1) s⟩, fetchedState 2 s) := by
  unfold fetch
  rw [fetchWord_clean hp h1 h2, andThen_next]
  dsimp only
  rw [if_pos hw, fetchWord_clean (by exact hp') (by exact h1) (by exact h2), andThen_next]
  have : s.pc + 1 + 1 = s.pc + 2 := by rw [BitVec.add_assoc]; rfl
  simp only [this]
  rfl

/-! The step. -/

/-- The sampled state that runs an instruction does what the fetch and the decoder give. -/
theorem stepSampled_runs {q : State} (h : q.RunsInstr) : stepSampled q = runNext q := by
  obtain ⟨hr, hs, ha⟩ := h
  simp [stepSampled, hr, hs, ha]

theorem runInstr_of_allowed {i : Instr} {start : Word} {f : State} (h : sequenceRefusal i f = none) :
    runInstr i start f = andThen (exec i f) fun t => .next (afterInstr i start (f.pc - 1) f.pcPending t) := by
  simp only [runInstr, h]

theorem fetch_pcPending {s : State} {o : Fetched × State} (h : fetch s = .next o) : o.2.pcPending = s.pcPending := by
  rw [fetch_frame h]

/-- Once the words are fetched and decode, and break no rule, the rest of the step is the instruction and the units. -/
theorem runNext_of_fetch {q f : State} {w : Fetched} {i : Instr} (hf : fetch q = .next (w, f))
    (hd : decodeWords q.params w.w0 w.w1 = .ok i) (hs : sequenceRefusal i f = none) :
    runNext q = andThen (exec i f) fun t => .next (afterInstr i q.pc (f.pc - 1) q.pcPending t) := by
  have hp : f.pcPending = q.pcPending := fetch_pcPending hf
  simp only [runNext, hf, andThen_next, hd, runInstr_of_allowed hs, hp]

/-- Settles O6: the fetch from plain memory gives the words there, and whatever a fetch gives is decoded and run. -/
theorem stepRunsDecoded : Obligations.StepRunsDecoded := by
  intro s i q hq
  have hstep : step s = runNext q := stepSampled_runs hq
  refine ⟨fun h1 h2 hp hp' hd => ?_, fun w f hf hd hs => hstep.trans (runNext_of_fetch hf hd hs)⟩
  have hsome := decodeWords_secondWord_isSome hd
  dsimp only
  intro hs
  rw [hstep]
  cases hw : isTwoWord (progWord q.pc q) <;> rw [hw] at hsome
  · rw [hsome] at hs ⊢
    exact runNext_of_fetch (fetch_one h1 h2 hp hw) (decodeWords_single q.params hw .. ▸ hd) hs
  · rw [hsome] at hs ⊢
    have hn : i.secondWord ≠ none := by rw [← Option.isSome_iff_ne_none, hsome]
    exact runNext_of_fetch (fetch_two h1 h2 hp (hp' hn) hw) hd hs

end Sys2Proof.Machine
end

section
/-! PROOFS. What follows an instruction: the repeat unit, a pending pc write, the block-repeat unit (O7). -/

namespace Sys2Proof.Machine

/-! The units, case by case. -/

/-- No repeat is in force for i: it is rep itself, or none is armed or active. -/
def RunsOnce (i : Instr) (s : State) : Prop := isRepeat i = true ∨ (s.repArmed = false ∧ s.repActive = false)

theorem repUnit_once {i : Instr} {start : Word} {s : State} (h : RunsOnce i s) :
    repUnit i.isRep start s = (false, s) := by
  rcases h with h | ⟨h1, h2⟩
  · rw [isRep_eq, h, repUnit_rep]
  · exact repUnit_idle h1 h2

/-- A repeat with a count that is not 0 sends pc back to the instruction (43_loop R262). -/
theorem repUnit_again {i : Instr} {start : Word} {s : State} (hi : isRepeat i = false)
    (h : s.repArmed = true ∨ s.repActive = true) (hc : s.repCnt ≠ 0) :
    repUnit i.isRep start s =
      (true, { s with repArmed := false, repActive := true, repCnt := s.repCnt - 1, pc := start }) := by
  have hc' : (s.repCnt == 0) = false := beq_false_of_ne hc
  simp only [repUnit, isRep_eq, hi, hc', Bool.and_false, Bool.or_eq_true, h, Bool.false_eq_true, if_false, if_true]

/-- A repeat with count 0 ends. -/
theorem repUnit_last {i : Instr} {start : Word} {s : State} (hi : isRepeat i = false)
    (h : s.repArmed = true ∨ s.repActive = true) (h1 : s.repArmed = true → s.repActive = false) (hc : s.repCnt = 0) :
    repUnit i.isRep start s = (false, { s with repArmed := false, repActive := false }) := by
  cases ha : s.repArmed
  · have hr : s.repActive = true := by simpa [ha] using h
    simp [repUnit, isRep_eq, hi, hc, ha, hr]
  · simp [repUnit, isRep_eq, hi, hc, ha, h1 ha]

/-- lc counted down within its low 8 bits (43_loop R268). -/
theorem lcWithLow_pred {lc : Word} (h : lc.toNat % 256 ≠ 0) : lcWithLow lc (lc.extractLsb' 0 8 - 1) = lc - 1 := by
  apply BitVec.eq_of_toNat_eq
  have := lc.isLt
  rw [lcWithLow_toNat]
  simp only [BitVec.ofNat_eq_ofNat, BitVec.toNat_sub, BitVec.extractLsb'_toNat, Nat.shiftRight_zero, BitVec.toNat_ofNat]
  omega

theorem lcWithLow_full {lc : Word} (h : lc.toNat % 256 = 0) : lcWithLow lc 0xFF = lc + 255 := by
  apply BitVec.eq_of_toNat_eq
  have := lc.isLt
  rw [lcWithLow_toNat]
  simp only [BitVec.ofNat_eq_ofNat, BitVec.toNat_add, BitVec.toNat_ofNat]
  omega

/-- At the loop's last word with a count left, the unit goes to the loop's start. -/
theorem blockUnit_loop {last : Word} {s : State} (hl : InLoop s) (he : last = s.bkEnd) (hc : s.lc.toNat % 256 ≠ 0) :
    blockUnit last s = { s with lc := s.lc - 1, pc := s.bkStart, lpLate := s.lpLate - 1 } := by
  simp only [blockUnit, loopLive_iff.2 hl, he, beq_self_eq_true, Bool.and_true, if_true, lowCount_eq_zero, hc, if_false,
    lcWithLow_pred hc]

/-- At the loop's last word with count 0, the unit leaves the loop. -/
theorem blockUnit_exit {last : Word} {s : State} (hl : InLoop s) (he : last = s.bkEnd) (hc : s.lc.toNat % 256 = 0) :
    blockUnit last s = { s with lc := s.lc + 255, st2 := { s.st2 with lp := false }, lpLate := 0 } := by
  simp only [blockUnit, loopLive_iff.2 hl, he, beq_self_eq_true, Bool.and_true, if_true, lowCount_eq_zero, hc,
    lcWithLow_full hc]

theorem blockUnit_idle {last : Word} {s : State} (hl : ¬ InLoop s) : blockUnit last s = s := by
  have h0 : s.lpLate = 0 := by
    by_contra h
    exact hl (.inr (Nat.pos_of_ne_zero h))
  rw [blockUnit_other (.inr (by rwa [← Bool.not_eq_true, loopLive_iff])), h0]
  cases s; cases h0; rfl

/-- A pending pc write changes pc and the note of it alone. -/
theorem settlePc_eq (p : Option Word) (s : State) :
    settlePc p s = { s with pc := (settlePc p s).pc, pcPending := (settlePc p s).pcPending } := by
  cases p <;> rfl

/-! The units in their order. -/

theorem afterInstr_once {i : Instr} {start last : Word} {p : Option Word} {t : State} (h : RunsOnce i t) :
    afterInstr i start last p t = blockUnit last (settlePc p (noted i t)) := by
  have hu : repUnit i.isRep start (noted i t) = (false, noted i t) := repUnit_once h
  simp only [afterInstr, noteExecuted_eq, hu, Bool.false_eq_true, if_false]

theorem afterInstr_again {i : Instr} {start last : Word} {p : Option Word} {t : State} (hi : isRepeat i = false)
    (h : t.repArmed = true ∨ t.repActive = true) (hc : t.repCnt ≠ 0) :
    afterInstr i start last p t =
      { noted i t with repArmed := false, repActive := true, repCnt := t.repCnt - 1, pc := start } := by
  have hu := repUnit_again (start := start) (s := noted i t) hi h hc
  simp only [afterInstr, noteExecuted_eq, hu, if_true]; rfl

/-- At count 0 the repeat ends, and what follows is what follows without it. -/
theorem afterInstr_last {i : Instr} {start last : Word} {p : Option Word} {t : State} (hi : isRepeat i = false)
    (h : t.repArmed = true ∨ t.repActive = true) (h1 : t.repArmed = true → t.repActive = false) (hc : t.repCnt = 0) :
    afterInstr i start last p t = afterInstr i start last p { t with repArmed := false, repActive := false } := by
  have hu := repUnit_last (start := start) (s := noted i t) hi h h1 hc
  rw [afterInstr_once (t := { t with repArmed := false, repActive := false }) (.inr ⟨rfl, rfl⟩)]
  simp only [afterInstr, noteExecuted_eq, hu, Bool.false_eq_true, if_false]; rfl

/-- Settles O7, by the case of the repeat unit, and then of the block-repeat unit on the state in which the pending pc
write has taken effect. -/
theorem afterInstruction : Obligations.AfterInstruction := by
  intro i start last p t h1 u v r once again
  have hv : settlePc p u = v := by cases p <;> rfl
  have hvf := settlePc_eq p u
  rw [hv] at hvf
  have hr (h : once) : r = blockUnit last v := by rw [← hv]; exact afterInstr_once h
  have hloop : InLoop v ↔ InLoop t := by rw [hvf]; rfl
  have hend : v.bkEnd = t.bkEnd := by rw [hvf]; rfl
  have hlc : v.lc = t.lc := by rw [hvf]; rfl
  have hlate : v.lpLate = t.lpLate := by rw [hvf]; rfl
  have hst2 : v.st2 = t.st2 := by rw [hvf]; rfl
  have hstart : v.bkStart = t.bkStart := by rw [hvf]; rfl
  refine ⟨fun h hl => ?_, fun h _ he => ?_, fun h hl he hc => ?_, fun h hl he hc => ?_, ?_, ?_⟩
  · rw [hr h, blockUnit_idle (hloop.not.2 hl)]
  · rw [hr h, blockUnit_other (.inl (hend ▸ he)), hlate]
  · rw [hr h, blockUnit_loop (hloop.2 hl) (hend ▸ he) (hlc ▸ hc), hlc, hstart, hlate]
  · rw [hr h, blockUnit_exit (hloop.2 hl) (hend ▸ he) (hlc ▸ hc), hlc, hst2]
  · exact fun ⟨hi, h⟩ hc => afterInstr_again hi h hc
  · exact fun ⟨hi, h⟩ hc => afterInstr_last hi h h1 hc

end Sys2Proof.Machine
end

section
/-! PROOFS. Every step from a legal state leads to a legal state (O13). -/

namespace Sys2Proof.Machine

/-! What an instruction leaves of the fields that legality speaks of. -/

/-- t keeps what `State.Legal` asks of s, as the instruction i may: only rep arms a repeat, and only a move to pc
leaves a pc write pending. -/
structure LegalFrame (i : Instr) (s t : State) : Prop where
  mem : s.mem.wf → t.mem.wf
  stack : s.stk.length ≤ 16 → t.stk.length ≤ 16
  late : s.lpLate ≤ 2 → t.lpLate ≤ 2
  lateClear : (s.st2.lp = true → s.lpLate = 0) → t.st2.lp = true → t.lpLate = 0
  armed : isRepeat i = false → t.repArmed = s.repArmed
  active : t.repActive = s.repActive
  pending : movesTo i ≠ some .pc → t.pcPending = s.pcPending
  params : t.params = s.params

namespace LegalFrame

variable {i : Instr} {s t u : State}

theorem refl (i : Instr) (s : State) : LegalFrame i s s :=
  ⟨id, id, id, id, fun _ => rfl, rfl, fun _ => rfl, rfl⟩

theorem trans (h : LegalFrame i s t) (k : LegalFrame i t u) : LegalFrame i s u :=
  ⟨k.mem ∘ h.mem, k.stack ∘ h.stack, k.late ∘ h.late, k.lateClear ∘ h.lateClear,
    fun e => (k.armed e).trans (h.armed e), k.active.trans h.active, fun e => (k.pending e).trans (h.pending e),
    k.params.trans h.params⟩

/-- An update of none of the fields but the stack, which stays within its 16 levels. -/
theorem of_stack (hm : t.mem = s.mem) (hs : s.stk.length ≤ 16 → t.stk.length ≤ 16) (hl : t.lpLate = s.lpLate)
    (hp : t.st2.lp = s.st2.lp) (ha : t.repArmed = s.repArmed) (hr : t.repActive = s.repActive)
    (hq : t.pcPending = s.pcPending) (hc : t.params = s.params) : LegalFrame i s t :=
  ⟨by rw [hm]; exact id, hs, by rw [hl]; exact id, by rw [hp, hl]; exact id, fun _ => ha, hr, fun _ => hq, hc⟩

/-- The instructions of the ALU, moda and multiply groups. -/
theorem of_kept {mul rr : Bool} (h : Kept mul rr s t) : LegalFrame i s t :=
  of_stack (congrArg State.mem h.rest :) h.stk.length_le.trans (congrArg State.lpLate h.rest :)
    (congrArg (fun s : State => s.st2.lp) h.rest :) (congrArg State.repArmed h.rest :)
    (congrArg State.repActive h.rest :) (congrArg State.pcPending h.rest :) (congrArg State.params h.rest :)

theorem of_mem (h : MemFrame s t) : LegalFrame i s t := of_kept (Kept.of_mem (mul := true) (rr := true) h)

theorem of_read (h : ReadFrame s t) : LegalFrame i s t := of_kept (Kept.of_read (mul := true) (rr := true) h)

theorem of_postMod (n : Fin 6) (m : PostMod) (s : State) : LegalFrame i s (postMod n m s) :=
  of_kept (kept_postMod true true n m s)

theorem of_readInd (n : Fin 6) (m : PostMod) (s : State) : LegalFrame i s (readInd n m s).2 :=
  of_kept (kept_readInd true true n m s)

theorem of_readDir (a : BitVec 8) (s : State) : LegalFrame i s (readDir a s).2 :=
  of_kept (kept_readDir true true a s)

theorem of_moveAcc (x : Acc) (v : Accum) (s : State) : LegalFrame i s (moveAcc x v s) :=
  of_kept (kept_moveAcc true true x v s)

theorem of_noteLimit (isMov : Bool) (x : Acc) (s : State) : LegalFrame i s (noteLimit isMov x s) :=
  of_stack rfl id rfl rfl rfl rfl rfl rfl

theorem of_dataWrite (a v : Word) (s : State) : LegalFrame i s (dataWrite a v s) := by
  have hm := dataWrite_mem_wf a v s
  obtain ⟨m, c, b, e⟩ := dataWrite_frame a v s
  rw [e] at hm ⊢
  exact ⟨hm, id, id, id, fun _ => rfl, rfl, fun _ => rfl, rfl⟩

theorem of_announced (a : Word) (s : State) : LegalFrame i s (s.announced a) := by
  rw [announced_eq]; exact of_stack rfl id rfl rfl rfl rfl rfl rfl

/-- A register is written by the move to it, and tos only where the stack was not full. -/
theorem of_regWrite {c : Reg} {v : Word} (h : regWrite c v s = .next t) (hc : movesTo i = some c) :
    LegalFrame i s t := by
  obtain ⟨hw, hok⟩ := regWrite_frame h
  have hr := hw.rest
  refine ⟨?_, fun hs => ?_, fun hl => ?_, fun hs hp => ?_, fun _ => ?_, ?_, fun hpc => ?_, ?_⟩
  · rw [hr]; exact id
  · by_cases e : c = .tos
    · have := hok.1 e; have := hw.push; omega
    · rw [hw.stk e]; exact hs
  · rcases hw.late with e | ⟨e, -, -⟩ <;> omega
  · obtain ⟨hp, e⟩ := hw.lp hp; rw [e, hs hp]
  · rw [hr]
  · rw [hr]
  · exact hw.pcPending fun e => hpc (by rw [hc, e])
  · rw [hr]

theorem of_writeRnStar (q : RnStar) (v : Word) (s : State) : LegalFrame i s (writeRnStar q v s) := by
  cases q <;> exact of_stack rfl id rfl rfl rfl rfl rfl rfl

theorem of_jumpTo {a : Word} (h : jumpTo a s = .next t) : LegalFrame i s t := by
  obtain ⟨-, rfl⟩ := jumpTo_eq_next.1 h
  exact of_stack rfl id rfl rfl rfl rfl rfl rfl

theorem of_callTo {a : Word} (h : callTo a s = .next t) : LegalFrame i s t := by
  obtain ⟨hs, -, rfl⟩ := callTo_eq_next.1 h
  exact of_stack rfl (fun _ => hs) rfl rfl rfl rfl rfl rfl

theorem of_returnTo (h : returnTo s = .next t) : LegalFrame i s t := by
  obtain ⟨v, rest, hs, -, rfl⟩ := returnTo_eq_next.1 h
  exact of_stack rfl (fun hl => by rw [hs, List.length_cons] at hl; exact Nat.le_of_succ_le hl) rfl rfl rfl rfl rfl rfl

theorem of_endRoutine (s : State) : LegalFrame i s (endRoutine s) := by
  rw [endRoutine_eq]; exact of_stack rfl id rfl rfl rfl rfl rfl rfl

theorem of_enterTrap (h : enterTrap s = .next t) : LegalFrame i s t := by
  obtain ⟨-, hs, rfl⟩ := enterTrap_eq_next.1 h
  exact of_stack rfl (fun _ => hs) rfl rfl rfl rfl rfl rfl

/-- rep arms the repeat, and changes nothing else that legality speaks of. -/
theorem of_armRepeat (k : BitVec 8) (s : State) (hi : isRepeat i = true) : LegalFrame i s (armRepeat k s) :=
  ⟨id, id, id, id, fun e => by simp [hi] at e, rfl, fun _ => rfl, rfl⟩

/-- bkrep clears lp_late when it sets LP. -/
theorem of_startBlock (last lc : Word) (s : State) : LegalFrame i s (startBlock last { s with lc := lc }) :=
  ⟨id, id, fun _ => Nat.zero_le 2, fun _ _ => rfl, fun _ => rfl, rfl, fun _ => rfl, rfl⟩

/-- An instruction whose condition is false does nothing. -/
theorem of_cond {cc : Cond} {k : Out} (h : (if condTrue cc s then k else .next s) = .next t)
    (hk : k = .next t → LegalFrame i s t) : LegalFrame i s t := by
  split at h
  · exact hk h
  · cases h; exact refl i s

end LegalFrame

open LegalFrame

/-! The instructions outside the groups of Laws/Frames.lean. -/

/-- mov and movp. -/
def isMoveGroup : Instr → Bool
  | .movpAccReg _ _ | .movpIndInd _ _ _ _ | .movRegInd _ _ _ | .movIndReg _ _ _ | .movSimmRn _ _ | .movRegReg _ _
  | .movLongReg _ _ | .movDirAcc _ _ | .movDirAcch _ _ | .movDirAccl _ _ | .movDirAcchEu _ _ | .movRnDir _ _
  | .movDirRn _ _ | .movAcclDir _ _ | .movAcchDir _ _ | .movImmAccl _ _ | .movSimmAcch _ _ => true
  | _ => false

/-- nop, modr, eint, dint, lpg, trap, the branches, calls and returns, rep, bkrep, and the unused words. -/
def isControlGroup : Instr → Bool
  | .nop | .modr _ _ | .eint | .dint | .lpg _ | .trap | .br _ _ | .brr _ _ | .call _ _ | .callr _ _ | .calla _
  | .ret _ | .reti | .repImm _ | .repReg _ | .bkrepImm _ _ | .bkrepReg _ _ | .unused _ => true
  | _ => false

/-- Every instruction is in one of the five groups. -/
theorem group_cases (i : Instr) :
    isAluGroup i = true ∨ isModaGroup i = true ∨ isMulGroup i = true ∨ isMoveGroup i = true ∨
      isControlGroup i = true := by
  cases i <;> simp [isAluGroup, isModaGroup, isMulGroup, isMoveGroup, isControlGroup]

/-- `mov sreg, dreg` moves between accumulators, or shifted p to one, or a word that has been read. -/
theorem execMovRegReg_cases {src dst : Reg} {s t : State} (h : execMovRegReg src dst s = .next t) :
    (∃ x v, t = moveAcc x v s) ∨ ∃ o, regRead true src s = .next o ∧ regWrite dst o.1 o.2 = .next t := by
  obtain ⟨-, h⟩ := refuseIf_eq_next.1 h
  cases src
  case acc a => cases dst <;> cases h; exact .inl ⟨_, _, rfl⟩
  case p =>
    cases dst <;> try cases h
    obtain ⟨q, -, e⟩ := andThen_eq_next.1 h
    cases e; exact .inl ⟨_, _, rfl⟩
  all_goals exact .inr (andThen_eq_next.1 h)

theorem legalFrame_moveGroup {i : Instr} {s t : State} (h : exec i s = .next t) (hi : isMoveGroup i = true) :
    LegalFrame i s t := by
  cases i <;> cases hi
  case movpAccReg x c =>
    obtain ⟨a, -, h⟩ := andThen_eq_next.1 h
    exact (of_mem (progRead_frame a s)).trans (of_regWrite h rfl)
  case movpIndInd n m j k =>
    obtain ⟨-, h⟩ := refuseIf_eq_next.1 h
    cases h
    exact (of_mem (progRead_frame _ s)).trans <| (of_dataWrite _ _ _).trans <|
      (of_postMod _ _ _).trans (of_postMod _ _ _)
  case movRegInd c n m =>
    obtain ⟨-, h⟩ := refuseIf_eq_next.1 h
    obtain ⟨-, h⟩ := refuseIf_eq_next.1 h
    obtain ⟨-, h⟩ := refuseIf_eq_next.1 h
    obtain ⟨o, ho, h⟩ := andThen_eq_next.1 h
    cases h
    exact (of_announced _ s).trans <| (of_read (regRead_frame ho).1).trans <|
      (of_dataWrite _ _ _).trans (of_postMod _ _ _)
  case movIndReg n m c =>
    obtain ⟨-, h⟩ := refuseIf_eq_next.1 h
    obtain ⟨-, h⟩ := refuseIf_eq_next.1 h
    exact (of_readInd n m s).trans (of_regWrite h rfl)
  case movRegReg src dst =>
    rcases execMovRegReg_cases h with ⟨x, v, rfl⟩ | ⟨o, ho, h⟩
    · exact of_moveAcc x v s
    · exact (of_read (regRead_frame ho).1).trans (of_regWrite h rfl)
  case movLongReg w c => exact of_regWrite h rfl
  case movSimmRn imm q => cases h; exact of_writeRnStar _ _ s
  case movDirRn a q =>
    obtain ⟨-, h⟩ := refuseIf_eq_next.1 h
    cases h; exact (of_readDir a s).trans (of_writeRnStar _ _ _)
  case movDirAcc a x | movDirAcch a x | movDirAccl a x =>
    cases h; exact (of_readDir a s).trans (of_moveAcc _ _ _)
  case movDirAcchEu a x =>
    cases h
    refine (of_readDir a s).trans ?_
    cases x <;> exact of_stack rfl id rfl rfl rfl rfl rfl rfl
  case movRnDir q a => cases h; exact of_dataWrite _ _ s
  case movAcclDir x a | movAcchDir x a =>
    cases h; exact (of_noteLimit true x s).trans (of_dataWrite _ _ _)
  case movImmAccl imm x | movSimmAcch imm x => cases h; exact of_moveAcc _ _ s

theorem legalFrame_controlGroup {i : Instr} {s t : State} (h : exec i s = .next t) (hi : isControlGroup i = true) :
    LegalFrame i s t := by
  cases i <;> cases hi
  case nop => cases h; exact refl _ s
  case modr | eint | dint | lpg => cases h; exact of_stack rfl id rfl rfl rfl rfl rfl rfl
  case trap => exact of_enterTrap (refuseIf_eq_next.1 h).2
  case br | brr => exact of_cond h of_jumpTo
  case call | callr => exact of_cond h of_callTo
  case calla =>
    obtain ⟨a, -, h⟩ := andThen_eq_next.1 h
    exact of_callTo h
  case ret => exact of_cond h of_returnTo
  case reti =>
    obtain ⟨u, hu, rfl⟩ := returnFromException_eq_next.1 h
    exact (of_returnTo hu).trans (of_endRoutine u)
  case repImm imm => cases h; exact of_armRepeat imm s rfl
  case repReg c =>
    obtain ⟨o, ho, h⟩ := andThen_eq_next.1 h
    cases h; exact (of_read (regRead_frame ho).1).trans (of_armRepeat _ _ rfl)
  case bkrepImm imm last =>
    obtain ⟨-, h⟩ := refuseIf_eq_next.1 h
    cases h; exact (of_mem (free_frame s)).trans (of_startBlock last _ _)
  case bkrepReg c last =>
    obtain ⟨-, h⟩ := refuseIf_eq_next.1 h
    obtain ⟨-, h⟩ := refuseIf_eq_next.1 h
    obtain ⟨-, h⟩ := refuseIf_eq_next.1 h
    obtain ⟨o, ho, h⟩ := andThen_eq_next.1 h
    cases h; exact (of_read (regRead_frame ho).1).trans (of_startBlock last _ _)
  case unused => cases h

theorem legalFrame_exec {i : Instr} {s t : State} (h : exec i s = .next t) : LegalFrame i s t := by
  rcases group_cases i with hi | hi | hi | hi | hi
  · exact of_kept (kept_aluGroup h hi)
  · exact of_kept (kept_modaGroup h hi)
  · exact of_kept (kept_mulGroup h hi)
  · exact legalFrame_moveGroup h hi
  · exact legalFrame_controlGroup h hi

/-! The rules on sequences and the units. -/

/-- No rule on sequences is broken: nop alone follows a move to pc, a repeat takes a repeatable instruction, and no
transfer, rep or bkrep is one of the last two of a loop. -/
theorem sequenceRefusal_eq_none {i : Instr} {s : State} :
    sequenceRefusal i s = none ↔ (s.pcPending ≠ none → i = .nop) ∧
      (s.repArmed = true ∨ s.repActive = true → i.repeatable = true) ∧
      (s.ofLastTwo = true → i.mayEndLoop = true) := by
  unfold sequenceRefusal
  split_ifs with h1 h2 h3 <;>
    simp only [Bool.and_eq_true, Bool.or_eq_true, Option.isSome_iff_ne_none, bne_iff_ne, Bool.not_eq_true', not_and,
      not_not, Bool.not_eq_false] at *
  · exact iff_of_false nofun fun h => h1.2 (h.1 h1.1)
  · exact iff_of_false nofun fun h => Bool.false_ne_true (h2.2.symm.trans (h.2.1 h2.1))
  · exact iff_of_false nofun fun h => Bool.false_ne_true (h3.2.symm.trans (h.2.2 h3.1))
  · exact iff_of_true trivial ⟨h1, h2, h3⟩

theorem isRepeat_of_movesTo {i : Instr} {c : Reg} (h : movesTo i = some c) : isRepeat i = false := by
  cases i <;> first | rfl | cases h

/-- A move to pc and rep may not be repeated. -/
theorem not_repeating {i : Instr} {s : State} (hs : sequenceRefusal i s = none)
    (hi : isRepeat i = true ∨ movesTo i = some .pc) : s.repArmed = false ∧ s.repActive = false := by
  have hr : i.repeatable = false := by
    rw [← Bool.not_eq_true, repeatable_iff]
    rcases hi with hi | hi
    · cases i <;> cases hi <;> simp [breaksContinuity]
    · simp [hi]
  have := (sequenceRefusal_eq_none.1 hs).2.1
  simpa [hr] using this

/-- An instruction that breaks no rule leads from a legal state to one that is legal but for the store it has noted. -/
theorem exec_legal {i : Instr} {f u : State} (h : f.Legal) (hs : sequenceRefusal i f = none)
    (hx : exec i f = .next u) : { u with storeNow := none }.Legal := by
  have k := legalFrame_exec hx
  refine ⟨k.mem h.mem, k.stack h.stack, k.late h.late, k.lateClear h.lateClear, ?_, ?_, rfl, ?_⟩
  · intro ha
    show u.repActive = false
    rw [k.active]
    cases hr : isRepeat i
    · exact h.repeat1 ((k.armed hr).symm.trans ha)
    · exact (not_repeating hs (.inl hr)).2
  · intro hp
    show u.repArmed = false ∧ u.repActive = false
    rw [k.active]
    by_cases hf : f.pcPending = none
    · have hm : movesTo i = some .pc := by
        by_contra hm
        exact hp ((k.pending hm).trans hf)
      rw [k.armed (isRepeat_of_movesTo hm)]
      exact not_repeating hs (.inr hm)
    · obtain rfl := (sequenceRefusal_eq_none.1 hs).1 hf
      rw [k.armed rfl]
      exact h.pending hf
  · show u.params.wf = true
    rw [k.params]; exact h.params

theorem noteExecuted_legal (i : Instr) {u : State} (h : { u with storeNow := none }.Legal) :
    (noteExecuted i u).Legal :=
  ⟨h.mem, h.stack, h.late, h.lateClear, h.repeat1, h.pending, rfl, h.params⟩

theorem repUnit_legal (b : Bool) (start : Word) {s : State} (h : s.Legal) : (repUnit b start s).2.Legal := by
  unfold repUnit
  split
  · exact h
  · split
    · exact ⟨h.mem, h.stack, h.late, h.lateClear, nofun, fun hp => ⟨rfl, (h.pending hp).2⟩, h.stored, h.params⟩
    · split
      · next ha =>
        split
        · exact ⟨h.mem, h.stack, h.late, h.lateClear, nofun, fun _ => ⟨rfl, rfl⟩, h.stored, h.params⟩
        · refine ⟨h.mem, h.stack, h.late, h.lateClear, nofun, fun hp => ?_, h.stored, h.params⟩
          simp [h.pending hp] at ha
      · exact h

theorem settlePc_legal (p : Option Word) {s : State} (h : s.Legal) : (settlePc p s).Legal := by
  cases p with
  | none => exact h
  | some a => exact ⟨h.mem, h.stack, h.late, h.lateClear, h.repeat1, fun hp => absurd rfl hp, h.stored, h.params⟩

theorem blockUnit_legal (last : Word) {s : State} (h : s.Legal) : (blockUnit last s).Legal := by
  have hl : s.lpLate - 1 ≤ 2 := (Nat.sub_le _ 1).trans h.late
  have hc : s.st2.lp = true → s.lpLate - 1 = 0 := fun hp => by rw [h.lateClear hp]
  unfold blockUnit
  dsimp only
  split
  · split
    · exact ⟨h.mem, h.stack, Nat.zero_le 2, nofun, h.repeat1, h.pending, h.stored, h.params⟩
    · exact ⟨h.mem, h.stack, hl, hc, h.repeat1, h.pending, h.stored, h.params⟩
  · exact ⟨h.mem, h.stack, hl, hc, h.repeat1, h.pending, h.stored, h.params⟩

theorem afterInstr_legal (i : Instr) (start last : Word) (p : Option Word) {u : State}
    (h : { u with storeNow := none }.Legal) : (afterInstr i start last p u).Legal := by
  have hn := repUnit_legal i.isRep start (noteExecuted_legal i h)
  unfold afterInstr
  dsimp only
  split
  · exact hn
  · exact blockUnit_legal last (settlePc_legal p hn)

theorem repUnit_params (b : Bool) (start : Word) (s : State) : (repUnit b start s).2.params = s.params := by
  unfold repUnit; repeat' split
  all_goals rfl

theorem blockUnit_params (last : Word) (s : State) : (blockUnit last s).params = s.params := by
  unfold blockUnit; dsimp only; repeat' split
  all_goals rfl

theorem settlePc_params (p : Option Word) (s : State) : (settlePc p s).params = s.params := by cases p <;> rfl

theorem afterInstr_params (i : Instr) (start last : Word) (p : Option Word) (s : State) :
    (afterInstr i start last p s).params = s.params := by
  unfold afterInstr; dsimp only; split
  · rw [repUnit_params]; rfl
  · rw [blockUnit_params, settlePc_params, repUnit_params]; rfl

/-! The step. -/

theorem sample_legal {s : State} (h : s.Legal) : (sample s).Legal := by
  rw [sample_eq]
  exact ⟨h.mem, h.stack, h.late, h.lateClear, h.repeat1, h.pending, h.stored, h.params⟩

theorem resetState_legal {s : State} (h : s.Legal) : (resetState s).Legal :=
  ⟨h.mem, Nat.zero_le 16, Nat.zero_le 2, nofun, nofun, fun hp => absurd rfl hp, rfl, h.params⟩

theorem markEntry_legal (irq : Irq) {s : State} (h : s.Legal) : (markEntry irq s).Legal := by
  cases irq <;> exact ⟨h.mem, h.stack, h.late, h.lateClear, h.repeat1, h.pending, h.stored, h.params⟩

theorem markEntry_params (irq : Irq) (s : State) : (markEntry irq s).params = s.params := by cases irq <;> rfl

theorem enterInterrupt_legal {irq : Irq} {s t : State} (h : s.Legal) (ht : enterInterrupt irq s = .next t) :
    t.Legal ∧ t.params = s.params := by
  obtain ⟨-, hs, rfl⟩ := enterInterrupt_eq_next.1 ht
  refine ⟨markEntry_legal irq ?_, markEntry_params irq _⟩
  exact ⟨h.mem, hs, h.late, h.lateClear, h.repeat1, h.pending, h.stored, h.params⟩

/-- Settles O13, by the ways in which a step can go: `Legal` is kept by the sampling, by reset, by an interrupt's entry,
by the fetch, by every instruction that breaks no rule on sequences, and by each of the units after it. -/
theorem legalKept : Obligations.LegalKept := by
  intro s t h hst
  have hq := sample_legal h
  cases stepped hst with
  | reset _ e => subst e; exact ⟨resetState_legal hq, sample_params s⟩
  | stop _ e => subst e; exact ⟨hq, sample_params s⟩
  | interrupt irq _ ht =>
    obtain ⟨hl, hp⟩ := enterInterrupt_legal hq ht
    exact ⟨hl, hp.trans (sample_params s)⟩
  | run i f u start last hf hs hx e =>
    have hfl : f.Legal := by
      rw [hf]
      exact ⟨hq.mem, hq.stack, hq.late, hq.lateClear, hq.repeat1, hq.pending, rfl, hq.params⟩
    have hfp : f.params = s.params := by rw [hf]; exact sample_params s
    subst e
    refine ⟨afterInstr_legal i start last _ (exec_legal hfl hs hx), ?_⟩
    rw [afterInstr_params, (legalFrame_exec hx).params, hfp]

end Sys2Proof.Machine
end

section
/-! PROOFS. The state after reset, and what a reset step leaves (O10, O14). -/

namespace Sys2Proof.Machine

/-- A step with RESET high resets the sampled state, whatever else holds. -/
theorem step_of_reset {s : State} (h : (sample s).pins.reset = true) : step s = .next (resetState (sample s)) :=
  if_pos h

/-- The st0 that a write of 0 leaves has every bit clear. -/
theorem St0.ofWord_zero :
    St0.ofWord 0 = ⟨false, false, false, false, false, false, false, false, false, false, false, false⟩ := by decide

theorem defaultParams_wf : Params.default.wf = true := by decide +kernel

/-- Settles O14, field by field. -/
theorem resetLegal : Obligations.ResetLegal where
  mem := reset_mem_wf
  stack := Nat.zero_le 16
  late := Nat.zero_le 2
  lateClear := nofun
  repeat1 := nofun
  pending h := absurd rfl h
  stored := rfl
  params := defaultParams_wf

namespace Reset

/-- Settles O10: the step is the model's `resetState` of the sampled state, and `State.reset` is read off. -/
theorem resetState : Obligations.ResetState := by
  refine ⟨fun s h => ?_, rfl, rfl, rfl, rfl, rfl, rfl, rfl, rfl, rfl, rfl, rfl, rfl, rfl, rfl, rfl, rfl, rfl⟩
  rw [step_of_reset h, Machine.resetState, St0.ofWord_zero]

end Reset
end Sys2Proof.Machine
end

section
/-! PROOFS. The 36-bit results as exact numbers: the flags, the shifted product, norm (O27, O32, O40). -/

namespace Sys2Proof.Machine

/-! The flags of a result. -/

theorem inBits31_iff (v : Int) : inBits 31 v = true ↔ -1073741824 ≤ v ∧ v < 1073741824 := by
  rw [inBits_iff]; norm_num

theorem inBits32_iff (v : Int) : inBits 32 v = true ↔ -2147483648 ≤ v ∧ v < 2147483648 := by
  rw [inBits_iff]; norm_num

/-- Where the value fits in 32 bits, bits 31 and 30 differ exactly where it does not fit in 31 (R54). -/
theorem bit31_ne_bit30 {v : Accum} (h : inBits 32 v.toInt = true) :
    (v.getLsbD 31 != v.getLsbD 30) = !inBits 31 v.toInt := by
  have hc := BitVec.toInt_eq_toNat_cond v
  have hl := v.isLt
  rw [inBits32_iff] at h
  rw [Bool.eq_iff_iff, Bool.not_eq_true', ← Bool.not_eq_true, inBits31_iff]
  simp only [BitVec.getLsbD, Nat.testBit_eq_decide_div_mod_eq, bne_iff_ne, ne_eq, decide_eq_decide]
  split at hc <;> omega

/-- Settles O27: Z by the value 0, M by the sign bit, E by `fits32_eq`, N by `bit31_ne_bit30`. -/
theorem resultFlags : Obligations.ResultFlags := by
  intro f out
  have hz : (out == 0) = decide (out.toInt = 0) := by
    rw [Bool.eq_iff_iff, beq_iff_eq, decide_eq_true_iff, ← BitVec.toInt_inj]; rfl
  have hn : (inBits 32 out.toInt && (out.getLsbD 31 != out.getLsbD 30)) =
      (inBits 32 out.toInt && !inBits 31 out.toInt) := by
    cases h : inBits 32 out.toInt
    · rfl
    · rw [bit31_ne_bit30 h]
  simp only [setZMNE, zmneOf, hz, bit35_eq, fits32_eq, Bool.not_not, hn]

/-! Shifts. -/

theorem sshiftRight_eq (v : Accum) (k : Nat) : v.sshiftRight k = BitVec.ofInt 36 (v.toInt / 2 ^ k) := by
  rw [BitVec.sshiftRight, Int.shiftRight_eq_div_pow]; norm_cast

theorem shiftLeft_eq (v : Accum) (k : Nat) : v <<< k = BitVec.ofInt 36 (v.toInt * 2 ^ k) := by
  rw [BitVec.shiftLeft_eq_mul_twoPow, BitVec.ofInt_mul, BitVec.ofInt_toInt]
  congr 1
  apply BitVec.eq_of_toNat_eq
  rw [BitVec.toNat_twoPow, BitVec.toNat_ofInt]; norm_cast

/-- The bits above the low n - 1 are copies of the sign exactly where the number fits in n bits. -/
theorem fitsIn_eq (v : Accum) (n : Nat) : fitsIn v n = inBits n v.toInt := by
  have hp : (0 : Int) < 2 ^ (n - 1) := by positivity
  have hs : (v.sshiftRight (n - 1)).toInt = v.toInt / 2 ^ (n - 1) := by
    rw [BitVec.toInt_sshiftRight, Int.shiftRight_eq_div_pow]; norm_cast
  have h0 : v.sshiftRight (n - 1) = 0 ↔ v.toInt / 2 ^ (n - 1) = 0 := by rw [← BitVec.toInt_inj, hs]; rfl
  have h1 : v.sshiftRight (n - 1) = BitVec.allOnes 36 ↔ v.toInt / 2 ^ (n - 1) = -1 := by
    rw [← BitVec.toInt_inj, hs]; rfl
  rw [Bool.eq_iff_iff, inBits_iff, fitsIn, Bool.or_eq_true, beq_iff_eq, beq_iff_eq, h0, h1,
    Int.ediv_eq_iff_of_pos hp, Int.ediv_eq_iff_of_pos hp]
  omega

/-! The shifted product. -/

theorem signExtend36_product (p : Product) : p.signExtend 36 = BitVec.ofInt 36 p.toInt := by simp [BitVec.signExtend]

theorem toInt_product (p : Product) : (p.signExtend 36).toInt = p.toInt :=
  BitVec.toInt_signExtend_of_le (by decide)

/-- The four values of SP. -/
theorem sp_cases (s : State) : s.st1.sp = 0 ∨ s.st1.sp = 1 ∨ s.st1.sp = 2 ∨ s.st1.sp = 3 := by
  generalize s.st1.sp = c
  revert c; decide

theorem shiftedP_eq {s : State} (h : s.st1.sp ≠ 3) : shiftedP s = .next (BitVec.ofInt 36 (shiftedNumber s)) := by
  rcases sp_cases s with e | e | e | e
  · simp [shiftedP, shiftedNumber, e, signExtend36_product]
  · simp [shiftedP, shiftedNumber, e, sshiftRight_eq, toInt_product]
  · simp [shiftedP, shiftedNumber, e, shiftLeft_eq, toInt_product]
  · exact absurd e h

theorem shiftedP_reserved {s : State} (h : s.st1.sp = 3) : shiftedP s = .refused .spReserved := by
  simp [shiftedP, h]

/-- Settles O32: the result by the value of SP, and no loss by the range of p. -/
theorem shiftedProduct : Obligations.ShiftedProduct := fun s =>
  ⟨fun h => ⟨shiftedP_eq h, toInt_ofInt36 (inBits36_shifted s)⟩, shiftedP_reserved⟩

/-! norm. -/

@[simp] theorem modified_setAcc (n : Fin 6) (m : PostMod) (s : State) (x : Acc) (v : Accum) :
    modified n m (s.setAcc x v) = modified n m s := by cases x <;> rfl

theorem inBits36_double (v : Int) : inBits 36 (2 * v) = inBits 35 v := by
  rw [Bool.eq_iff_iff, inBits_iff, inBits_iff]; norm_num; omega

/-- The flags of an adder's output whose overflow and value belong to the exact number v. -/
theorem setArith_eq (f : St0) (v : Int) (c : Bool) :
    setArith f ⟨BitVec.ofInt 36 v, c, !inBits 36 v⟩ = arithOf f v c := by
  simp only [setArith, arithOf, resultFlags f]

/-- The doubling of norm, with what the adder would answer. -/
theorem normalize_eq (x : Acc) (n : Fin 6) (m : PostMod) (s : State) :
    normalize x n m s =
      let a := (s.acc x).toInt
      let o := modified n m s
      { s.setAcc x (BitVec.ofInt 36 (2 * a)) with
        r := s.r.set n o.1
        st0 := { arithOf s.st0 (2 * a) (decide (a < 0)) with r := decide (o.1 = 0) && !o.2 } } := by
  have hv : s.acc x <<< 1 = BitVec.ofInt 36 (2 * (s.acc x).toInt) := by rw [shiftLeft_eq, pow_one, mul_comm]
  have hr : rFlag (modified n m s) = (decide ((modified n m s).1 = 0) && !(modified n m s).2) := rfl
  simp only [normalize, postMod_eq, modified_setAcc, hr, hv, bit35_eq, fitsIn_eq, ← inBits36_double, setArith_eq,
    State.setFlags, State.setAcc_r]

/-- Settles O40, by the two values of N. -/
theorem normStep : Obligations.NormStep := by
  intro x n m s a o
  refine ⟨fun h => ?_, fun h => ?_⟩
  · show execNorm x n m s = _
    rw [execNorm, if_pos h]
  · show execNorm x n m s = _
    rw [execNorm, if_neg (by simp [h]), normalize_eq]

end Sys2Proof.Machine
end

section
/-! PROOFS. Registers as 16-bit sources and destinations, and the status registers as words (O28, O30, O31). -/

namespace Sys2Proof.Machine

/-! Reading registers. -/

theorem nextIsLast_iff {s : State} : s.nextIsLast = true ↔ EndsAt s.pc s.bkEnd s := endsAt_iff

/-- A store over the next instruction changes memory alone. -/
theorem storing_eq (v : Word) (s : State) : s.storing v = { s with mem := (s.storing v).mem } := by
  unfold State.storing; split <;> rfl

theorem lpReadOpen_iff {v : Word} {s : State} : s.lpReadOpen v = true ↔ LpOpen v s := by
  have hn : (s.storing v).nextIsLast = true ↔ EndsAt s.pc s.bkEnd (s.storing v) := by
    rw [nextIsLast_iff, storing_eq]
  rw [State.lpReadOpen, Bool.and_eq_true, hn, LpOpen]

theorem lcReadOpen_iff {v : Word} {s : State} : s.lcReadOpen v = true ↔ LcOpen v s := by
  have hn : (s.storing v).nextIsLast = true ↔ EndsAt s.pc s.bkEnd (s.storing v) := by
    rw [nextIsLast_iff, storing_eq]
  simp only [State.lcReadOpen, LcOpen, State.isLast, Bool.and_eq_true, Bool.or_eq_true, beq_iff_eq, hn]

theorem readLc_open {s : State} (h : LcOpen (Config.freeWord s.freeCtr) s) :
    readLc s = (Config.freeWord s.freeCtr, { s with freeCtr := s.freeCtr + 1 }) := if_pos (lcReadOpen_iff.2 h)

theorem readLc_closed {s : State} (h : ¬ LcOpen (Config.freeWord s.freeCtr) s) : readLc s = (s.lc, s) :=
  if_neg (mt lcReadOpen_iff.1 h)

theorem takeOff_cons {s : State} {v : Slot} {rest : List Slot} (h : s.stk = v :: rest) :
    takeOff s = .next (v.value,
      { s with stk := rest, irqTaken := if v.irq then v.value :: s.irqTaken else s.irqTaken }) :=
  takeOff_eq_next.2 ⟨v, rest, h, rfl⟩

theorem takeOff_nil {s : State} (h : s.stk = []) : takeOff s = .fault .stackUnderflow :=
  takeOff_eq_fault.2 ⟨h, rfl⟩

/-- Settles O28, register by register; tos by the stack, lc by whether its value is open. -/
theorem registerReads : Obligations.RegisterReads := by
  intro b s
  refine ⟨fun _ => rfl, rfl, rfl, rfl, rfl, rfl, fun _ => rfl, fun v rest h => takeOff_cons h, takeOff_nil, ?_, rfl,
    fun _ => rfl⟩
  refine ⟨Config.freeWord s.freeCtr, fun h => ?_, fun h => ?_⟩
  · show Host.Outcome.next (readLc s) = _
    rw [readLc_open h]
  · show Host.Outcome.next (readLc s) = _
    rw [readLc_closed h]

/-! The status registers as words. -/

/-- A concatenation as a number. -/
theorem toNat_append_eq {n m : Nat} (x : BitVec n) (y : BitVec m) :
    (x ++ y).toNat = x.toNat * 2 ^ m + y.toNat := by
  rw [BitVec.toNat_append, ← Nat.shiftLeft_add_eq_or_of_lt y.isLt, Nat.shiftLeft_eq]

theorem St0.toWord_bits (f : St0) (o : BitVec 4) :
    let v := f.toWord o
    v[11] = f.z ∧ v[10] = f.m ∧ v[9] = f.n ∧ v[8] = f.v ∧ v[7] = f.c ∧ v[6] = f.e ∧ v[5] = f.l ∧ v[4] = f.r ∧
      v[3] = f.im1 ∧ v[2] = f.im0 ∧ v[1] = f.ie ∧ v[0] = f.sat := by
  dsimp only
  simp only [← BitVec.getLsbD_eq_getElem]
  unfold St0.toWord
  and_intros
  all_goals
    repeat rw [BitVec.getLsbD_append]
    simp

theorem St1.toWord_fields (t : St1) (o : BitVec 6) :
    (t.toWord o).toNat / 1024 % 4 = t.sp.toNat ∧ (t.toWord o).toNat % 256 = t.page.toNat := by
  have hs := t.sp.isLt
  have hp := t.page.isLt
  have ho := (o.extractLsb' 0 2).isLt
  simp only [St1.toWord, toNat_append_eq]
  omega

theorem St2.toWord_fields (t : St2) (p : Pins) (lp : Bool) (o : BitVec 2) :
    let v := t.toWord p lp o
    v[15] = p.int1 ∧ v[14] = p.int0 ∧ v[13] = t.stp ∧ v[12] = lp ∧ v[11] = p.iuser1 ∧ v[10] = p.iuser0 ∧
      v[9] = t.ou1 ∧ v[8] = t.ou0 ∧ v.toNat % 64 = t.m.toNat := by
  have hm : (t.toWord p lp o).toNat % 64 = t.m.toNat := by
    have := t.m.isLt
    rw [St2.toWord, toNat_append_eq]
    omega
  dsimp only
  simp only [← BitVec.getLsbD_eq_getElem, hm, and_true]
  unfold St2.toWord
  and_intros
  all_goals
    repeat rw [BitVec.getLsbD_append]
    simp

/-- A read of st2 gives every bit but LP, and LP too where it is not open. -/
theorem readSt2_eq (s : State) : ∃ (lp : Bool) (o : BitVec 2),
    readSt2 s = (s.st2.toWord s.pins lp o, { s with freeCtr := s.freeCtr + 1 }) ∧
      (¬ LpOpen (s.st2.toWord s.pins lp o) s → lp = s.st2.lp) := by
  let o := (Config.freeWord s.freeCtr).extractLsb' 0 2
  let lp := (Config.freeWord s.freeCtr).getLsbD 2
  by_cases h : LpOpen (s.st2.toWord s.pins lp o) s
  · exact ⟨lp, o, congrArg (·, _) (if_pos (lpReadOpen_iff.2 h)), fun n => absurd h n⟩
  · exact ⟨s.st2.lp, o, congrArg (·, _) (if_neg (mt lpReadOpen_iff.1 h)), fun _ => rfl⟩

/-- Settles O30: each register by what its word is made of. -/
theorem statusReads : Obligations.StatusReads := by
  intro b s
  refine ⟨⟨(readSt0 s).1, congrArg (fun u => Host.Outcome.next ((readSt0 s).1, u)) (readSt0_snd s), fun h => ?_⟩,
    ⟨(readSt1 s).1, rfl, s.st1.toWord_fields _⟩, ?_⟩
  · have hv : (readSt0 s).1 = s.st0.toWord ((Config.freeWord s.freeCtr).extractLsb' 0 4) := by
      simp only [readSt0, h, Bool.false_eq_true, if_false]; rfl
    rw [hv]
    exact s.st0.toWord_bits _
  · obtain ⟨lp, o, he, hlp⟩ := readSt2_eq s
    obtain ⟨h15, h14, h13, h12, rest⟩ := s.st2.toWord_fields s.pins lp o
    exact ⟨_, congrArg Host.Outcome.next he, h15, h14, h13, fun hn => h12.trans (hlp hn), rest⟩

/-! Writing registers. -/

/-- The value that a move to aXh gives is the number times 2^16. -/
theorem wideOfHigh_eq (v : Word) : wideOfHigh v = BitVec.ofInt 36 (v.toInt * 65536) := highOperand_eq v

theorem wideOfLow_eq (v : Word) : wideOfLow v = BitVec.ofNat 36 v.toNat :=
  BitVec.eq_of_toNat_eq (by simp [wideOfLow])

/-- A move into an accumulator, with the flags as facts about the number. -/
theorem moveAcc_eq_moved (x : Acc) (v : Accum) (s : State) : moveAcc x v s = moved x v s := by
  cases x <;> simp only [moveAcc, moved, resultFlags s.st0 v] <;> rfl

theorem writePh_eq (v : Word) (s : State) :
    writePh v s = { s with p := BitVec.ofNat 32 (v.toNat * 65536 + s.p.toNat % 65536) } := by
  have h : v ++ s.p.extractLsb' 0 16 = BitVec.ofNat 32 (v.toNat * 65536 + s.p.toNat % 65536) := by
    have := v.isLt
    apply BitVec.eq_of_toNat_eq
    rw [toNat_append_eq, BitVec.toNat_ofNat, BitVec.extractLsb'_toNat]
    omega
  rw [writePh, h]

theorem St1.ofWord_eq (v : Word) : St1.ofWord v = ⟨BitVec.ofNat 2 (v.toNat / 1024), BitVec.ofNat 8 v.toNat⟩ := by
  have hs : v.extractLsb' 10 2 = BitVec.ofNat 2 (v.toNat / 1024) :=
    BitVec.eq_of_toNat_eq (by simp [Nat.shiftRight_eq_div_pow])
  have hp : v.extractLsb' 0 8 = BitVec.ofNat 8 v.toNat := BitVec.eq_of_toNat_eq (by simp)
  rw [St1.ofWord, hs, hp]

theorem writeSt2_eq_written (v : Word) (s : State) : writeSt2 v s = written .st2 v s := by
  have hm : v.extractLsb' 0 6 = BitVec.ofNat 6 v.toNat := BitVec.eq_of_toNat_eq (by simp)
  simp only [writeSt2, written, hm, Bool.and_eq_true]; rfl

/-- A write that does not stop does what `written` says. -/
theorem regWrite_written {c : Reg} {v : Word} {s : State} (h : Writable c v s) :
    regWrite c v s = .next (written c v s) := by
  obtain ⟨htos, hlc, hpc⟩ := h
  cases c
  case acc x => rw [regWrite, wideOfAcc, signExtend36, moveAcc_eq_moved]; rfl
  case acch x => rw [regWrite, wideOfHigh_eq, moveAcc_eq_moved]; rfl
  case accl x => rw [regWrite, wideOfLow_eq, moveAcc_eq_moved]; rfl
  case p => rw [regWrite, writePh_eq]; rfl
  case pc =>
    have hb : (s.loopLiveAfter 2 && v == s.bkEnd) = false := by
      rw [Bool.and_eq_false_iff, beq_eq_false_iff_ne, ← Bool.not_eq_true, loopLiveAfter_iff]
      exact not_or_of_imp fun hl => hpc rfl hl
    rw [regWrite, writePc, hb]; rfl
  case lc => rw [regWrite, writeLc, hlc rfl]; rfl
  case tos => exact putOn_eq_next.2 ⟨htos rfl, rfl⟩
  case st1 => rw [regWrite, St1.ofWord_eq]; rfl
  case st2 => rw [regWrite, writeSt2_eq_written]
  case st0 | r | x | y | cfgi | cfgj | ext => rfl

/-- Settles O31: `regWrite_written`, and the three stops. -/
theorem registerWrites : Obligations.RegisterWrites := by
  intro c v s
  refine ⟨regWrite_written, ?_, ?_, ?_⟩
  · rintro rfl hs
    exact putOn_eq_fault.2 ⟨hs, rfl⟩
  · rintro rfl hl
    rw [regWrite, writeLc, hl]; rfl
  · rintro rfl hl rfl
    rw [regWrite, writePc, loopLiveAfter_iff.2 hl, beq_self_eq_true]; rfl

end Sys2Proof.Machine
end

section
/-! PROOFS. Who may change the special registers and the interrupt controls, and that the environment's inputs are
taken at the start of a step alone (O12, O18, O19). -/

namespace Sys2Proof.Machine

/-- s without all that many instructions write: `State.blank`, which leaves out what the ALU, moda and multiply groups
write, but with p, and without pc, memory, and the notes of a store and of a pending pc write. -/
def State.special (s : State) : State :=
  { s.blank with p := s.p, pc := 0, mem := [], storeNow := none, pcPending := none }

/-- What the instruction i leaves of the registers and control bits that only a few instructions write. -/
structure SpecialFrame (i : Instr) (s t : State) : Prop where
  p : multiplies i = false → movesTo i ≠ some .p → t.p = s.p
  lc : isBkrep i = false → movesTo i ≠ some .lc → t.lc = s.lc
  cfgi : movesTo i ≠ some .cfgi → t.cfgi = s.cfgi
  cfgj : movesTo i ≠ some .cfgj → t.cfgj = s.cfgj
  st1 : movesTo i ≠ some .st1 → t.st1.sp = s.st1.sp ∧ (isLpg i = false → t.st1.page = s.st1.page)
  st2 : movesTo i ≠ some .st2 →
    t.st2.stp = s.st2.stp ∧ t.st2.ou1 = s.st2.ou1 ∧ t.st2.ou0 = s.st2.ou0 ∧ t.st2.m = s.st2.m
  block : isBkrep i = false → (s.st2.lp = false → t.st2.lp = false) ∧ t.bkStart = s.bkStart ∧ t.bkEnd = s.bkEnd
  repeat1 : isRepeat i = false → t.repCnt = s.repCnt ∧ t.repArmed = s.repArmed
  active : t.repActive = s.repActive
  ext : ∀ k, movesTo i ≠ some (.ext k) → t.extReg k = s.extReg k
  masks : movesTo i ≠ some .st0 → t.st0.im0 = s.st0.im0 ∧ t.st0.im1 = s.st0.im1 ∧ t.st0.sat = s.st0.sat
  ie : movesTo i ≠ some .st0 → i ≠ .eint → i ≠ .dint → i ≠ .reti → t.st0.ie = s.st0.ie
  service : i ≠ .trap → i ≠ .reti → t.inTrap = s.inTrap ∧ t.inBpi = s.inBpi
  environment : t.inputs = s.inputs ∧ t.pins = s.pins

/-! What the shared operations leave. -/

theorem special_of_kept {rr : Bool} {s t : State} (h : Kept false rr s t) : t.special = s.special := by
  simp only [State.special, h.rest, h.p rfl]

theorem special_mem {s t : State} (h : MemFrame s t) : t.special = s.special :=
  special_of_kept (rr := false) (.of_mem h)

theorem special_read {s t : State} (h : ReadFrame s t) : t.special = s.special :=
  special_of_kept (rr := false) (.of_read h)

@[simp] theorem special_readInd (n : Fin 6) (m : PostMod) (s : State) : (readInd n m s).2.special = s.special :=
  special_of_kept (kept_readInd false false n m s)

@[simp] theorem special_readDir (a : BitVec 8) (s : State) : (readDir a s).2.special = s.special :=
  special_mem (dataRead_frame ..)

@[simp] theorem special_progRead (a : Word) (s : State) : (progRead a s).2.special = s.special :=
  special_mem (progRead_frame a s)

@[simp] theorem special_free (s : State) : s.free.2.special = s.special := rfl

@[simp] theorem special_postMod (n : Fin 6) (m : PostMod) (s : State) : (postMod n m s).special = s.special := rfl

@[simp] theorem special_moveAcc (x : Acc) (v : Accum) (s : State) : (moveAcc x v s).special = s.special :=
  special_of_kept (kept_moveAcc false false x v s)

/-- A write of an accumulator with Z M N E of another value. -/
theorem special_setAcc_zmne (x : Acc) (v w : Accum) (s : State) :
    ((s.setAcc x v).setFlags (setZMNE s.st0 w)).special = s.special := by
  cases x <;> rfl

@[simp] theorem special_noteLimit (b : Bool) (x : Acc) (s : State) : (noteLimit b x s).special = s.special := rfl

@[simp] theorem special_announced (a : Word) (s : State) : (s.announced a).special = s.special := by
  rw [announced_eq]; rfl

@[simp] theorem special_dataWrite (a v : Word) (s : State) : (dataWrite a v s).special = s.special := by
  obtain ⟨m, c, b, e⟩ := dataWrite_frame a v s
  rw [e]; rfl

@[simp] theorem special_writeRnStar (q : RnStar) (v : Word) (s : State) :
    (writeRnStar q v s).special = s.special := by
  cases q <;> rfl

theorem special_jumpTo {a : Word} {s t : State} (h : jumpTo a s = .next t) : t.special = s.special := by
  obtain ⟨-, rfl⟩ := jumpTo_eq_next.1 h; rfl

theorem special_callTo {a : Word} {s t : State} (h : callTo a s = .next t) : t.special = s.special := by
  obtain ⟨-, -, rfl⟩ := callTo_eq_next.1 h; rfl

theorem special_returnTo {s t : State} (h : returnTo s = .next t) : t.special = s.special := by
  obtain ⟨v, rest, -, -, rfl⟩ := returnTo_eq_next.1 h; rfl

theorem special_cond {cc : Cond} {k : Out} {s t : State} (h : (if condTrue cc s then k else .next s) = .next t)
    (hk : k = .next t → t.special = s.special) : t.special = s.special := by
  split at h
  · exact hk h
  · cases h; rfl

namespace SpecialFrame

variable {i : Instr} {s t u : State}

theorem refl (i : Instr) (s : State) : SpecialFrame i s s :=
  ⟨fun _ _ => rfl, fun _ _ => rfl, fun _ => rfl, fun _ => rfl, fun _ => ⟨rfl, fun _ => rfl⟩,
    fun _ => ⟨rfl, rfl, rfl, rfl⟩, fun _ => ⟨id, rfl, rfl⟩, fun _ => ⟨rfl, rfl⟩, rfl, fun _ _ => rfl,
    fun _ => ⟨rfl, rfl, rfl⟩, fun _ _ _ _ => rfl, fun _ _ => ⟨rfl, rfl⟩, ⟨rfl, rfl⟩⟩

/-- The frame speaks of the special part of the state before alone. -/
theorem special_iff : SpecialFrame i s.special t ↔ SpecialFrame i s t :=
  ⟨fun h => ⟨h.p, h.lc, h.cfgi, h.cfgj, h.st1, h.st2, h.block, h.repeat1, h.active, h.ext, h.masks, h.ie, h.service,
      h.environment⟩,
    fun h => ⟨h.p, h.lc, h.cfgi, h.cfgj, h.st1, h.st2, h.block, h.repeat1, h.active, h.ext, h.masks, h.ie, h.service,
      h.environment⟩⟩

/-- What leaves the special part alone may come before what the frame speaks of. -/
theorem after (hs : u.special = s.special) (h : SpecialFrame i u t) : SpecialFrame i s t :=
  special_iff.1 (hs ▸ special_iff.2 h)

/-- An instruction that leaves the special part alone. -/
theorem of_special (h : t.special = s.special) : SpecialFrame i s t := after h (refl i t)

/-- The instructions of the ALU, moda and multiply groups. -/
theorem of_kept {rr : Bool} (h : Kept (multiplies i) rr s t) : SpecialFrame i s t := by
  have e : t.special = { s with p := t.p }.special := by simp only [State.special, h.rest]; rfl
  have f := of_special (i := i) e
  exact ⟨fun hm _ => h.p hm, f.lc, f.cfgi, f.cfgj, f.st1, f.st2, f.block, f.repeat1, f.active, f.ext, f.masks, f.ie,
    f.service, f.environment⟩

/-- A write of a register is the move to it. -/
theorem of_regWrite {c : Reg} {v : Word} (h : regWrite c v s = .next t) (hc : movesTo i = some c) :
    SpecialFrame i s t := by
  have w := (regWrite_frame h).1
  have other {d : Reg} (hd : movesTo i ≠ some d) : c ≠ d := fun e => hd (by rw [hc, e])
  have hst2 : t.st2.lp = true → s.st2.lp = true := fun hl => (w.lp hl).1
  have hr := w.rest
  exact {
    p := fun _ hd => w.p (other hd)
    lc := fun _ hd => w.lc (other hd)
    cfgi := fun hd => w.cfgi (other hd)
    cfgj := fun hd => w.cfgj (other hd)
    st1 := fun hd => by rw [w.st1 (other hd)]; exact ⟨rfl, fun _ => rfl⟩
    st2 := fun hd => by rw [(w.st2 (other hd)).1]; exact ⟨rfl, rfl, rfl, rfl⟩
    block := fun _ => ⟨fun hl => by simpa [hl] using hst2, by rw [hr], by rw [hr]⟩
    repeat1 := fun _ => by rw [hr]; exact ⟨rfl, rfl⟩
    active := by rw [hr]
    ext := fun k hd => w.ext k (other hd)
    masks := fun hd => by rw [w.st0 (other hd)]; exact ⟨rfl, rfl, rfl⟩
    ie := fun hd _ _ _ => by rw [w.st0 (other hd)]
    service := fun _ _ => by rw [hr]; exact ⟨rfl, rfl⟩
    environment := by rw [hr]; exact ⟨rfl, rfl⟩ }

/-- rep arms the repeat. -/
theorem of_armRepeat (k : BitVec 8) (s : State) (hi : isRepeat i = true) : SpecialFrame i s (armRepeat k s) :=
  { refl i s with repeat1 := fun e => by simp [hi] at e }

/-- bkrep writes lc, sets LP and notes the loop. -/
theorem of_startBlock (last lc : Word) (s : State) (hi : isBkrep i = true) :
    SpecialFrame i s (startBlock last { s with lc := lc }) :=
  { refl i s with lc := fun e => by simp [hi] at e, block := fun e => by simp [hi] at e }

/-- trap and reti write the in-service bits, and reti writes IE. -/
theorem of_enterTrap (h : enterTrap s = .next t) : SpecialFrame .trap s t := by
  obtain ⟨-, -, rfl⟩ := enterTrap_eq_next.1 h
  exact { refl .trap s with service := fun e => absurd rfl e }

theorem of_endRoutine (s : State) : SpecialFrame .reti s (endRoutine s) := by
  rw [endRoutine_eq]
  exact { refl .reti s with ie := fun _ _ _ e => absurd rfl e, service := fun _ e => absurd rfl e }

end SpecialFrame

open SpecialFrame

/-! The instructions. -/

theorem specialFrame_moveGroup {i : Instr} {s t : State} (h : exec i s = .next t) (hi : isMoveGroup i = true) :
    SpecialFrame i s t := by
  cases i <;> cases hi
  case movpAccReg x c =>
    obtain ⟨a, -, h⟩ := andThen_eq_next.1 h
    exact after (special_progRead a s) (of_regWrite h rfl)
  case movpIndInd n m j k =>
    obtain ⟨-, h⟩ := refuseIf_eq_next.1 h
    cases h; exact of_special (by simp)
  case movRegInd c n m =>
    obtain ⟨-, h⟩ := refuseIf_eq_next.1 h
    obtain ⟨-, h⟩ := refuseIf_eq_next.1 h
    obtain ⟨-, h⟩ := refuseIf_eq_next.1 h
    obtain ⟨o, ho, h⟩ := andThen_eq_next.1 h
    cases h; exact of_special (by simp [special_read (regRead_frame ho).1])
  case movIndReg n m c =>
    obtain ⟨-, h⟩ := refuseIf_eq_next.1 h
    obtain ⟨-, h⟩ := refuseIf_eq_next.1 h
    exact after (special_readInd n m s) (of_regWrite h rfl)
  case movRegReg src dst =>
    rcases execMovRegReg_cases h with ⟨x, v, rfl⟩ | ⟨o, ho, h⟩
    · exact of_special (special_moveAcc x v s)
    · exact after (special_read (regRead_frame ho).1) (of_regWrite h rfl)
  case movLongReg w c => exact of_regWrite h rfl
  case movSimmRn imm q => cases h; exact of_special (special_writeRnStar ..)
  case movDirRn a q =>
    obtain ⟨-, h⟩ := refuseIf_eq_next.1 h
    cases h; exact of_special (by simp)
  case movDirAcc a x | movDirAcch a x | movDirAccl a x => cases h; exact of_special (by simp)
  case movDirAcchEu a x =>
    cases h; exact of_special ((special_setAcc_zmne ..).trans (special_readDir a s))
  case movRnDir q a => cases h; exact of_special (special_dataWrite ..)
  case movAcclDir x a | movAcchDir x a => cases h; exact of_special (special_dataWrite ..)
  case movImmAccl imm x | movSimmAcch imm x => cases h; exact of_special (special_moveAcc ..)

theorem specialFrame_controlGroup {i : Instr} {s t : State} (h : exec i s = .next t) (hi : isControlGroup i = true) :
    SpecialFrame i s t := by
  cases i <;> cases hi
  case nop | modr => cases h; exact of_special rfl
  case eint => cases h; exact { refl .eint s with ie := fun _ e => absurd rfl e }
  case dint => cases h; exact { refl .dint s with ie := fun _ _ e => absurd rfl e }
  case lpg imm => cases h; exact { refl (.lpg imm) s with st1 := fun _ => ⟨rfl, nofun⟩ }
  case trap => exact of_enterTrap (refuseIf_eq_next.1 h).2
  case br | brr => exact of_special (special_cond h special_jumpTo)
  case call | callr => exact of_special (special_cond h special_callTo)
  case calla =>
    obtain ⟨a, -, h⟩ := andThen_eq_next.1 h
    exact of_special (special_callTo h)
  case ret => exact of_special (special_cond h special_returnTo)
  case reti =>
    obtain ⟨u, hu, rfl⟩ := returnFromException_eq_next.1 h
    exact after (special_returnTo hu) (of_endRoutine u)
  case repImm imm => cases h; exact of_armRepeat imm s rfl
  case repReg c =>
    obtain ⟨o, ho, h⟩ := andThen_eq_next.1 h
    cases h; exact after (special_read (regRead_frame ho).1) (of_armRepeat _ _ rfl)
  case bkrepImm imm last =>
    obtain ⟨-, h⟩ := refuseIf_eq_next.1 h
    cases h; exact after (special_free s) (of_startBlock last _ _ rfl)
  case bkrepReg c last =>
    obtain ⟨-, h⟩ := refuseIf_eq_next.1 h
    obtain ⟨-, h⟩ := refuseIf_eq_next.1 h
    obtain ⟨-, h⟩ := refuseIf_eq_next.1 h
    obtain ⟨o, ho, h⟩ := andThen_eq_next.1 h
    cases h; exact after (special_read (regRead_frame ho).1) (of_startBlock last _ _ rfl)
  case unused => cases h

theorem specialFrame_exec {i : Instr} {s t : State} (h : exec i s = .next t) : SpecialFrame i s t := by
  rcases group_cases i with hi | hi | hi | hi | hi
  · exact of_kept (kept_aluGroup h hi)
  · exact of_kept (kept_modaGroup h hi)
  · exact of_kept (kept_mulGroup h hi)
  · exact specialFrame_moveGroup h hi
  · exact specialFrame_controlGroup h hi

/-- Settles O18, from `specialFrame_exec`. -/
theorem specialRegisterWriters : Obligations.SpecialRegisterWriters := by
  intro i s t h
  have f := specialFrame_exec h
  exact ⟨f.p, f.lc, f.cfgi, f.cfgj, f.st1, f.st2, f.block, f.repeat1, f.active, f.ext⟩

/-- Settles O19, from `specialFrame_exec`. -/
theorem interruptControls : Obligations.InterruptControls := by
  intro i s t h
  have f := specialFrame_exec h
  refine ⟨fun hm => ?_, f.service⟩
  obtain ⟨h0, h1, hs⟩ := f.masks hm
  exact ⟨h0, h1, hs, f.ie hm⟩

/-! The inputs. -/

theorem applyExt_append (l k : List (Fin 8 × Word)) (s : State) : applyExt (l ++ k) s = applyExt k (applyExt l s) := by
  induction l generalizing s with
  | nil => rfl
  | cons a l ih => exact ih _

/-- An ext register that no change names is as before. -/
theorem applyExt_extReg_other {k : Fin 8} {l : List (Fin 8 × Word)} (s : State) (h : ∀ q ∈ l, q.1 ≠ k) :
    (applyExt l s).extReg k = s.extReg k := by
  induction l generalizing s with
  | nil => rfl
  | cons a l ih =>
    obtain ⟨ha, hl⟩ := List.forall_mem_cons.1 h
    exact (ih _ hl).trans (State.setExt_extReg_ne s a.2 ha.symm)

/-- The last change of an ext register stays. -/
theorem applyExt_extReg_last {k : Fin 8} {before after : List (Fin 8 × Word)} (v : Word) (s : State)
    (h : ∀ q ∈ after, q.1 ≠ k) : (applyExt (before ++ (k, v) :: after) s).extReg k = v := by
  rw [applyExt_append]
  exact (applyExt_extReg_other _ h).trans (State.setExt_extReg_same _ k v)

theorem sample_nil {s : State} (h : s.inputs = []) :
    sample s = { s with pins := Pins.low, iack := false, answers := [], bus := [] } := by
  simp only [sample, h]

theorem sample_cons {s : State} {e : EnvInput} {rest : List EnvInput} (h : s.inputs = e :: rest) :
    sample s =
      { applyExt e.ext s with pins := e.pins, inputs := rest, iack := false, answers := e.answers, bus := [] } := by
  simp only [sample, h]

/-- The sampling takes one input. -/
theorem sample_environment (s : State) :
    (sample s).inputs = s.inputs.tail ∧ (sample s).pins = (s.inputs.head?.map EnvInput.pins).getD Pins.low := by
  cases h : s.inputs with
  | nil => rw [sample_nil h]; exact ⟨h, rfl⟩
  | cons e rest => rw [sample_cons h]; exact ⟨rfl, rfl⟩

theorem repUnit_environment (b : Bool) (start : Word) (s : State) :
    (repUnit b start s).2.inputs = s.inputs ∧ (repUnit b start s).2.pins = s.pins := by
  unfold repUnit; repeat' split
  all_goals exact ⟨rfl, rfl⟩

theorem blockUnit_environment (last : Word) (s : State) :
    (blockUnit last s).inputs = s.inputs ∧ (blockUnit last s).pins = s.pins := by
  unfold blockUnit; dsimp only; repeat' split
  all_goals exact ⟨rfl, rfl⟩

/-- The units after an instruction leave the environment's inputs alone. -/
theorem afterInstr_environment (i : Instr) (start last : Word) (p : Option Word) (s : State) :
    (afterInstr i start last p s).inputs = s.inputs ∧ (afterInstr i start last p s).pins = s.pins := by
  unfold afterInstr; dsimp only; split
  · exact repUnit_environment _ _ _
  · obtain ⟨hi, hp⟩ := blockUnit_environment last (settlePc p (repUnit i.isRep start (noteExecuted i s)).2)
    rw [hi, hp, settlePc_eq]
    exact repUnit_environment _ _ _

/-- No step takes more than the one input that it samples. -/
theorem step_environment {s t : State} (h : step s = .next t) :
    t.inputs = (sample s).inputs ∧ t.pins = (sample s).pins := by
  cases stepped h with
  | reset _ e => subst e; exact ⟨rfl, rfl⟩
  | stop _ e => subst e; exact ⟨rfl, rfl⟩
  | interrupt irq _ ht =>
    obtain ⟨-, -, rfl⟩ := enterInterrupt_eq_next.1 ht
    cases irq <;> exact ⟨rfl, rfl⟩
  | run i f u start last hf _ hx e =>
    obtain ⟨hi, hp⟩ := (specialFrame_exec hx).environment
    obtain ⟨hi', hp'⟩ := afterInstr_environment i start last f.pcPending u
    rw [e, hi', hp', hi, hp, hf]
    exact ⟨rfl, rfl⟩

/-- Settles O12: the sampling by the list of inputs, and what the rest of the step leaves. -/
theorem inputsSampled : Obligations.InputsSampled := by
  intro s
  refine ⟨fun e rest h => ?_, sample_nil, fun t ht => ?_⟩
  · rw [sample_cons h]
    refine ⟨rfl, rfl, rfl, ?_, fun k => applyExt_extReg_other s⟩
    intro k before v after he ha
    rw [he]
    exact applyExt_extReg_last v s ha
  · obtain ⟨hi, hp⟩ := step_environment ht
    obtain ⟨hi', hp'⟩ := sample_environment s
    exact ⟨hi.trans hi', hp.trans hp'⟩

end Sys2Proof.Machine
end

section
/-! PROOFS. Which flags an instruction may change (O17). -/

namespace Sys2Proof.Machine

/-! What leaves st0 alone. -/

theorem MemFrame.st0 {s t : State} (h : MemFrame s t) : t.st0 = s.st0 := by rw [h]

@[simp] theorem readInd_st0 (n : Fin 6) (m : PostMod) (s : State) : (readInd n m s).2.st0 = s.st0 :=
  (dataRead_frame (s.addr n) s).st0

@[simp] theorem readDir_st0 (a : BitVec 8) (s : State) : (readDir a s).2.st0 = s.st0 := (dataRead_frame _ s).st0

@[simp] theorem progRead_st0 (a : Word) (s : State) : (progRead a s).2.st0 = s.st0 := (progRead_frame a s).st0

@[simp] theorem announced_st0 (a : Word) (s : State) : (s.announced a).st0 = s.st0 := by rw [announced_eq]

@[simp] theorem dataWrite_st0 (a v : Word) (s : State) : (dataWrite a v s).st0 = s.st0 := by
  obtain ⟨m, c, b, e⟩ := dataWrite_frame a v s
  rw [e]

theorem writeRnStar_st0 (q : RnStar) (v : Word) (s : State) : (writeRnStar q v s).st0 = s.st0 := by cases q <;> rfl

theorem loadPair_st0 {j : Fin 2} {jj : PostMod} {i : Fin 4} {k : PostMod} {s t : State}
    (h : loadPair j jj i k s = .next t) : t.st0 = s.st0 := by
  obtain ⟨-, rfl⟩ := loadPair_eq_next.1 h
  exact ((dataRead_frame ..).trans (dataRead_frame ..)).st0

/-- A read of a register leaves st0, but for L where `mov` reads a half of an accumulator (R48). -/
theorem regRead_st0 {b : Bool} {c : Reg} {s : State} {o : Word × State} (h : regRead b c s = .next o) :
    o.2.st0 = s.st0 ∨
      b = true ∧ (c.isWord && ofAccumulator c) = true ∧ ∃ w, o.2.st0 = { s.st0 with l := s.st0.l || w } := by
  cases c
  case acch x | accl x =>
    cases h
    cases b
    · exact .inl (congrArg (fun l => { s.st0 with l := l }) (Bool.or_false _))
    · exact .inr ⟨rfl, rfl, _, rfl⟩
  case tos =>
    obtain ⟨v, rest, -, rfl⟩ := takeOff_eq_next.1 h
    exact .inl rfl
  case lc =>
    cases h; left
    unfold readLc; dsimp only; split <;> rfl
  case st0 => cases h; exact .inl (by rw [readSt0_snd])
  case acc | p => cases h
  all_goals cases h; exact .inl rfl

theorem regRead_false_st0 {c : Reg} {s : State} {o : Word × State} (h : regRead false c s = .next o) :
    o.2.st0 = s.st0 := (regRead_st0 h).resolve_right fun e => Bool.false_ne_true e.1

/-- The load of a register form of the multiply group. -/
theorem loadReg_st0 {c : Reg} {s : State} {f : Word × State → State} (hf : ∀ o, (f o).st0 = o.2.st0) (u : State)
    (hu : (andThen (regRead false c s) fun o => .next (f o)) = .next u) : u.st0 = s.st0 := by
  obtain ⟨o, ho, e⟩ := andThen_eq_next.1 hu
  cases e; exact (hf o).trans (regRead_false_st0 ho)

theorem wordReg_st0 {x : Acc} {c : Reg} {s : State} {o : Word × State} (h : wordReg x c s = .next o) :
    o.2.st0 = s.st0 := regRead_false_st0 (refuseIf_eq_next.1 h).2

theorem aluReg_st0 {x : Acc} {c : Reg} {s : State} {o : Src × State} (h : aluReg x c s = .next o) :
    o.2.st0 = s.st0 := by
  obtain ⟨-, h⟩ := refuseIf_eq_next.1 h
  cases c
  case acc => cases h; rfl
  case p => obtain ⟨_, -, e⟩ := andThen_eq_next.1 h; cases e; rfl
  all_goals obtain ⟨_, ho, e⟩ := andThen_eq_next.1 h; cases e; exact regRead_false_st0 ho

/-- A write of another register than st0 and the accumulators leaves st0. -/
theorem regWrite_st0 {c : Reg} {v : Word} {s t : State} (h : regWrite c v s = .next t) (hc : c ≠ .st0)
    (ha : ofAccumulator c = false) : t.st0 = s.st0 := by
  cases c
  case acc | acch | accl => cases ha
  case st0 => exact absurd rfl hc
  case pc | lc => obtain ⟨-, e⟩ := refuseIf_eq_next.1 h; cases e; rfl
  case tos => obtain ⟨-, rfl⟩ := putOn_eq_next.1 h; rfl
  all_goals cases h; rfl

theorem jumpTo_st0 {a : Word} {s t : State} (h : jumpTo a s = .next t) : t.st0 = s.st0 := by
  obtain ⟨-, rfl⟩ := jumpTo_eq_next.1 h; rfl

theorem callTo_st0 {a : Word} {s t : State} (h : callTo a s = .next t) : t.st0 = s.st0 := by
  obtain ⟨-, -, rfl⟩ := callTo_eq_next.1 h; rfl

theorem returnTo_st0 {s t : State} (h : returnTo s = .next t) : t.st0 = s.st0 := by
  obtain ⟨v, rest, -, -, rfl⟩ := returnTo_eq_next.1 h; rfl

/-! The flags that a column lists. -/

/-- g is f but for the flags in i's column, with L sticky unless i moves to st0. -/
structure FlagFrame (i : Instr) (f g : St0) : Prop where
  sticky : movesTo i ≠ some .st0 → f.l = true → g.l = true
  zmne : (flagColumn i).zmne = false → g.z = f.z ∧ g.m = f.m ∧ g.n = f.n ∧ g.e = f.e
  v : (flagColumn i).v = false → g.v = f.v
  c : (flagColumn i).c = false → g.c = f.c
  l : (flagColumn i).l = false → g.l = f.l
  r : (flagColumn i).r = false → g.r = f.r

namespace FlagFrame

variable {i : Instr} {f g k : St0} {s t u : State}

theorem of_unchanged (h : g = f) : FlagFrame i f g := by
  subst h
  exact ⟨fun _ => id, fun _ => ⟨rfl, rfl, rfl, rfl⟩, fun _ => rfl, fun _ => rfl, fun _ => rfl, fun _ => rfl⟩

theorem trans (h : FlagFrame i f g) (h' : FlagFrame i g k) : FlagFrame i f k where
  sticky e hl := h'.sticky e (h.sticky e hl)
  zmne e := by
    obtain ⟨hz, hm, hn, he⟩ := h.zmne e
    obtain ⟨hz', hm', hn', he'⟩ := h'.zmne e
    exact ⟨hz'.trans hz, hm'.trans hm, hn'.trans hn, he'.trans he⟩
  v e := (h'.v e).trans (h.v e)
  c e := (h'.c e).trans (h.c e)
  l e := (h'.l e).trans (h.l e)
  r e := (h'.r e).trans (h.r e)

/-- Z, M, N and E are set. -/
theorem of_zmne (z m n e : Bool) (hc : (flagColumn i).zmne = true) (f : St0) :
    FlagFrame i f { f with z := z, m := m, n := n, e := e } :=
  { of_unchanged (i := i) (rfl : f = f) with zmne := fun h => by simp [hc] at h }

/-- L is latched. -/
theorem of_latch (w : Bool) (hc : (flagColumn i).l = true) (f : St0) : FlagFrame i f { f with l := f.l || w } :=
  { of_unchanged (i := i) (rfl : f = f) with
    sticky := fun _ hl => by simp [hl]
    l := fun h => by simp [hc] at h }

theorem of_carry (w : Bool) (hc : (flagColumn i).c = true) (f : St0) : FlagFrame i f { f with c := w } :=
  { of_unchanged (i := i) (rfl : f = f) with c := fun h => by simp [hc] at h }

theorem of_overflow (w : Bool) (hc : (flagColumn i).v = true) (f : St0) : FlagFrame i f { f with v := w } :=
  { of_unchanged (i := i) (rfl : f = f) with v := fun h => by simp [hc] at h }

theorem of_rFlag (w : Bool) (hc : (flagColumn i).r = true) (f : St0) : FlagFrame i f { f with r := w } :=
  { of_unchanged (i := i) (rfl : f = f) with r := fun h => by simp [hc] at h }

/-- IE is no flag. -/
theorem of_ie (w : Bool) (f : St0) : FlagFrame i f { f with ie := w } := { of_unchanged (i := i) (rfl : f = f) with }

theorem of_setZMNE (out : Accum) (hc : (flagColumn i).zmne = true) (f : St0) : FlagFrame i f (setZMNE f out) :=
  of_zmne _ _ _ _ hc f

theorem of_setShift (out : Accum) (v c : Bool) (hc : flagColumn i = .shift) (f : St0) :
    FlagFrame i f (setShift f out v c) :=
  (of_setZMNE out (by rw [hc]; rfl) f).trans <|
    (of_overflow v (by rw [hc]; rfl) _).trans (of_carry c (by rw [hc]; rfl) _)

theorem of_setRotate (out : Accum) (c : Bool) (hc : flagColumn i = .rotate) (f : St0) :
    FlagFrame i f (setRotate f out c) :=
  (of_setZMNE out (by rw [hc]; rfl) f).trans (of_carry c (by rw [hc]; rfl) _)

theorem of_setArith (o : AluOut) (f : St0) (hz : (flagColumn i).zmne = true) (hv : (flagColumn i).v = true)
    (hc : (flagColumn i).c = true) (hl : (flagColumn i).l = true) : FlagFrame i f (setArith f o) :=
  (of_setZMNE o.out hz f).trans <| (of_overflow o.v hv _).trans <| (of_carry o.c hc _).trans (of_latch o.v hl _)

/-- Every arithmetic result, where the operand's read has left st0 alone. -/
theorem of_settle {x : Acc} {o : AluOut} (hu : u.st0 = s.st0) (hc : flagColumn i = .arith) :
    FlagFrame i s.st0 (settle x o u).st0 :=
  hu ▸ of_setArith o u.st0 (by rw [hc]; rfl) (by rw [hc]; rfl) (by rw [hc]; rfl) (by rw [hc]; rfl)

theorem of_compareWith {x : Acc} {b : Accum} (hu : u.st0 = s.st0) (hc : flagColumn i = .arith) :
    FlagFrame i s.st0 (compareWith x b u).st0 := of_settle (x := x) (o := sub36 (u.acc x) b) hu hc

theorem of_moveAcc {x : Acc} {v : Accum} (hu : u.st0 = s.st0) (hc : (flagColumn i).zmne = true) :
    FlagFrame i s.st0 (moveAcc x v u).st0 := hu ▸ of_setZMNE v hc u.st0

/-- An accumulator and the flags of another value. -/
theorem of_setAcc_zmne {x : Acc} {v w : Accum} (hu : u.st0 = s.st0) (hc : (flagColumn i).zmne = true) :
    FlagFrame i s.st0 ((u.setAcc x v).setFlags (setZMNE u.st0 w)).st0 := hu ▸ of_setZMNE w hc u.st0

/-- divs sets Z, M, N and E alone (R188). -/
theorem of_divideStep {x : Acc} {d : Word} (hu : u.st0 = s.st0) (hc : (flagColumn i).zmne = true) :
    FlagFrame i s.st0 (divideStep x d u).st0 := by
  cases x <;> exact hu ▸ of_zmne _ _ _ _ hc u.st0

theorem of_whenCond {cc : Cond} {k : Out} (h : whenCond cc s k = .next t)
    (hk : k = .next t → FlagFrame i s.st0 t.st0) : FlagFrame i s.st0 t.st0 := by
  unfold whenCond at h
  split at h
  · exact hk h
  · cases h; exact of_unchanged rfl

/-- A branch, call or return that its condition may leave out. -/
theorem of_cond {cc : Cond} {k : Out} (h : (if condTrue cc s then k else .next s) = .next t)
    (hk : k = .next t → t.st0 = s.st0) : FlagFrame i s.st0 t.st0 := of_whenCond h fun h => of_unchanged (hk h)

theorem of_accumulate {op : Accum → Accum → AluOut} {x : Acc} {load : Out} (h : accumulate op x s load = .next t)
    (hl : ∀ u, load = .next u → u.st0 = s.st0) (hc : flagColumn i = .arith) : FlagFrame i s.st0 t.st0 := by
  obtain ⟨q, u, -, hu, rfl⟩ := accumulate_eq_next.1 h
  exact of_settle (u := multiply u) (hl u hu) hc

/-- A read of a register by `mov`, in whose column L stands where it reads a half of an accumulator. -/
theorem of_read {c : Reg} {o : Word × State} (h : regRead true c s = .next o)
    (hc : (c.isWord && ofAccumulator c) = true → (flagColumn i).l = true) : FlagFrame i s.st0 o.2.st0 := by
  rcases regRead_st0 h with e | ⟨-, hw, w, e⟩
  · exact of_unchanged e
  · rw [e]; exact of_latch w (hc hw) _

/-- A write of a register by the move to it. -/
theorem of_regWrite {c : Reg} {v : Word} {b : Bool} (h : regWrite c v s = .next t) (hm : movesTo i = some c)
    (hc : flagColumn i = moveColumn c b) : FlagFrame i s.st0 t.st0 := by
  by_cases e : c = .st0
  · have ha : flagColumn i = .all := hc.trans (if_pos e)
    exact ⟨fun hd => absurd (by rw [hm, e]) hd, by rw [ha]; nofun, by rw [ha]; nofun, by rw [ha]; nofun,
      by rw [ha]; nofun, by rw [ha]; nofun⟩
  · cases ha : ofAccumulator c
    · exact of_unchanged (regWrite_st0 h e ha)
    · rw [(regWrite_frame h).1.st0 e]
      exact of_zmne _ _ _ _ (by rw [hc, moveColumn, if_neg e]; exact ha) _

end FlagFrame

open FlagFrame

/-! The instructions. -/

theorem flagFrame_aluGroup {i : Instr} {s t : State} (h : exec i s = .next t) (hi : isAluGroup i = true) :
    FlagFrame i s.st0 t.st0 := by
  cases i <;> cases hi
  case addReg | subReg =>
    obtain ⟨o, ho, e⟩ := andThen_eq_next.1 h
    cases e; exact of_settle (aluReg_st0 ho) rfl
  case addInd | subInd | addlInd | sublInd | addhInd | subhInd => cases h; exact of_settle (readInd_st0 ..) rfl
  case addDir | subDir | addlDir | sublDir | addhDir | subhDir => cases h; exact of_settle (readDir_st0 ..) rfl
  case addLong | addImm | subLong | subImm => cases h; exact of_settle rfl rfl
  case orReg | xorReg | andReg =>
    obtain ⟨o, ho, e⟩ := andThen_eq_next.1 h
    cases e; exact of_moveAcc (aluReg_st0 ho) rfl
  case orInd | xorInd | andInd => cases h; exact of_moveAcc (readInd_st0 ..) rfl
  case orDir | xorDir | andDir => cases h; exact of_moveAcc (readDir_st0 ..) rfl
  case orLong | orImm | xorLong | xorImm | andLong => cases h; exact of_moveAcc rfl rfl
  case andImm => cases h; exact of_setZMNE _ rfl s.st0
  case cmpReg =>
    obtain ⟨o, ho, e⟩ := andThen_eq_next.1 h
    cases e; exact of_compareWith (aluReg_st0 ho) rfl
  case cmpInd => cases h; exact of_compareWith (readInd_st0 ..) rfl
  case cmpDir => cases h; exact of_compareWith (readDir_st0 ..) rfl
  case cmpLong | cmpImm => cases h; exact of_compareWith rfl rfl
  case addlReg | sublReg | addhReg | subhReg =>
    obtain ⟨o, ho, e⟩ := andThen_eq_next.1 h
    cases e; exact of_settle (wordReg_st0 ho) rfl

theorem flagFrame_modaGroup {i : Instr} {s t : State} (h : exec i s = .next t) (hi : isModaGroup i = true) :
    FlagFrame i s.st0 t.st0 := by
  cases i <;> cases hi
  case norm x n m =>
    cases h; split
    · exact of_unchanged rfl
    · exact (of_setArith _ s.st0 rfl rfl rfl rfl).trans (of_rFlag _ rfl _)
  case shr | shl | shr4 | shl4 => exact of_whenCond h fun h => by cases h; exact of_setShift _ _ _ rfl s.st0
  case ror | rol => exact of_whenCond h fun h => by cases h; exact of_setRotate _ _ rfl s.st0
  case not | clr | copy | clrr => exact of_whenCond h fun h => by cases h; exact of_moveAcc rfl rfl
  case neg | rnd => exact of_whenCond h fun h => by cases h; exact of_settle rfl rfl
  case pacr =>
    refine of_whenCond h fun h => ?_
    obtain ⟨q, -, e⟩ := andThen_eq_next.1 h
    cases e; exact of_settle rfl rfl
  case divs a x =>
    obtain ⟨-, h⟩ := refuseIf_eq_next.1 h
    cases h
    exact of_divideStep (readDir_st0 a s) rfl

theorem flagFrame_mulGroup {i : Instr} {s t : State} (h : exec i s = .next t) (hi : isMulGroup i = true) :
    FlagFrame i s.st0 t.st0 := by
  cases i <;> cases hi
  case mpyReg c =>
    exact of_unchanged (loadReg_st0 (f := fun o => multiply (loadX o)) (fun _ => rfl) t h)
  case sqrReg c =>
    exact of_unchanged (loadReg_st0 (f := fun o => multiply (loadXY o)) (fun _ => rfl) t h)
  case mpyIndLong n m w | mpyInd n m | sqrInd n m => cases h; exact of_unchanged (readInd_st0 n m s)
  case mpyDir a | sqrDir a => cases h; exact of_unchanged (readDir_st0 a s)
  case mpyPair =>
    obtain ⟨u, hu, e⟩ := andThen_eq_next.1 h
    cases e; exact of_unchanged (loadPair_st0 hu :)
  case mpys => cases h; exact of_unchanged rfl
  case macReg | msuReg | sqraReg | sqrsReg =>
    obtain ⟨-, h⟩ := refuseIf_eq_next.1 h
    obtain ⟨-, h⟩ := refuseIf_eq_next.1 h
    exact of_accumulate h (loadReg_st0 fun _ => rfl) rfl
  case macIndLong n m w x | msuIndLong n m w x | macInd n m x | msuInd n m x | sqraInd n m x | sqrsInd n m x =>
    exact of_accumulate h (fun u hu => by cases hu; exact readInd_st0 n m s) rfl
  case macDir a x | msuDir a x | sqraDir a x | sqrsDir a x =>
    exact of_accumulate h (fun u hu => by cases hu; exact readDir_st0 a s) rfl
  case macPair | msuPair => exact of_accumulate h (fun u hu => loadPair_st0 hu) rfl

/-- `mov sreg, dreg` of a wide source goes to an accumulator. -/
theorem execMovRegReg_dest {src dst : Reg} {s t : State} (h : execMovRegReg src dst s = .next t) :
    (∃ x v, dst = .acc x ∧ t = moveAcc x v s) ∨
      ∃ o, regRead true src s = .next o ∧ regWrite dst o.1 o.2 = .next t := by
  obtain ⟨-, h⟩ := refuseIf_eq_next.1 h
  cases src
  case acc a => cases dst <;> cases h; exact .inl ⟨_, _, rfl, rfl⟩
  case p =>
    cases dst <;> try cases h
    obtain ⟨q, -, e⟩ := andThen_eq_next.1 h
    cases e; exact .inl ⟨_, _, rfl, rfl⟩
  all_goals exact .inr (andThen_eq_next.1 h)

theorem flagFrame_moveGroup {i : Instr} {s t : State} (h : exec i s = .next t) (hi : isMoveGroup i = true) :
    FlagFrame i s.st0 t.st0 := by
  cases i <;> cases hi
  case movpAccReg x c =>
    obtain ⟨a, -, h⟩ := andThen_eq_next.1 h
    exact (of_unchanged (progRead_st0 a s)).trans (of_regWrite h rfl rfl)
  case movpIndInd n m j k =>
    obtain ⟨-, h⟩ := refuseIf_eq_next.1 h
    cases h; exact of_unchanged ((dataWrite_st0 ..).trans (progRead_st0 ..))
  case movRegInd c n m =>
    obtain ⟨-, h⟩ := refuseIf_eq_next.1 h
    obtain ⟨-, h⟩ := refuseIf_eq_next.1 h
    obtain ⟨-, h⟩ := refuseIf_eq_next.1 h
    obtain ⟨o, ho, h⟩ := andThen_eq_next.1 h
    cases h
    exact (of_unchanged (announced_st0 ..)).trans <| (of_read ho id).trans (of_unchanged (dataWrite_st0 ..))
  case movIndReg n m c =>
    obtain ⟨-, h⟩ := refuseIf_eq_next.1 h
    obtain ⟨-, h⟩ := refuseIf_eq_next.1 h
    exact (of_unchanged (readInd_st0 n m s)).trans (of_regWrite h rfl rfl)
  case movRegReg src dst =>
    rcases execMovRegReg_dest h with ⟨x, v, rfl, rfl⟩ | ⟨o, ho, h⟩
    · exact of_moveAcc rfl rfl
    · refine (of_read ho fun hw => ?_).trans (of_regWrite h rfl rfl)
      simp only [flagColumn, moveColumn, hw]; split <;> rfl
  case movLongReg w c => exact of_regWrite h rfl rfl
  case movSimmRn imm q => cases h; exact of_unchanged (writeRnStar_st0 ..)
  case movDirRn a q =>
    obtain ⟨-, h⟩ := refuseIf_eq_next.1 h
    cases h; exact of_unchanged ((writeRnStar_st0 ..).trans (readDir_st0 a s))
  case movDirAcc a x | movDirAcch a x | movDirAccl a x => cases h; exact of_moveAcc (readDir_st0 a s) rfl
  case movDirAcchEu a x => cases h; exact of_setAcc_zmne (readDir_st0 a s) rfl
  case movRnDir q a => cases h; exact of_unchanged (dataWrite_st0 ..)
  case movAcclDir x a | movAcchDir x a =>
    cases h; exact (of_latch _ rfl s.st0).trans (of_unchanged (dataWrite_st0 ..))
  case movImmAccl imm x | movSimmAcch imm x => cases h; exact of_moveAcc rfl rfl

theorem flagFrame_controlGroup {i : Instr} {s t : State} (h : exec i s = .next t) (hi : isControlGroup i = true) :
    FlagFrame i s.st0 t.st0 := by
  cases i <;> cases hi
  case nop | lpg | repImm => cases h; exact of_unchanged rfl
  case modr => cases h; exact of_rFlag _ rfl s.st0
  case eint | dint => cases h; exact of_ie _ s.st0
  case trap =>
    obtain ⟨-, -, rfl⟩ := enterTrap_eq_next.1 (refuseIf_eq_next.1 h).2
    exact of_unchanged rfl
  case br | brr => exact of_cond h jumpTo_st0
  case call | callr => exact of_cond h callTo_st0
  case calla =>
    obtain ⟨a, -, h⟩ := andThen_eq_next.1 h
    exact of_unchanged (callTo_st0 h)
  case ret => exact of_cond h returnTo_st0
  case reti =>
    obtain ⟨u, hu, rfl⟩ := returnFromException_eq_next.1 h
    rw [endRoutine_eq, ← returnTo_st0 hu]
    exact of_ie _ u.st0
  case repReg c =>
    obtain ⟨o, ho, h⟩ := andThen_eq_next.1 h
    cases h; exact of_unchanged (regRead_false_st0 ho)
  case bkrepImm imm last =>
    obtain ⟨-, h⟩ := refuseIf_eq_next.1 h
    cases h; exact of_unchanged rfl
  case bkrepReg c last =>
    obtain ⟨-, h⟩ := refuseIf_eq_next.1 h
    obtain ⟨-, h⟩ := refuseIf_eq_next.1 h
    obtain ⟨-, h⟩ := refuseIf_eq_next.1 h
    obtain ⟨o, ho, h⟩ := andThen_eq_next.1 h
    cases h; exact of_unchanged (regRead_false_st0 ho)
  case unused => cases h

theorem flagFrame_exec {i : Instr} {s t : State} (h : exec i s = .next t) : FlagFrame i s.st0 t.st0 := by
  rcases group_cases i with hi | hi | hi | hi | hi
  · exact flagFrame_aluGroup h hi
  · exact flagFrame_modaGroup h hi
  · exact flagFrame_mulGroup h hi
  · exact flagFrame_moveGroup h hi
  · exact flagFrame_controlGroup h hi

/-- R stands in the columns of modr, norm and the moves to st0 alone. -/
theorem flagColumn_r {i : Instr} (hm : movesTo i ≠ some .st0) (hr : setsR i = false) : (flagColumn i).r = false := by
  have move {c : Reg} {b : Bool} (hc : some c ≠ some .st0) : (moveColumn c b).r = false := by
    rw [moveColumn, if_neg fun e => hc (by rw [e])]
  cases i
  case norm | modr => cases hr
  case movRegReg | movIndReg | movLongReg | movpAccReg => exact move hm
  all_goals rfl

/-- Settles O17, from `flagFrame_exec`; that R is unchanged is the R of the column. -/
theorem stickyFlags : Obligations.StickyFlags := by
  intro i s t h
  have f := flagFrame_exec h
  exact ⟨fun hm => ⟨f.sticky hm, fun hr => f.r (flagColumn_r hm hr)⟩, f.zmne, f.v, f.c, f.l, f.r⟩

end Sys2Proof.Machine
end

section
/-! PROOFS. The faults are those of the stack (O16). -/

namespace Sys2Proof.Machine

/-- The fault e is one that the stack of s can cause. -/
def StackFault (s : State) (e : Fault) : Prop :=
  (e = .stackOverflow ∧ 16 ≤ s.stk.length) ∨ (e = .stackUnderflow ∧ s.stk = [])

namespace StackFault

variable {s t : State} {e : Fault}

theorem of_eq_stk (h : t.stk = s.stk) (k : StackFault t e) : StackFault s e := by rwa [StackFault, ← h]

theorem of_full (h : 16 ≤ s.stk.length ∧ e = .stackOverflow) : StackFault s e := .inl h.symm

theorem of_empty (h : s.stk = [] ∧ e = .stackUnderflow) : StackFault s e := .inr h.symm

theorem of_regRead {b : Bool} {c : Reg} (h : regRead b c s = .fault e) : StackFault s e :=
  of_empty (regRead_eq_fault h).2

theorem of_regWrite {c : Reg} {v : Word} (h : regWrite c v s = .fault e) : StackFault s e :=
  of_full (regWrite_eq_fault h).2

end StackFault

open StackFault

/-! Where there is no fault. -/

theorem andThen_next_eq_fault {α : Type} {x : Res α} {f : α → State} {e : Fault} :
    (andThen x fun o => .next (f o)) = .fault e ↔ x = .fault e := by
  cases x <;> simp

theorem whenCond_next_ne_fault {cc : Cond} {s t : State} {e : Fault} : whenCond cc s (.next t) ≠ .fault e := by
  unfold whenCond; split <;> nofun

theorem loadPair_ne_fault {j : Fin 2} {jj : PostMod} {i : Fin 4} {k : PostMod} {s : State} {e : Fault} :
    loadPair j jj i k s ≠ .fault e := fun h => nomatch (refuseIf_eq_fault.1 h).2

theorem accAddress_ne_fault {x : Acc} {s : State} {e : Fault} : accAddress x s ≠ .fault e :=
  fun h => nomatch (refuseIf_eq_fault.1 h).2

/-- mac, msu, sqra, sqrs fault in their load. -/
theorem accumulate_eq_fault {op : Accum → Accum → AluOut} {x : Acc} {s : State} {load : Out} {e : Fault}
    (h : accumulate op x s load = .fault e) : load = .fault e := by
  rcases andThen_eq_fault.1 h with h | ⟨q, -, h⟩
  · exact absurd h shiftedP_ne_fault
  · exact andThen_next_eq_fault.1 h

theorem MemFrame.stk {s t : State} (h : MemFrame s t) : t.stk = s.stk := by rw [h]

theorem announced_stk (a : Word) (s : State) : (s.announced a).stk = s.stk := by rw [announced_eq]

/-! The instructions. -/

theorem aluGroup_fault {i : Instr} {s : State} {e : Fault} (h : exec i s = .fault e) (hi : isAluGroup i = true) :
    StackFault s e := by
  cases i <;> cases hi
  case addReg | subReg | orReg | xorReg | andReg | cmpReg =>
    exact of_empty (aluReg_eq_fault (andThen_next_eq_fault.1 h)).2
  case addlReg | sublReg | addhReg | subhReg => exact of_empty (wordReg_eq_fault (andThen_next_eq_fault.1 h)).2
  all_goals cases h

theorem modaGroup_fault {i : Instr} {s : State} {e : Fault} (h : exec i s = .fault e) (hi : isModaGroup i = true) :
    StackFault s e := by
  cases i <;> cases hi
  case norm => cases h
  case pacr x cc =>
    change whenCond cc s _ = _ at h
    unfold whenCond at h
    split at h
    · exact absurd (andThen_next_eq_fault.1 h) shiftedP_ne_fault
    · cases h
  case divs => exact nomatch (refuseIf_eq_fault.1 h).2
  all_goals exact absurd h whenCond_next_ne_fault

theorem mulGroup_fault {i : Instr} {s : State} {e : Fault} (h : exec i s = .fault e) (hi : isMulGroup i = true) :
    StackFault s e := by
  cases i <;> cases hi
  case mpyReg | sqrReg => exact of_regRead (andThen_next_eq_fault.1 h)
  case mpyPair => exact absurd (andThen_next_eq_fault.1 h) loadPair_ne_fault
  case macReg | msuReg | sqraReg | sqrsReg =>
    obtain ⟨-, h⟩ := refuseIf_eq_fault.1 h
    obtain ⟨-, h⟩ := refuseIf_eq_fault.1 h
    exact of_regRead (andThen_next_eq_fault.1 (accumulate_eq_fault h))
  case macPair | msuPair => exact absurd (accumulate_eq_fault h) loadPair_ne_fault
  case macInd | macDir | macIndLong | msuInd | msuDir | msuIndLong | sqraInd | sqraDir | sqrsInd | sqrsDir =>
    exact nomatch accumulate_eq_fault h
  case mpyInd | mpyDir | mpyIndLong | sqrInd | sqrDir | mpys => cases h

theorem moveGroup_fault {i : Instr} {s : State} {e : Fault} (h : exec i s = .fault e) (hi : isMoveGroup i = true) :
    StackFault s e := by
  cases i <;> cases hi
  case movpAccReg x c =>
    rcases andThen_eq_fault.1 h with h | ⟨a, -, h⟩
    · exact absurd h accAddress_ne_fault
    · exact of_eq_stk (progRead_frame a s).stk (of_regWrite h)
  case movRegInd c n m =>
    obtain ⟨-, h⟩ := refuseIf_eq_fault.1 h
    obtain ⟨-, h⟩ := refuseIf_eq_fault.1 h
    obtain ⟨-, h⟩ := refuseIf_eq_fault.1 h
    exact of_eq_stk (announced_stk _ s) (of_regRead (andThen_next_eq_fault.1 h))
  case movIndReg n m c =>
    obtain ⟨-, h⟩ := refuseIf_eq_fault.1 h
    obtain ⟨-, h⟩ := refuseIf_eq_fault.1 h
    exact of_eq_stk (t := (readInd n m s).2) (dataRead_frame (s.addr n) s).stk (of_regWrite h)
  case movRegReg src dst =>
    obtain ⟨-, h⟩ := refuseIf_eq_fault.1 h
    cases src
    case acc => cases dst <;> cases h
    case p =>
      cases dst <;> try cases h
      exact absurd (andThen_next_eq_fault.1 h) shiftedP_ne_fault
    all_goals
      rcases andThen_eq_fault.1 h with h | ⟨o, ho, h⟩
      · exact of_regRead h
      · obtain ⟨-, hl, he⟩ := regWrite_eq_fault h
        exact of_full ⟨hl.trans (regRead_frame ho).1.stack, he⟩
  case movLongReg => exact of_regWrite h
  case movpIndInd | movDirRn => exact nomatch (refuseIf_eq_fault.1 h).2
  all_goals cases h

theorem controlGroup_fault {i : Instr} {s : State} {e : Fault} (h : exec i s = .fault e)
    (hi : isControlGroup i = true) : StackFault s e := by
  have cond {cc : Cond} {k : Out} (h : (if condTrue cc s then k else .next s) = .fault e) : k = .fault e := by
    split at h
    · exact h
    · cases h
  cases i <;> cases hi
  case trap =>
    obtain ⟨-, h⟩ := refuseIf_eq_fault.1 h
    exact of_full (enterTrap_eq_fault.1 h).2
  case br | brr => exact absurd (cond h) jumpTo_ne_fault
  case call | callr => exact of_full (callTo_eq_fault.1 (cond h))
  case calla =>
    rcases andThen_eq_fault.1 h with h | ⟨a, -, h⟩
    · exact absurd h accAddress_ne_fault
    · exact of_full (callTo_eq_fault.1 h)
  case ret => exact of_empty (returnTo_eq_fault.1 (cond h))
  case reti => exact of_empty (returnFromException_eq_fault.1 h)
  case repReg => exact of_regRead (andThen_next_eq_fault.1 h)
  case bkrepReg =>
    obtain ⟨-, h⟩ := refuseIf_eq_fault.1 h
    obtain ⟨-, h⟩ := refuseIf_eq_fault.1 h
    obtain ⟨-, h⟩ := refuseIf_eq_fault.1 h
    exact of_regRead (andThen_next_eq_fault.1 h)
  case bkrepImm => exact nomatch (refuseIf_eq_fault.1 h).2
  all_goals cases h

theorem exec_fault {i : Instr} {s : State} {e : Fault} (h : exec i s = .fault e) : StackFault s e := by
  rcases group_cases i with hi | hi | hi | hi | hi
  · exact aluGroup_fault h hi
  · exact modaGroup_fault h hi
  · exact mulGroup_fault h hi
  · exact moveGroup_fault h hi
  · exact controlGroup_fault h hi

theorem sample_stk (s : State) : (sample s).stk = s.stk := by rw [sample_eq]

/-- Settles O16: a step faults in an interrupt's entry or in its instruction, and the stack is as it was before both. -/
theorem faultsAreStackFaults : Obligations.FaultsAreStackFaults := by
  intro s e h
  refine of_eq_stk (sample_stk s) ?_
  rcases step_fault h with ⟨irq, -, h⟩ | ⟨i, f, hf, h⟩
  · exact of_full (enterInterrupt_eq_fault.1 h).2
  · exact of_eq_stk (by rw [hf]) (exec_fault h)

end Sys2Proof.Machine
end

section
/-! PROOFS. Where instructions stop on their operands (O20). -/

namespace Sys2Proof.Machine

/-! No ill-formed instruction completes. -/

theorem sourceFits_acc (src : Reg) (x : Acc) : sourceFits src (.acc x) = true := by cases src <;> rfl

theorem sourceFits_word {src : Reg} (dst : Reg) (h : src.isWord = true) : sourceFits src dst = true := by
  cases src
  case acc | p => cases h
  all_goals rfl

theorem wf_of_exec {i : Instr} {s t : State} (h : exec i s = .next t) : i.wf s.params = true := by
  cases i
  case repReg c | mpyReg c | sqrReg c =>
    obtain ⟨o, ho, -⟩ := andThen_eq_next.1 h
    exact (regRead_frame ho).2
  case bkrepReg c last =>
    obtain ⟨hp, h⟩ := refuseIf_eq_next.1 h
    obtain ⟨hw, -⟩ := refuseIf_eq_next.1 h
    simpa [Instr.wf] using And.intro hw hp
  case movpIndInd n m j k =>
    obtain ⟨hn, -⟩ := refuseIf_eq_next.1 h
    simpa [Instr.wf] using hn
  case movRegInd c n m =>
    obtain ⟨hw, h⟩ := refuseIf_eq_next.1 h
    obtain ⟨hp, -⟩ := refuseIf_eq_next.1 h
    simpa [Instr.wf] using And.intro hw hp
  case movIndReg n m c =>
    obtain ⟨hp, -⟩ := refuseIf_eq_next.1 h
    simpa [Instr.wf] using hp
  case movRegReg src dst =>
    have hf : sourceFits src dst = true := by
      rcases execMovRegReg_dest h with ⟨x, v, rfl, -⟩ | ⟨o, ho, -⟩
      · exact sourceFits_acc src x
      · exact sourceFits_word dst (regRead_frame ho).2
    obtain ⟨hd, -⟩ := refuseIf_eq_next.1 h
    simpa [Instr.wf, hf] using hd
  case movDirRn a q =>
    obtain ⟨hq, -⟩ := refuseIf_eq_next.1 h
    simpa [Instr.wf] using hq
  case addReg c x | subReg c x | orReg c x | xorReg c x | andReg c x | cmpReg c x =>
    obtain ⟨o, ho, -⟩ := andThen_eq_next.1 h
    simp [Instr.wf, (aluReg_frame ho).2]
  case addlReg c x | sublReg c x | addhReg c x | subhReg c x =>
    obtain ⟨o, ho, -⟩ := andThen_eq_next.1 h
    obtain ⟨-, hw, hp⟩ := wordReg_frame ho
    simp [Instr.wf, hw, hp]
  case macReg c x | msuReg c x | sqraReg c x | sqrsReg c x =>
    obtain ⟨hp, h⟩ := refuseIf_eq_next.1 h
    obtain ⟨hw, -⟩ := refuseIf_eq_next.1 h
    simpa [Instr.wf] using And.intro hw hp
  case unused => cases h
  all_goals rfl

/-! What the register forms have in common. -/

theorem exec_anyRegForms {c : Reg} {x : Acc} {i : Instr} (s : State) (hi : i ∈ anyRegForms c x) :
    ∃ f : Src × State → State, exec i s = andThen (aluReg x c s) fun o => .next (f o) := by
  simp only [anyRegForms, List.mem_cons, List.not_mem_nil, or_false] at hi
  rcases hi with rfl | rfl | rfl | rfl | rfl | rfl <;> exact ⟨_, rfl⟩

/-- addl, subl, addh, subh take the word; mac, msu, sqra, sqrs look at the register, then accumulate around its load. -/
theorem exec_wordRegForms {c : Reg} {x : Acc} {i : Instr} (s : State) (hi : i ∈ wordRegForms c x) :
    (∃ f : Word × State → State, exec i s = andThen (wordReg x c s) fun o => .next (f o)) ∨
      ∃ (op : Accum → Accum → AluOut) (f : Word × State → State),
        exec i s = refuseIf (c.partOf x) .sameAccumulator (refuseIf (!c.isWord) .notWordRegister
        (accumulate op x s (andThen (regRead false c s) fun o => .next (f o)))) := by
  simp only [wordRegForms, List.mem_cons, List.not_mem_nil, or_false] at hi
  rcases hi with rfl | rfl | rfl | rfl | rfl | rfl | rfl | rfl
  iterate 4 exact .inl ⟨_, rfl⟩
  iterate 4 exact .inr ⟨_, _, rfl⟩

theorem exec_accumulateForms {x : Acc} {a : BitVec 8} {n : Fin 6} {m : PostMod} {w : Word} {j : Fin 2} {i : Fin 4}
    {k : PostMod} {f : Instr} (s : State) (hf : f ∈ accumulateForms x a n m w j i k) :
    ∃ op load, exec f s = accumulate op x s load := by
  simp only [accumulateForms, List.mem_cons, List.not_mem_nil, or_false] at hf
  rcases hf with rfl | rfl | rfl | rfl | rfl | rfl | rfl | rfl | rfl | rfl | rfl | rfl <;> exact ⟨_, _, rfl⟩

/-! The stops. -/

theorem regRead_wide (b : Bool) {c : Reg} (s : State) (h : c.isWord = false) :
    regRead b c s = .refused .notWordRegister := by
  cases c
  case acc | p => rfl
  all_goals cases h

theorem regRead_tos_nil (b : Bool) {s : State} (h : s.stk = []) : regRead b .tos s = .fault .stackUnderflow :=
  takeOff_nil h

theorem accumulate_reserved (op : Accum → Accum → AluOut) (x : Acc) {s : State} (load : Out) (h : s.st1.sp = 3) :
    accumulate op x s load = .refused .spReserved := by
  rw [accumulate, shiftedP_reserved h]; rfl

/-- Where shifted p can be used, the step stops as its load does. -/
theorem accumulate_refused (op : Accum → Accum → AluOut) (x : Acc) {s : State} (e : Refusal) (h : s.st1.sp ≠ 3) :
    accumulate op x s (.refused e) = .refused e := by
  rw [accumulate, shiftedP_eq h]; rfl

theorem accumulate_fault (op : Accum → Accum → AluOut) (x : Acc) {s : State} (e : Fault) (h : s.st1.sp ≠ 3) :
    accumulate op x s (.fault e) = .fault e := by
  rw [accumulate, shiftedP_eq h]; rfl

theorem aluReg_same {x : Acc} {c : Reg} (s : State) (h : c.partOf x = true) :
    aluReg x c s = .refused .sameAccumulator := by
  unfold aluReg; rw [h]; rfl

theorem regForms_same {c : Reg} {x : Acc} {i : Instr} (s : State) (h : c.partOf x = true)
    (hi : i ∈ anyRegForms c x ++ wordRegForms c x) : exec i s = .refused .sameAccumulator := by
  rcases List.mem_append.1 hi with hi | hi
  · obtain ⟨f, e⟩ := exec_anyRegForms s hi
    rw [e, aluReg_same s h]; rfl
  · rcases exec_wordRegForms s hi with ⟨f, e⟩ | ⟨op, f, e⟩
    · rw [e, wordReg, h]; rfl
    · rw [e, h]; rfl

theorem wordRegForms_wide {c : Reg} {x : Acc} {i : Instr} (s : State) (h : c.isWord = false)
    (hp : c.partOf x = false) (hi : i ∈ wordRegForms c x) : exec i s = .refused .notWordRegister := by
  rcases exec_wordRegForms s hi with ⟨f, e⟩ | ⟨op, f, e⟩
  · rw [e, wordReg, hp, refuseIf_false, regRead_wide false s h]; rfl
  · rw [e, hp, h]; rfl

/-- The other instructions that take a 16-bit register refuse a wide one. -/
theorem wordSources_wide {c : Reg} {i : Instr} (s : State) (h : c.isWord = false) {n : Fin 6} {m : PostMod}
    {last : Word} (hi : i ∈ [Instr.mpyReg c, .sqrReg c, .repReg c, .bkrepReg c last, .movRegInd c n m]) :
    exec i s = .refused .notWordRegister := by
  have read {f : Word × State → State} :
      (andThen (regRead false c s) fun o => .next (f o)) = .refused .notWordRegister := by
    rw [regRead_wide false s h]; rfl
  have hpc : (c == .pc) = false := beq_false_of_ne fun e => by rw [e] at h; cases h
  simp only [List.mem_cons, List.not_mem_nil, or_false] at hi
  rcases hi with rfl | rfl | rfl | rfl | rfl
  iterate 3 exact read
  · show execBkrepReg c last s = _
    rw [execBkrepReg, hpc, h]; rfl
  · show execMovRegInd c n m s = _
    rw [execMovRegInd, h]; rfl

/-- tos as a source faults on an empty stack. -/
theorem tosForms_empty {x : Acc} {i : Instr} {s : State} (h : s.stk = []) (hsp : s.st1.sp ≠ 3)
    (hi : i ∈ anyRegForms .tos x ++ wordRegForms .tos x ++ [.mpyReg .tos, .sqrReg .tos, .repReg .tos]) :
    exec i s = .fault .stackUnderflow := by
  have read {f : Word × State → State} :
      (andThen (regRead false .tos s) fun o => .next (f o)) = .fault .stackUnderflow := by
    rw [regRead_tos_nil false h]; rfl
  rcases List.mem_append.1 hi with hi | hi
  · rcases List.mem_append.1 hi with hi | hi
    · obtain ⟨f, e⟩ := exec_anyRegForms s hi
      rw [e, aluReg_word rfl rfl, regRead_tos_nil false h]; rfl
    · rcases exec_wordRegForms s hi with ⟨f, e⟩ | ⟨op, f, e⟩
      · exact e.trans read
      · rw [e, read]; exact accumulate_fault op x _ hsp
  · simp only [List.mem_cons, List.not_mem_nil, or_false] at hi
    rcases hi with rfl | rfl | rfl <;> exact read

theorem movTos_empty {s : State} (h : s.stk = []) :
    (∀ dst : Reg, dst ≠ .tos → exec (.movRegReg .tos dst) s = .fault .stackUnderflow) ∧
      (∀ n m, exec (.movRegInd .tos n m) s = .fault .stackUnderflow) ∧
      ∀ last, s.st2.lp = false → exec (.bkrepReg .tos last) s = .fault .stackUnderflow := by
  refine ⟨fun dst hd => ?_, fun n m => ?_, fun last hl => ?_⟩
  · show execMovRegReg .tos dst s = _
    rw [execMovRegReg, beq_false_of_ne hd.symm, refuseIf_false, regRead_tos_nil true h]; rfl
  · show andThen (regRead true .tos (s.announced (s.addr n))) _ = _
    rw [regRead_tos_nil true ((announced_stk _ s).trans h)]; rfl
  · show refuseIf s.st2.lp _ (andThen (regRead false .tos s) _) = _
    rw [hl, regRead_tos_nil false h]; rfl

/-- Where SP = 11, every use of shifted p is refused. -/
theorem sp3_stops {s : State} (x : Acc) (h : s.st1.sp = 3) :
    (∀ i ∈ Instr.movRegReg .p (.acc x) :: anyRegForms .p x, exec i s = .refused .spReserved) ∧
      (∀ a n m w j i k, ∀ f ∈ accumulateForms x a n m w j i k, exec f s = .refused .spReserved) ∧
      (∀ c : Reg, c.isWord = true → c.partOf x = false →
        ∀ f ∈ [Instr.macReg c x, .msuReg c x, .sqraReg c x, .sqrsReg c x], exec f s = .refused .spReserved) ∧
      ∀ cc, condTrue cc s = true → exec (.pacr x cc) s = .refused .spReserved := by
  refine ⟨fun i hi => ?_, fun a n m w j i k f hf => ?_, fun c hw hp f hf => ?_, fun cc hc => ?_⟩
  · rcases List.mem_cons.1 hi with rfl | hi
    · show andThen (shiftedP s) _ = _
      rw [shiftedP_reserved h]; rfl
    · obtain ⟨f, e⟩ := exec_anyRegForms s hi
      rw [e]
      show andThen (andThen (shiftedP s) _) _ = _
      rw [shiftedP_reserved h]; rfl
  · obtain ⟨op, load, e⟩ := exec_accumulateForms s hf
    exact e.trans (accumulate_reserved op x load h)
  · have stop (op : Accum → Accum → AluOut) (load : Out) :
        refuseIf (c.partOf x) .sameAccumulator (refuseIf (!c.isWord) .notWordRegister (accumulate op x s load)) =
          .refused .spReserved := by
      rw [hp, hw]; exact accumulate_reserved op x load h
    simp only [List.mem_cons, List.not_mem_nil, or_false] at hf
    rcases hf with rfl | rfl | rfl | rfl <;> exact stop _ _
  · show whenCond cc s (andThen (shiftedP s) _) = _
    rw [whenCond, if_pos hc, shiftedP_reserved h]; rfl

theorem loadPair_refused {j : Fin 2} (jj : PostMod) {i : Fin 4} (k : PostMod) {s : State}
    (h : (s.addr (regJ j)).toNat < 0xFC00 ∨ 0xFBFF < (s.addr (regI i)).toNat) :
    loadPair j jj i k s = .refused .pairOutsideSpaces := by
  have hp : pairInSpaces j i s = false := decide_eq_false (by omega)
  rw [loadPair, hp]; rfl

theorem postMod_stops {n : Fin 6} {m : PostMod} (s : State) (h : m ≠ .keep) :
    exec (.movRegInd (.r n) n m) s = .refused .movPostModified ∧
      exec (.movIndReg n m (.r n)) s = .refused .movPostModified := by
  have hp : postModAllowed (.r n) n m = false := by simp [postModAllowed, h]
  constructor
  · show refuseIf (!postModAllowed (.r n) n m) _ _ = _
    rw [hp]; rfl
  · show refuseIf (!postModAllowed (.r n) n m) _ _ = _
    rw [hp]; rfl

theorem extOffCore_stops (e : Fin 8) {n : Fin 6} (m : PostMod) {s : State}
    (hx : s.params.xramWords ≤ (s.addr n).toNat) (hy : (s.addr n).toNat < 65536 - s.params.yramWords) :
    exec (.movRegInd (.ext e) n m) s = .refused .movExtOffCore ∧
      exec (.movIndReg n m (.ext e)) s = .refused .movExtOffCore := by
  have ho : extOffCore s.params (.ext e) (s.addr n) = true := by
    have : onCore s.params (s.addr n) = false := decide_eq_false (by omega)
    rw [extOffCore, this]; rfl
  constructor
  · show refuseIf (extOffCore s.params (.ext e) (s.addr n)) _ _ = _
    rw [ho]; rfl
  · show refuseIf (extOffCore s.params (.ext e) (s.addr n)) _ _ = _
    rw [ho]; rfl

/-- A wide source goes to an accumulator alone. -/
theorem movWide_stops {dst : Reg} (s : State) (x : Acc) (h : ∀ z, dst ≠ .acc z) :
    exec (.movRegReg (.acc x) dst) s = .refused .movAccumulatorSource ∧
      (dst ≠ .p → exec (.movRegReg .p dst) s = .refused .movProductSource) := by
  refine ⟨?_, fun hp => ?_⟩
  · cases dst
    case acc z => exact absurd rfl (h z)
    all_goals rfl
  · cases dst
    case acc z => exact absurd rfl (h z)
    case p => exact absurd rfl hp
    all_goals rfl

/-- Settles O20: `wf_of_exec`, then stop by stop. -/
theorem operandStops : Obligations.OperandStops := by
  refine ⟨fun i s t h => wf_of_exec h, fun s x => ⟨fun c hp i hi => regForms_same s hp hi, fun c hw =>
    ⟨fun hp i hi => wordRegForms_wide s hw hp hi, fun n m last i hi => wordSources_wide s hw hi⟩,
    fun h hsp i hi => tosForms_empty h hsp hi, movTos_empty, sp3_stops x, fun j jj i k h => ?_,
    fun n m hm => postMod_stops s hm, fun e n m hx hy => extOffCore_stops e m hx hy, fun dst h => movWide_stops s x h,
    ?_, fun last => rfl⟩⟩
  · have hl := loadPair_refused jj k h
    refine ⟨?_, fun hsp => ⟨?_, ?_⟩⟩
    · show andThen (loadPair j jj i k s) _ = _
      rw [hl]; rfl
    · show accumulate add36 x s (loadPair j jj i k s) = _
      rw [hl]; exact accumulate_refused _ x _ hsp
    · show accumulate sub36 x s (loadPair j jj i k s) = _
      rw [hl]; exact accumulate_refused _ x _ hsp
  · rintro _ m i k rfl
    show refuseIf (regI i == regI i) _ _ = _
    rw [beq_self_eq_true]; rfl

end Sys2Proof.Machine
end

section
/-! PROOFS. The data address of a direct operand (O24), and what a data access gives and changes (O23). -/

namespace Sys2Proof.Machine

/-- Settles O24: the page stands in front of the eight bits. -/
theorem directAddress : Obligations.DirectAddress := fun a s => toNat_append_eq s.st1.page a

/-! Data accesses, by the region of their address. -/

section
variable {a : Word} {s : State}

theorem dataRead_device (h : dataMap s.params a = .device) : dataRead a s = deviceRead .data a s := by
  simp only [dataRead, h]

theorem dataRead_absent (h : dataMap s.params a = .absent) : dataRead a s = s.free := by
  simp only [dataRead, h]

theorem dataWrite_device (v : Word) (h : dataMap s.params a = .device) :
    dataWrite a v s = { s with bus := .write a v :: s.bus } := by
  simp only [dataWrite, h]

theorem dataWrite_absent (v : Word) (h : dataMap s.params a = .absent) : dataWrite a v s = s := by
  simp only [dataWrite, h]

theorem dataWrite_rom (v : Word) (h : dataMap s.params a = .rom) : dataWrite a v s = s := by
  simp only [dataWrite, h]

theorem dataWrite_ram (v : Word) (h : dataMap s.params a = .ram) :
    dataWrite a v s = { s with mem := s.mem.writeWord (dataCell a) v } := by
  simp only [dataWrite, h]

theorem dataWrite_shared (v : Word) (h : dataMap s.params a = .shared) :
    dataWrite a v s = { s with mem := s.mem.writeWord (dataCell a) v, storeNow := some ⟨a, heldWord a s⟩ } := by
  simp only [dataWrite, h]; rfl

/-- RAM and the shared words hold what is written. -/
theorem dataWrite_mem_stored (v : Word) (h : dataMap s.params a = .ram ∨ dataMap s.params a = .shared) :
    (dataWrite a v s).mem = s.mem.writeWord (dataCell a) v := by
  rcases h with h | h
  · rw [dataWrite_ram v h]
  · rw [dataWrite_shared v h]

/-- A written word reads back. -/
theorem heldWord_dataWrite_same (v : Word) (hm : s.mem.wf)
    (h : dataMap s.params a = .ram ∨ dataMap s.params a = .shared) : heldWord a (dataWrite a v s) = v := by
  rw [heldWord, dataWrite_mem_stored v h]
  exact Memory.readWord_writeWord_same _ _ _ hm

/-- A shared word has one cell for both spaces (20_memory R80). -/
theorem progWord_of_shared (h : dataMap s.params a = .shared) (t : State) : progWord a t = heldWord a t := by
  rw [progWord, progCell_shared (dataMap_shared.1 h).1]; rfl

/-- A data write leaves every cell but the one of its word. -/
theorem readWord_dataWrite_other (v : Word) (s : State) {c : Nat} (h : c ≠ dataCell a) :
    (dataWrite a v s).mem.readWord c = s.mem.readWord c := by
  rcases dataWrite_mem a v s with e | e <;> rw [e]
  exact Memory.readWord_writeWord_other _ v h

end

/-- Settles O23: region by region, and the laws of a written word from those of memory. -/
theorem dataAccess : Obligations.DataAccess := by
  intro a v s r t
  refine ⟨dataRead_plain, fun h => ⟨?_, dataWrite_device v h⟩, fun h => ⟨?_, dataWrite_absent v h⟩, dataWrite_rom v,
    fun h => ?_, fun h => ?_, fun hm => ⟨dataWrite_mem_wf a v s hm, heldWord_dataWrite_same v hm, fun h => ?_,
      fun b hb => ⟨?_, ?_⟩⟩⟩
  · rw [dataRead_device h]; exact deviceRead_answers .data a s
  · rw [dataRead_absent h]; rfl
  · rw [show t = _ from dataWrite_ram v h]
  · rw [show t = _ from dataWrite_shared v h]
  · exact (progWord_of_shared h t).trans (heldWord_dataWrite_same v hm (.inr h))
  · exact readWord_dataWrite_other v s fun e => hb (dataCell_inj e)
  · exact readWord_dataWrite_other v s fun e => hb (progCell_eq_dataCell.1 e).1

end Sys2Proof.Machine
end

section
/-! PROOFS. The word at a program address: read by movp, fetched, and looked at ahead (O9). -/

namespace Sys2Proof.Machine

/-! The units after an instruction. -/

/-- The repeat unit changes pc and its own registers alone. -/
theorem repUnit_eq (b : Bool) (start : Word) (s : State) :
    (repUnit b start s).2 = { s with
      pc := (repUnit b start s).2.pc, repCnt := (repUnit b start s).2.repCnt
      repArmed := (repUnit b start s).2.repArmed, repActive := (repUnit b start s).2.repActive } := by
  unfold repUnit; repeat' split
  all_goals rfl

/-- The block-repeat unit changes pc, lc, LP and lp_late alone. -/
theorem blockUnit_eq (last : Word) (s : State) :
    blockUnit last s = { s with
      pc := (blockUnit last s).pc, lc := (blockUnit last s).lc, st2 := (blockUnit last s).st2
      lpLate := (blockUnit last s).lpLate } := by
  unfold blockUnit; dsimp only; repeat' split
  all_goals rfl

/-! What a fetch sees. -/

/-- s and t agree in all that the fetch of a word looks at. -/
structure FetchAgrees (s t : State) : Prop where
  params : t.params = s.params
  mem : t.mem = s.mem
  store1 : t.store1 = s.store1
  store2 : t.store2 = s.store2
  answers : t.answers = s.answers
  codeCtr : t.codeCtr = s.codeCtr

theorem FetchAgrees.symm {s t : State} (h : FetchAgrees s t) : FetchAgrees t s :=
  ⟨h.params.symm, h.mem.symm, h.store1.symm, h.store2.symm, h.answers.symm, h.codeCtr.symm⟩

theorem FetchAgrees.fetchWord_next {s t : State} (h : FetchAgrees s t) {a w : Word}
    (hs : ∃ u, fetchWord a s = .next (w, u)) : ∃ u, fetchWord a t = .next (w, u) := by
  obtain ⟨u, hu⟩ := hs
  exact fetchWord_congr h.params h.mem h.store1 h.store2 h.answers h.codeCtr hu

/-- The units leave what the next fetch looks at, but that the stores become one instruction older. -/
theorem afterInstr_ahead (i : Instr) (start last : Word) (p : Option Word) (s : State) :
    let t := afterInstr i start last p s
    t.params = s.params ∧ t.mem = s.mem ∧ t.store1 = s.storeNow ∧ t.store2 = s.store1 ∧ t.inputs = s.inputs ∧
      t.codeCtr = s.codeCtr := by
  have hr := repUnit_eq i.isRep start (noteExecuted i s)
  dsimp only [afterInstr]
  split
  · rw [hr]; exact ⟨rfl, rfl, rfl, rfl, rfl, rfl⟩
  · rw [blockUnit_eq, settlePc_eq, hr]; exact ⟨rfl, rfl, rfl, rfl, rfl, rfl⟩

theorem sample_answers (s : State) : (sample s).answers = (s.inputs.head?.map EnvInput.answers).getD [] := by
  cases h : s.inputs with
  | nil => rw [sample_nil h]; rfl
  | cons e rest => rw [sample_cons h]; rfl

/-- What is looked at ahead is what the next step's fetch looks at. -/
theorem ahead_agrees (i : Instr) (start last : Word) (p : Option Word) (s : State) :
    FetchAgrees s.ahead (sample (afterInstr i start last p s)) := by
  obtain ⟨hp, hm, h1, h2, hi, hc⟩ := afterInstr_ahead i start last p s
  refine ⟨(sample_params _).trans hp, (sample_mem _).trans hm, ?_, ?_, ?_, ?_⟩
  · rw [sample_eq]; exact h1
  · rw [sample_eq]; exact h2
  · rw [sample_answers, hi]; rfl
  · rw [sample_eq]; exact hc

/-! The word at a program address, by its region. -/

theorem progRead_device {a : Word} {s : State} (h : progMap s.params a = .device) :
    progRead a s = deviceRead .prog a s := by
  simp only [progRead, h]

theorem fetchWord_device {a : Word} {s : State} (h : progMap s.params a = .device) :
    fetchWord a s = .next (deviceGives .prog a (s.freeCode a) (s.freeCode a).2) := by
  simp only [fetchWord, h]

theorem progRead_absent {a : Word} {s : State} (h : progMap s.params a = .absent) : progRead a s = s.free := by
  simp only [progRead, h]

theorem fetchWord_absent {a : Word} {s : State} (h : progMap s.params a = .absent) :
    fetchWord a s = .refused .fetchAbsent := by
  simp only [fetchWord, h]

/-- Settles O9: region by region, and what is looked at ahead by `ahead_agrees`. -/
theorem fetchedWord : Obligations.FetchedWord := by
  intro a s
  refine ⟨fun h => ⟨progRead_plain h, fetchPlain a s, fetchWord_plain h, fetchPlain_cases a s, fetchPlain_snd a s, ?_⟩,
    fun h => ⟨?_, ?_⟩, fun h => ⟨fetchWord_absent h, ?_⟩, fun i start last p w => ?_⟩
  · exact fun hm => by rw [fetchPlain_miss hm]
  · rw [progRead_device h]; exact deviceRead_answers .prog a s
  · exact ⟨_, fetchWord_device h, deviceGives_answers .prog a (s.freeCode a) (s.freeCode a).2 rfl⟩
  · rw [progRead_absent h]; rfl
  · have ha := ahead_agrees i start last p s
    exact ⟨ha.symm.fetchWord_next, ha.fetchWord_next⟩

end Sys2Proof.Machine
end

section
/-! PROOFS. What an instruction and a step leave of memory: its bytes and its program words (O15, O21). -/

namespace Sys2Proof.Machine

/-! What leaves memory alone. -/

theorem MemFrame.mem {s t : State} (h : MemFrame s t) : t.mem = s.mem := by rw [h]

theorem MemFrame.params {s t : State} (h : MemFrame s t) : t.params = s.params := by rw [h]

theorem ReadFrame.mem {s t : State} (h : ReadFrame s t) : t.mem = s.mem := by rw [h.1]

theorem ReadFrame.params {s t : State} (h : ReadFrame s t) : t.params = s.params := by rw [h.1]

theorem Kept.mem {mul rr : Bool} {s t : State} (h : Kept mul rr s t) : t.mem = s.mem :=
  (congrArg State.mem h.rest :)

theorem regWrite_mem {c : Reg} {v : Word} {s t : State} (h : regWrite c v s = .next t) : t.mem = s.mem := by
  rw [(regWrite_frame h).1.rest]

theorem readInd_mem (n : Fin 6) (m : PostMod) (s : State) : (readInd n m s).2.mem = s.mem :=
  (kept_readInd true true n m s).mem

theorem readDir_mem (a : BitVec 8) (s : State) : (readDir a s).2.mem = s.mem := (dataRead_frame _ s).mem

theorem moveAcc_mem (x : Acc) (v : Accum) (s : State) : (moveAcc x v s).mem = s.mem :=
  (kept_moveAcc true true x v s).mem

theorem writeRnStar_mem (q : RnStar) (v : Word) (s : State) : (writeRnStar q v s).mem = s.mem := by cases q <;> rfl

theorem announced_mem (a : Word) (s : State) : (s.announced a).mem = s.mem := by rw [announced_eq]

theorem announced_params (a : Word) (s : State) : (s.announced a).params = s.params := by rw [announced_eq]

theorem jumpTo_mem {a : Word} {s t : State} (h : jumpTo a s = .next t) : t.mem = s.mem := by
  obtain ⟨-, rfl⟩ := jumpTo_eq_next.1 h; rfl

theorem callTo_mem {a : Word} {s t : State} (h : callTo a s = .next t) : t.mem = s.mem := by
  obtain ⟨-, -, rfl⟩ := callTo_eq_next.1 h; rfl

theorem returnTo_mem {s t : State} (h : returnTo s = .next t) : t.mem = s.mem := by
  obtain ⟨v, rest, -, -, rfl⟩ := returnTo_eq_next.1 h; rfl

theorem endRoutine_mem (s : State) : (endRoutine s).mem = s.mem := by rw [endRoutine_eq]

/-- A branch, call or return that its condition may leave out. -/
theorem cond_mem {cc : Cond} {k : Out} {s t : State} (h : (if condTrue cc s then k else .next s) = .next t)
    (hk : k = .next t → t.mem = s.mem) : t.mem = s.mem := by
  split at h
  · exact hk h
  · cases h; rfl

/-! Stores. -/

/-- The memory of t is that of s, or that of s with a word stored at the data address `dest`, which the map has as RAM or
as a shared word. -/
def StoresOnly (dest : Option Word) (s t : State) : Prop :=
  t.mem = s.mem ∨ ∃ a v, dest = some a ∧ (dataMap s.params a = .ram ∨ dataMap s.params a = .shared) ∧
    t.mem = s.mem.writeWord (dataCell a) v

/-- A data write made in a state u with the memory and the map of s. -/
theorem storesOnly_dataWrite {a v : Word} {s u : State} (hm : u.mem = s.mem) (hp : u.params = s.params) :
    StoresOnly (some a) s (dataWrite a v u) := by
  rw [StoresOnly, ← hm, ← hp]
  cases hr : dataMap u.params a with
  | ram => exact .inr ⟨a, v, rfl, .inl hr, dataWrite_mem_stored v (.inl hr)⟩
  | shared => exact .inr ⟨a, v, rfl, .inr hr, dataWrite_mem_stored v (.inr hr)⟩
  | rom => exact .inl (by rw [dataWrite_rom v hr])
  | device => exact .inl (by rw [dataWrite_device v hr])
  | absent => exact .inl (by rw [dataWrite_absent v hr])

theorem StoresOnly.postMod {dest : Option Word} {s t : State} (h : StoresOnly dest s t) (n : Fin 6) (m : PostMod) :
    StoresOnly dest s (postMod n m t) := h

/-- A store leaves every byte outside the word at its address. -/
theorem StoresOnly.read_eq {dest : Option Word} {s t : State} (h : StoresOnly dest s t) {k : Nat}
    (hk : ∀ a, dest = some a → k ≠ 2 * a.toNat ∧ k ≠ 2 * a.toNat + 1) : t.mem.read k = s.mem.read k := by
  rcases h with h | ⟨a, v, ha, -, h⟩ <;> rw [h]
  exact Memory.read_writeWord_other _ v (hk a ha).1 (hk a ha).2

/-- A shared address that is no shared word is of the common ROM, in both maps. -/
theorem dataMap_rom_of_progMap {c : Params} {a : Word} (hs : isSharedAddr a = true) (hp : progMap c a ≠ .shared) :
    dataMap c a = .rom := by
  rw [progMap_of_shared hs] at hp
  rw [dataMap_of_shared hs]
  cases h : inBlock c.commonRom 2048 a
  · exact absurd (sharedRegion_shared h) hp
  · exact sharedRegion_rom h

/-- A store leaves every program word that is no shared word: its cell is that of no data word, or of one in ROM. -/
theorem StoresOnly.progWord_eq {dest : Option Word} {s t : State} (h : StoresOnly dest s t) {b : Word}
    (hb : progMap s.params b ≠ .shared) : progWord b t = progWord b s := by
  rcases h with h | ⟨a, v, -, hr, h⟩
  · rw [progWord, h]; rfl
  · have hc : progCell b ≠ dataCell a := by
      intro e
      obtain ⟨rfl, hs⟩ := progCell_eq_dataCell.1 e
      simp [dataMap_rom_of_progMap hs hb] at hr
    rw [progWord, h, Memory.readWord_writeWord_other _ v hc]; rfl

/-! The instructions. -/

theorem storesOnly_moveGroup {i : Instr} {s t : State} (h : exec i s = .next t) (hi : isMoveGroup i = true) :
    StoresOnly (storeAddress i s) s t := by
  cases i <;> cases hi
  case movpAccReg x c =>
    obtain ⟨a, -, h⟩ := andThen_eq_next.1 h
    exact .inl ((regWrite_mem h).trans (progRead_frame a s).mem)
  case movpIndInd n m j k =>
    obtain ⟨-, h⟩ := refuseIf_eq_next.1 h
    have hr := progRead_frame (s.addr n) s
    cases h; exact ((storesOnly_dataWrite hr.mem hr.params).postMod n m).postMod (regI j) k
  case movRegInd c n m =>
    obtain ⟨-, h⟩ := refuseIf_eq_next.1 h
    obtain ⟨-, h⟩ := refuseIf_eq_next.1 h
    obtain ⟨-, h⟩ := refuseIf_eq_next.1 h
    obtain ⟨o, ho, h⟩ := andThen_eq_next.1 h
    have hr := (regRead_frame ho).1
    cases h
    exact (storesOnly_dataWrite (hr.mem.trans (announced_mem ..)) (hr.params.trans (announced_params ..))).postMod n m
  case movIndReg n m c =>
    obtain ⟨-, h⟩ := refuseIf_eq_next.1 h
    obtain ⟨-, h⟩ := refuseIf_eq_next.1 h
    exact .inl ((regWrite_mem h).trans (readInd_mem n m s))
  case movRegReg src dst =>
    rcases execMovRegReg_cases h with ⟨x, v, rfl⟩ | ⟨o, ho, h⟩
    · exact .inl (moveAcc_mem x v s)
    · exact .inl ((regWrite_mem h).trans (regRead_frame ho).1.mem)
  case movLongReg w c => exact .inl (regWrite_mem h)
  case movSimmRn imm q => cases h; exact .inl (writeRnStar_mem ..)
  case movDirRn a q =>
    obtain ⟨-, h⟩ := refuseIf_eq_next.1 h
    cases h; exact .inl ((writeRnStar_mem ..).trans (readDir_mem a s))
  case movDirAcc a x | movDirAcch a x | movDirAccl a x =>
    cases h; exact .inl ((moveAcc_mem ..).trans (readDir_mem a s))
  case movDirAcchEu a x =>
    cases h; exact .inl (by simp only [State.setFlags_mem, State.setAcc_mem, readDir_mem])
  case movRnDir q a | movAcclDir x a | movAcchDir x a => cases h; exact storesOnly_dataWrite rfl rfl
  case movImmAccl imm x | movSimmAcch imm x => cases h; exact .inl (moveAcc_mem ..)

theorem controlGroup_mem {i : Instr} {s t : State} (h : exec i s = .next t) (hi : isControlGroup i = true) :
    t.mem = s.mem := by
  cases i <;> cases hi
  case nop | modr | eint | dint | lpg | repImm => cases h; rfl
  case trap =>
    obtain ⟨-, -, rfl⟩ := enterTrap_eq_next.1 (refuseIf_eq_next.1 h).2
    rfl
  case br | brr => exact cond_mem h jumpTo_mem
  case call | callr => exact cond_mem h callTo_mem
  case calla =>
    obtain ⟨a, -, h⟩ := andThen_eq_next.1 h
    exact callTo_mem h
  case ret => exact cond_mem h returnTo_mem
  case reti =>
    obtain ⟨u, hu, rfl⟩ := returnFromException_eq_next.1 h
    exact (endRoutine_mem u).trans (returnTo_mem hu)
  case repReg c =>
    obtain ⟨o, ho, h⟩ := andThen_eq_next.1 h
    cases h; exact (regRead_frame ho).1.mem
  case bkrepImm imm last =>
    obtain ⟨-, h⟩ := refuseIf_eq_next.1 h
    cases h; rfl
  case bkrepReg c last =>
    obtain ⟨-, h⟩ := refuseIf_eq_next.1 h
    obtain ⟨-, h⟩ := refuseIf_eq_next.1 h
    obtain ⟨-, h⟩ := refuseIf_eq_next.1 h
    obtain ⟨o, ho, h⟩ := andThen_eq_next.1 h
    cases h; exact (regRead_frame ho).1.mem
  case unused => cases h

/-- An instruction stores, if anything, one word, at the data address that `storeAddress` gives for it. -/
theorem storesOnly_exec {i : Instr} {s t : State} (h : exec i s = .next t) : StoresOnly (storeAddress i s) s t := by
  rcases group_cases i with hi | hi | hi | hi | hi
  · exact .inl (kept_aluGroup h hi).mem
  · exact .inl (kept_modaGroup h hi).mem
  · exact .inl (kept_mulGroup h hi).mem
  · exact storesOnly_moveGroup h hi
  · exact .inl (controlGroup_mem h hi)

/-- Settles O21, from `storesOnly_exec`. -/
theorem storeFrame : Obligations.StoreFrame := fun _ _ _ h _ hk => (storesOnly_exec h).read_eq hk

/-! The step. -/

theorem markEntry_mem (irq : Irq) (s : State) : (markEntry irq s).mem = s.mem := by cases irq <;> rfl

theorem enterInterrupt_mem {irq : Irq} {s t : State} (h : enterInterrupt irq s = .next t) : t.mem = s.mem := by
  obtain ⟨-, -, rfl⟩ := enterInterrupt_eq_next.1 h
  exact markEntry_mem irq _

/-- A step stores, if anything, the one word that its instruction stores. -/
theorem step_storesOnly {s t : State} (h : step s = .next t) : ∃ dest, StoresOnly dest s t := by
  cases stepped h with
  | reset _ e | stop _ e => subst e; exact ⟨none, .inl (sample_mem s)⟩
  | interrupt irq _ ht => exact ⟨none, .inl ((enterInterrupt_mem ht).trans (sample_mem s))⟩
  | run i f u start last hf _ hx e =>
    have hm : f.mem = s.mem := by rw [hf]; exact sample_mem s
    have hp : f.params = s.params := by rw [hf]; exact sample_params s
    refine ⟨storeAddress i f, ?_⟩
    rw [e, StoresOnly, afterInstr_mem, ← hm, ← hp]
    exact storesOnly_exec hx

/-- Settles O15: the one store of a step is to no word of the program space alone, and to none of the common ROM. -/
theorem programWordsKept : Obligations.ProgramWordsKept := fun _ _ _ h ha =>
  let ⟨_, hs⟩ := step_storesOnly h
  hs.progWord_eq ha

end Sys2Proof.Machine
end

section
/-! PROOFS. The modulo modifier and the post-modification of an address register (O25, O26). -/

namespace Sys2Proof.Machine

/-! The number of low bits that wrap. -/

/-- One comparison in the search for the number of binary digits of m, of which there are k or more. -/
theorem size_eq_ite {m k r : Nat} (hk : k ≤ Nat.size m) (hr : k + 1 ≤ Nat.size m → Nat.size m = r) :
    Nat.size m = if m < 2 ^ k then k else r := by
  split
  · next h => exact le_antisymm (Nat.size_le.2 h) hk
  · next h => exact hr (Nat.lt_size.2 (not_lt.1 h))

/-- The ten answers of `modBits` are the numbers of binary digits of a 9-bit MOD. -/
theorem modBits_eq_size {md : Nat} (h : md < 512) : Nat.size md = modBits md :=
  size_eq_ite (k := 0) (Nat.zero_le _) fun h1 => size_eq_ite (k := 1) h1 fun h2 => size_eq_ite (k := 2) h2 fun h3 =>
    size_eq_ite (k := 3) h3 fun h4 => size_eq_ite (k := 4) h4 fun h5 => size_eq_ite (k := 5) h5 fun h6 =>
      size_eq_ite (k := 6) h6 fun h7 => size_eq_ite (k := 7) h7 fun h8 => size_eq_ite (k := 8) h8 fun h9 =>
        le_antisymm (Nat.size_le.2 h) h9

/-- modBits gives the least k with 2^k > MOD (R96). -/
theorem modBits_eq {md k : Nat} (h : md < 512) (hk : md < 2 ^ k) (hl : ∀ j, md < 2 ^ j → k ≤ j) : modBits md = k := by
  rw [← modBits_eq_size h]
  exact le_antisymm (Nat.size_le.2 hk) (hl _ (Nat.lt_size_self md))

theorem modBits_le {md : Nat} (h : md < 512) : modBits md ≤ 9 := modBits_eq_size h ▸ Nat.size_le.2 h

/-! The k low bits of a word, and the bits above. -/

theorem mask_toNat {k : Nat} (hk : k ≤ 16) : (BitVec.ofNat 16 (2 ^ k - 1)).toNat = 2 ^ k - 1 := by
  have : 2 ^ k ≤ 2 ^ 16 := Nat.pow_le_pow_right (by decide) hk
  have : 0 < 2 ^ k := by positivity
  rw [BitVec.toNat_ofNat]; omega

theorem low_toNat (v : Word) {k : Nat} (hk : k ≤ 16) :
    (v &&& BitVec.ofNat 16 (2 ^ k - 1)).toNat = v.toNat % 2 ^ k := by
  rw [BitVec.toNat_and, mask_toNat hk, Nat.and_two_pow_sub_one_eq_mod]

/-- A number below 2^k has no bits above the k low ones. -/
theorem and_mask_of_lt {md k : Nat} (hk : k ≤ 16) (h : md < 2 ^ k) :
    BitVec.ofNat 16 md &&& BitVec.ofNat 16 (2 ^ k - 1) = BitVec.ofNat 16 md := by
  have : 2 ^ k ≤ 2 ^ 16 := Nat.pow_le_pow_right (by decide) hk
  apply BitVec.eq_of_toNat_eq
  rw [low_toNat _ hk, BitVec.toNat_ofNat, Nat.mod_eq_of_lt (h.trans_le this), Nat.mod_eq_of_lt h]

/-- The bits above are the word less its low bits. -/
theorem high_toNat (v m : Word) : (v &&& ~~~m).toNat = v.toNat - (v &&& m).toNat := by
  have hd : (v &&& ~~~m) &&& (v &&& m) = 0#16 := by
    ext i
    simp only [BitVec.getElem_and, BitVec.getElem_not, BitVec.getElem_zero]
    cases v[i] <;> cases m[i] <;> rfl
  have hu : (v &&& ~~~m) ||| (v &&& m) = v := by
    ext i
    simp only [BitVec.getElem_or, BitVec.getElem_and, BitVec.getElem_not]
    cases v[i] <;> cases m[i] <;> rfl
  have hs := BitVec.toNat_add_of_and_eq_zero hd
  have he := BitVec.add_eq_or_of_and_eq_zero _ _ hd
  rw [he, hu] at hs
  omega

/-- The word with its k low bits cleared. -/
theorem clearLow_eq (v : Word) {k : Nat} (hk : k ≤ 16) :
    v &&& ~~~(BitVec.ofNat 16 (2 ^ k - 1)) = BitVec.ofNat 16 (v.toNat - v.toNat % 2 ^ k) := by
  have := v.isLt
  apply BitVec.eq_of_toNat_eq
  rw [high_toNat, low_toNat v hk, BitVec.toNat_ofNat]
  omega

/-- Where the k low bits are 0, a number below 2^k is put into them by an addition. -/
theorem setLow_eq {v : Word} {md k : Nat} (hk : k ≤ 16) (h : md < 2 ^ k) (hv : v.toNat % 2 ^ k = 0) :
    v ||| BitVec.ofNat 16 md = BitVec.ofNat 16 (v.toNat + md) := by
  have hz : v &&& BitVec.ofNat 16 (2 ^ k - 1) = 0#16 := BitVec.eq_of_toNat_eq ((low_toNat v hk).trans hv)
  have hd : v &&& BitVec.ofNat 16 md = 0#16 := by
    rw [← and_mask_of_lt hk h, BitVec.and_comm (BitVec.ofNat 16 md), ← BitVec.and_assoc, hz, BitVec.zero_and]
  rw [← BitVec.add_eq_or_of_and_eq_zero _ _ hd, BitVec.ofNat_add, BitVec.ofNat_toNat, BitVec.setWidth_eq]

theorem add_ofInt (v : Word) (q : Int) : v + BitVec.ofInt 16 q = BitVec.ofInt 16 (v.toNat + q) := by
  rw [BitVec.ofInt_add, BitVec.ofInt_natCast, BitVec.ofNat_toNat, BitVec.setWidth_eq]

/-- The modulo modifier in numbers, k being the number of low bits that MOD takes. -/
theorem modulo_eq (old : Word) (q : Int) {md : Nat} (h : md < 512) :
    let low := old.toNat % 2 ^ modBits md
    modulo old q md =
      if 0 < q ∧ low = md then (BitVec.ofNat 16 (old.toNat - low), true)
      else if q < 0 ∧ low = 0 then (BitVec.ofNat 16 (old.toNat + md), true)
      else (BitVec.ofInt 16 (old.toNat + q), false) := by
  intro low
  have hk : modBits md ≤ 16 := (modBits_le h).trans (by decide)
  have hlt : md < 2 ^ modBits md := modBits_eq_size h ▸ Nat.lt_size_self md
  have hmd : old &&& BitVec.ofNat 16 (2 ^ modBits md - 1) = BitVec.ofNat 16 md ↔ low = md := by
    rw [← BitVec.toNat_inj, low_toNat old hk, BitVec.toNat_ofNat, Nat.mod_eq_of_lt (h.trans (by decide))]
  have hz : old &&& BitVec.ofNat 16 (2 ^ modBits md - 1) = 0 ↔ low = 0 := by
    rw [← BitVec.toNat_inj, low_toNat old hk]; rfl
  simp only [modulo, hmd, hz, gt_iff_lt, clearLow_eq old hk, add_ofInt]
  by_cases h0 : low = 0
  · have hc : BitVec.ofNat 16 (old.toNat - low) = old := by rw [h0]; simp
    rw [hc, setLow_eq hk hlt h0]
  · simp only [h0, and_false, if_false]; rfl

/-- Settles O26: `modulo_eq`, with the k of the statement. -/
theorem moduloModifier : Obligations.ModuloModifier := by
  intro old q md k h hk hl
  obtain rfl := modBits_eq h hk hl
  intro low
  rw [modulo_eq old q h]
  refine ⟨fun hq e => if_pos ⟨hq, e⟩, fun hq e => ?_, fun hu hd => ?_⟩
  · rw [if_neg fun hu => hq.asymm hu.1, if_pos ⟨hq, e⟩]
  · rw [if_neg hu, if_neg hd]

/-! The post-modification. -/

/-- STEPx as a number: the low seven bits, signed (10_state R26). -/
theorem stepOf_eq (cfg : Word) :
    stepOf cfg = if cfg.toNat % 128 < 64 then ((cfg.toNat % 128 : Nat) : Int) else (cfg.toNat % 128 : Nat) - 128 := by
  have hn : (cfg.extractLsb' 0 7).toNat = cfg.toNat % 128 := by simp
  rw [stepOf, BitVec.toInt_eq_toNat_cond, hn]
  split <;> split <;> omega

/-- MODx as a number: the nine high bits. -/
theorem modOf_eq (cfg : Word) : modOf cfg = cfg.toNat / 128 := by
  have := cfg.isLt
  rw [modOf, BitVec.extractLsb'_toNat, Nat.shiftRight_eq_div_pow]
  omega

/-- Settles O25: by whether the modulo modifier is used; without it the amount is added as it is. -/
theorem postModification : Obligations.PostModification := by
  intro n m s cfg step q linear new
  have hq : q = modAmount m cfg := by
    cases m
    case step => exact (stepOf_eq cfg).symm
    all_goals rfl
  have hl : linear = s.addr n + BitVec.ofInt 16 (modAmount m cfg) := by rw [add_ofInt, ← hq]
  have hn : modified n m s = new := by
    by_cases hk : m = .keep
    · subst hk
      simp [modified, new, hl, modAmount]
    · cases hb : s.st2.m.getLsbD n.val
      · simp only [modified, new, hk, hb, hl, Bool.false_eq_true, if_false, false_or, if_true]; rfl
      · simp only [modified, new, hk, hb, hq, ← modOf_eq, Bool.true_eq_false, if_false, or_self, if_true]; rfl
  exact ⟨hn, by rw [postMod_eq, hn]⟩

end Sys2Proof.Machine
end

section
/-! PROOFS. The three groups of first words and their rows (30_encoding R113 to R116): what O1 to O4 split on. -/

namespace Sys2Proof

theorem group_of_quad {w : Word} {k : Nat} (h : field w 11 5 = k) : field w 14 2 = k / 8 := by
  unfold field at *; omega

theorem group_of_pair {w : Word} {k : Nat} (h : field w 10 6 = k) : field w 14 2 = k / 16 := by
  unfold field at *; omega

/-- Bits 13:9 from bits 15:11. -/
theorem row_of_quad {w : Word} {k : Nat} (h : field w 11 5 = k) :
    field w 9 5 = k % 8 * 4 ∨ field w 9 5 = k % 8 * 4 + 1 ∨ field w 9 5 = k % 8 * 4 + 2 ∨
      field w 9 5 = k % 8 * 4 + 3 := by
  unfold field at *; omega

/-- Bits 13:9 from bits 15:10. -/
theorem row_of_pair {w : Word} {k : Nat} (h : field w 10 6 = k) :
    field w 9 5 = k % 16 * 2 ∨ field w 9 5 = k % 16 * 2 + 1 := by
  unfold field at *; omega

/-- A word is of the CONTROL, the MOVE or the ALU group. -/
theorem word_group (w : Word) : field w 14 2 = 0 ∨ field w 14 2 = 1 ∨ 2 ≤ field w 14 2 := by omega

section
variable (c : Params) {w : Word} (w1 : Word)

theorem decodeWords_control (h : field w 14 2 = 0) : decodeWords c w w1 = decodeControl c w w1 := by
  simp only [decodeWords, h]

theorem decodeWords_move (h : field w 14 2 = 1) : decodeWords c w w1 = decodeMove c w w1 := by
  simp only [decodeWords, h]

theorem decodeWords_alu (h : 2 ≤ field w 14 2) : decodeWords c w w1 = decodeAlu c w w1 := by
  unfold decodeWords
  split
  case h_3 => rfl
  all_goals omega

theorem decodeControl_moda (h : field w 11 5 = 3) : decodeControl c w w1 = .ok (decodeModa c w) := by
  rcases row_of_quad h with e | e | e | e <;> simp only [decodeControl, e]

end

end Sys2Proof
end

section
/-! PROOFS. The words that decode to `unused` (30_encoding R127, O3). -/

namespace Sys2Proof

/-- The word w decodes as r, to `unused` exactly if `b`. -/
def GivesUnused (b : Bool) (w : Word) (r : Except DecodeError Instr) : Prop :=
  ∀ v, r = .ok (.unused v) ↔ v = w ∧ b = true

section
variable {w : Word}

theorem GivesUnused.unused {b : Bool} (hb : b = true) : GivesUnused b w (.ok (.unused w)) := fun v =>
  ⟨fun h => by cases h; exact ⟨rfl, hb⟩, fun h => by rw [h.1]⟩

theorem GivesUnused.ok {i : Instr} (h : ∀ v, i ≠ .unused v) : GivesUnused false w (.ok i) := fun v =>
  ⟨fun e => absurd (Except.ok.inj e) (h v), nofun⟩

theorem GivesUnused.map {α : Type} {r : Except DecodeError α} {f : α → Instr} (h : ∀ a v, f a ≠ .unused v) :
    GivesUnused false w (r.map f) := by
  cases r with
  | error => exact fun _ => ⟨nofun, nofun⟩
  | ok a => exact .ok (h a)

theorem GivesUnused.bind {α : Type} {r : Except DecodeError α} {f : α → Except DecodeError Instr}
    (h : ∀ a, GivesUnused false w (f a)) : GivesUnused false w (r.bind f) := by
  cases r with
  | error => exact fun _ => ⟨nofun, nofun⟩
  | ok a => exact h a

end

/-! The forms. -/

theorem modaForm_ne_unused (f : ModaFn) (x : Acc) (cc : Cond) (v : Word) : modaForm f x cc ≠ .unused v := by
  cases f <;> nofun

theorem decodeModa_unused (c : Params) (w : Word) :
    GivesUnused (c.modaCode[field w 4 4 % 16].isNone) w (.ok (decodeModa c w)) := by
  unfold decodeModa
  split
  · next f e => rw [e]; exact .ok (modaForm_ne_unused f _ _)
  · next e => rw [e]; exact .unused rfl

theorem aluRegForm_ne_unused (c : Params) (op : Nat) (x : Acc) (r : Reg) (v : Word) :
    aluRegForm c op x r ≠ .unused v := by
  unfold aluRegForm
  split
  case h_10 => split <;> nofun
  all_goals nofun

theorem aluIndForm_ne_unused (c : Params) (op : Nat) (x : Acc) (n : Fin 6) (m : PostMod) (v : Word) :
    aluIndForm c op x n m ≠ .unused v := by
  unfold aluIndForm
  split
  case h_10 => split <;> nofun
  all_goals nofun

theorem aluDirForm_ne_unused (c : Params) (op : Nat) (x : Acc) (a : BitVec 8) (v : Word) :
    aluDirForm c op x a ≠ .unused v := by
  unfold aluDirForm
  split
  case h_10 => split <;> nofun
  all_goals nofun

theorem aluLongForm_unused (w w1 : Word) (op : Nat) (x : Acc) :
    GivesUnused (decide (6 ≤ op)) w (.ok (aluLongForm w w1 op x)) := by
  unfold aluLongForm
  split
  case h_7 =>
    exact .unused (decide_eq_true (by simp only [imp_false] at *; omega))
  all_goals exact .ok nofun

theorem aluImmForm_unused (w : Word) (op : Nat) (x : Acc) :
    GivesUnused (op == 7 || decide (8 ≤ op)) w (.ok (aluImmForm w op x)) := by
  unfold aluImmForm
  split
  case h_8 =>
    refine .unused ?_
    simp only [Bool.or_eq_true, beq_iff_eq, decide_eq_true_eq, imp_false] at *
    omega
  all_goals exact .ok nofun

theorem mulLongForm_unused (c : Params) (w w1 : Word) (op : Nat) (x : Acc) :
    GivesUnused (decide (op ≤ 5 ∨ 9 ≤ op)) w (mulLongForm c w w1 op x) := by
  unfold mulLongForm
  dsimp only
  split
  case h_4 =>
    exact .unused (decide_eq_true (by simp only [imp_false] at *; omega))
  all_goals exact .map nofun

theorem mulPairForm_unused (c : Params) (w : Word) (op : Nat) (x : Acc) :
    GivesUnused (decide (op ≤ 5 ∨ 9 ≤ op) || field w 7 1 == 1) w (.ok (mulPairForm c w op x)) := by
  unfold mulPairForm
  dsimp only
  split
  case h_4 h6 h7 h8 =>
    have : field w 7 1 < 2 := Nat.mod_lt _ (by decide)
    refine .unused ?_
    simp only [Bool.or_eq_true, decide_eq_true_eq, beq_iff_eq, imp_false] at *
    omega
  all_goals next e => rw [e]; exact .ok nofun

/-! The groups. -/

/-- A field that does not have the value k. -/
theorem field_beq_false {w : Word} {lo len k : Nat} (h : field w lo len ≠ k) : (field w lo len == k) = false :=
  beq_eq_false_iff_ne.2 h

theorem isUnusedWord_control (c : Params) {w : Word} (h : field w 14 2 = 0) :
    isUnusedWord c w = (field w 9 5 == 1 && field w 8 1 == 1 || field w 9 5 == 5 || field w 9 5 == 29 ||
      field w 9 5 == 31 || field w 9 5 / 4 == 3 && c.modaCode[field w 4 4 % 16].isNone) := by
  have h8 : (field w 8 8 == 3) = (field w 9 5 == 1 && field w 8 1 == 1) := by
    rw [Bool.eq_iff_iff]; simp only [Bool.and_eq_true, beq_iff_eq]; unfold field at *; omega
  have h9 : field w 9 7 = field w 9 5 := by unfold field at *; omega
  have h11 : field w 11 5 = field w 9 5 / 4 := by unfold field at *; omega
  have ht : field w 9 5 < 32 := Nat.mod_lt _ (by decide)
  have n10 : field w 10 6 ≠ 17 := by unfold field at *; omega
  have n12 : field w 12 4 ≠ 15 := by unfold field at *; omega
  have n4 : field w 13 3 ≠ 4 := by unfold field at *; omega
  have n6 : field w 13 3 ≠ 6 := by unfold field at *; omega
  have n47 : field w 9 5 ≠ 47 := by omega
  have n119 : field w 9 5 ≠ 119 := by omega
  simp only [isUnusedWord, h8, h9, h11, field_beq_false n10, field_beq_false n12, field_beq_false n4,
    field_beq_false n6, field_beq_false n47, field_beq_false n119, Bool.false_and, Bool.or_false]

theorem isUnusedWord_move (c : Params) {w : Word} (h : field w 14 2 = 1) :
    isUnusedWord c w = (field w 9 5 / 2 == 1 || field w 9 5 == 15) := by
  have h10 : (field w 10 6 == 17) = (field w 9 5 / 2 == 1) := by
    rw [Bool.eq_iff_iff, beq_iff_eq, beq_iff_eq]; unfold field at *; omega
  have h47 : (field w 9 7 == 47) = (field w 9 5 == 15) := by
    rw [Bool.eq_iff_iff, beq_iff_eq, beq_iff_eq]; unfold field at *; omega
  have n8 : field w 8 8 ≠ 3 := by unfold field at *; omega
  have n5 : field w 9 7 ≠ 5 := by unfold field at *; omega
  have n29 : field w 9 7 ≠ 29 := by unfold field at *; omega
  have n31 : field w 9 7 ≠ 31 := by unfold field at *; omega
  have n119 : field w 9 7 ≠ 119 := by unfold field at *; omega
  have n12 : field w 12 4 ≠ 15 := by unfold field at *; omega
  have n11 : field w 11 5 ≠ 3 := by unfold field at *; omega
  have n4 : field w 13 3 ≠ 4 := by unfold field at *; omega
  have n6 : field w 13 3 ≠ 6 := by unfold field at *; omega
  simp only [isUnusedWord, h10, h47, field_beq_false n8, field_beq_false n5, field_beq_false n29, field_beq_false n31,
    field_beq_false n119, field_beq_false n12, field_beq_false n11, field_beq_false n4, field_beq_false n6,
    Bool.false_and, Bool.or_false, Bool.false_or]

theorem isUnusedWord_alu (c : Params) {w : Word} (h : 2 ≤ field w 14 2) :
    isUnusedWord c w =
      (field w 13 2 == 3 && field w 9 4 == 7 || field w 13 2 == 3 && decide (8 ≤ field w 9 4) ||
        field w 13 2 == 0 && field w 6 2 == 1 && decide (field w 9 4 ≤ 5 ∨ 9 ≤ field w 9 4) ||
        field w 13 2 == 0 && field w 6 2 == 3 && decide (6 ≤ field w 9 4) ||
        field w 13 2 == 2 && (decide (field w 9 4 ≤ 5 ∨ 9 ≤ field w 9 4) || field w 7 1 == 1)) := by
  have h119 : (field w 9 7 == 119) = (field w 13 2 == 3 && field w 9 4 == 7) := by
    rw [Bool.eq_iff_iff]; simp only [Bool.and_eq_true, beq_iff_eq]; unfold field at *; omega
  have h12 : (field w 12 4 == 15) = (field w 13 2 == 3 && decide (8 ≤ field w 9 4)) := by
    rw [Bool.eq_iff_iff]; simp only [Bool.and_eq_true, beq_iff_eq, decide_eq_true_eq]; unfold field at *; omega
  have h4 : (field w 13 3 == 4) = (field w 13 2 == 0) := by
    rw [Bool.eq_iff_iff, beq_iff_eq, beq_iff_eq]; unfold field at *; omega
  have h6 : (field w 13 3 == 6) = (field w 13 2 == 2) := by
    rw [Bool.eq_iff_iff, beq_iff_eq, beq_iff_eq]; unfold field at *; omega
  have n8 : field w 8 8 ≠ 3 := by unfold field at *; omega
  have n5 : field w 9 7 ≠ 5 := by unfold field at *; omega
  have n29 : field w 9 7 ≠ 29 := by unfold field at *; omega
  have n31 : field w 9 7 ≠ 31 := by unfold field at *; omega
  have n47 : field w 9 7 ≠ 47 := by unfold field at *; omega
  have n10 : field w 10 6 ≠ 17 := by unfold field at *; omega
  have n11 : field w 11 5 ≠ 3 := by unfold field at *; omega
  simp only [isUnusedWord, h119, h12, h4, h6, field_beq_false n8, field_beq_false n5, field_beq_false n29,
    field_beq_false n31, field_beq_false n47, field_beq_false n10, field_beq_false n11, Bool.false_and, Bool.or_false,
    Bool.false_or]

theorem decodeControl_unused (c : Params) {w : Word} (w1 : Word) (h : field w 14 2 = 0) :
    GivesUnused (isUnusedWord c w) w (decodeControl c w w1) := by
  rw [isUnusedWord_control c h]
  unfold decodeControl
  dsimp only
  split
  case h_30 =>
    have : field w 9 5 < 32 := Nat.mod_lt _ (by decide)
    refine .unused ?_
    simp only [Bool.or_eq_true, beq_iff_eq, imp_false] at *
    omega
  case h_2 e =>
    rw [e]
    split
    · next ha => rw [ha]; exact .ok nofun
    · next ha =>
      have : field w 8 1 = 1 := by unfold field at *; omega
      rw [this]; exact .unused rfl
  case h_6 e | h_7 e | h_9 e | h_11 e => rw [e]; exact .map nofun
  case h_12 e | h_13 e | h_14 e | h_15 e => rw [e]; exact decodeModa_unused c w
  all_goals next e => rw [e]; exact .ok nofun

theorem decodeMove_unused (c : Params) {w : Word} (w1 : Word) (h : field w 14 2 = 1) :
    GivesUnused (isUnusedWord c w) w (decodeMove c w w1) := by
  rw [isUnusedWord_move c h]
  unfold decodeMove
  dsimp only
  split
  case h_30 =>
    have : field w 9 5 < 32 := Nat.mod_lt _ (by decide)
    refine .unused ?_
    simp only [Bool.or_eq_true, beq_iff_eq, imp_false] at *
    omega
  case h_1 e | h_2 e | h_13 e => rw [e]; exact .map nofun
  case h_3 e | h_4 e | h_5 e | h_6 e | h_11 e | h_12 e => rw [e]; exact .bind fun _ => .map nofun
  all_goals next e => rw [e]; exact .ok nofun

theorem decodeAlu_unused (c : Params) {w : Word} (w1 : Word) (h : 2 ≤ field w 14 2) :
    GivesUnused (isUnusedWord c w) w (decodeAlu c w w1) := by
  rw [isUnusedWord_alu c h]
  unfold decodeAlu
  dsimp only
  split
  case h_1 ef eb => rw [ef, eb]; exact .map fun r => aluRegForm_ne_unused c _ _ r
  case h_2 ef eb => rw [ef, eb]; simpa using mulLongForm_unused c w w1 (field w 9 4) _
  case h_3 ef eb => rw [ef, eb]; exact .map fun n => aluIndForm_ne_unused c _ _ n _
  case h_4 ef n0 n1 n2 =>
    rw [ef, field_eq_three n0 n1 n2]; simpa using aluLongForm_unused w w1 (field w 9 4) _
  case h_5 ef => rw [ef]; exact .ok (aluDirForm_ne_unused c _ _ _)
  case h_6 ef => rw [ef]; simpa using mulPairForm_unused c w _ _
  case h_7 n0 n1 n2 _ _ _ =>
    rw [field_eq_three n0 n1 n2]; simpa using aluImmForm_unused w _ _

/-- A first word decodes to `unused` exactly where the listing marks it so. -/
theorem decodeWords_unused_iff {c : Params} {w w1 v : Word} :
    decodeWords c w w1 = .ok (.unused v) ↔ v = w ∧ isUnusedWord c w = true := by
  rcases word_group w with h | h | h
  · rw [decodeWords_control c w1 h]; exact decodeControl_unused c w1 h v
  · rw [decodeWords_move c w1 h]; exact decodeMove_unused c w1 h v
  · rw [decodeWords_alu c w1 h]; exact decodeAlu_unused c w1 h v

/-! The ranges of the listing. -/

theorem modaCode_isNone_iff (c : Params) (w : Word) :
    c.modaCode[field w 4 4 % 16].isNone = true ↔ c.modaCode[w.toNat / 16 % 16]? = some none := by
  have h : field w 4 4 % 16 = w.toNat / 16 % 16 := by unfold field; omega
  simp only [h, Option.isNone_iff_eq_none]
  rw [Vector.getElem?_eq_getElem (Nat.mod_lt _ (by decide)), Option.some_inj]

/-- The unused words as the ranges of 30_encoding R127. -/
theorem isUnusedWord_iff (c : Params) (w : Word) :
    isUnusedWord c w = true ↔
      let n := w.toNat
      let op := n / 512 % 16
      (0x0300 ≤ n ∧ n ≤ 0x03FF) ∨ (0x0A00 ≤ n ∧ n ≤ 0x0BFF) ∨ (0x3A00 ≤ n ∧ n ≤ 0x3BFF) ∨
      (0x3E00 ≤ n ∧ n ≤ 0x3FFF) ∨ (0x4400 ≤ n ∧ n ≤ 0x47FF) ∨ (0x5E00 ≤ n ∧ n ≤ 0x5FFF) ∨
      (0xC000 ≤ n ∧ n ≤ 0xCBFF) ∨ (0xD200 ≤ n ∧ n ≤ 0xDFFF) ∨ (0xEE00 ≤ n ∧ n ≤ 0xFFFF) ∨
      (0xC000 ≤ n ∧ n ≤ 0xDFFF ∧ n / 128 % 2 = 1) ∨
      (0x1800 ≤ n ∧ n ≤ 0x1FFF ∧ c.modaCode[n / 16 % 16]? = some none) ∨
      (0x8000 ≤ n ∧ n ≤ 0x9FFF ∧ n / 64 % 4 = 1 ∧ (op ≤ 5 ∨ 9 ≤ op)) ∨
      (0x8000 ≤ n ∧ n ≤ 0x9FFF ∧ n / 64 % 4 = 3 ∧ 6 ≤ op) := by
  have := w.isLt
  have h03 : field w 8 8 = 0x03 ↔ 0x0300 ≤ w.toNat ∧ w.toNat ≤ 0x03FF := by unfold field; omega
  have h0A : field w 9 7 = 0x05 ↔ 0x0A00 ≤ w.toNat ∧ w.toNat ≤ 0x0BFF := by unfold field; omega
  have h3A : field w 9 7 = 0x1D ↔ 0x3A00 ≤ w.toNat ∧ w.toNat ≤ 0x3BFF := by unfold field; omega
  have h3E : field w 9 7 = 0x1F ↔ 0x3E00 ≤ w.toNat ∧ w.toNat ≤ 0x3FFF := by unfold field; omega
  have h44 : field w 10 6 = 0x11 ↔ 0x4400 ≤ w.toNat ∧ w.toNat ≤ 0x47FF := by unfold field; omega
  have h5E : field w 9 7 = 0x2F ↔ 0x5E00 ≤ w.toNat ∧ w.toNat ≤ 0x5FFF := by unfold field; omega
  have hEE : field w 9 7 = 0x77 ∨ field w 12 4 = 0xF ↔ 0xEE00 ≤ w.toNat ∧ w.toNat ≤ 0xFFFF := by
    unfold field; omega
  have h18 : field w 11 5 = 3 ↔ 0x1800 ≤ w.toNat ∧ w.toNat ≤ 0x1FFF := by unfold field; omega
  have h80 : field w 13 3 = 4 ↔ 0x8000 ≤ w.toNat ∧ w.toNat ≤ 0x9FFF := by unfold field; omega
  have ho : field w 9 4 = w.toNat / 512 % 16 := by unfold field; omega
  have hm : field w 6 2 = w.toNat / 64 % 4 := by unfold field; omega
  have hC0 : field w 13 3 = 6 ∧ (w.toNat / 512 % 16 ≤ 5 ∨ 9 ≤ w.toNat / 512 % 16 ∨ field w 7 1 = 1) ↔
      (0xC000 ≤ w.toNat ∧ w.toNat ≤ 0xCBFF) ∨ (0xD200 ≤ w.toNat ∧ w.toNat ≤ 0xDFFF) ∨
        (0xC000 ≤ w.toNat ∧ w.toNat ≤ 0xDFFF ∧ w.toNat / 128 % 2 = 1) := by unfold field; omega
  simp only [isUnusedWord, Bool.or_eq_true, Bool.and_eq_true, beq_iff_eq, decide_eq_true_eq, modaCode_isNone_iff, ho,
    hm, h03, h0A, h3A, h3E, h44, h5E, h18, h80, hC0, or_assoc, and_assoc, ← hEE]
  exact Iff.of_eq (by ac_rfl)

/-- Settles O3: `decodeWords_unused_iff` in the ranges of `isUnusedWord_iff`. -/
theorem unusedRanges : Obligations.UnusedRanges := fun c w _ _ =>
  ⟨decodeWords_unused_iff.trans (and_congr_right fun _ => isUnusedWord_iff c w), fun _ => rfl⟩

end Sys2Proof
end

section
/-! PROOFS. Decoding undoes encoding (O1, O5): the fields of an encoded word, the operands they hold, and the rows. -/

namespace Sys2Proof

/-! The fields of a word from its number. -/

theorem field_of_toNat {w : Word} {n : Nat} (h : w.toNat = n) (lo len : Nat) :
    field w lo len = n / 2 ^ lo % 2 ^ len := by
  rw [← h, field]

theorem toNat_ofNat_word {n : Nat} (h : n < 65536) : (BitVec.ofNat 16 n).toNat = n := by
  rw [BitVec.toNat_ofNat, Nat.mod_eq_of_lt h]

section
variable {top a low : Nat} (ht : top < 128) (ha : a < 2) (hl : low < 256)
include ht ha hl

@[simp] theorem group_packWord : field (packWord top a low) 14 2 = top / 32 := by
  rw [field_of_toNat (packWord_toNat ht ha hl)]; omega

@[simp] theorem row_packWord : field (packWord top a low) 9 5 = top % 32 := by
  rw [field_of_toNat (packWord_toNat ht ha hl)]; omega

@[simp] theorem form_packWord : field (packWord top a low) 13 2 = top / 16 % 4 := by
  rw [field_of_toNat (packWord_toNat ht ha hl)]; omega

@[simp] theorem op_packWord : field (packWord top a low) 9 4 = top % 16 := by
  rw [field_of_toNat (packWord_toNat ht ha hl)]; omega

@[simp] theorem accBit_packWord : field (packWord top a low) 8 1 = a := by
  rw [field_of_toNat (packWord_toNat ht ha hl)]; omega

/-- A field of the low byte is one of `low`. -/
theorem lowField_packWord {lo len : Nat} (h : lo + len ≤ 8) :
    field (packWord top a low) lo len = low / 2 ^ lo % 2 ^ len := by
  have h8 : low = (packWord top a low).toNat % (2 ^ lo * 2 ^ (8 - lo)) := by
    rw [packWord_toNat ht ha hl, ← pow_add, Nat.add_sub_cancel' (by omega)]; omega
  have d : 2 ^ len ∣ 2 ^ (8 - lo) := pow_dvd_pow 2 (by omega)
  conv_rhs => rw [h8]
  rw [Nat.mod_mul_right_div_self, Nat.mod_mod_of_dvd _ d, field]

end

/-! The operands in the low byte. -/

theorem lowByte_of_field {w : Word} {b : BitVec 8} (h : field w 0 8 = b.toNat) : lowByte w = b := by
  rw [lowByte, h, BitVec.ofNat_toNat, BitVec.setWidth_eq]

section
variable {c : Params} (hc : c.Complete)
include hc

/-- The bits `mmNNN` hold the address register and its modifier. -/
theorem ind_of_field {w : Word} {n : Fin 6} {m : PostMod} (h : field w 0 5 = packInd c n m) :
    decodeAddr (field w 0 3) = .ok n ∧ decodeMod c (field w 3 2) = m := by
  have := n.isLt
  have hn : field w 0 3 = n.val := by unfold field packInd at *; omega
  have hm : field w 3 2 = encodeMod c m := by
    have := encodeMod_lt hc m
    unfold field packInd at *; omega
  rw [hn, hm]
  exact ⟨decodeAddr_val n, decodeMod_encodeMod hc m⟩

/-- The bits `0jjiiJII` hold the two address registers and their modifiers. -/
theorem pair_of_field {w : Word} {j : Fin 2} {jj : PostMod} {i : Fin 4} {k : PostMod}
    (h : field w 0 8 = packPair c j jj i k) :
    field w 7 1 = 0 ∧ decodeJ (field w 2 1) = j ∧ decodeMod c (field w 5 2) = jj ∧ decodeI (field w 0 2) = i ∧
      decodeMod c (field w 3 2) = k := by
  have := j.isLt
  have := i.isLt
  have := encodeMod_lt hc jj
  have := encodeMod_lt hc k
  have h7 : field w 7 1 = 0 := by unfold field packPair at *; omega
  have hj : field w 2 1 = j.val := by unfold field packPair at *; omega
  have hjj : field w 5 2 = encodeMod c jj := by unfold field packPair at *; omega
  have hi : field w 0 2 = i.val := by unfold field packPair at *; omega
  have hk : field w 3 2 = encodeMod c k := by unfold field packPair at *; omega
  rw [h7, hj, hjj, hi, hk]
  exact ⟨rfl, decodeJ_val j, decodeMod_encodeMod hc jj, decodeI_val i, decodeMod_encodeMod hc k⟩

end

/-! The rows of several values of bits 13:9. -/

section
variable (c : Params) {w : Word} (w1 : Word)

theorem decodeControl_callr (h : field w 11 5 = 4) :
    decodeControl c w w1 = .ok (.callr (BitVec.ofNat 7 (field w 4 7)) (decodeCond c (field w 0 4))) := by
  rcases row_of_quad h with e | e | e | e <;> simp only [decodeControl, e]

theorem decodeControl_brr (h : field w 11 5 = 5) :
    decodeControl c w w1 = .ok (.brr (BitVec.ofNat 7 (field w 4 7)) (decodeCond c (field w 0 4))) := by
  rcases row_of_quad h with e | e | e | e <;> simp only [decodeControl, e]

theorem decodeMove_regInd (h : field w 10 6 = 18) :
    decodeMove c w w1 = (decodeReg c (field w 5 5)).bind fun r =>
      (decodeAddr (field w 0 3)).map fun n => .movRegInd r n (decodeMod c (field w 3 2)) := by
  rcases row_of_pair h with e | e <;> simp only [decodeMove, e]

theorem decodeMove_indReg (h : field w 10 6 = 19) :
    decodeMove c w w1 = (decodeReg c (field w 5 5)).bind fun r =>
      (decodeAddr (field w 0 3)).map fun n => .movIndReg n (decodeMod c (field w 3 2)) r := by
  rcases row_of_pair h with e | e <;> simp only [decodeMove, e]

theorem decodeMove_regReg (h : field w 10 6 = 22) :
    decodeMove c w w1 = (decodeReg c (field w 0 5)).bind fun src =>
      (decodeReg c (field w 5 5)).map fun dst => .movRegReg src dst := by
  rcases row_of_pair h with e | e <;> simp only [decodeMove, e]

theorem decodeMove_simmRn (h : field w 11 5 = 10) :
    decodeMove c w w1 = .ok (.movSimmRn (lowByte w) (decodeRnStar c (field w 8 3))) := by
  rcases row_of_quad h with e | e | e | e <;> simp only [decodeMove, e]

theorem decodeMove_rnDir (h : field w 11 5 = 13) :
    decodeMove c w w1 = .ok (.movRnDir (decodeRnStar c (field w 8 3)) (lowByte w)) := by
  rcases row_of_quad h with e | e | e | e <;> simp only [decodeMove, e]

theorem decodeMove_dirRn (h : field w 11 5 = 14) :
    decodeMove c w w1 = .ok (.movDirRn (lowByte w) (decodeRnStar c (field w 8 3))) := by
  rcases row_of_quad h with e | e | e | e <;> simp only [decodeMove, e]

end

/-! The rows of one value of bits 15:9. -/

@[simp] theorem lowByte_packWord {top a : Nat} (b : BitVec 8) (ht : top < 128) (ha : a < 2) :
    lowByte (packWord top a b.toNat) = b := by
  refine lowByte_of_field ?_
  rw [lowField_packWord ht ha b.isLt (by decide)]
  have := b.isLt
  omega

section
variable {c : Params} (hc : c.Complete) {top : Nat} (ht : top < 128)
include hc ht

theorem decodeReg_packWord {a : Nat} (ha : a < 2) (r : Reg) :
    decodeReg c (field (packWord top a (encodeReg c r)) 0 5) = .ok r := by
  have hr := encodeReg_lt hc r
  have e : field (packWord top a (encodeReg c r)) 0 5 = encodeReg c r := by
    rw [lowField_packWord ht ha (by omega) (by decide)]; omega
  rw [e, decodeReg_encodeReg hc]

theorem decodeCond_packWord {a : Nat} (ha : a < 2) (cc : Cond) :
    decodeCond c (field (packWord top a (encodeCond c cc)) 0 4) = cc := by
  have hk := encodeCond_lt hc cc
  have e : field (packWord top a (encodeCond c cc)) 0 4 = encodeCond c cc := by
    rw [lowField_packWord ht ha (by omega) (by decide)]; omega
  rw [e, decodeCond_encodeCond hc]

theorem ind_packWord {a : Nat} (ha : a < 2) (n : Fin 6) (m : PostMod) :
    decodeAddr (field (packWord top a (packInd c n m)) 0 3) = .ok n ∧
      decodeMod c (field (packWord top a (packInd c n m)) 3 2) = m := by
  have hi := packInd_lt hc n m
  refine ind_of_field hc ?_
  rw [lowField_packWord ht ha (by omega) (by decide)]; omega

end

/-! The ALU group, form by form. -/

/-- What the decoder reads of a word of the ALU group whose bits 15:9 are `top` and whose low byte is `low`. -/
structure AluFields (w : Word) (top : Nat) (x : Acc) (low : Nat) : Prop where
  group : 2 ≤ field w 14 2
  form : field w 13 2 = top / 16 % 4
  op : field w 9 4 = top % 16
  acc : decodeAcc (field w 8 1) = x
  mid : field w 6 2 = low / 64
  ind : field w 0 5 = low % 32
  byte : field w 0 8 = low

theorem aluFields_packWord {top low : Nat} (h : 64 ≤ top) (ht : top < 128) (x : Acc) (hl : low < 256) :
    AluFields (packWord top (encodeAcc x) low) top x low := by
  have hx := encodeAcc_lt x
  refine ⟨?_, form_packWord ht hx hl, op_packWord ht hx hl, ?_, ?_, ?_, ?_⟩
  · rw [group_packWord ht hx hl]; omega
  · rw [accBit_packWord ht hx hl, decodeAcc_encodeAcc]
  · rw [lowField_packWord ht hx hl (by decide)]; omega
  · rw [lowField_packWord ht hx hl (by decide)]; omega
  · rw [lowField_packWord ht hx hl (by decide)]; omega

section
variable {c : Params} {w : Word} {top : Nat} {x : Acc}

theorem decodeWords_aluDir {a : BitVec 8} (p : AluFields w top x a.toNat) (ht : top / 16 = 5) (w1 : Word) :
    decodeWords c w w1 = .ok (aluDirForm c (top % 16) x a) := by
  rw [decodeWords_alu c w1 p.group]
  simp only [decodeAlu, p.form, ht, p.op, p.acc, lowByte_of_field p.byte]

theorem decodeWords_aluImm {b : BitVec 8} (p : AluFields w top x b.toNat) (ht : top / 16 = 7) (w1 : Word) :
    decodeWords c w w1 = .ok (aluImmForm w (top % 16) x) := by
  rw [decodeWords_alu c w1 p.group]
  simp only [decodeAlu, p.form, ht, p.op, p.acc]

theorem decodeWords_aluLong (p : AluFields w top x 192) (ht : top / 16 = 4) (w1 : Word) :
    decodeWords c w w1 = .ok (aluLongForm w w1 (top % 16) x) := by
  have h6 : field w 6 2 = 3 := p.mid
  rw [decodeWords_alu c w1 p.group]
  simp only [decodeAlu, p.form, ht, h6, p.op, p.acc]

end

section
variable {c : Params} (hc : c.Complete) {w : Word} {top : Nat} {x : Acc}
include hc

theorem decodeWords_aluReg {r : Reg} (p : AluFields w top x (encodeReg c r)) (ht : top / 16 = 4) (w1 : Word) :
    decodeWords c w w1 = .ok (aluRegForm c (top % 16) x r) := by
  have hr := encodeReg_lt hc r
  have h6 : field w 6 2 = 0 := by rw [p.mid]; omega
  have h5 : field w 0 5 = encodeReg c r := by rw [p.ind]; omega
  rw [decodeWords_alu c w1 p.group]
  simp only [decodeAlu, p.form, ht, h6, p.op, p.acc, h5, decodeReg_encodeReg hc, Except.map]

theorem decodeWords_aluInd {n : Fin 6} {m : PostMod} (p : AluFields w top x (128 + packInd c n m)) (ht : top / 16 = 4)
    (w1 : Word) : decodeWords c w w1 = .ok (aluIndForm c (top % 16) x n m) := by
  have hi := packInd_lt hc n m
  have h6 : field w 6 2 = 2 := by rw [p.mid]; omega
  obtain ⟨hn, hm⟩ := ind_of_field hc (w := w) (n := n) (m := m) (by rw [p.ind]; omega)
  rw [decodeWords_alu c w1 p.group]
  simp only [decodeAlu, p.form, ht, h6, p.op, p.acc, hn, hm, Except.map]

theorem decodeWords_mulLong {n : Fin 6} {m : PostMod} (p : AluFields w top x (64 + packInd c n m)) (w1 : Word) :
    (top = 70 → decodeWords c w w1 = .ok (.mpyIndLong n m w1)) ∧
    (top = 71 → decodeWords c w w1 = .ok (.macIndLong n m w1 x)) ∧
    (top = 72 → decodeWords c w w1 = .ok (.msuIndLong n m w1 x)) := by
  have hi := packInd_lt hc n m
  have h6 : field w 6 2 = 1 := by rw [p.mid]; omega
  obtain ⟨hn, hm⟩ := ind_of_field hc (w := w) (n := n) (m := m) (by rw [p.ind]; omega)
  refine ⟨?_, ?_, ?_⟩
  all_goals
    rintro rfl
    rw [decodeWords_alu c w1 p.group]
    simp only [decodeAlu, p.form, h6, p.op, p.acc, mulLongForm, hn, hm, Except.map]

theorem decodeWords_mulPair {j : Fin 2} {jj : PostMod} {i : Fin 4} {k : PostMod}
    (p : AluFields w top x (packPair c j jj i k)) (w1 : Word) :
    (top = 102 → decodeWords c w w1 = .ok (.mpyPair j jj i k)) ∧
    (top = 103 → decodeWords c w w1 = .ok (.macPair j jj i k x)) ∧
    (top = 104 → decodeWords c w w1 = .ok (.msuPair j jj i k x)) := by
  obtain ⟨h7, hj, hjj, hi, hk⟩ := pair_of_field hc p.byte
  refine ⟨?_, ?_, ?_⟩
  all_goals
    rintro rfl
    rw [decodeWords_alu c w1 p.group]
    simp only [decodeAlu, p.form, p.op, p.acc, mulPairForm, h7, hj, hjj, hi, hk]

/-- The register form of an operation with a code from 9 to 15. -/
theorem decodeWords_hiReg (o : HiOp) (x : Acc) (r : Reg) (w1 : Word) :
    decodeWords c (packWord (64 + encodeHi c o) (encodeAcc x) (encodeReg c r)) w1 = .ok
      (match o with
        | .sqr => .sqrReg r
        | .sqra => .sqraReg r x
        | .sqrs => .sqrsReg r x
        | .addl => .addlReg r x
        | .subl => .sublReg r x
        | .addh => .addhReg r x
        | .subh => .subhReg r x) := by
  obtain ⟨h9, h16⟩ := encodeHi_bounds hc o
  have he : (64 + encodeHi c o) % 16 = encodeHi c o := by omega
  rw [decodeWords_aluReg hc (aluFields_packWord (by omega) (by omega) x
    ((encodeReg_lt hc r).trans (by decide))) (by omega), he]
  unfold aluRegForm
  split
  case h_10 => cases o <;> simp only [decodeHi_encodeHi hc]
  all_goals omega

/-- The form `(rN)mm` of an operation with a code from 9 to 15. -/
theorem decodeWords_hiInd (o : HiOp) (x : Acc) (n : Fin 6) (m : PostMod) (w1 : Word) :
    decodeWords c (packWord (64 + encodeHi c o) (encodeAcc x) (128 + packInd c n m)) w1 = .ok
      (match o with
        | .sqr => .sqrInd n m
        | .sqra => .sqraInd n m x
        | .sqrs => .sqrsInd n m x
        | .addl => .addlInd n m x
        | .subl => .sublInd n m x
        | .addh => .addhInd n m x
        | .subh => .subhInd n m x) := by
  obtain ⟨h9, h16⟩ := encodeHi_bounds hc o
  have he : (64 + encodeHi c o) % 16 = encodeHi c o := by omega
  have hi := packInd_lt hc n m
  rw [decodeWords_aluInd hc (aluFields_packWord (by omega) (by omega) x (by omega)) (by omega), he]
  unfold aluIndForm
  split
  case h_10 => cases o <;> simp only [decodeHi_encodeHi hc]
  all_goals omega

/-- The direct form of an operation with a code from 9 to 15. -/
theorem decodeWords_hiDir (o : HiOp) (x : Acc) (a : BitVec 8) (w1 : Word) :
    decodeWords c (packWord (80 + encodeHi c o) (encodeAcc x) a.toNat) w1 = .ok
      (match o with
        | .sqr => .sqrDir a
        | .sqra => .sqraDir a x
        | .sqrs => .sqrsDir a x
        | .addl => .addlDir a x
        | .subl => .sublDir a x
        | .addh => .addhDir a x
        | .subh => .subhDir a x) := by
  obtain ⟨h9, h16⟩ := encodeHi_bounds hc o
  have he : (80 + encodeHi c o) % 16 = encodeHi c o := by omega
  rw [decodeWords_aluDir (aluFields_packWord (by omega) (by omega) x a.isLt) (by omega), he]
  unfold aluDirForm
  split
  case h_10 => cases o <;> simp only [decodeHi_encodeHi hc]
  all_goals omega

end

/-! The rows whose operands reach into bits 15:8. -/

/-- brr and callr: the offset, then the condition. -/
theorem off_fields {c : Params} (hc : c.Complete) {w : Word} {k : Nat} {off : BitVec 7} {cc : Cond}
    (hn : w.toNat = k * 2048 + off.toNat * 16 + encodeCond c cc) :
    field w 11 5 = k % 32 ∧ BitVec.ofNat 7 (field w 4 7) = off ∧ decodeCond c (field w 0 4) = cc := by
  have := off.isLt
  have := encodeCond_lt hc cc
  have h4 : field w 4 7 = off.toNat := by unfold field; omega
  have h0 : field w 0 4 = encodeCond c cc := by unfold field; omega
  rw [h4, h0, BitVec.ofNat_toNat, BitVec.setWidth_eq]
  exact ⟨by unfold field; omega, rfl, decodeCond_encodeCond hc cc⟩

/-- The rows with an `Rn*` field above the low byte. -/
theorem packRnStar_fields (c : Params) {top : Nat} (ht : top < 32) (q : RnStar) (b : BitVec 8) :
    field (packRnStar c top q b) 11 5 = top ∧ decodeRnStar c (field (packRnStar c top q b) 8 3) = q ∧
      lowByte (packRnStar c top q b) = b := by
  have hq := encodeRnStar_lt c q
  have hb := b.isLt
  have hn : (packRnStar c top q b).toNat = top * 2048 + encodeRnStar c q * 256 + b.toNat := toNat_ofNat_word (by omega)
  have h8 : field (packRnStar c top q b) 8 3 = encodeRnStar c q := by rw [field_of_toNat hn]; omega
  refine ⟨by rw [field_of_toNat hn]; omega, by rw [h8, decodeRnStar_encodeRnStar], lowByte_of_field ?_⟩
  rw [field_of_toNat hn]; omega

/-- mov between a register and another operand of five bits. -/
theorem regField_fields {c : Params} (hc : c.Complete) {w : Word} {k low : Nat} {r : Reg}
    (hn : w.toNat = k * 1024 + encodeReg c r * 32 + low) (hl : low < 32) :
    field w 10 6 = k % 64 ∧ decodeReg c (field w 5 5) = .ok r ∧ field w 0 5 = low := by
  have := encodeReg_lt hc r
  have h5 : field w 5 5 = encodeReg c r := by unfold field; omega
  rw [h5]
  exact ⟨by unfold field; omega, decodeReg_encodeReg hc r, by unfold field; omega⟩

theorem decodeWords_moda {c : Params} (hc : c.Complete) (f : ModaFn) (x : Acc) (cc : Cond) (w1 : Word) :
    decodeWords c (packModa c f x cc) w1 = .ok (modaForm f x cc) := by
  have hx := encodeAcc_lt x
  have hf := encodeModa_lt hc f
  have hk := encodeCond_lt hc cc
  have hn : (packModa c f x cc).toNat = 12 * 512 + encodeAcc x * 256 + (encodeModa c f * 16 + encodeCond c cc) :=
    packWord_toNat (by decide) hx (by omega)
  have h4 : field (packModa c f x cc) 4 4 = encodeModa c f := by rw [field_of_toNat hn]; omega
  have h8 : field (packModa c f x cc) 8 1 = encodeAcc x := by rw [field_of_toNat hn]; omega
  have h0 : field (packModa c f x cc) 0 4 = encodeCond c cc := by rw [field_of_toNat hn]; omega
  have hk : field (packModa c f x cc) 11 5 = 3 := by rw [field_of_toNat hn]; omega
  rw [decodeWords_control c w1 (group_of_quad hk), decodeControl_moda c w1 hk]
  simp only [decodeModa, h4, modaCode_encodeModa hc, h8, h0, decodeAcc_encodeAcc, decodeCond_encodeCond hc]

/-! The groups. -/

open Machine

/-- The first word of i, and its second word where it has one, decode to i. -/
def DecodesBack (c : Params) (i : Instr) : Prop :=
  decodeWords c (encodeFirst c i) (i.secondWord.getD 0) = .ok i

section
variable {c : Params} (hc : c.Complete) {i : Instr}
include hc

theorem decodesBack_aluGroup (hi : isAluGroup i = true) : DecodesBack c i := by
  cases i <;> cases hi
  case addReg r x | subReg r x | orReg r x | xorReg r x | andReg r x | cmpReg r x =>
    have hr := encodeReg_lt hc r
    exact decodeWords_aluReg hc (aluFields_packWord (by decide) (by decide) x (by omega)) (by decide) _
  case addInd n m x | subInd n m x | orInd n m x | xorInd n m x | andInd n m x | cmpInd n m x =>
    have hi := packInd_lt hc n m
    exact decodeWords_aluInd hc (aluFields_packWord (by decide) (by decide) x (by omega)) (by decide) _
  case addDir a x | subDir a x | orDir a x | xorDir a x | andDir a x | cmpDir a x =>
    exact decodeWords_aluDir (aluFields_packWord (by decide) (by decide) x a.isLt) (by decide) _
  case addLong w x | subLong w x | orLong w x | xorLong w x | andLong w x | cmpLong w x =>
    exact decodeWords_aluLong (aluFields_packWord (by decide) (by decide) x (by decide)) (by decide) _
  case addImm b x | subImm b x | orImm b x | xorImm b x | andImm b x | cmpImm b x =>
    refine (decodeWords_aluImm (aluFields_packWord (by decide) (by decide) x b.isLt) (by decide) _).trans ?_
    simp [aluImmForm, encodeAcc_lt x]
  case addlReg r x | sublReg r x | addhReg r x | subhReg r x => exact decodeWords_hiReg hc _ x r _
  case addlInd n m x | sublInd n m x | addhInd n m x | subhInd n m x => exact decodeWords_hiInd hc _ x n m _
  case addlDir a x | sublDir a x | addhDir a x | subhDir a x => exact decodeWords_hiDir hc _ x a _

theorem decodesBack_mulGroup (hi : isMulGroup i = true) : DecodesBack c i := by
  cases i <;> cases hi
  case mpyReg r =>
    have hr := encodeReg_lt hc r
    exact decodeWords_aluReg hc (aluFields_packWord (by decide) (by decide) .a0 (by omega)) (by decide) _
  case macReg r x | msuReg r x =>
    have hr := encodeReg_lt hc r
    exact decodeWords_aluReg hc (aluFields_packWord (by decide) (by decide) x (by omega)) (by decide) _
  case mpyInd n m =>
    have hi := packInd_lt hc n m
    exact decodeWords_aluInd hc (aluFields_packWord (by decide) (by decide) .a0 (by omega)) (by decide) _
  case macInd n m x | msuInd n m x =>
    have hi := packInd_lt hc n m
    exact decodeWords_aluInd hc (aluFields_packWord (by decide) (by decide) x (by omega)) (by decide) _
  case mpyDir a => exact decodeWords_aluDir (aluFields_packWord (by decide) (by decide) .a0 a.isLt) (by decide) _
  case macDir a x | msuDir a x =>
    exact decodeWords_aluDir (aluFields_packWord (by decide) (by decide) x a.isLt) (by decide) _
  case mpyIndLong n m w =>
    have hi := packInd_lt hc n m
    exact (decodeWords_mulLong hc (aluFields_packWord (by decide) (by decide) .a0 (by omega)) w).1 rfl
  case macIndLong n m w x =>
    have hi := packInd_lt hc n m
    exact (decodeWords_mulLong hc (aluFields_packWord (by decide) (by decide) x (by omega)) w).2.1 rfl
  case msuIndLong n m w x =>
    have hi := packInd_lt hc n m
    exact (decodeWords_mulLong hc (aluFields_packWord (by decide) (by decide) x (by omega)) w).2.2 rfl
  case mpyPair j jj i k =>
    have hp := packPair_lt hc j jj i k
    exact (decodeWords_mulPair hc (aluFields_packWord (by decide) (by decide) .a0 (by omega)) _).1 rfl
  case macPair j jj i k x =>
    have hp := packPair_lt hc j jj i k
    exact (decodeWords_mulPair hc (aluFields_packWord (by decide) (by decide) x (by omega)) _).2.1 rfl
  case msuPair j jj i k x =>
    have hp := packPair_lt hc j jj i k
    exact (decodeWords_mulPair hc (aluFields_packWord (by decide) (by decide) x (by omega)) _).2.2 rfl
  case sqrReg r => exact decodeWords_hiReg hc .sqr .a0 r _
  case sqrInd n m => exact decodeWords_hiInd hc .sqr .a0 n m _
  case sqrDir a => exact decodeWords_hiDir hc .sqr .a0 a _
  case sqraReg r x | sqrsReg r x => exact decodeWords_hiReg hc _ x r _
  case sqraInd n m x | sqrsInd n m x => exact decodeWords_hiInd hc _ x n m _
  case sqraDir a x | sqrsDir a x => exact decodeWords_hiDir hc _ x a _
  case mpys b =>
    refine (decodeWords_aluImm (aluFields_packWord (by decide) (by decide) .a0 b.isLt) (by decide) _).trans ?_
    exact congrArg (Except.ok ∘ Instr.mpys) (lowByte_packWord (top := 118) b (by decide) (encodeAcc_lt .a0))

theorem decodesBack_modaGroup (hi : isModaGroup i = true) : DecodesBack c i := by
  cases i <;> cases hi
  case norm x n m =>
    have hx := encodeAcc_lt x
    have hi := packInd_lt hc n m
    obtain ⟨hn, hm⟩ := ind_packWord hc (top := 6) (by decide) hx n m
    simp (disch := omega) [DecodesBack, encodeFirst, decodeWords, decodeControl, hn, hm, Except.map]
  case divs b x =>
    have := b.isLt
    have := encodeAcc_lt x
    simp (disch := omega) [DecodesBack, encodeFirst, decodeWords, decodeControl]
  all_goals exact decodeWords_moda hc _ _ _ _

theorem decodesBack_controlGroup (hi : isControlGroup i = true)
    (hu : ∀ w, i = .unused w → isUnusedWord c w = true) : DecodesBack c i := by
  cases i <;> cases hi
  case nop | trap | eint | dint | reti => simp [DecodesBack, encodeFirst, decodeWords, decodeControl]
  case calla x => simp [encodeAcc_lt x, DecodesBack, encodeFirst, decodeWords, decodeControl]
  case modr n m =>
    have hi := packInd_lt hc n m
    obtain ⟨hn, hm⟩ := ind_packWord hc (top := 7) (a := 0) (by decide) (by decide) n m
    simp (disch := omega) [DecodesBack, encodeFirst, decodeWords, decodeControl, hn, hm, Except.map]
  case lpg b | repImm b | bkrepImm b w =>
    have := b.isLt
    simp (disch := omega) [DecodesBack, encodeFirst, decodeWords, decodeControl, Instr.secondWord]
  case repReg r | bkrepReg r w =>
    have := encodeReg_lt hc r
    simp (disch := omega) [DecodesBack, encodeFirst, decodeWords, decodeControl, Instr.secondWord,
      decodeReg_packWord hc, Except.map]
  case call a cc | br a cc | ret cc =>
    have := encodeCond_lt hc cc
    simp (disch := omega) [DecodesBack, encodeFirst, decodeWords, decodeControl, Instr.secondWord,
      decodeCond_packWord hc]
  case callr off cc =>
    have := off.isLt
    have := encodeCond_lt hc cc
    obtain ⟨hk, ho, hcc⟩ := off_fields hc (k := 4) (off := off) (cc := cc) (toNat_ofNat_word (by omega))
    refine (decodeWords_control c _ (group_of_quad hk)).trans ((decodeControl_callr c _ hk).trans ?_)
    rw [ho, hcc]
  case brr off cc =>
    have := off.isLt
    have := encodeCond_lt hc cc
    obtain ⟨hk, ho, hcc⟩ := off_fields hc (k := 5) (off := off) (cc := cc) (toNat_ofNat_word (by omega))
    refine (decodeWords_control c _ (group_of_quad hk)).trans ((decodeControl_brr c _ hk).trans ?_)
    rw [ho, hcc]
  case unused w => exact decodeWords_unused_iff.2 ⟨rfl, hu w rfl⟩

theorem decodesBack_moveGroup (hi : isMoveGroup i = true) : DecodesBack c i := by
  cases i <;> cases hi
  case movDirAcc b x | movDirAcch b x | movDirAccl b x | movDirAcchEu b x | movAcclDir x b | movAcchDir x b
      | movImmAccl b x | movSimmAcch b x =>
    have := b.isLt
    have := encodeAcc_lt x
    simp (disch := omega) [DecodesBack, encodeFirst, decodeWords, decodeMove]
  case movpAccReg x r =>
    have := encodeReg_lt hc r
    have := encodeAcc_lt x
    simp (disch := omega) [DecodesBack, encodeFirst, decodeWords, decodeMove, decodeReg_packWord hc, Except.map]
  case movLongReg w r =>
    have := encodeReg_lt hc r
    simp (disch := omega) [DecodesBack, encodeFirst, decodeWords, decodeMove, decodeReg_packWord hc, Except.map,
      Instr.secondWord]
  case movSimmRn b q =>
    obtain ⟨hk, hq, hb⟩ := packRnStar_fields c (top := 10) (by decide) q b
    refine (decodeWords_move c _ (group_of_quad hk)).trans ((decodeMove_simmRn c _ hk).trans ?_)
    rw [hq, hb]
  case movRnDir q a =>
    obtain ⟨hk, hq, ha⟩ := packRnStar_fields c (top := 13) (by decide) q a
    refine (decodeWords_move c _ (group_of_quad hk)).trans ((decodeMove_rnDir c _ hk).trans ?_)
    rw [hq, ha]
  case movDirRn a q =>
    obtain ⟨hk, hq, ha⟩ := packRnStar_fields c (top := 14) (by decide) q a
    refine (decodeWords_move c _ (group_of_quad hk)).trans ((decodeMove_dirRn c _ hk).trans ?_)
    rw [hq, ha]
  case movRegInd r n m =>
    have hr := encodeReg_lt hc r
    have hi := packInd_lt hc n m
    obtain ⟨hk, hr, h5⟩ := regField_fields hc (k := 18) (r := r) (toNat_ofNat_word (by omega)) hi
    obtain ⟨hn, hm⟩ := ind_of_field hc h5
    refine (decodeWords_move c _ (group_of_pair hk)).trans ((decodeMove_regInd c _ hk).trans ?_)
    rw [hr, hn, hm]; rfl
  case movIndReg n m r =>
    have hr := encodeReg_lt hc r
    have hi := packInd_lt hc n m
    obtain ⟨hk, hr, h5⟩ := regField_fields hc (k := 19) (r := r) (toNat_ofNat_word (by omega)) hi
    obtain ⟨hn, hm⟩ := ind_of_field hc h5
    refine (decodeWords_move c _ (group_of_pair hk)).trans ((decodeMove_indReg c _ hk).trans ?_)
    rw [hr, hn, hm]; rfl
  case movRegReg src dst =>
    have hs := encodeReg_lt hc src
    have hd := encodeReg_lt hc dst
    obtain ⟨hk, hr, h5⟩ := regField_fields hc (k := 22) (r := dst) (toNat_ofNat_word (by omega)) hs
    refine (decodeWords_move c _ (group_of_pair hk)).trans ((decodeMove_regReg c _ hk).trans ?_)
    rw [h5, hr, decodeReg_encodeReg hc]; rfl
  case movpIndInd n m i k =>
    have hi := packInd_lt hc n m
    have hk := encodeMod_lt hc k
    have hl := i.isLt
    have hw : (encodeFirst c (.movpIndInd n m i k)).toNat =
        33 * 512 + encodeMod c k * 128 + i.val * 32 + packInd c n m := toNat_ofNat_word (by omega)
    have hg : field (encodeFirst c (.movpIndInd n m i k)) 14 2 = 1 := by rw [field_of_toNat hw]; omega
    have ht : field (encodeFirst c (.movpIndInd n m i k)) 9 5 = 1 := by rw [field_of_toNat hw]; omega
    have hI : field (encodeFirst c (.movpIndInd n m i k)) 5 2 = i.val := by rw [field_of_toNat hw]; omega
    have hK : field (encodeFirst c (.movpIndInd n m i k)) 7 2 = encodeMod c k := by rw [field_of_toNat hw]; omega
    obtain ⟨hn, hm⟩ := ind_of_field hc (w := encodeFirst c (.movpIndInd n m i k)) (n := n) (m := m)
      (by rw [field_of_toNat hw]; omega)
    refine (decodeWords_move c _ hg).trans ?_
    simp only [decodeMove, ht, hn, hm, hI, hK, decodeI_val, decodeMod_encodeMod hc, Except.map]

theorem decodesBack (i : Instr) (hu : ∀ w, i = .unused w → isUnusedWord c w = true) : DecodesBack c i := by
  rcases group_cases i with hi | hi | hi | hi | hi
  · exact decodesBack_aluGroup hc hi
  · exact decodesBack_modaGroup hc hi
  · exact decodesBack_mulGroup hc hi
  · exact decodesBack_moveGroup hc hi
  · exact decodesBack_controlGroup hc hi hu

end

/-! The bytes. -/

theorem wordOfBytes_bytesOfWord (w : Word) : wordOfBytes (w.extractLsb' 0 8) (w.extractLsb' 8 8) = w := by
  unfold wordOfBytes
  rw [BitVec.extractLsb'_append_extractLsb'_eq_extractLsb' (by decide)]
  exact BitVec.extractLsb'_eq_self

theorem decode_one (c : Params) {w : Word} (h : isTwoWord w = false) (rest : List Byte) :
    decode c (bytesOfWord w ++ rest) = (decodeWords c w 0).map fun i => (i, rest) := by
  simp [bytesOfWord, decode, wordOfBytes_bytesOfWord, h]

theorem decode_two (c : Params) {w : Word} (h : isTwoWord w = true) (w1 : Word) (rest : List Byte) :
    decode c (bytesOfWord w ++ (bytesOfWord w1 ++ rest)) = (decodeWords c w w1).map fun i => (i, rest) := by
  simp [bytesOfWord, decode, wordOfBytes_bytesOfWord, h]

theorem encodeBytes_one (c : Params) {i : Instr} (h : i.secondWord = none) :
    encodeBytes c i = bytesOfWord (encodeFirst c i) := by
  simp [encodeBytes, encode, h]

theorem encodeBytes_two (c : Params) {i : Instr} {w : Word} (h : i.secondWord = some w) :
    encodeBytes c i = bytesOfWord (encodeFirst c i) ++ bytesOfWord w := by
  simp [encodeBytes, encode, h]

/-- Settles O1: the first word decodes back in each group, and says itself whether a second word follows. -/
theorem decodeOfEncode : Obligations.DecodeOfEncode := by
  intro c i rest hc hu
  have hd : decodeWords c (encodeFirst c i) (i.secondWord.getD 0) = .ok i := decodesBack (Params.wf_complete hc) i hu
  have ht := decodeWords_secondWord_isSome hd
  cases hs : i.secondWord with
  | none =>
    rw [hs] at ht hd
    rw [encodeBytes_one c hs, decode_one c ht.symm]
    exact congrArg _ hd
  | some w1 =>
    rw [hs] at ht hd
    rw [encodeBytes_two c hs, List.append_assoc, decode_two c ht.symm]
    exact congrArg _ hd

/-- Settles O5, word by word. -/
theorem exampleWordsDecode : Obligations.ExampleWordsDecode := by
  unfold Obligations.ExampleWordsDecode
  decide +kernel

end Sys2Proof
end

section
/-! PROOFS. The words that do not decode (30_encoding R127, O4). -/

namespace Sys2Proof

open Machine

/-- One of the register codes names no register. -/
def NamesNone (c : Params) (regs : List Nat) : Prop := ∃ k ∈ regs, c.regCode[k]? = some none

/-- Where r fails, it fails on one of the register codes `regs`, or, where all of these name registers, on one of the
address register codes `addrs`; and it does fail there. -/
structure FailsOn (c : Params) (regs addrs : List Nat) {α : Type} (r : Except DecodeError α) : Prop where
  reg : r = .error .registerCode31 ↔ NamesNone c regs
  addr : r = .error .addressRegister67 ↔ ¬ NamesNone c regs ∧ ∃ k ∈ addrs, 6 ≤ k
  whole : r ≠ .error .truncated

section
variable {c : Params} {α β : Type}

theorem not_namesNone_nil : ¬ NamesNone c [] := nofun

theorem namesNone_append {l l' : List Nat} : NamesNone c (l ++ l') ↔ NamesNone c l ∨ NamesNone c l' := by
  simp only [NamesNone, List.mem_append, or_and_right, exists_or]

theorem FailsOn.ok (a : α) : FailsOn c [] [] (.ok a : Except DecodeError α) :=
  ⟨⟨nofun, nofun⟩, ⟨nofun, nofun⟩, nofun⟩

theorem failsOn_decodeReg {k : Nat} (h : k < 32) : FailsOn c [k] [] (decodeReg c k) := by
  have hk : NamesNone c [k] ↔ c.regCode[k % 32] = none := by
    simp only [NamesNone, List.mem_singleton, exists_eq_left, Nat.mod_eq_of_lt h, Vector.getElem?_eq_getElem h,
      Option.some_inj]
  unfold decodeReg
  split
  · next r e => exact ⟨⟨nofun, fun n => by rw [hk, e] at n; cases n⟩, ⟨nofun, nofun⟩, nofun⟩
  · next e => exact ⟨⟨fun _ => hk.2 e, fun _ => rfl⟩, ⟨nofun, fun n => absurd (hk.2 e) n.1⟩, nofun⟩

theorem failsOn_decodeAddr (k : Nat) : FailsOn c [] [k] (decodeAddr k) := by
  unfold decodeAddr
  split
  · next h =>
    refine ⟨⟨nofun, nofun⟩, ⟨nofun, fun n => ?_⟩, nofun⟩
    obtain ⟨-, l, hl, h6⟩ := n
    rw [List.mem_singleton.1 hl] at h6
    omega
  · next h =>
    have hk : ¬ NamesNone c [] ∧ ∃ l ∈ [k], 6 ≤ l := ⟨not_namesNone_nil, k, List.mem_singleton_self k, by omega⟩
    exact ⟨⟨nofun, nofun⟩, ⟨fun _ => hk, fun _ => rfl⟩, nofun⟩

theorem FailsOn.map {regs addrs : List Nat} {r : Except DecodeError α} (h : FailsOn c regs addrs r) (f : α → β) :
    FailsOn c regs addrs (r.map f) := by
  have e : ∀ d, r.map f = .error d ↔ r = .error d := by
    cases r with
    | error => exact fun d => ⟨fun x => by cases x; rfl, fun x => by cases x; rfl⟩
    | ok => exact fun d => ⟨nofun, nofun⟩
  exact ⟨(e _).trans h.reg, (e _).trans h.addr, fun x => h.whole ((e _).1 x)⟩

theorem FailsOn.bind {regs regs' addrs : List Nat} {r : Except DecodeError α} {f : α → Except DecodeError β}
    (h : FailsOn c regs [] r) (hf : ∀ a, FailsOn c regs' addrs (f a)) :
    FailsOn c (regs ++ regs') addrs (r.bind f) := by
  obtain ⟨hr, ha, hw⟩ := h
  cases r with
  | error d =>
    cases d with
    | registerCode31 =>
      have n : NamesNone c (regs ++ regs') := namesNone_append.2 (.inl (hr.1 rfl))
      exact ⟨⟨fun _ => n, fun _ => rfl⟩, ⟨nofun, fun x => absurd n x.1⟩, nofun⟩
    | addressRegister67 => obtain ⟨-, k, hk, -⟩ := ha.1 rfl; cases hk
    | truncated => exact absurd rfl hw
  | ok a =>
    have n : NamesNone c (regs ++ regs') ↔ NamesNone c regs' :=
      namesNone_append.trans (or_iff_right fun x => nomatch hr.2 x)
    obtain ⟨hr', ha', hw'⟩ := hf a
    exact ⟨hr'.trans n.symm, ha'.trans (and_congr_left' (not_congr n.symm)), hw'⟩

end

/-! The fields of each group. -/

section
variable {w : Word}

theorem regFields_control (h : field w 14 2 = 0) :
    regFields w.toNat = if field w 9 5 = 9 ∨ field w 9 5 = 11 then [field w 0 5] else [] := by
  have h512 : w.toNat / 512 = field w 9 5 := by unfold field at *; omega
  have n13 : w.toNat / 8192 ≠ 4 := by unfold field at *; omega
  have n11 : w.toNat / 2048 ≠ 9 := by unfold field at *; omega
  have n10 : w.toNat / 1024 ≠ 22 := by unfold field at *; omega
  have ht : field w 9 5 < 32 := Nat.mod_lt _ (by decide)
  have n32 : field w 9 5 ≠ 32 := by omega
  have n46 : field w 9 5 ≠ 46 := by omega
  have h0 : w.toNat % 32 = field w 0 5 := by unfold field; omega
  simp [regFields, h512, h0, n13, n11, n10, n32, n46]

theorem addrFields_control (h : field w 14 2 = 0) :
    addrFields w.toNat = if field w 9 5 = 6 ∨ field w 9 5 = 7 then [field w 0 3] else [] := by
  have h512 : w.toNat / 512 = field w 9 5 := by unfold field at *; omega
  have n13 : w.toNat / 8192 ≠ 4 := by unfold field at *; omega
  have n11 : w.toNat / 2048 ≠ 9 := by unfold field at *; omega
  have ht : field w 9 5 < 32 := Nat.mod_lt _ (by decide)
  have n33 : field w 9 5 ≠ 33 := by omega
  have h0 : w.toNat % 8 = field w 0 3 := by unfold field; omega
  simp [addrFields, h512, h0, n13, n11, n33]

theorem regFields_move (h : field w 14 2 = 1) :
    regFields w.toNat =
      if field w 9 5 = 0 ∨ field w 9 5 = 14 then [field w 0 5]
      else if field w 9 5 / 4 = 1 then [field w 5 5]
      else if field w 9 5 / 2 = 6 then [field w 0 5, field w 5 5]
      else [] := by
  have h512 : w.toNat / 512 = 32 + field w 9 5 := by unfold field at *; omega
  have h11 : w.toNat / 2048 = 9 ↔ field w 9 5 / 4 = 1 := by unfold field at *; omega
  have h10 : w.toNat / 1024 = 22 ↔ field w 9 5 / 2 = 6 := by unfold field at *; omega
  have n13 : w.toNat / 8192 ≠ 4 := by unfold field at *; omega
  have h0 : w.toNat % 32 = field w 0 5 := by unfold field; omega
  have h5 : w.toNat / 32 % 32 = field w 5 5 := by unfold field; omega
  have n9 : 32 + field w 9 5 ≠ 9 := by omega
  have n11 : 32 + field w 9 5 ≠ 11 := by omega
  have n46 : 32 + field w 9 5 = 46 ↔ field w 9 5 = 14 := by omega
  simp [regFields, h512, h11, h10, n13, h0, h5, n9, n11, n46]

theorem addrFields_move (h : field w 14 2 = 1) :
    addrFields w.toNat = if field w 9 5 = 1 ∨ field w 9 5 / 4 = 1 then [field w 0 3] else [] := by
  have h512 : w.toNat / 512 = 32 + field w 9 5 := by unfold field at *; omega
  have h11 : w.toNat / 2048 = 9 ↔ field w 9 5 / 4 = 1 := by unfold field at *; omega
  have n13 : w.toNat / 8192 ≠ 4 := by unfold field at *; omega
  have h0 : w.toNat % 8 = field w 0 3 := by unfold field; omega
  have n6 : 32 + field w 9 5 ≠ 6 := by omega
  have n7 : 32 + field w 9 5 ≠ 7 := by omega
  have n33 : 32 + field w 9 5 = 33 ↔ field w 9 5 = 1 := by omega
  simp [addrFields, h512, h11, n13, h0, n6, n7, n33]

theorem regFields_alu (h : 2 ≤ field w 14 2) :
    regFields w.toNat = if field w 13 2 = 0 ∧ field w 6 2 = 0 then [field w 0 5] else [] := by
  have h512 : w.toNat / 512 ≥ 64 := by unfold field at *; omega
  have n11 : w.toNat / 2048 ≠ 9 := by omega
  have n10 : w.toNat / 1024 ≠ 22 := by omega
  have h13 : w.toNat / 8192 = 4 ↔ field w 13 2 = 0 := by unfold field at *; omega
  have h6 : w.toNat / 64 % 4 = field w 6 2 := by unfold field; omega
  have h0 : w.toNat % 32 = field w 0 5 := by unfold field; omega
  have hl : w.toNat / 512 ∉ [9, 11, 32, 46] := by simp only [List.mem_cons, List.not_mem_nil, or_false]; omega
  simp [regFields, hl, n11, n10, h13, h6, h0]

theorem addrFields_alu (h : 2 ≤ field w 14 2) :
    addrFields w.toNat =
      if field w 13 2 = 0 ∧ (field w 6 2 = 2 ∨ field w 6 2 = 1 ∧ 6 ≤ field w 9 4 ∧ field w 9 4 ≤ 8) then
        [field w 0 3]
      else [] := by
  have h512 : w.toNat / 512 ≥ 64 := by unfold field at *; omega
  have n11 : w.toNat / 2048 ≠ 9 := by omega
  have h13 : w.toNat / 8192 = 4 ↔ field w 13 2 = 0 := by unfold field at *; omega
  have h6 : w.toNat / 64 % 4 = field w 6 2 := by unfold field; omega
  have h9 : w.toNat / 512 % 16 = field w 9 4 := by unfold field; omega
  have h0 : w.toNat % 8 = field w 0 3 := by unfold field; omega
  have hl : w.toNat / 512 ∉ [6, 7, 33] := by simp only [List.mem_cons, List.not_mem_nil, or_false]; omega
  simp only [addrFields, hl, n11, h13, h6, h9, h0, false_or, ← and_or_left]

end

theorem decodeControl_failsOn (c : Params) {w : Word} (w1 : Word) (h : field w 14 2 = 0) :
    FailsOn c (regFields w.toNat) (addrFields w.toNat) (decodeControl c w w1) := by
  have h5 : field w 0 5 < 32 := Nat.mod_lt _ (by decide)
  have hr := regFields_control h
  have ha := addrFields_control h
  unfold decodeControl
  dsimp only
  split
  case h_30 =>
    simp only [imp_false] at *
    rw [hr, ha, if_neg (by omega), if_neg (by omega)]
    exact .ok _
  case h_6 e | h_7 e => rw [hr, ha, e]; exact (failsOn_decodeAddr _).map _
  case h_9 e | h_11 e => rw [hr, ha, e]; exact (failsOn_decodeReg h5).map _
  all_goals next e => rw [hr, ha, e]; exact .ok _

theorem decodeMove_failsOn (c : Params) {w : Word} (w1 : Word) (h : field w 14 2 = 1) :
    FailsOn c (regFields w.toNat) (addrFields w.toNat) (decodeMove c w w1) := by
  have h0 : field w 0 5 < 32 := Nat.mod_lt _ (by decide)
  have h5 : field w 5 5 < 32 := Nat.mod_lt _ (by decide)
  have hr := regFields_move h
  have ha := addrFields_move h
  unfold decodeMove
  dsimp only
  split
  case h_30 =>
    simp only [imp_false] at *
    rw [hr, ha, if_neg (by omega), if_neg (by omega), if_neg (by omega), if_neg (by omega)]
    exact .ok _
  case h_2 e => rw [hr, ha, e]; exact (failsOn_decodeAddr _).map _
  case h_1 e | h_13 e => rw [hr, ha, e]; exact (failsOn_decodeReg h0).map _
  case h_3 e | h_4 e | h_5 e | h_6 e =>
    rw [hr, ha, e]; exact (failsOn_decodeReg h5).bind fun r => (failsOn_decodeAddr _).map _
  case h_11 e | h_12 e =>
    rw [hr, ha, e]; exact (failsOn_decodeReg h0).bind fun r => (failsOn_decodeReg h5).map _
  all_goals next e => rw [hr, ha, e]; exact .ok _

theorem mulLongForm_failsOn (c : Params) (w w1 : Word) (op : Nat) (x : Acc) :
    FailsOn c [] (if 6 ≤ op ∧ op ≤ 8 then [field w 0 3] else []) (mulLongForm c w w1 op x) := by
  by_cases ho : 6 ≤ op ∧ op ≤ 8
  · rw [if_pos ho]
    unfold mulLongForm
    dsimp only
    split
    case h_4 => simp only [imp_false] at *; omega
    all_goals exact (failsOn_decodeAddr _).map _
  · rw [if_neg ho]
    unfold mulLongForm
    dsimp only
    split
    case h_4 => exact .ok _
    all_goals omega

theorem decodeAlu_failsOn (c : Params) {w : Word} (w1 : Word) (h : 2 ≤ field w 14 2) :
    FailsOn c (regFields w.toNat) (addrFields w.toNat) (decodeAlu c w w1) := by
  have h0 : field w 0 5 < 32 := Nat.mod_lt _ (by decide)
  have hr := regFields_alu h
  have ha := addrFields_alu h
  unfold decodeAlu
  dsimp only
  split
  case h_1 ef eb => rw [hr, ha, ef, eb]; exact (failsOn_decodeReg h0).map _
  case h_2 ef eb => rw [hr, ha, ef, eb]; simpa using mulLongForm_failsOn c w w1 (field w 9 4) _
  case h_3 ef eb => rw [hr, ha, ef, eb]; exact (failsOn_decodeAddr _).map _
  case h_4 ef n0 n1 n2 => rw [hr, ha, ef, field_eq_three n0 n1 n2]; exact .ok _
  case h_5 ef => rw [hr, ha, ef]; exact .ok _
  case h_6 ef => rw [hr, ha, ef]; exact .ok _
  case h_7 n0 n1 n2 _ _ _ => rw [hr, ha, field_eq_three n0 n1 n2]; exact .ok _

/-- A first word fails to decode on its fields alone. -/
theorem decodeWords_failsOn (c : Params) (w w1 : Word) :
    FailsOn c (regFields w.toNat) (addrFields w.toNat) (decodeWords c w w1) := by
  rcases word_group w with h | h | h
  · rw [decodeWords_control c w1 h]; exact decodeControl_failsOn c w1 h
  · rw [decodeWords_move c w1 h]; exact decodeMove_failsOn c w1 h
  · rw [decodeWords_alu c w1 h]; exact decodeAlu_failsOn c w1 h

end Sys2Proof

namespace Sys2Proof.Machine

/-- A step that fetches from plain memory a word that does not decode is refused. -/
theorem runNext_refused_of_error {q : State} {d : DecodeError} (h1 : q.store1 = none) (h2 : q.store2 = none)
    (hp : Plain (progMap q.params q.pc))
    (hp' : isTwoWord (progWord q.pc q) = true → Plain (progMap q.params (q.pc + 1)))
    (hd : ∀ w1, decodeWords q.params (progWord q.pc q) w1 = .error d) : runNext q = .refused (decodeRefusal d) := by
  unfold runNext
  cases ht : isTwoWord (progWord q.pc q)
  · rw [fetch_one h1 h2 hp ht, andThen_next]
    simp only [hd]
  · rw [fetch_two h1 h2 hp (hp' ht) ht, andThen_next]
    simp only [hd]

/-- Settles O4: `decodeWords_failsOn`, and a fetch of a word that does not decode. -/
theorem undecodableWords : Obligations.UndecodableWords := by
  intro c w w1 noReg
  have hf := fun w1 => decodeWords_failsOn c w w1
  refine ⟨(hf w1).reg, (hf w1).addr, (hf w1).whole, ?_⟩
  rintro s q hq h1 h2 hp hp' rfl rfl
  have hs : step s = runNext q := stepSampled_runs hq
  rw [hs]
  exact ⟨fun hn => runNext_refused_of_error h1 h2 hp hp' fun w1 => (hf w1).reg.2 hn,
    fun hn hk => runNext_refused_of_error h1 h2 hp hp' fun w1 => (hf w1).addr.2 ⟨hn, hk⟩⟩

end Sys2Proof.Machine
end

section
/-! PROOFS. The first word decides the length, and the bits that a row prints as x are not decoded (30_encoding R126,
R128, R132, O2). -/

namespace Sys2Proof

open Machine

/-- v and w agree but in the bits l. -/
def AgreeOff (l : List Nat) (v w : Word) : Prop := ∀ k, k ∉ l → v.getLsbD k = w.getLsbD k

/-- One result, or both words are unused. -/
def Alike (v w : Word) (a b : Except DecodeError Instr) : Prop :=
  a = b ∨ (a = .ok (.unused v) ∧ b = .ok (.unused w))

section
variable {l : List Nat} {v w : Word}

theorem AgreeOff.mono {l' : List Nat} (h : AgreeOff l v w) (hl : l ⊆ l') : AgreeOff l' v w :=
  fun k hk => h k fun hm => hk (hl hm)

theorem AgreeOff.eq (h : AgreeOff [] v w) : v = w := BitVec.eq_of_getLsbD_eq fun k _ => h k List.not_mem_nil

theorem field_eq_extractLsb' (w : Word) (lo len : Nat) : field w lo len = (w.extractLsb' lo len).toNat := by
  rw [BitVec.extractLsb'_toNat, Nat.shiftRight_eq_div_pow, field]

theorem AgreeOff.field_eq (h : AgreeOff l v w) {lo len : Nat} (hl : ∀ k ∈ l, k < lo ∨ lo + len ≤ k) :
    field v lo len = field w lo len := by
  rw [field_eq_extractLsb', field_eq_extractLsb']
  refine congrArg _ (BitVec.eq_of_getLsbD_eq fun k hk => ?_)
  have : lo + k ∉ l := fun hm => by have := hl _ hm; omega
  rw [BitVec.getLsbD_extractLsb', BitVec.getLsbD_extractLsb', h _ this]

theorem AgreeOff.lowByte_eq (h : AgreeOff l v w) (hl : ∀ k ∈ l, 8 ≤ k) : lowByte v = lowByte w := by
  rw [lowByte, lowByte, h.field_eq fun k hk => .inr (hl k hk)]

theorem Alike.unused : Alike v w (.ok (.unused v)) (.ok (.unused w)) := .inr ⟨rfl, rfl⟩

end

/-! The bits of each group. -/

theorem undecodedA_cases (c : Params) (n : Nat) : undecodedA c n = [8] ∨ undecodedA c n = [] := by
  unfold undecodedA
  dsimp only
  split
  · exact .inl rfl
  · exact .inr rfl

theorem undecodedA_subset (c : Params) (n : Nat) : undecodedA c n ⊆ [8] := by
  rcases undecodedA_cases c n with h | h <;> rw [h]
  · exact List.Subset.refl _
  · exact List.nil_subset _

theorem undecodedBits_control (c : Params) {w : Word} (h : field w 14 2 = 0) :
    undecodedBits c w.toNat =
      if field w 9 5 ∈ [0, 2, 3, 27] then [0, 1, 2, 3, 4, 5, 6, 7, 8]
      else if field w 9 5 = 1 ∧ field w 8 1 = 0 ∨ field w 9 5 = 28 then [0, 1, 2, 3, 4, 5, 6, 7]
      else if field w 9 5 ∈ [4, 8, 10] then [8]
      else if field w 9 5 = 6 then [5, 6, 7]
      else if field w 9 5 ∈ [7, 9, 11] then [5, 6, 7, 8]
      else if field w 9 5 / 4 = 3 then [9, 10]
      else if field w 9 5 ∈ [24, 25, 26] then [4, 5, 6, 7, 8]
      else [] := by
  have h512 : w.toNat / 512 = field w 9 5 := by unfold field at *; omega
  have h256 : w.toNat / 256 = 2 ↔ field w 9 5 = 1 ∧ field w 8 1 = 0 := by unfold field at *; omega
  have h11 : w.toNat / 2048 = field w 9 5 / 4 := by unfold field at *; omega
  have n4 : w.toNat / 8192 ≠ 4 := by unfold field at *; omega
  have n5 : ¬ 5 ≤ w.toNat / 8192 := by unfold field at *; omega
  have ht : field w 9 5 < 32 := Nat.mod_lt _ (by decide)
  have n32 : field w 9 5 ≠ 32 := by omega
  have n46 : field w 9 5 ≠ 46 := by omega
  simp only [undecodedBits, h512, h256, h11, n4, n5, n32, n46, List.mem_cons, List.not_mem_nil, or_false, if_false]

theorem undecodedBits_move (c : Params) {w : Word} (h : field w 14 2 = 1) :
    undecodedBits c w.toNat =
      if field w 9 5 = 0 then [5, 6, 7] else if field w 9 5 = 14 then [5, 6, 7, 8] else [] := by
  have h512 : w.toNat / 512 = 32 + field w 9 5 := by unfold field at *; omega
  have n256 : w.toNat / 256 ≠ 2 := by unfold field at *; omega
  have n11 : w.toNat / 2048 ≠ 3 := by unfold field at *; omega
  have n4 : w.toNat / 8192 ≠ 4 := by unfold field at *; omega
  have n5 : ¬ 5 ≤ w.toNat / 8192 := by unfold field at *; omega
  have ne : ∀ k < 32, 32 + field w 9 5 ≠ k := by omega
  have h14 : 32 + field w 9 5 = 46 ↔ field w 9 5 = 14 := by omega
  simp [undecodedBits, h512, n256, n11, n4, n5, ne, h14]

theorem undecodedBits_alu (c : Params) {w : Word} (h : 2 ≤ field w 14 2) :
    undecodedBits c w.toNat =
      if field w 13 2 = 0 then if field w 6 2 = 3 then [0, 1, 2, 3, 4, 5] else 5 :: undecodedA c w.toNat
      else undecodedA c w.toNat := by
  have ne : ∀ k < 64, w.toNat / 512 ≠ k := by unfold field at *; omega
  have n256 : w.toNat / 256 ≠ 2 := by unfold field at *; omega
  have n11 : w.toNat / 2048 ≠ 3 := by unfold field at *; omega
  have h4 : w.toNat / 8192 = 4 ↔ field w 13 2 = 0 := by unfold field at *; omega
  have h6 : w.toNat / 64 % 4 = field w 6 2 := by unfold field; omega
  have h5 : ¬ field w 13 2 = 0 → 5 ≤ w.toNat / 8192 := by unfold field at *; omega
  simp +contextual [undecodedBits, ne, n256, n11, h4, h6, h5]

theorem ite_list_subset {p : Prop} [Decidable p] {a b l : List Nat} (ha : a ⊆ l) (hb : b ⊆ l) :
    (if p then a else b) ⊆ l := by
  split <;> assumption

/-- Bits 15:11 of every word are decoded. -/
theorem undecodedBits_subset (c : Params) (n : Nat) : undecodedBits c n ⊆ List.range 11 := by
  unfold undecodedBits
  rcases undecodedA_cases c n with h | h <;> rw [h]
  all_goals
    repeat' apply ite_list_subset
    all_goals decide

/-- Bits 15:9 are decoded outside moda. -/
theorem undecodedBits_subset_of_ne (c : Params) {n : Nat} (h : n / 2048 ≠ 3) :
    undecodedBits c n ⊆ List.range 9 := by
  unfold undecodedBits
  rw [if_neg h]
  rcases undecodedA_cases c n with h | h <;> rw [h]
  all_goals
    repeat' apply ite_list_subset
    all_goals decide

theorem AgreeOff.high_eq {m : Nat} {v w : Word} (h : AgreeOff (List.range m) v w) {lo len : Nat} (hl : m ≤ lo) :
    field v lo len = field w lo len :=
  h.field_eq fun _ hk => .inl (lt_of_lt_of_le (List.mem_range.1 hk) hl)

/-! The control group. -/

section
variable {c : Params} {v w : Word}

theorem decodeModa_alike (h : AgreeOff [9, 10] v w) : Alike v w (.ok (decodeModa c v)) (.ok (decodeModa c w)) := by
  have h4 : field v 4 4 = field w 4 4 := h.field_eq (by decide)
  have h8 : field v 8 1 = field w 8 1 := h.field_eq (by decide)
  have h0 : field v 0 4 = field w 0 4 := h.field_eq (by decide)
  cases e : c.modaCode[field w 4 4 % 16] with
  | none => simp only [decodeModa, h4, e]; exact .unused
  | some f => simp only [decodeModa, h4, h8, h0, e]; exact .inl rfl

theorem decodeControl_alike (w1 : Word) (h : field w 14 2 = 0) (hv : AgreeOff (undecodedBits c w.toNat) v w) :
    Alike v w (decodeControl c v w1) (decodeControl c w w1) := by
  by_cases hm : field w 11 5 = 3
  · have hl : AgreeOff [9, 10] v w := by
      rw [undecodedBits_control c h] at hv
      rcases row_of_quad hm with e | e | e | e <;> rw [e] at hv <;> exact hv
    have hm' : field v 11 5 = 3 := (hl.field_eq (by decide)).trans hm
    rw [decodeControl_moda c w1 hm', decodeControl_moda c w1 hm]
    exact decodeModa_alike hl
  have ht : field v 9 5 = field w 9 5 :=
    (hv.mono (undecodedBits_subset_of_ne c (by unfold field at *; omega))).high_eq (by decide)
  rw [undecodedBits_control c h] at hv
  unfold decodeControl
  dsimp only
  rw [ht]
  split
  case h_1 e | h_3 e | h_4 e | h_27 e => exact .inl rfl
  case h_2 e =>
    rw [e] at hv
    by_cases ha : field w 8 1 = 0
    · have hl : AgreeOff [0, 1, 2, 3, 4, 5, 6, 7] v w := by simpa [ha] using hv
      have h8 : field v 8 1 = field w 8 1 := hl.field_eq (by decide)
      rw [h8, if_pos ha, if_pos ha]
      exact .inl rfl
    · have hl : AgreeOff [] v w := by simpa [ha] using hv
      rw [hl.eq]
      exact .inl rfl
  case h_5 e | h_8 e | h_10 e =>
    rw [e] at hv
    have hl : AgreeOff [8] v w := hv
    rw [hl.lowByte_eq (by decide)]
    exact .inl rfl
  case h_6 e =>
    rw [e] at hv
    have hl : AgreeOff [5, 6, 7] v w := hv
    have h0 : field v 0 3 = field w 0 3 := hl.field_eq (by decide)
    have h3 : field v 3 2 = field w 3 2 := hl.field_eq (by decide)
    have h8 : field v 8 1 = field w 8 1 := hl.field_eq (by decide)
    rw [h0, h3, h8]
    exact .inl rfl
  case h_7 e =>
    rw [e] at hv
    have hl : AgreeOff [5, 6, 7, 8] v w := hv
    have h0 : field v 0 3 = field w 0 3 := hl.field_eq (by decide)
    have h3 : field v 3 2 = field w 3 2 := hl.field_eq (by decide)
    rw [h0, h3]
    exact .inl rfl
  case h_9 e | h_11 e =>
    rw [e] at hv
    have hl : AgreeOff [5, 6, 7, 8] v w := hv
    have h0 : field v 0 5 = field w 0 5 := hl.field_eq (by decide)
    rw [h0]
    exact .inl rfl
  case h_24 e | h_25 e | h_26 e =>
    rw [e] at hv
    have hl : AgreeOff [4, 5, 6, 7, 8] v w := hv
    have h0 : field v 0 4 = field w 0 4 := hl.field_eq (by decide)
    rw [h0]
    exact .inl rfl
  case h_28 e =>
    rw [e] at hv
    have hl : AgreeOff [0, 1, 2, 3, 4, 5, 6, 7] v w := hv
    have h8 : field v 8 1 = field w 8 1 := hl.field_eq (by decide)
    rw [h8]
    exact .inl rfl
  case h_30 => exact .unused
  case h_12 e | h_13 e | h_14 e | h_15 e => exact absurd (by unfold field at *; omega) hm
  all_goals next e =>
    rw [e] at hv
    have hl : AgreeOff [] v w := hv
    rw [hl.eq]
    exact .inl rfl

theorem decodeMove_alike (w1 : Word) (h : field w 14 2 = 1) (hv : AgreeOff (undecodedBits c w.toNat) v w) :
    Alike v w (decodeMove c v w1) (decodeMove c w w1) := by
  have ht : field v 9 5 = field w 9 5 :=
    (hv.mono (undecodedBits_subset_of_ne c (by unfold field at *; omega))).high_eq (by decide)
  rw [undecodedBits_move c h] at hv
  by_cases h0 : field w 9 5 = 0
  · rw [if_pos h0] at hv
    have h5 : field v 0 5 = field w 0 5 := hv.field_eq (by decide)
    have h8 : field v 8 1 = field w 8 1 := hv.field_eq (by decide)
    simp only [decodeMove, ht, h0, h5, h8]
    exact .inl rfl
  by_cases h14 : field w 9 5 = 14
  · rw [if_neg h0, if_pos h14] at hv
    have h5 : field v 0 5 = field w 0 5 := hv.field_eq (by decide)
    simp only [decodeMove, ht, h14, h5]
    exact .inl rfl
  rw [if_neg h0, if_neg h14] at hv
  rw [hv.eq]
  exact .inl rfl

end

/-! The ALU group. -/

/-- The operation names no accumulator (30_encoding R132). -/
def NoAcc (c : Params) (op : Nat) : Prop := op = 6 ∨ 9 ≤ op ∧ c.operHi[op - 9]? = some .sqr

theorem decodeHi_of_getElem {c : Params} {op : Nat} {o : HiOp} (h : c.operHi[op - 9]? = some o) :
    decodeHi c op = o := by
  obtain ⟨hl, e⟩ := Vector.getElem?_eq_some_iff.1 h
  simp only [decodeHi, Nat.mod_eq_of_lt hl, e]

/-- The accumulators are one, or the operation names none. -/
def SameAcc (c : Params) (op : Nat) (x y : Acc) : Prop := x = y ∨ NoAcc c op

theorem SameAcc.eq {c : Params} {op : Nat} {x y : Acc} (h : SameAcc c op x y) (h6 : op ≠ 6) (h9 : op < 9) :
    x = y := by
  rcases h with h | h | h
  · exact h
  · exact absurd h h6
  · omega

theorem AgreeOff.sameAcc {c : Params} {v w : Word} (h : AgreeOff (5 :: undecodedA c w.toNat) v w) :
    SameAcc c (field w 9 4) (decodeAcc (field v 8 1)) (decodeAcc (field w 8 1)) := by
  have ho : w.toNat / 512 % 16 = field w 9 4 := by unfold field; omega
  by_cases hn : NoAcc c (field w 9 4)
  · exact .inr hn
  · have hl : undecodedA c w.toNat = [] := by
      unfold undecodedA
      dsimp only
      rw [ho]
      exact if_neg hn
    rw [hl] at h
    exact .inl (congrArg decodeAcc (h.field_eq (by decide)))

section
variable {c : Params} {v w : Word} {op : Nat} {x y : Acc}

theorem aluRegForm_sameAcc (h : SameAcc c op x y) (r : Reg) : aluRegForm c op x r = aluRegForm c op y r := by
  rcases h with rfl | rfl | ⟨h9, hs⟩
  · rfl
  · rfl
  · unfold aluRegForm
    split
    case h_10 => rw [decodeHi_of_getElem hs]
    all_goals omega

theorem aluIndForm_sameAcc (h : SameAcc c op x y) (n : Fin 6) (m : PostMod) :
    aluIndForm c op x n m = aluIndForm c op y n m := by
  rcases h with rfl | rfl | ⟨h9, hs⟩
  · rfl
  · rfl
  · unfold aluIndForm
    split
    case h_10 => rw [decodeHi_of_getElem hs]
    all_goals omega

theorem aluDirForm_sameAcc (h : SameAcc c op x y) (a : BitVec 8) : aluDirForm c op x a = aluDirForm c op y a := by
  rcases h with rfl | rfl | ⟨h9, hs⟩
  · rfl
  · rfl
  · unfold aluDirForm
    split
    case h_10 => rw [decodeHi_of_getElem hs]
    all_goals omega

theorem aluLongForm_alike (w1 : Word) (op : Nat) (x : Acc) :
    Alike v w (.ok (aluLongForm v w1 op x)) (.ok (aluLongForm w w1 op x)) := by
  unfold aluLongForm
  split
  case h_7 => exact .unused
  all_goals exact .inl rfl

theorem aluImmForm_alike (hb : lowByte v = lowByte w) (hx : SameAcc c op x y) :
    Alike v w (.ok (aluImmForm v op x)) (.ok (aluImmForm w op y)) := by
  unfold aluImmForm
  rw [hb]
  split
  case h_7 => exact .inl rfl
  case h_8 => exact .unused
  all_goals rw [hx.eq (by decide) (by decide)]; exact .inl rfl

theorem mulLongForm_alike (w1 : Word) (h0 : field v 0 3 = field w 0 3) (h3 : field v 3 2 = field w 3 2)
    (hx : SameAcc c op x y) : Alike v w (mulLongForm c v w1 op x) (mulLongForm c w w1 op y) := by
  unfold mulLongForm
  rw [h0, h3]
  dsimp only
  split
  case h_1 => exact .inl rfl
  case h_4 => exact .unused
  all_goals rw [hx.eq (by decide) (by decide)]; exact .inl rfl

theorem mulPairForm_alike (hl : AgreeOff [8] v w) (hx : SameAcc c op x y) :
    Alike v w (.ok (mulPairForm c v op x)) (.ok (mulPairForm c w op y)) := by
  have h2 : field v 2 1 = field w 2 1 := hl.field_eq (by decide)
  have h5 : field v 5 2 = field w 5 2 := hl.field_eq (by decide)
  have h0 : field v 0 2 = field w 0 2 := hl.field_eq (by decide)
  have h3 : field v 3 2 = field w 3 2 := hl.field_eq (by decide)
  have h7 : field v 7 1 = field w 7 1 := hl.field_eq (by decide)
  unfold mulPairForm
  rw [h2, h5, h0, h3, h7]
  dsimp only
  split
  case h_1 => exact .inl rfl
  case h_4 => exact .unused
  all_goals rw [hx.eq (by decide) (by decide)]; exact .inl rfl

theorem decodeAlu_alike (w1 : Word) (h : 2 ≤ field w 14 2) (hv : AgreeOff (undecodedBits c w.toNat) v w) :
    Alike v w (decodeAlu c v w1) (decodeAlu c w w1) := by
  have hn : AgreeOff (List.range 9) v w := hv.mono (undecodedBits_subset_of_ne c (by unfold field at *; omega))
  have ho : field v 9 4 = field w 9 4 := hn.high_eq (by decide)
  have hform : field v 13 2 = field w 13 2 := hn.high_eq (by decide)
  rw [undecodedBits_alu c h] at hv
  by_cases hf : field w 13 2 = 0
  · rw [if_pos hf] at hv
    by_cases hm : field w 6 2 = 3
    · rw [if_pos hm] at hv
      have h6 : field v 6 2 = field w 6 2 := hv.field_eq (by decide)
      have h8 : field v 8 1 = field w 8 1 := hv.field_eq (by decide)
      simp only [decodeAlu, hform, hf, h6, hm, ho, h8]
      exact aluLongForm_alike w1 _ _
    · rw [if_neg hm] at hv
      have hx := hv.sameAcc
      have hl : AgreeOff [5, 8] v w := hv.mono (List.cons_subset_cons 5 (undecodedA_subset c _))
      have h6 : field v 6 2 = field w 6 2 := hl.field_eq (by decide)
      have h5 : field v 0 5 = field w 0 5 := hl.field_eq (by decide)
      have h0 : field v 0 3 = field w 0 3 := hl.field_eq (by decide)
      have h3 : field v 3 2 = field w 3 2 := hl.field_eq (by decide)
      have h4 : field w 6 2 < 4 := Nat.mod_lt _ (by decide)
      obtain e | e | e : field w 6 2 = 0 ∨ field w 6 2 = 1 ∨ field w 6 2 = 2 := by omega
      · simp only [decodeAlu, hform, hf, h6, e, ho, h5, aluRegForm_sameAcc hx]
        exact .inl rfl
      · simp only [decodeAlu, hform, hf, h6, e, ho]
        exact mulLongForm_alike w1 h0 h3 hx
      · simp only [decodeAlu, hform, hf, h6, e, ho, h0, h3, aluIndForm_sameAcc hx]
        exact .inl rfl
  · rw [if_neg hf] at hv
    have hx := (hv.mono (List.subset_cons_self 5 _)).sameAcc
    have hl : AgreeOff [8] v w := hv.mono (undecodedA_subset c _)
    have hb : lowByte v = lowByte w := hl.lowByte_eq (by decide)
    have h4 : field w 13 2 < 4 := Nat.mod_lt _ (by decide)
    obtain e | e | e : field w 13 2 = 1 ∨ field w 13 2 = 2 ∨ field w 13 2 = 3 := by omega
    · simp only [decodeAlu, hform, e, ho, hb, aluDirForm_sameAcc hx]
      exact .inl rfl
    · simp only [decodeAlu, hform, e, ho]
      exact mulPairForm_alike hl hx
    · simp only [decodeAlu, hform, e, ho]
      exact aluImmForm_alike hb hx

end

theorem decodeWords_alike {c : Params} {v w : Word} (w1 : Word) (hv : AgreeOff (undecodedBits c w.toNat) v w) :
    Alike v w (decodeWords c v w1) (decodeWords c w w1) := by
  have hg : field v 14 2 = field w 14 2 := (hv.mono (undecodedBits_subset c _)).high_eq (by decide)
  rcases word_group w with h | h | h
  · rw [decodeWords_control c w1 (hg.trans h), decodeWords_control c w1 h]; exact decodeControl_alike w1 h hv
  · rw [decodeWords_move c w1 (hg.trans h), decodeWords_move c w1 h]; exact decodeMove_alike w1 h hv
  · rw [decodeWords_alu c w1 (h.trans_eq hg.symm), decodeWords_alu c w1 h]; exact decodeAlu_alike w1 h hv

/-- Settles O2: the second word by `decodeWords_secondWord`, the length by `isTwoWord_iff`, the bits by
`decodeWords_alike`. -/
theorem secondWordTaken : Obligations.SecondWordTaken := by
  refine fun c w w1 => ⟨fun i => decodeWords_secondWord, fun h w2 => decodeWords_single c h w1 w2, ?_,
    fun v hv => decodeWords_alike w1 hv⟩
  simp only [isTwoWord_iff, List.mem_cons, List.not_mem_nil, or_false]

end Sys2Proof
end

section
/-! PROOFS. The conditions, and that a false one changes nothing (O39). -/

namespace Sys2Proof.Machine

/-- A false condition leaves the state to the moda functions, the branches, the calls and ret as it is. -/
theorem whenCond_false {cc : Cond} {s : State} (k : Out) (h : condTrue cc s = false) : whenCond cc s k = .next s := by
  rw [whenCond, h]; rfl

/-- Settles O39: each of these instructions is a `whenCond`. -/
theorem conditions : Obligations.Conditions := by
  refine fun s => ⟨rfl, fun x cc h => ⟨fun i hi => ?_, fun a => ⟨whenCond_false _ h, whenCond_false _ h⟩,
    fun d => ⟨whenCond_false _ h, whenCond_false _ h⟩⟩⟩
  simp only [List.mem_cons, List.not_mem_nil, or_false] at hi
  rcases hi with rfl | rfl | rfl | rfl | rfl | rfl | rfl | rfl | rfl | rfl | rfl | rfl | rfl | rfl <;>
    exact whenCond_false _ h

end Sys2Proof.Machine
end

section
/-! PROOFS. The ALU group: what each operation does as a fact about exact numbers, then its operand forms (O33 to O36). -/

namespace Sys2Proof.Machine

/-! The operations on a 36-bit operand. -/

/-- An adder's output whose overflow and value belong to the exact number v, written to aX. -/
theorem settle_eq (x : Acc) (v : Int) (c : Bool) (s : State) :
    settle x ⟨BitVec.ofInt 36 v, c, !inBits 36 v⟩ s =
      { s.setAcc x (BitVec.ofInt 36 v) with st0 := arithOf s.st0 v c } := by
  rw [settle, setArith_eq]; rfl

theorem add36_toInt (a b : Accum) :
    add36 a b = ⟨BitVec.ofInt 36 (a.toInt + b.toInt), decide (2 ^ 36 ≤ a.toNat + (BitVec.ofInt 36 b.toInt).toNat),
      !inBits 36 (a.toInt + b.toInt)⟩ := by
  rw [← add36_eq a _ (inBits36_acc b), BitVec.ofInt_toInt]

theorem sub36_toInt (a b : Accum) :
    sub36 a b = ⟨BitVec.ofInt 36 (a.toInt - b.toInt), decide (a.toNat < (BitVec.ofInt 36 b.toInt).toNat),
      !inBits 36 (a.toInt - b.toInt)⟩ := by
  rw [← sub36_eq a _ (inBits36_acc b), BitVec.ofInt_toInt]

theorem addTo_eq_added (x : Acc) (b : Accum) (s : State) : addTo x b s = added x b.toInt s := by
  rw [addTo, add36_toInt, settle_eq]; rfl

theorem subFrom_eq_subtracted (x : Acc) (b : Accum) (s : State) : subFrom x b s = subtracted x b.toInt s := by
  rw [subFrom, sub36_toInt, settle_eq]; rfl

theorem compareWith_eq_compared (x : Acc) (b : Accum) (s : State) : compareWith x b s = compared x b.toInt s := by
  rw [compareWith, sub36_toInt, setArith_eq]; rfl

theorem toInt_signExtend36 (v : Word) : (v.signExtend 36).toInt = v.toInt := by
  rw [signExtend36, toInt_ofInt36 (inBits36_word v)]

theorem toInt_setWidth36 {w : Nat} (hw : w ≤ 16) (v : BitVec w) : (v.setWidth 36).toInt = v.toNat := by
  rw [setWidth36, toInt_ofInt36 (inBits36_nat hw v)]

theorem toInt_highOperand (v : Word) : (highOperand v).toInt = v.toInt * 65536 := by
  rw [highOperand_eq, toInt_ofInt36 (inBits36_high v)]

/-- A bitwise or with a zero-extended operand, as one of numbers. -/
theorem or_setWidth36 {w : Nat} (a : Accum) (v : BitVec w) :
    a ||| v.setWidth 36 = BitVec.ofNat 36 (a.toNat ||| v.toNat) := by
  rw [BitVec.ofNat_or, BitVec.ofNat_toNat, BitVec.ofNat_toNat, BitVec.setWidth_eq]

theorem xor_setWidth36 {w : Nat} (a : Accum) (v : BitVec w) :
    a ^^^ v.setWidth 36 = BitVec.ofNat 36 (a.toNat ^^^ v.toNat) := by
  rw [BitVec.ofNat_xor, BitVec.ofNat_toNat, BitVec.ofNat_toNat, BitVec.setWidth_eq]

/-- A 16-bit operand of `and` sees the low 16 bits alone. -/
theorem and_setWidth36 (a : Accum) (v : Word) :
    a &&& v.setWidth 36 = BitVec.ofNat 36 (a.toNat % 65536 &&& v.toNat) := by
  have hlow : a.toNat % 2 ^ 16 &&& v.toNat = a.toNat &&& v.toNat :=
    calc a.toNat % 2 ^ 16 &&& v.toNat
      _ = a.toNat % 2 ^ 16 &&& v.toNat % 2 ^ 16 := by rw [Nat.mod_eq_of_lt v.isLt]
      _ = (a.toNat &&& v.toNat) % 2 ^ 16 := Nat.and_mod_two_pow.symm
      _ = a.toNat &&& v.toNat := Nat.mod_eq_of_lt (Nat.and_lt_two_pow _ v.isLt)
  rw [show (65536 : Nat) = 2 ^ 16 from rfl, hlow, BitVec.ofNat_and, BitVec.ofNat_toNat, BitVec.ofNat_toNat,
    BitVec.setWidth_eq]

/-- Two bytes, one above the other. -/
theorem bytes_setWidth36 (k l : BitVec 8) :
    k.setWidth 36 <<< 8 ||| l.setWidth 36 = BitVec.ofNat 36 (k.toNat * 256 + l.toNat) := by
  have hk : (k.setWidth 36 <<< 8 : Accum) = BitVec.ofNat 36 (k.toNat <<< 8) := by
    apply BitVec.eq_of_toNat_eq
    rw [BitVec.toNat_shiftLeft, BitVec.toNat_ofNat, BitVec.toNat_setWidth_of_le (by decide)]
  rw [hk, or_setWidth36, BitVec.toNat_ofNat, Nat.mod_eq_of_lt (by rw [Nat.shiftLeft_eq]; omega),
    ← Nat.shiftLeft_add_eq_or_of_lt l.isLt, Nat.shiftLeft_eq]

theorem toNat_byte (a : Accum) (lo : Nat) : (a.extractLsb' lo 8).toNat = a.toNat / 2 ^ lo % 256 := by
  rw [BitVec.extractLsb'_toNat, Nat.shiftRight_eq_div_pow]

/-- The short immediate: bits 15:8 stay above the masked byte, which alone the flags see. -/
theorem andShort_eq (x : Acc) (imm : BitVec 8) (s : State) :
    andShort x imm s =
      let a := (s.acc x).toNat
      let low := a % 256 &&& imm.toNat
      { s.setAcc x (BitVec.ofNat 36 (a / 256 % 256 * 256 + low)) with st0 := zmneOf s.st0 (BitVec.ofNat 36 low) } := by
  have hlow : ((s.acc x).extractLsb' 0 8 &&& imm).toNat = (s.acc x).toNat % 256 &&& imm.toNat := by
    rw [BitVec.toNat_and, toNat_byte, pow_zero, Nat.div_one]
  simp only [andShort, bytes_setWidth36, toNat_byte, hlow]
  rw [← BitVec.ofNat_toNat, hlow, resultFlags]
  rfl

/-! The operand forms. -/

section
variable {reg : Reg → Acc → Instr} {ind : Fin 6 → PostMod → Acc → Instr} {dir : BitVec 8 → Acc → Instr}
  {long : Word → Acc → Instr} {effect f : Acc → Word → State → State} {wide : Acc → Accum → State → State}

/-- Forms that read their word and go on with f are `WordForms`: the read of such a register completes. -/
theorem wordForms_of_read
    (hreg : ∀ c x s, c.isWord = true → c.partOf x = false →
      exec (reg c x) s = andThen (regRead false c s) fun o => .next (f x o.1 o.2))
    (hind : ∀ n m x s, exec (ind n m x) s = .next (f x (readInd n m s).1 (readInd n m s).2))
    (hdir : ∀ a x s, exec (dir a x) s = .next (f x (readDir a s).1 (readDir a s).2))
    (he : ∀ x v s, f x v s = effect x v s) : WordForms reg ind dir effect := by
  obtain rfl : f = effect := by funext x v s; exact he x v s
  refine fun x s => ⟨fun a => hdir a x s, fun n m => hind n m x s, fun c hw hp hr => ?_⟩
  obtain ⟨o, ho⟩ := regRead_completes false hw hr
  exact ⟨o, ho, by rw [hreg c x s hw hp, ho, andThen_next]⟩

/-- The forms of addl, subl, addh, subh. -/
theorem wordForms_of_wordReg
    (hreg : ∀ c x s, exec (reg c x) s = andThen (wordReg x c s) fun o => .next (f x o.1 o.2))
    (hind : ∀ n m x s, exec (ind n m x) s = .next (f x (readInd n m s).1 (readInd n m s).2))
    (hdir : ∀ a x s, exec (dir a x) s = .next (f x (readDir a s).1 (readDir a s).2))
    (he : ∀ x v s, f x v s = effect x v s) : WordForms reg ind dir effect :=
  wordForms_of_read (fun c x s _ hp => by rw [hreg, wordReg, hp, refuseIf_false]) hind hdir he

theorem aluReg_other (x : Acc) (s : State) : aluReg x (.acc x.other) s = .next (.w36 (s.acc x.other), s) := by
  cases x <;> rfl

theorem aluReg_p (x : Acc) {s : State} (h : s.st1.sp ≠ 3) :
    aluReg x .p s = .next (.w36 (BitVec.ofInt 36 (shiftedNumber s)), s) := by
  show andThen (shiftedP s) _ = _
  rw [shiftedP_eq h, andThen_next]

/-- The forms of add, sub, or, xor, and, cmp, for an operation g on either kind of operand. -/
theorem aluForms_of_aluReg {g : Acc → Src → State → State}
    (hreg : ∀ c x s, exec (reg c x) s = andThen (aluReg x c s) fun o => .next (g x o.1 o.2))
    (hind : ∀ n m x s, exec (ind n m x) s = .next (g x (.w16 (readInd n m s).1) (readInd n m s).2))
    (hdir : ∀ a x s, exec (dir a x) s = .next (g x (.w16 (readDir a s).1) (readDir a s).2))
    (hlong : ∀ w x s, exec (long w x) s = .next (g x (.w16 w) s))
    (hw16 : ∀ x v s, g x (.w16 v) s = effect x v s) (hw36 : ∀ x v s, g x (.w36 v) s = wide x v s) :
    AluForms reg ind dir long effect wide := by
  refine ⟨wordForms_of_read (f := fun x v => g x (.w16 v)) (fun c x s hw hp => ?_) hind hdir hw16,
    fun x s => ⟨fun w => ?_, ?_, fun h => ?_⟩⟩
  · rw [hreg, aluReg_word hw hp]; cases regRead false c s <;> rfl
  · rw [hlong, hw16]
  · rw [hreg, aluReg_other, andThen_next, hw36]
  · rw [hreg, aluReg_p x h, andThen_next, hw36]

end

/-- Settles O33: in each form the operation on the operand's number. -/
theorem addSub : Obligations.AddSub := by
  have imm (v : BitVec 8) : (v.setWidth 36).toInt = v.toNat := toInt_setWidth36 (by decide) v
  refine ⟨aluForms_of_aluReg (g := fun x o => addTo x o.signed) (fun _ _ _ => rfl) (fun _ _ _ _ => rfl)
      (fun _ _ _ => rfl) (fun _ _ _ => rfl) (fun x v s => ?_) (fun x v s => addTo_eq_added x v s),
    fun v x s => ?_,
    aluForms_of_aluReg (g := fun x o => subFrom x o.signed) (fun _ _ _ => rfl) (fun _ _ _ _ => rfl)
      (fun _ _ _ => rfl) (fun _ _ _ => rfl) (fun x v s => ?_) (fun x v s => subFrom_eq_subtracted x v s),
    fun v x s => ?_,
    aluForms_of_aluReg (g := fun x o => compareWith x o.signed) (fun _ _ _ => rfl) (fun _ _ _ _ => rfl)
      (fun _ _ _ => rfl) (fun _ _ _ => rfl) (fun x v s => ?_) (fun x v s => compareWith_eq_compared x v s),
    fun v x s => ?_⟩
  · rw [addTo_eq_added, Src.signed, toInt_signExtend36]
  · rw [← imm, ← addTo_eq_added]; rfl
  · rw [subFrom_eq_subtracted, Src.signed, toInt_signExtend36]
  · rw [← imm, ← subFrom_eq_subtracted]; rfl
  · rw [compareWith_eq_compared, Src.signed, toInt_signExtend36]
  · rw [← imm, ← compareWith_eq_compared]; rfl

/-- Settles O34: each operation is a move of the result into aX. -/
theorem orXor : Obligations.OrXor := by
  refine ⟨aluForms_of_aluReg (g := fun x o => orInto x o.unsigned) (fun _ _ _ => rfl) (fun _ _ _ _ => rfl)
      (fun _ _ _ => rfl) (fun _ _ _ => rfl) (fun x v s => ?_) (fun x v s => moveAcc_eq_moved x _ s),
    fun v x s => ?_,
    aluForms_of_aluReg (g := fun x o => xorInto x o.unsigned) (fun _ _ _ => rfl) (fun _ _ _ _ => rfl)
      (fun _ _ _ => rfl) (fun _ _ _ => rfl) (fun x v s => ?_) (fun x v s => moveAcc_eq_moved x _ s),
    fun v x s => ?_⟩
  · rw [orInto, Src.unsigned, or_setWidth36, moveAcc_eq_moved]
  · rw [← or_setWidth36, ← moveAcc_eq_moved]; rfl
  · rw [xorInto, Src.unsigned, xor_setWidth36, moveAcc_eq_moved]
  · rw [← xor_setWidth36, ← moveAcc_eq_moved]; rfl

/-- Settles O35: `and_setWidth36` for the words, `andShort_eq` for the short immediate. -/
theorem andForms : Obligations.AndForms := by
  refine ⟨aluForms_of_aluReg (g := fun x o => andInto x o.unsigned) (fun _ _ _ => rfl) (fun _ _ _ _ => rfl)
      (fun _ _ _ => rfl) (fun _ _ _ => rfl) (fun x v s => ?_) (fun x v s => moveAcc_eq_moved x _ s),
    fun v x s => congrArg _ (andShort_eq x v s)⟩
  rw [andInto, Src.unsigned, and_setWidth36, moveAcc_eq_moved]

/-- Settles O36: the low operand is the word's number, the high one its signed number times 65536. -/
theorem lowHighArith : Obligations.LowHighArith := by
  have low (v : Word) : (v.setWidth 36).toInt = v.toNat := toInt_setWidth36 (by decide) v
  refine ⟨wordForms_of_wordReg (f := fun x v => addTo x (v.setWidth 36)) (fun _ _ _ => rfl) (fun _ _ _ _ => rfl)
      (fun _ _ _ => rfl) (fun x v s => ?_),
    wordForms_of_wordReg (f := fun x v => subFrom x (v.setWidth 36)) (fun _ _ _ => rfl) (fun _ _ _ _ => rfl)
      (fun _ _ _ => rfl) (fun x v s => ?_),
    wordForms_of_wordReg (f := fun x v => addTo x (highOperand v)) (fun _ _ _ => rfl) (fun _ _ _ _ => rfl)
      (fun _ _ _ => rfl) (fun x v s => ?_),
    wordForms_of_wordReg (f := fun x v => subFrom x (highOperand v)) (fun _ _ _ => rfl) (fun _ _ _ _ => rfl)
      (fun _ _ _ => rfl) (fun x v s => ?_)⟩
  · rw [addTo_eq_added, low]
  · rw [subFrom_eq_subtracted, low]
  · rw [addTo_eq_added, toInt_highOperand]
  · rw [subFrom_eq_subtracted, toInt_highOperand]

end Sys2Proof.Machine
end

section
/-! PROOFS. The functions of moda and divs, as facts about exact numbers (O37, O38, O41). -/

namespace Sys2Proof.Machine

/-- A true condition lets a moda function run. -/
theorem whenCond_true {cc : Cond} {s : State} (k : Out) (h : condTrue cc s = true) : whenCond cc s k = k := by
  rw [whenCond, if_pos h]

/-! Shifts and rotations. -/

theorem shiftAcc_eq (x : Acc) (out : Accum) (v c : Bool) (s : State) :
    shiftAcc x out v c s = { moved x out s with st0 := { zmneOf s.st0 out with v := v, c := c } } := by
  rw [shiftAcc, setShift, resultFlags]; rfl

theorem rotateAcc_eq (x : Acc) (out : Accum) (c : Bool) (s : State) :
    rotateAcc x out c s = { moved x out s with st0 := { zmneOf s.st0 out with c := c } } := by
  rw [rotateAcc, setRotate, resultFlags]; rfl

theorem getLsbD_eq_div {w : Nat} (v : BitVec w) (i : Nat) : v.getLsbD i = decide (v.toNat / 2 ^ i % 2 = 1) := by
  rw [BitVec.getLsbD, Nat.testBit_eq_decide_div_mod_eq]

/-- Bits 0 and 3 of the signed number. -/
theorem bit0_eq (v : Accum) : v.getLsbD 0 = decide (v.toInt % 2 = 1) := by
  have hc := BitVec.toInt_eq_toNat_cond v
  rw [getLsbD_eq_div, decide_eq_decide]
  split at hc <;> omega

theorem bit3_eq (v : Accum) : v.getLsbD 3 = decide (v.toInt / 8 % 2 = 1) := by
  have hc := BitVec.toInt_eq_toNat_cond v
  rw [getLsbD_eq_div, decide_eq_decide]
  split at hc <;> omega

/-- The carry moves into bit 35, the other bits one place down. -/
theorem rotateRight_eq (c : Bool) (v : Accum) :
    BitVec.ofBool c ++ v.extractLsb' 1 35 = BitVec.ofNat 36 (v.toNat / 2 + if c then 2 ^ 35 else 0) := by
  have hv := v.isLt
  apply BitVec.eq_of_toNat_eq
  rw [toNat_append_eq, BitVec.extractLsb'_toNat, BitVec.toNat_ofNat, BitVec.toNat_ofBool, Nat.shiftRight_eq_div_pow]
  cases c <;> simp <;> omega

/-- The carry moves into bit 0, the low 35 bits one place up. -/
theorem rotateLeft_eq (v : Accum) (c : Bool) :
    v.extractLsb' 0 35 ++ BitVec.ofBool c = BitVec.ofNat 36 (v.toNat * 2 + if c then 1 else 0) := by
  apply BitVec.eq_of_toNat_eq
  rw [toNat_append_eq, BitVec.extractLsb'_toNat, BitVec.toNat_ofNat, BitVec.toNat_ofBool, Nat.shiftRight_eq_div_pow]
  cases c <;> simp <;> omega

/-- Settles O37: the result of each by `sshiftRight_eq`, `shiftLeft_eq` and the two rotations, V by `fitsIn_eq`. -/
theorem shiftsAndRotates : Obligations.ShiftsAndRotates := by
  intro x cc s h a n right left ror rol
  refine ⟨?_, ?_, ?_, ?_, ?_, ?_⟩
  · show execShr x cc s = _
    rw [execShr, whenCond_true _ h, shiftAcc_eq, sshiftRight_eq, bit0_eq]; rfl
  · show execShr4 x cc s = _
    rw [execShr4, whenCond_true _ h, shiftAcc_eq, sshiftRight_eq, bit3_eq]; rfl
  · show execShl x cc s = _
    rw [execShl, whenCond_true _ h, shiftAcc_eq, shiftLeft_eq, fitsIn_eq, bit35_eq]; rfl
  · show execShl4 x cc s = _
    rw [execShl4, whenCond_true _ h, shiftAcc_eq, shiftLeft_eq, fitsIn_eq, getLsbD_eq_div]; rfl
  · show execRor x cc s = _
    rw [execRor, whenCond_true _ h, rotateAcc_eq, rotateRight_eq, getLsbD_eq_div, pow_zero, Nat.div_one]
  · show execRol x cc s = _
    rw [execRol, whenCond_true _ h, rotateAcc_eq, rotateLeft_eq, bit35_eq]

/-! neg, rnd, pacr, not. -/

/-- 0 - aX borrows where aX is not 0. -/
theorem negate_eq (v : Accum) :
    sub36 0 v = ⟨BitVec.ofInt 36 (-v.toInt), decide (v.toInt ≠ 0), !inBits 36 (-v.toInt)⟩ := by
  have hc : decide ((0 : Accum).toNat < v.toNat) = decide (v.toInt ≠ 0) := by
    have hv := BitVec.toInt_eq_toNat_cond v
    have hl := v.isLt
    rw [decide_eq_decide, show (0 : Accum).toNat = 0 from rfl]
    split at hv <;> omega
  rw [sub36_toInt, BitVec.ofInt_toInt, hc, show (0 : Accum).toInt = 0 from rfl, zero_sub]

/-- The carry of a rounded product: the sum with 8000h wraps where q is negative and the exact sum is not. -/
theorem round_carry {q : Int} (h : inBits 36 q = true) :
    decide (2 ^ 36 ≤ (BitVec.ofInt 36 q).toNat + half.toNat) = decide (-32768 ≤ q ∧ q < 0) := by
  have hh : half.toNat = 32768 := rfl
  rw [inBits36_iff] at h
  rw [decide_eq_decide, hh, BitVec.toNat_ofInt]
  omega

theorem round_eq {q : Int} (h : inBits 36 q = true) :
    add36 (BitVec.ofInt 36 q) half =
      ⟨BitVec.ofInt 36 (q + 32768), decide (-32768 ≤ q ∧ q < 0), !inBits 36 (q + 32768)⟩ := by
  rw [add36_toInt, BitVec.ofInt_toInt, round_carry h, toInt_ofInt36 h]; rfl

theorem not_eq_ofInt (v : Accum) : ~~~v = BitVec.ofInt 36 (-1 - v.toInt) := by
  rw [BitVec.not_eq_neg_add, sub_eq_add_neg, Int.sub_eq_add_neg, add_comm, BitVec.ofInt_add, BitVec.ofInt_neg,
    BitVec.ofInt_neg, BitVec.ofInt_toInt]
  rfl

/-- Settles O38: neg, rnd and pacr by what the adder answers, the others as moves into aX. -/
theorem accumulatorFunctions : Obligations.AccumulatorFunctions := by
  intro x cc s h a q
  refine ⟨?_, ?_, fun hsp => ?_, ?_, ?_, ?_, ?_⟩
  · show execNeg x cc s = _
    rw [execNeg, whenCond_true _ h, negate_eq, settle_eq]
  · exact (whenCond_true _ h).trans (congrArg _ (addTo_eq_added x half s))
  · show execPacr x cc s = _
    rw [execPacr, whenCond_true _ h, shiftedP_eq hsp, andThen_next, round_eq (inBits36_shifted s), settle_eq]
  · show execNot x cc s = _
    rw [execNot, whenCond_true _ h, moveAcc_eq_moved, not_eq_ofInt]
  all_goals exact (whenCond_true _ h).trans (congrArg _ (moveAcc_eq_moved x _ s))

/-! divs. -/

/-- Bit 0 of a doubled value is free for the quotient's bit. -/
theorem doubleAddOne_eq (v : Accum) : v <<< 1 ||| 1 = BitVec.ofInt 36 (v.toInt * 2 + 1) := by
  have hbit : v <<< 1 &&& 1#36 = 0#36 := by
    ext i hi
    cases i <;> simp
  rw [BitVec.ofInt_add, ← pow_one (2 : Int), ← shiftLeft_eq]
  exact (BitVec.add_eq_or_of_and_eq_zero _ _ hbit).symm

/-- The new accumulator of a division step: the trial difference decides which of the two is doubled. -/
theorem divideStep_acc (a : Accum) (d : Word) :
    (if (a - d.setWidth 36 <<< 15).getLsbD 35 then a <<< 1 else (a - d.setWidth 36 <<< 15) <<< 1 ||| 1) =
      let out : Accum := BitVec.ofInt 36 (a.toInt - d.toNat * 32768)
      BitVec.ofInt 36 (if out.toInt < 0 then a.toInt * 2 else out.toInt * 2 + 1) := by
  have hd : (d.setWidth 36 : Accum) <<< 15 = BitVec.ofInt 36 (d.toNat * 32768) := by
    rw [shiftLeft_eq, toInt_setWidth36 (by decide)]; rfl
  have hout : a - (d.setWidth 36 : Accum) <<< 15 = BitVec.ofInt 36 (a.toInt - d.toNat * 32768) := by
    rw [hd, sub_eq_add_neg, Int.sub_eq_add_neg, BitVec.ofInt_add, BitVec.ofInt_neg, BitVec.ofInt_toInt]
  simp only [hout, bit35_eq, decide_eq_true_eq, doubleAddOne_eq]
  rw [shiftLeft_eq, pow_one]
  exact (apply_ite _ _ _ _).symm

theorem openZMNE_eq (o : Word × State) :
    ∃ z m n e, openZMNE o = { o.2 with st0 := { o.2.st0 with z := z, m := m, n := n, e := e } } := ⟨_, _, _, _, rfl⟩

/-- One step of the division, with the flags that the free value gives. -/
theorem divideStep_eq (x : Acc) (d : Word) (s : State) :
    ∃ z m n e, divideStep x d s =
      let out : Accum := BitVec.ofInt 36 ((s.acc x).toInt - d.toNat * 32768)
      { s.setAcc x (BitVec.ofInt 36 (if out.toInt < 0 then (s.acc x).toInt * 2 else out.toInt * 2 + 1)) with
        freeCtr := s.freeCtr + 1, st0 := { s.st0 with z := z, m := m, n := n, e := e } } := by
  obtain ⟨z, m, n, e, h⟩ := openZMNE_eq (s.setAcc x _).free
  refine ⟨z, m, n, e, ?_⟩
  rw [divideStep]
  simp only [divideStep_acc]
  rw [h]
  cases x <;> rfl

theorem bit15_eq (v : Word) : v.getLsbD 15 = decide (32768 ≤ v.toNat) := by
  have hv := v.isLt
  rw [getLsbD_eq_div, decide_eq_decide]
  omega

theorem execDivs_positive {d : BitVec 8} (x : Acc) {s : State} (h : (readDir d s).1.toNat < 32768) :
    execDivs d x s = .next (divideStep x (readDir d s).1 (readDir d s).2) := by
  rw [execDivs, bit15_eq, decide_eq_false (Nat.not_le.2 h), refuseIf_false]

theorem execDivs_refused {d : BitVec 8} (x : Acc) {s : State} (h : 32768 ≤ (readDir d s).1.toNat) :
    execDivs d x s = .refused .divisorNotPositive := by
  rw [execDivs, bit15_eq, decide_eq_true h, refuseIf_true]

namespace DivideStep

/-- Settles O41: `divideStep_eq` after the read, which leaves the accumulators and st0 as they are. -/
theorem divideStep : Obligations.DivideStep := by
  intro d x s o v out new
  have hread : MemFrame s o.2 := dataRead_frame (direct d s) s
  refine ⟨fun h => ?_, fun h => execDivs_refused x h⟩
  obtain ⟨z, m, n, e, hstep⟩ := divideStep_eq x o.1 o.2
  rw [hread.acc, hread.st0] at hstep
  exact ⟨z, m, n, e, (execDivs_positive x h).trans (congrArg _ hstep)⟩

end DivideStep

end Sys2Proof.Machine
end

section
/-! PROOFS. The multiplier: what mpy, mac, msu, sqr, sqra, sqrs do with loaded operands, their operand forms, and mpys
(O42 to O44). -/

namespace Sys2Proof.Machine

/-! Operand reads keep y. -/

theorem MemFrame.y {s t : State} (h : MemFrame s t) : t.y = s.y := by rw [h]

theorem ReadFrame.y {s t : State} (h : ReadFrame s t) : t.y = s.y := by rw [h.1]

theorem readInd_acc (n : Fin 6) (m : PostMod) (s : State) (x : Acc) : (readInd n m s).2.acc x = s.acc x :=
  (postMod_acc ..).trans ((dataRead_frame ..).acc x)

theorem readInd_y (n : Fin 6) (m : PostMod) (s : State) : (readInd n m s).2.y = s.y := (dataRead_frame ..).y

/-- The load of one operand leaves y as the factor. -/
theorem loadX_eq {o : Word × State} {yv : Word} (h : o.2.y = yv) : loadX o = { o.2 with x := o.1, y := yv } := by
  subst h; rfl

/-! After the load. -/

/-- An instruction that does `finish` once x and y are loaded, s being the state before it: where the operands' reads
led to a state t with the same aX, it completes with `accum`, the two factors and their product. -/
def Finishes (finish : Acc → State → State → Out) (accum : Acc → State → State → State) (ready : State → Prop) : Prop :=
  ∀ (x : Acc) (s t : State) (xv yv : Word), ready s → t.acc x = s.acc x →
    finish x s { t with x := xv, y := yv } = .next (multiplied xv yv (accum x s t))

/-- mpy and sqr: the product alone. -/
theorem finishes_multiply : Finishes (fun _ _ u => .next (multiply u)) (fun _ _ t => t) fun _ => True :=
  fun _ _ _ _ _ _ _ => rfl

/-- The write of an accumulation's output and the new product are independent: the load and the multiplication touch
neither aX nor the flags. -/
theorem settle_multiply (x : Acc) (o : AluOut) (xv yv : Word) (t : State) :
    settle x o (multiply { t with x := xv, y := yv }) = multiplied xv yv (settle x o t) := by
  cases x <;> rfl

/-- mac, msu, sqra, sqrs: where op settles to `effect` of a number, the old shifted product is that number. -/
theorem finishes_accumulate {op : Accum → Accum → AluOut} {effect : Acc → Int → State → State}
    (hop : ∀ x b t, settle x (op (t.acc x) b) t = effect x b.toInt t) :
    Finishes (fun x s u => accumulate op x s (.next u)) (fun x s t => effect x (shiftedNumber s) t)
      fun s => s.st1.sp ≠ 3 := by
  intro x s t xv yv hsp ha
  show accumulate op x s (.next { t with x := xv, y := yv }) = _
  rw [accumulate, shiftedP_eq hsp, andThen_next, andThen_next, settle_multiply, ← ha, hop,
    toInt_ofInt36 (inBits36_shifted s)]

/-- The register form of mac, msu, sqra, sqrs with a register that it admits, once that has been read. -/
theorem accumulateReg_eq (op : Accum → Accum → AluOut) (load : Word × State → State) {c : Reg} {x : Acc} {s : State}
    {o : Word × State} (hw : c.isWord = true) (hp : c.partOf x = false) (ho : regRead false c s = .next o) :
    refuseIf (c.partOf x) .sameAccumulator (refuseIf (!c.isWord) .notWordRegister
      (accumulate op x s (andThen (regRead false c s) fun o => .next (load o)))) =
        accumulate op x s (.next (load o)) := by
  rw [hp, hw, ho]; rfl

/-! The operand forms. -/

section
variable {reg : Reg → Acc → Instr} {ind : Fin 6 → PostMod → Acc → Instr} {dir : BitVec 8 → Acc → Instr}
  {pair : Fin 2 → PostMod → Fin 4 → PostMod → Acc → Instr} {long : Fin 6 → PostMod → Word → Acc → Instr}
  {bars : Reg → Acc → Bool} {finish : Acc → State → State → Out} {accum : Acc → State → State → State}
  {ready : State → Prop}

/-- Forms that load x, or x and y, and then finish are `MulForms`. -/
theorem mulForms_of_finishes (hf : Finishes finish accum ready)
    (hdir : ∀ a x s, exec (dir a x) s = finish x s (loadX (readDir a s)))
    (hind : ∀ n m x s, exec (ind n m x) s = finish x s (loadX (readInd n m s)))
    (hlong : ∀ n m w x s, exec (long n m w x) s = finish x s (loadIndLong n m w s))
    (hpair : ∀ j jj i k x s u, loadPair j jj i k s = .next u → exec (pair j jj i k x) s = finish x s u)
    (hreg : ∀ c x s o, c.isWord = true → bars c x = false → regRead false c s = .next o →
      exec (reg c x) s = finish x s (loadX o)) :
    MulForms reg ind dir pair long bars accum ready := by
  refine fun x s hs => ⟨fun a => ?direct, fun n m => ?indirect, fun n m w => ?long, fun j jj i k hj hi => ?pair,
    fun c hw hb hr => ?register⟩
  case direct =>
    have hread : MemFrame s (readDir a s).2 := dataRead_frame ..
    rw [hdir, loadX_eq hread.y]
    exact hf x s _ _ _ hs (hread.acc x)
  case indirect =>
    rw [hind, loadX_eq (readInd_y n m s)]
    exact hf x s _ _ _ hs (readInd_acc n m s x)
  case long =>
    rw [hlong]
    exact hf x s _ _ _ hs (readInd_acc n m s x)
  case pair =>
    intro oy ox
    have hread : MemFrame s ox.2 := (dataRead_frame ..).trans (dataRead_frame ..)
    rw [hpair j jj i k x s _ (loadPair_eq_next.2 ⟨⟨hj, hi⟩, rfl⟩)]
    exact hf x s _ _ _ hs (hread.acc x)
  case register =>
    obtain ⟨o, ho⟩ := regRead_completes false hw hr
    have hread : ReadFrame s o.2 := (regRead_frame ho).1
    refine ⟨o, ho, ?_⟩
    rw [hreg c x s o hw hb ho, loadX_eq hread.y]
    exact hf x s _ _ _ hs (hread.acc x)

/-- Forms that load the operand into x and y and then finish are `SquareForms`. -/
theorem squareForms_of_finishes (hf : Finishes finish accum ready)
    (hdir : ∀ a x s, exec (dir a x) s = finish x s (loadXY (readDir a s)))
    (hind : ∀ n m x s, exec (ind n m x) s = finish x s (loadXY (readInd n m s)))
    (hreg : ∀ c x s o, c.isWord = true → bars c x = false → regRead false c s = .next o →
      exec (reg c x) s = finish x s (loadXY o)) :
    SquareForms reg ind dir bars accum ready := by
  refine fun x s hs => ⟨fun a => ?direct, fun n m => ?indirect, fun c hw hb hr => ?register⟩
  case direct => exact (hdir a x s).trans (hf x s _ _ _ hs ((dataRead_frame ..).acc x))
  case indirect => exact (hind n m x s).trans (hf x s _ _ _ hs (readInd_acc n m s x))
  case register =>
    obtain ⟨o, ho⟩ := regRead_completes false hw hr
    exact ⟨o, ho, (hreg c x s o hw hb ho).trans (hf x s _ _ _ hs ((regRead_frame ho).1.acc x))⟩

end

/-- Settles O42: each form loads x and y, then multiplies. -/
theorem multiplyForms : Obligations.MultiplyForms := by
  refine mulForms_of_finishes finishes_multiply (fun _ _ _ => rfl) (fun _ _ _ _ => rfl) (fun _ _ _ _ _ => rfl)
    (fun j jj i k x s u hu => ?_) (fun c x s o _ _ ho => ?_)
  · show andThen (loadPair j jj i k s) _ = _
    rw [hu, andThen_next]
  · show andThen (regRead false c s) _ = _
    rw [ho, andThen_next]

/-- Settles O43: accumulation by the adder and by the subtracter. -/
theorem multiplyAccumulate : Obligations.MultiplyAccumulate :=
  ⟨mulForms_of_finishes (finishes_accumulate addTo_eq_added) (fun _ _ _ => rfl) (fun _ _ _ _ => rfl)
      (fun _ _ _ _ _ => rfl) (fun _ _ _ _ x s _ hu => congrArg (accumulate add36 x s) hu)
      fun _ _ _ _ hw hp ho => accumulateReg_eq add36 loadX hw hp ho,
    mulForms_of_finishes (finishes_accumulate subFrom_eq_subtracted) (fun _ _ _ => rfl) (fun _ _ _ _ => rfl)
      (fun _ _ _ _ _ => rfl) (fun _ _ _ _ x s _ hu => congrArg (accumulate sub36 x s) hu)
      fun _ _ _ _ hw hp ho => accumulateReg_eq sub36 loadX hw hp ho⟩

theorem signExtend16 (v : BitVec 8) : v.signExtend 16 = BitVec.ofInt 16 v.toInt := by simp [BitVec.signExtend]

theorem execMpys_eq (imm : BitVec 8) (s : State) :
    execMpys imm s = .next (multiplied (BitVec.ofInt 16 imm.toInt) s.y s) := by
  rw [execMpys, signExtend16]; rfl

/-- Settles O44: as O42 and O43, with the operand as both factors; mpys by `execMpys_eq`. -/
theorem squaresAndShort : Obligations.SquaresAndShort := by
  refine ⟨squareForms_of_finishes finishes_multiply (fun _ _ _ => rfl) (fun _ _ _ _ => rfl)
      (fun c x s o _ _ ho => ?_),
    execMpys_eq,
    squareForms_of_finishes (finishes_accumulate addTo_eq_added) (fun _ _ _ => rfl) (fun _ _ _ _ => rfl)
      fun _ _ _ _ hw hp ho => accumulateReg_eq add36 loadXY hw hp ho,
    squareForms_of_finishes (finishes_accumulate subFrom_eq_subtracted) (fun _ _ _ => rfl) (fun _ _ _ _ => rfl)
      fun _ _ _ _ hw hp ho => accumulateReg_eq sub36 loadXY hw hp ho⟩
  show andThen (regRead false c s) _ = _
  rw [ho, andThen_next]

end Sys2Proof.Machine
end

section
/-! PROOFS. The halves of an accumulator over the data bus, and the moves between registers, memory, immediates and
program memory (O45 to O49). -/

namespace Sys2Proof.Machine

/-! The halves of an accumulator over the data bus. -/

/-- The word that starts at bit lo, as the number shifted right. -/
theorem extractWord_eq {w lo : Nat} (v : BitVec w) (h : lo + 16 ≤ w) :
    v.extractLsb' lo 16 = BitVec.ofInt 16 (v.toInt / 2 ^ lo) := by
  have hs : BitVec.ofInt 16 (v.toInt / 2 ^ lo) = (v.sshiftRight lo).signExtend 16 := by
    rw [BitVec.signExtend, BitVec.toInt_sshiftRight, Int.shiftRight_eq_div_pow]; norm_cast
  rw [hs]
  ext i hi
  have hw : i < w := by omega
  have hl : lo + i < w := by omega
  simp [BitVec.getElem_signExtend, BitVec.getElem_sshiftRight, hw, hl]

theorem limitOf_toInt (v : Accum) : (limitOf v).toInt = if v.toInt < 0 then -(2 ^ 31) else 2 ^ 31 - 1 := by
  simp only [limitOf, bit35_eq, decide_eq_true_eq]
  split <;> rfl

/-- The number on the bus is that of the limit where the read is limited. -/
theorem busNumber_eq (x : Acc) (s : State) :
    busNumber x s = if s.limits x then (limitOf (s.acc x)).toInt else (s.acc x).toInt := by
  rw [busNumber, limitOf_toInt, limits_eq]
  cases s.st0.sat <;> cases inBits 32 (s.acc x).toInt <;> rfl

theorem satHigh_eq (x : Acc) (s : State) : satHigh x s = BitVec.ofInt 16 (busNumber x s / 65536) := by
  rw [satHigh, busNumber_eq, extractWord_eq _ (by decide), extractWord_eq _ (by decide)]
  split <;> rfl

theorem satLow_eq (x : Acc) (s : State) : satLow x s = BitVec.ofInt 16 (busNumber x s) := by
  rw [satLow, busNumber_eq, extractWord_eq _ (by decide), extractWord_eq _ (by decide), pow_zero, Int.ediv_one,
    Int.ediv_one]
  split <;> rfl

theorem noteLimit_eq (b : Bool) (x : Acc) (s : State) : noteLimit b x s = limitNoted b x s := by
  rw [noteLimit, limitNoted, limits_eq, Bool.and_assoc]; rfl

/-! When a register may be read or written does not depend on what memory accesses change. -/

theorem readable_announced {c : Reg} {a : Word} {s : State} : Readable c (s.announced a) ↔ Readable c s := by
  rw [announced_eq]; rfl

theorem MemFrame.writable {s t : State} (h : MemFrame s t) {c : Reg} {v : Word} : Writable c v t ↔ Writable c v s := by
  rw [h]; rfl

theorem writable_postMod {c : Reg} {v : Word} {n : Fin 6} {m : PostMod} {s : State} :
    Writable c v (postMod n m s) ↔ Writable c v s := Iff.rfl

/-- None of the rules on tos, lc and pc binds a write of an accumulator or a half of one. -/
theorem writable_ofAccumulator {c : Reg} (h : ofAccumulator c = true) (v : Word) (s : State) : Writable c v s := by
  refine ⟨?_, ?_, ?_⟩ <;> (rintro rfl; cases h)

theorem regWrite_readInd {c : Reg} {n : Fin 6} (m : PostMod) {s : State}
    (h : Writable c (dataRead (s.addr n) s).1 s) :
    regWrite c (readInd n m s).1 (readInd n m s).2 =
      .next (written c (dataRead (s.addr n) s).1 (postMod n m (dataRead (s.addr n) s).2)) :=
  regWrite_written (writable_postMod.2 ((dataRead_frame _ s).writable.2 h))

/-! mov between registers. -/

theorem execMovRegReg_same (c : Reg) (s : State) : execMovRegReg c c s = .refused .movSameRegister := by
  show refuseIf (c == c) _ _ = _
  rw [beq_self_eq_true, refuseIf_true]

theorem execMovRegReg_word {src dst : Reg} (s : State) (hw : src.isWord = true) (hne : src ≠ dst) :
    execMovRegReg src dst s = andThen (regRead true src s) fun o => regWrite dst o.1 o.2 := by
  unfold execMovRegReg
  rw [beq_eq_false_iff_ne.2 hne, refuseIf_false]
  cases src
  case acc | p => cases hw
  all_goals rfl

theorem execMovRegReg_other (x : Acc) (s : State) :
    execMovRegReg (.acc x) (.acc x.other) s = .next (moved x.other (s.acc x) s) := by
  rw [← moveAcc_eq_moved]
  cases x <;> rfl

theorem execMovRegReg_p (x : Acc) {s : State} (h : s.st1.sp ≠ 3) :
    execMovRegReg .p (.acc x) s = .next (moved x (BitVec.ofInt 36 (shiftedNumber s)) s) := by
  show andThen (shiftedP s) _ = _
  rw [shiftedP_eq h, andThen_next, moveAcc_eq_moved]

/-- Settles O45: a word by its read and its write, the wide moves by `moveAcc_eq_moved`. -/
theorem moveRegisters : Obligations.MoveRegisters := by
  refine fun src dst s => ⟨fun hw hne hr => ?word, fun x => ⟨execMovRegReg_other x s, execMovRegReg_p x⟩, ?same⟩
  case word =>
    obtain ⟨o, ho⟩ := regRead_completes true hw hr
    refine ⟨o, ho, fun hwr => ?_⟩
    show execMovRegReg src dst s = _
    rw [execMovRegReg_word s hw hne, ho, andThen_next, regWrite_written hwr]
  case same =>
    rintro rfl
    exact execMovRegReg_same src s

/-! mov between a register and (rN). -/

theorem postModAllowed_iff {c : Reg} {n : Fin 6} {m : PostMod} :
    postModAllowed c n m = true ↔ (c = .r n → m = .keep) := by
  rw [postModAllowed, Bool.or_eq_true, bne_iff_ne, beq_iff_eq, ne_eq, ← imp_iff_not_or]

theorem extOffCore_eq_false {k : Params} {c : Reg} {a : Word} :
    extOffCore k c a = false ↔ ((∃ e, c = .ext e) → a.toNat < k.xramWords ∨ 65536 - k.yramWords ≤ a.toNat) := by
  cases c
  case ext => rw [extOffCore, Bool.not_eq_false', onCore_iff]; exact ⟨fun h _ => h, fun h => h ⟨_, rfl⟩⟩
  all_goals simp [extOffCore]

/-- Settles O46: neither rule on the operands stops the move, so that it is an access to memory, a modification of rN, and
a read or a write of the register. -/
theorem moveIndirect : Obligations.MoveIndirect := by
  intro c n m s hown hext
  have hp : postModAllowed c n m = true := postModAllowed_iff.2 hown
  have he : extOffCore s.params c (s.addr n) = false := extOffCore_eq_false.2 hext
  refine ⟨fun hw hr => ?store, fun h => ?load⟩
  case store =>
    obtain ⟨o, ho⟩ := regRead_completes true hw (readable_announced.2 hr)
    refine ⟨o, ho, ?_⟩
    show execMovRegInd c n m s = _
    rw [execMovRegInd, hw, hp, he, ho]; rfl
  case load =>
    show execMovIndReg n m c s = _
    rw [execMovIndReg, hp, he]
    exact regWrite_readInd m h

/-! mov of an immediate. -/

theorem readRnStar_eq (q : RnStar) (b : Bool) (s : State) : regRead b (starReg q) s = .next (readRnStar q s, s) := by
  cases q <;> rfl

theorem writeRnStar_eq (q : RnStar) (v : Word) (s : State) : writeRnStar q v s = written (starReg q) v s := by
  cases q <;> rfl

theorem wideOfHigh_signExtend (imm : BitVec 8) :
    wideOfHigh (imm.signExtend 16) = BitVec.ofInt 36 (imm.toInt * 65536) := by
  rw [wideOfHigh_eq, BitVec.toInt_signExtend_of_le (by decide)]

/-- Settles O47: each form is a write, of the immediate as it is widened. -/
theorem moveImmediate : Obligations.MoveImmediate := by
  refine fun s => ⟨fun w c h => regWrite_written h, fun imm x => ⟨?low, ?high⟩, fun imm q => ?star⟩
  case low =>
    show Host.Outcome.next (moveAcc x (imm.setWidth 36) s) = _
    rw [moveAcc_eq_moved, setWidth36]; rfl
  case high =>
    show Host.Outcome.next (moveAcc x (wideOfHigh (imm.signExtend 16)) s) = _
    rw [moveAcc_eq_moved, wideOfHigh_signExtend]
  case star =>
    show Host.Outcome.next (writeRnStar q (imm.signExtend 16) s) = _
    rw [writeRnStar_eq, signExtend16]

/-! mov to and from a direct address. -/

theorem keepExtension_eq (v : Accum) (d : Word) :
    keepExtension v d = BitVec.ofNat 36 (v.toNat / 2 ^ 32 * 2 ^ 32 + d.toNat * 65536) := by
  have hv := v.isLt
  have hd := d.isLt
  have he : (v.extractLsb' 32 4).toNat = v.toNat / 2 ^ 32 % 16 := by
    rw [BitVec.extractLsb'_toNat, Nat.shiftRight_eq_div_pow]
  have hz : (0 : Word).toNat = 0 := rfl
  apply BitVec.eq_of_toNat_eq
  simp only [keepExtension, toNat_append_eq, he, hz, BitVec.toNat_ofNat]
  omega

theorem execMovDirAcchEu_eq (a : BitVec 8) (x : Acc) (s : State) :
    let o := dataRead (direct a s) s
    execMovDirAcchEu a x s = .next
      { o.2.setAcc x (BitVec.ofNat 36 ((s.acc x).toNat / 2 ^ 32 * 2 ^ 32 + o.1.toNat * 65536)) with
        st0 := zmneOf s.st0 (BitVec.ofInt 36 (o.1.toInt * 65536)) } := by
  intro o
  have hread : MemFrame s o.2 := dataRead_frame (direct a s) s
  show Host.Outcome.next
    ((o.2.setAcc x (keepExtension (o.2.acc x) o.1)).setFlags (setZMNE o.2.st0 (wideOfHigh o.1))) = _
  rw [hread.acc, hread.st0, keepExtension_eq, wideOfHigh_eq, resultFlags]; rfl

/-- Settles O48: the stores by what the register reads as, the loads by the write of the register. -/
theorem moveDirect : Obligations.MoveDirect := by
  intro a s o
  refine ⟨fun x => ⟨?low, ?high⟩, fun q => ⟨readRnStar q s, readRnStar_eq q true s, rfl⟩, fun x => ?loads,
    fun q hq => ?star, rfl⟩
  case low =>
    show Host.Outcome.next (dataWrite (direct a s) (satLow x s) (noteLimit true x s)) = _
    rw [satLow_eq, noteLimit_eq]
  case high =>
    show Host.Outcome.next (dataWrite (direct a s) (satHigh x s) (noteLimit true x s)) = _
    rw [satHigh_eq, noteLimit_eq]
  case loads =>
    exact ⟨regWrite_written (writable_ofAccumulator (c := .acc x) rfl o.1 o.2),
      regWrite_written (writable_ofAccumulator (c := .acch x) rfl o.1 o.2),
      regWrite_written (writable_ofAccumulator (c := .accl x) rfl o.1 o.2), execMovDirAcchEu_eq a x s⟩
  case star =>
    show refuseIf (q == .x) _ (.next (writeRnStar q o.1 o.2)) = _
    rw [beq_eq_false_iff_ne.2 hq, refuseIf_false, writeRnStar_eq]

/-! movp. -/

theorem accAddress_fits {x : Acc} {s : State} (h : s.st0.sat = true ∨ inBits 32 (s.acc x).toInt = true) :
    accAddress x s = .next (BitVec.ofInt 16 (s.acc x).toInt) := by
  have hl : s.limits x = false := by
    rw [limits_eq]
    rcases h with h | h <;> simp [h]
  rw [accAddress, hl, refuseIf_false, extractWord_eq _ (by decide), pow_zero, Int.ediv_one]

theorem accAddress_tooWide {x : Acc} {s : State} (hs : s.st0.sat = false) (hb : inBits 32 (s.acc x).toInt = false) :
    accAddress x s = .refused .accumulatorTooWide := by
  rw [accAddress, limits_eq, hs, hb]; rfl

/-- Settles O49: movp to a register is `accAddress`, a read of program memory and a write; between memories it is
refused for one register alone. -/
theorem moveProgram : Obligations.MoveProgram := by
  refine fun s => ⟨fun x c => ?register, fun x c hs hb => ?tooWide, fun n m i k hne => ?memory⟩
  case register =>
    intro o hfit hw
    have hwr : Writable c o.1 o.2 := (progRead_frame _ s).writable.2 hw
    show andThen (accAddress x s) _ = _
    rw [accAddress_fits hfit, andThen_next]
    exact regWrite_written hwr
  case tooWide =>
    show andThen (accAddress x s) _ = _
    rw [accAddress_tooWide hs hb, andThen_refused]
  case memory =>
    have hr : (n == regI i) = false := beq_eq_false_iff_ne.2 fun e => hne (congrArg Fin.val e)
    show refuseIf (n == regI i) _ _ = _
    rw [hr]; rfl

end Sys2Proof.Machine
end

section
/-! PROOFS. Where an instruction may not stand, what rep and bkrep set up, and how the repeat unit and the block-repeat
unit run a loop (O8, O50 to O53). -/

namespace Sys2Proof.Machine

/-! The rules on sequences. -/

theorem ofLastTwo_iff {s : State} : s.ofLastTwo = true ↔ OfLastTwo s := by
  simp only [State.ofLastTwo, OfLastTwo, Bool.or_eq_true, Bool.and_eq_true, loopLive_iff, loopLiveAfter_iff,
    nextIsLast_iff, State.isLast, beq_iff_eq]

theorem mayEndLoop_iff {i : Instr} :
    i.mayEndLoop = true ↔ ¬ (transfersOrLoops i = true ∨ movesTo i = some .pc) := by
  simp only [Instr.mayEndLoop, Instr.movesPc, breaksFlow_eq, moveDest_eq, Bool.and_eq_true, Bool.not_eq_true',
    beq_eq_false_iff_ne, Bool.not_eq_true, not_or, ne_eq]

theorem runInstr_refused {i : Instr} {why : Refusal} (start : Word) {s : State} (h : sequenceRefusal i s = some why) :
    runInstr i start s = .refused why := by
  simp only [runInstr, h]

theorem sequenceRefusal_pending {i : Instr} {s : State} (hp : s.pcPending ≠ none) (hi : i ≠ .nop) :
    sequenceRefusal i s = some .nopRequired :=
  if_pos (Bool.and_eq_true_iff.2 ⟨Option.isSome_iff_ne_none.2 hp, bne_iff_ne.2 hi⟩)

theorem sequenceRefusal_repeat {i : Instr} {s : State} (hp : s.pcPending = none)
    (hr : s.repArmed = true ∨ s.repActive = true) (hi : i.repeatable = false) :
    sequenceRefusal i s = some .notRepeatable := by
  have hrep : (s.repArmed || s.repActive) = true := Bool.or_eq_true_iff.2 hr
  simp [sequenceRefusal, hp, hrep, hi]

theorem sequenceRefusal_loopEnd {i : Instr} {s : State} (hp : s.pcPending = none)
    (hr : ¬ (s.repArmed = true ∨ s.repActive = true)) (hl : OfLastTwo s) (hi : i.mayEndLoop = false) :
    sequenceRefusal i s = some .loopEndRestricted := by
  have hrep : (s.repArmed || s.repActive) = false := by rwa [← Bool.not_eq_true, Bool.or_eq_true]
  simp [sequenceRefusal, hp, hrep, ofLastTwo_iff.2 hl, hi]

/-- Settles O8: each rule by the class of instructions that it names, and the absence of all three by
`sequenceRefusal_eq_none`. -/
theorem sequenceRules : Obligations.SequenceRules := by
  intro i start s ends single repeats
  have hsingle : i.repeatable = true ↔ single := repeatable_iff
  have hends : i.mayEndLoop = true ↔ ¬ ends := mayEndLoop_iff
  refine ⟨fun hp hi => ?pending, fun hp hr hi => ?repeated, fun hp hr hl hi => ?loopEnd, ?allowed, runInstr_of_allowed⟩
  case pending => exact runInstr_refused start (sequenceRefusal_pending hp hi)
  case repeated =>
    exact runInstr_refused start (sequenceRefusal_repeat hp hr (Bool.eq_false_iff.2 (hsingle.not.2 hi)))
  case loopEnd =>
    exact runInstr_refused start (sequenceRefusal_loopEnd hp hr hl (Bool.eq_false_iff.2 fun h => hends.1 h hi))
  case allowed => rw [sequenceRefusal_eq_none, hsingle, hends, ofLastTwo_iff]

/-! rep and bkrep. -/

theorem lowByte_word (v : Word) : v.extractLsb' 0 8 = BitVec.ofNat 8 v.toNat :=
  BitVec.eq_of_toNat_eq (by simp)

theorem append_byte (high low : BitVec 8) : high ++ low = BitVec.ofNat 16 (high.toNat * 256 + low.toNat) := by
  apply BitVec.eq_of_toNat_eq
  have hh := high.isLt
  have hl := low.isLt
  rw [toNat_append_eq, BitVec.toNat_ofNat]
  omega

/-- bkrep after a count register has been read: the read changes neither pc nor st2. -/
theorem startBlock_read {s : State} {o : Word × State} (h : ReadFrame s o.2) (last : Word) :
    startBlock last { o.2 with lc := o.1 } =
      { o.2 with
        lc := o.1, bkStart := s.pc, bkEnd := last, st2 := { s.st2 with lp := true }, lpLate := 0 } := by
  have hpc : o.2.pc = s.pc := by rw [h.1]
  have hst2 : o.2.st2 = s.st2 := by rw [h.1]
  simp only [startBlock, hpc, hst2]

theorem execBkrepReg_word {c : Reg} (last : Word) (s : State) (hw : c.isWord = true) (hc : c ≠ .pc) :
    execBkrepReg c last s = refuseIf s.st2.lp .bkrepNested
      (andThen (regRead false c s) fun o => .next (startBlock last { o.2 with lc := o.1 })) := by
  rw [execBkrepReg, beq_eq_false_iff_ne.2 hc, hw]; rfl

/-- Settles O50: the count by its read, the loop's bounds by `startBlock`; a set LP refuses bkrep. -/
theorem loopSetup : Obligations.LoopSetup := by
  refine fun s => ⟨fun _ => rfl, fun c hw hr => ?rep, fun imm last => ⟨fun hlp => ?short, fun hlp => ?shortNested⟩,
    fun c last hw hc => ⟨fun hlp hr => ?long, fun hlp => ?longNested⟩⟩
  case rep =>
    obtain ⟨o, ho⟩ := regRead_completes false hw hr
    refine ⟨o, ho, ?_⟩
    show execRepReg c s = _
    rw [execRepReg, ho, andThen_next, lowByte_word]; rfl
  case short =>
    refine ⟨(Config.freeWord s.freeCtr).extractLsb' 0 8, ?_⟩
    show execBkrepImm imm last s = _
    rw [execBkrepImm, hlp, refuseIf_false, ← append_byte]; rfl
  case shortNested =>
    show execBkrepImm imm last s = _
    rw [execBkrepImm, hlp, refuseIf_true]
  case long =>
    obtain ⟨o, ho⟩ := regRead_completes false hw hr
    refine ⟨o, ho, ?_⟩
    show execBkrepReg c last s = _
    rw [execBkrepReg_word last s hw hc, hlp, refuseIf_false, ho, andThen_next, startBlock_read (regRead_frame ho).1]
  case longNested =>
    show execBkrepReg c last s = _
    rw [execBkrepReg_word last s hw hc, hlp, refuseIf_true]

/-! The repeat unit. -/

/-- What the repeat unit makes of the state after one execution of the repeated instruction. -/
def repeatPass (start : Word) (s : State) : State := (repUnit false start s).2

theorem repUnit_sendsBack {start : Word} {s : State} (h : s.repArmed = true ∨ s.repActive = true)
    (hc : s.repCnt ≠ 0) : repUnit false start s =
      (true, { s with repArmed := false, repActive := true, repCnt := s.repCnt - 1, pc := start }) :=
  repUnit_again (i := .nop) rfl h hc

theorem repUnit_armed_zero (start : Word) {s : State} (ha : s.repArmed = true) (hc : s.repCnt = 0) :
    repUnit false start s = (false, { s with repArmed := false }) := by
  simp [repUnit, ha, hc]

theorem repUnit_active_zero (start : Word) {s : State} (ha : s.repArmed = false) (hr : s.repActive = true)
    (hc : s.repCnt = 0) : repUnit false start s = (false, { s with repActive := false }) := by
  simp [repUnit, ha, hr, hc]

theorem repUnit_ends (start : Word) {s : State} (h : s.repArmed = true ∨ s.repActive = true) (hc : s.repCnt = 0) :
    (repUnit false start s).1 = false := by
  cases ha : s.repArmed with
  | true => rw [repUnit_armed_zero start ha hc]
  | false => rw [repUnit_active_zero start ha (h.resolve_left (by simp [ha])) hc]

/-- Up to the count's value, k passes leave the repeat in progress with the count k lower. -/
theorem repeatPass_iterate (start : Word) {s : State} (h : s.repArmed = true ∨ s.repActive = true) (k : Nat)
    (hk : k ≤ s.repCnt.toNat) :
    let t := (repeatPass start)^[k] s
    (t.repArmed = true ∨ t.repActive = true) ∧ t.repCnt.toNat = s.repCnt.toNat - k := by
  induction k with
  | zero => exact ⟨h, rfl⟩
  | succ k ih =>
    obtain ⟨hrep, hcnt⟩ := ih (Nat.le_of_succ_le hk)
    have hpos : 0 < ((repeatPass start)^[k] s).repCnt.toNat := hcnt ▸ Nat.sub_pos_of_lt hk
    rw [Function.iterate_succ_apply', repeatPass, repUnit_sendsBack hrep (BitVec.ne_of_lt hpos).symm]
    refine ⟨.inr rfl, ?_⟩
    calc (((repeatPass start)^[k] s).repCnt - 1).toNat
      _ = ((repeatPass start)^[k] s).repCnt.toNat - 1 := BitVec.toNat_sub_of_le (BitVec.le_def.2 hpos)
      _ = s.repCnt.toNat - (k + 1) := by rw [hcnt, Nat.sub_sub]

/-- Settles O51: the case of the count, and n passes by `repeatPass_iterate`. -/
theorem repeatUnit : Obligations.RepeatUnit := by
  refine fun start s h => ⟨repUnit_sendsBack h,
    fun hc => ⟨repUnit_ends start h hc, fun ha _ => ?armed, fun ha => ?active⟩, fun k hk => ?back, ?last⟩
  case armed => rw [repUnit_armed_zero start ha hc]
  case active => rw [repUnit_active_zero start ha (h.resolve_left (by simp [ha])) hc]
  case back =>
    obtain ⟨hrep, hcnt⟩ := repeatPass_iterate start h k hk.le
    have hpos : 0 < ((repeatPass start)^[k] s).repCnt.toNat := hcnt ▸ Nat.sub_pos_of_lt hk
    exact congrArg Prod.fst (repUnit_sendsBack hrep (BitVec.ne_of_lt hpos).symm)
  case last =>
    obtain ⟨hrep, hcnt⟩ := repeatPass_iterate start h s.repCnt.toNat le_rfl
    exact repUnit_ends start hrep (BitVec.eq_of_toNat_eq (hcnt.trans (Nat.sub_self _)))

/-! The block-repeat unit. -/

/-- s after the unit has jumped back k times. -/
def jumpedBack (k : Nat) (s : State) : State :=
  { s with lc := s.lc - BitVec.ofNat 16 k, pc := if k = 0 then s.pc else s.bkStart, lpLate := s.lpLate - k }

theorem jumpedBack_zero (s : State) : jumpedBack 0 s = s := by
  rw [jumpedBack, BitVec.sub_zero]; rfl

/-- k jumps back take k off the low byte of lc. -/
theorem jumpedBack_count {k : Nat} {s : State} (hk : k ≤ s.lc.toNat % 256) :
    (jumpedBack k s).lc.toNat % 256 = s.lc.toNat % 256 - k := by
  simp only [jumpedBack, BitVec.toNat_sub, BitVec.toNat_ofNat]
  omega

theorem blockUnit_jumpedBack {k : Nat} {s : State} (hl : s.st2.lp = true) (hk : k < s.lc.toNat % 256) :
    blockUnit s.bkEnd (jumpedBack k s) = jumpedBack (k + 1) s := by
  have hc : (jumpedBack k s).lc.toNat % 256 ≠ 0 := by
    rw [jumpedBack_count hk.le]
    exact Nat.sub_ne_zero_of_lt hk
  have hlc : s.lc - BitVec.ofNat 16 k - 1 = s.lc - BitVec.ofNat 16 (k + 1) := by
    rw [BitVec.ofNat_add, ← BitVec.sub_sub]; rfl
  calc blockUnit s.bkEnd (jumpedBack k s)
    _ = { jumpedBack k s with lc := (jumpedBack k s).lc - 1, pc := s.bkStart, lpLate := s.lpLate - k - 1 } :=
      blockUnit_loop (.inl hl) rfl hc
    _ = jumpedBack (k + 1) s := by
      rw [jumpedBack, jumpedBack, ← hlc]; rfl

/-- With LP set and at least k in lc[7:0], the unit jumps back k times. -/
theorem blockUnit_iterate {s : State} (hl : s.st2.lp = true) (k : Nat) (hk : k ≤ s.lc.toNat % 256) :
    (blockUnit s.bkEnd)^[k] s = jumpedBack k s := by
  induction k with
  | zero => exact (jumpedBack_zero s).symm
  | succ k ih => rw [Function.iterate_succ_apply', ih (Nat.le_of_succ_le hk), blockUnit_jumpedBack hl hk]

namespace BlockUnit

/-- Settles O52: the three cases of the unit, and n passes by `blockUnit_iterate`. -/
theorem blockUnit : Obligations.BlockUnit := by
  refine fun s hl => ⟨blockUnit_exit hl rfl, blockUnit_loop hl rfl, fun last he => blockUnit_other (.inl he),
    fun hlp => ⟨fun k h0 hk => ?back, ?leave⟩⟩
  case back =>
    rw [blockUnit_iterate hlp k hk]
    exact ⟨if_neg h0.ne', hlp, rfl⟩
  case leave =>
    have hc : (jumpedBack (s.lc.toNat % 256) s).lc.toNat % 256 = 0 := by
      rw [jumpedBack_count le_rfl, Nat.sub_self]
    rw [Function.iterate_succ_apply', blockUnit_iterate hlp _ le_rfl]
    exact congrArg (·.st2.lp) (blockUnit_exit (s := jumpedBack _ s) (.inl hlp) rfl hc)

end BlockUnit

/-! A clear of LP in flight. -/

/-- A write of st2 with bit 12 set, LP being set: LP reads 0, and its clear is in flight for two boundaries. -/
theorem written_st2_clear {d : Word} {s : State} (hl : s.st2.lp = true) (hd : d[12] = true) :
    (written .st2 d s).st2.lp = false ∧ (written .st2 d s).lpLate = 2 := by
  simp [written, hl, hd]

/-- A write of st2 with LP clear does not hold up a clear that is in flight. -/
theorem written_st2_cleared (d : Word) {s : State} (hl : s.st2.lp = false) :
    (written .st2 d s).st2.lp = false ∧ (written .st2 d s).lpLate = s.lpLate := by
  simp [written, hl]

/-- While a clear of LP is in flight, the loop's last word with a count left still sends pc back. -/
theorem blockUnit_late {last : Word} {n : Nat} {s : State} (he : last = s.bkEnd) (hl : s.lpLate = n + 1)
    (hc : s.lc.toNat % 256 ≠ 0) : blockUnit last s = { s with lc := s.lc - 1, pc := s.bkStart, lpLate := n } := by
  rw [blockUnit_loop (.inr (hl ▸ n.succ_pos)) he hc, hl]; rfl

/-- Once the clear of LP has been seen, the loop is over. -/
theorem blockUnit_over (last : Word) {s : State} (hlp : s.st2.lp = false) (hl : s.lpLate = 0) : blockUnit last s = s :=
  blockUnit_idle (by simp [InLoop, hlp, hl])

/-- A pass of a one-instruction loop at `last` whose instruction writes d to st2. -/
def clearingPass (d last : Word) (s : State) : State := blockUnit last (written .st2 d { s with pc := last + 1 })

/-- While a clear of LP is in flight, such a pass goes back; the clear that it makes itself is none. -/
theorem clearingPass_back (d : Word) {last : Word} {n : Nat} {s : State} (hlp : s.st2.lp = false)
    (he : last = s.bkEnd) (hl : s.lpLate = n + 1) (hc : s.lc.toNat % 256 ≠ 0) :
    clearingPass d last s =
      { s with st2 := (written .st2 d s).st2, lc := s.lc - 1, pc := s.bkStart, lpLate := n } := by
  obtain ⟨-, hlate⟩ := written_st2_cleared d (s := { s with pc := last + 1 }) hlp
  exact blockUnit_late he (hlate.trans hl) hc

/-- Once the clear of LP has been seen, such a pass falls through. -/
theorem clearingPass_through (d last : Word) {s : State} (hlp : s.st2.lp = false) (hl : s.lpLate = 0) :
    clearingPass d last s = written .st2 d { s with pc := last + 1 } := by
  obtain ⟨hlp', hlate⟩ := written_st2_cleared d (s := { s with pc := last + 1 }) hlp
  exact blockUnit_over last hlp' (hlate.trans hl)

/-- Settles O53: the clear in flight is counted down at each boundary, and a write of st2 in between does not start it
again. -/
theorem lateClear : Obligations.LateClear := by
  intro s d hl hd t0
  obtain ⟨hlp, hlate⟩ : t0.st2.lp = false ∧ t0.lpLate = 2 := written_st2_clear hl hd
  have hother {l : Word} (h : l ≠ s.bkEnd) : blockUnit l t0 = { t0 with lpLate := 1 } := by
    rw [blockUnit_other (s := t0) (.inl h), hlate]
  have hlast (hc : s.lc.toNat % 256 ≠ 0) :
      blockUnit s.bkEnd t0 = { t0 with lc := s.lc - 1, pc := s.bkStart, lpLate := 1 } := blockUnit_late rfl hlate hc
  refine ⟨hlp, fun l1 l2 l3 h1 h2 => ?away, fun hc => ?once, fun hc => ?single⟩
  case away =>
    rw [hother h1, blockUnit_other (s := { t0 with lpLate := 1 }) (.inl h2)]
    exact blockUnit_over l3 (s := { t0 with lpLate := 0 }) hlp rfl
  case once =>
    rw [hlast hc]
    refine ⟨rfl, rfl, fun l1 h1 => ?_⟩
    rw [hother h1, blockUnit_late (last := s.bkEnd) (n := 0) (s := { t0 with lpLate := 1 }) rfl rfl hc]
    exact ⟨rfl, rfl⟩
  case single =>
    have hc1 : (s.lc - 1).toNat % 256 ≠ 0 := by
      simp only [BitVec.ofNat_eq_ofNat, BitVec.toNat_sub, BitVec.toNat_ofNat]
      omega
    intro t1 t2 t3
    have e1 : t1 = { t0 with lc := s.lc - 1, pc := s.bkStart, lpLate := 1 } := hlast (by omega)
    have hlp1 : t1.st2.lp = false := by rw [e1]; exact hlp
    have e2 : t2 = { t1 with st2 := (written .st2 d t1).st2, lc := t1.lc - 1, pc := t1.bkStart, lpLate := 0 } :=
      clearingPass_back d hlp1 (by rw [e1]; rfl) (by rw [e1]) (by rw [e1]; exact hc1)
    have hlp2 : t2.st2.lp = false := by rw [e2]; exact (written_st2_cleared d hlp1).1
    have e3 : t3 = written .st2 d { t2 with pc := s.bkEnd + 1 } :=
      clearingPass_through d s.bkEnd hlp2 (by rw [e2])
    refine ⟨by rw [e1], by rw [e2, e1]; rfl, by rw [e3]; rfl, ?_⟩
    calc t3.lc
      _ = t2.lc := by rw [e3]; rfl
      _ = s.lc - 1 - 1 := by rw [e2, e1]
      _ = s.lc - 2 := BitVec.sub_sub ..

end Sys2Proof.Machine
end

section
/-! PROOFS. Transfers that are refused into the end of a live loop: br and brr, ret and reti, trap (O54, O56, O58). -/

namespace Sys2Proof.Machine

/-! br and brr. -/

theorem jumpTo_free {a : Word} {s : State} (h : ¬ EntersLoopEnd a s) : jumpTo a s = .next { s with pc := a } :=
  jumpTo_eq_next.2 ⟨h, rfl⟩

theorem jumpTo_refused {a : Word} {s : State} (h : EntersLoopEnd a s) : jumpTo a s = .refused .jumpToLoopEnd := by
  rw [jumpTo, entersLoopEnd_iff.2 h, refuseIf_true]

/-- The target of brr, as a number. -/
theorem relative_eq (d : BitVec 7) (s : State) : relative d s = BitVec.ofInt 16 (s.pc.toNat + d.toInt) :=
  add_ofInt s.pc d.toInt

/-- Settles O54: with the condition met both are `jumpTo`. -/
theorem branches : Obligations.Branches := by
  refine fun cc s hcc => ⟨fun a => ?br, fun d => ?brr⟩
  case br =>
    have hx : exec (.br a cc) s = jumpTo a s := if_pos hcc
    exact ⟨fun h => hx.trans (jumpTo_free h), fun h => hx.trans (jumpTo_refused h)⟩
  case brr =>
    intro a
    have hx : exec (.brr d cc) s = jumpTo a s := (if_pos hcc).trans (by rw [relative_eq])
    exact ⟨fun h => hx.trans (jumpTo_free h), fun h => hx.trans (jumpTo_refused h)⟩

/-! ret and reti. -/

theorem returnTo_empty {s : State} (h : s.stk = []) : returnTo s = .fault .stackUnderflow :=
  returnTo_eq_fault.2 ⟨h, rfl⟩

theorem returnTo_slot {v : Word} {irq : Bool} {rest : List Slot} {s : State} (hs : s.stk = ⟨v, irq⟩ :: rest)
    (h : irq = true ∨ ¬ EntersLoopEnd v s) : returnTo s = .next { s with pc := v, stk := rest } :=
  returnTo_eq_next.2 ⟨⟨v, irq⟩, rest, hs, h, rfl⟩

theorem returnTo_refused {v : Word} {rest : List Slot} {s : State} (hs : s.stk = ⟨v, false⟩ :: rest)
    (h : EntersLoopEnd v s) : returnTo s = .refused .jumpToLoopEnd := by
  rw [returnTo, pop, hs]
  exact jumpTo_refused ((entersLoopEnd_stk v s rest).2 h)

theorem endRoutine_bpi {s : State} (hb : s.inBpi = true) : endRoutine s = { s with inBpi := false } := if_pos hb

theorem endRoutine_trap {s : State} (hb : s.inBpi = false) (ht : s.inTrap = true) :
    endRoutine s = { s with inTrap := false } := by
  simp [endRoutine, hb, ht]

theorem endRoutine_interrupt {s : State} (hb : s.inBpi = false) (ht : s.inTrap = false) :
    endRoutine s = { s with st0 := { s.st0 with ie := true } } := by
  simp [endRoutine, hb, ht]

/-- Settles O56: both are `returnTo`, reti with `endRoutine` after it. -/
theorem returns : Obligations.Returns := by
  intro s
  have hret (cc : Cond) (hcc : condTrue cc s = true) : exec (.ret cc) s = returnTo s := if_pos hcc
  have hreti : exec .reti s = andThen (returnTo s) fun t => .next (endRoutine t) := rfl
  refine ⟨fun cc hcc hs => ?emptyRet, fun hs => ?emptyReti,
    fun v irq rest hs => ⟨fun hi he => ?refused, fun hgo => ?goes⟩⟩
  case emptyRet => rw [hret cc hcc, returnTo_empty hs]
  case emptyReti => rw [hreti, returnTo_empty hs, andThen_fault]
  case refused =>
    subst hi
    refine ⟨?_, fun cc hcc => ?_⟩
    · rw [hreti, returnTo_refused hs he, andThen_refused]
    · rw [hret cc hcc, returnTo_refused hs he]
  case goes =>
    intro t
    have ht : returnTo s = .next t := returnTo_slot hs hgo
    have hend : exec .reti s = .next (endRoutine t) := by rw [hreti, ht, andThen_next]
    exact ⟨fun cc hcc => (hret cc hcc).trans ht, fun hb => hend.trans (congrArg _ (endRoutine_bpi hb)),
      fun hb hi => hend.trans (congrArg _ (endRoutine_trap hb hi)),
      fun hb hi => hend.trans (congrArg _ (endRoutine_interrupt hb hi))⟩

/-! trap. -/

theorem enterTrap_refused {s : State} (hl : InLoopAfter 1 s) (he : EndsAt 0x000A s.bkEnd s) :
    enterTrap s = .refused .loopEndRestricted := by
  have hb : (s.loopLiveAfter 1 && s.endsAt trapVector s.bkEnd) = true :=
    Bool.and_eq_true_iff.2 ⟨loopLiveAfter_iff.2 hl, endsAt_iff.2 he⟩
  rw [enterTrap, hb, refuseIf_true]

theorem execTrap_outside {s : State} (ht : s.inTrap = false) (hb : s.inBpi = false) : execTrap s = enterTrap s := by
  rw [execTrap, ht, hb]; rfl

theorem execTrap_inside {s : State} (h : s.inTrap = true ∨ s.inBpi = true) : execTrap s = .refused .trapInRoutine := by
  rw [execTrap, Bool.or_eq_true_iff.2 h, refuseIf_true]

/-- Settles O58: outside routines trap is `enterTrap`. -/
theorem trapEntry : Obligations.TrapEntry := by
  refine fun s => ⟨fun ⟨ht, hb, hn⟩ hs => ?goes, fun ⟨ht, hb, hn⟩ hs => ?full, execTrap_inside,
    fun ht hb hl he => ?loopEnd⟩
  case goes => exact (execTrap_outside ht hb).trans (enterTrap_eq_next.2 ⟨hn, hs, rfl⟩)
  case full => exact (execTrap_outside ht hb).trans (enterTrap_eq_fault.2 ⟨hn, hs, rfl⟩)
  case loopEnd => exact (execTrap_outside ht hb).trans (enterTrap_refused hl he)

end Sys2Proof.Machine
end

section
/-! PROOFS. call, callr, calla: the push of the return address and the transfer (O55). -/

namespace Sys2Proof.Machine

theorem callTo_free {a : Word} {s : State} (hs : s.stk.length < 16) (h : ¬ EntersLoopEnd a s) :
    callTo a s = .next { s with pc := a, stk := ⟨s.pc, false⟩ :: s.stk } :=
  callTo_eq_next.2 ⟨hs, h, rfl⟩

/-- The push does not change which addresses end the loop, so the transfer after it is refused as one before it. -/
theorem callTo_refused {a : Word} {s : State} (hs : s.stk.length < 16) (h : EntersLoopEnd a s) :
    callTo a s = .refused .jumpToLoopEnd := by
  rw [callTo, push_eq_next.2 ⟨hs, rfl⟩, andThen_next]
  exact jumpTo_refused ((entersLoopEnd_stk ..).2 h)

theorem callTo_full {a : Word} {s : State} (hs : 16 ≤ s.stk.length) : callTo a s = .fault .stackOverflow :=
  callTo_eq_fault.2 ⟨hs, rfl⟩

/-- Settles O55: each of the three is `callTo`, call and callr with the condition met, calla where `accAddress` gives
the target. -/
theorem calls : Obligations.Calls := by
  intro s goes
  have goes_of {i : Instr} {a : Word} (hx : exec i s = callTo a s) : goes i a :=
    ⟨fun hs h => hx.trans (callTo_free hs h), fun hs h => hx.trans (callTo_refused hs h),
      fun hs => hx.trans (callTo_full hs)⟩
  have hcalla (x : Acc) : exec (.calla x) s = andThen (accAddress x s) fun a => callTo a s := rfl
  refine ⟨fun a cc hcc => goes_of ?call, fun d cc hcc => goes_of ?callr,
    fun x => ⟨fun hfit => goes_of ?calla, fun hs hb => ?tooWide⟩⟩
  case call => exact if_pos hcc
  case callr => exact (if_pos hcc).trans (by rw [relative_eq])
  case calla => rw [hcalla, accAddress_fits hfit, andThen_next]
  case tooWide => rw [hcalla, accAddress_tooWide hs hb, andThen_refused]

end Sys2Proof.Machine
end

section
/-! PROOFS. nop, modr, eint, dint, lpg: the whole next state (O57). -/

namespace Sys2Proof.Machine

/-- R of modr, as a fact about the state after the post-modification (10_state R59). -/
theorem rFlag_modified (n : Fin 6) (m : PostMod) (s : State) :
    rFlag (modified n m s) = (decide ((postMod n m s).addr n = 0) && !(modified n m s).2) := by
  rw [postMod_addr_same]; rfl

theorem execModr_eq (n : Fin 6) (m : PostMod) (s : State) :
    execModr n m s = .next
      { postMod n m s with
        st0 := { s.st0 with r := decide ((postMod n m s).addr n = 0) && !(modified n m s).2 } } := by
  rw [← rFlag_modified]; rfl

/-- Settles O57: nop, eint, dint and lpg are their definitions, each an update of one field at most; modr is
`execModr_eq`. -/
theorem controlInstructions : Obligations.ControlInstructions := by
  refine fun s => ⟨?nop, ?eint, ?dint, fun imm => ?lpg, fun n m => ?modr⟩
  case nop | eint | dint | lpg => rfl
  case modr => exact execModr_eq n m s

end Sys2Proof.Machine
end

section
/-! PROOFS. STOP mode, the acceptance of an interrupt, and its entry (O11, O59, O60). -/

namespace Sys2Proof.Machine

theorem sample_st2 (s : State) : (sample s).st2 = s.st2 := by rw [sample_eq]

theorem sample_lpLate (s : State) : (sample s).lpLate = s.lpLate := by rw [sample_eq]

/-! STOP mode. -/

/-- STOP mode comes before any interrupt and any fetch (60_exceptions R345). -/
theorem stepSampled_of_stop {q : State} (hr : q.pins.reset = false) (hp : q.st2.stp = true) :
    stepSampled q = .next q := by
  simp [stepSampled, hr, hp]

/-- Settles O11: the step is `stepSampled_of_stop` of the sampled state, and `sample_eq` says what sampling changes. -/
theorem stopModeFreezes : Obligations.StopModeFreezes :=
  fun s => ⟨fun hr hp => stepSampled_of_stop hr ((congrArg St2.stp (sample_st2 s)).trans hp), sample_eq s⟩

/-! Acceptance. -/

/-- Nothing holds acceptance off (60_exceptions R327). -/
def State.AcceptanceFree (q : State) : Prop :=
  q.repArmed = false ∧ q.repActive = false ∧ q.pcPending = none ∧ q.holdOff = false

/-- The state in which INT0 and INT1 are looked at: IE set, in no routine of BPI or TRAP, and BPI, which is before them,
low (60_exceptions R326). -/
def State.MaskableHeard (q : State) : Prop :=
  q.inBpi = false ∧ q.inTrap = false ∧ q.st0.ie = true ∧ q.pins.bpi = false

theorem acceptanceHeld_eq_false_iff {q : State} : q.acceptanceHeld = false ↔ q.AcceptanceFree := by
  simp [State.acceptanceHeld, State.AcceptanceFree, and_assoc]

/-- What a boundary accepts, branch by branch in the order of priority BPI, INT0, INT1. A maskable interrupt is
looked at where BPI asks for none, which outside a BPI routine is where its pin is low. -/
theorem acceptInterrupt_eq_some_iff {q : State} {i : Irq} :
    acceptInterrupt q = some i ↔ q.AcceptanceFree ∧
      (.bpi = i ∧ q.pins.bpi = true ∧ q.inBpi = false ∨
        .int0 = i ∧ q.MaskableHeard ∧ q.pins.int0 = true ∧ q.st0.im0 = true ∨
        .int1 = i ∧ q.MaskableHeard ∧ ¬ (q.pins.int0 = true ∧ q.st0.im0 = true) ∧
          q.pins.int1 = true ∧ q.st0.im1 = true) := by
  rw [← acceptanceHeld_eq_false_iff]
  unfold acceptInterrupt State.MaskableHeard
  split_ifs with held bpi heard int0 int1
  all_goals simp_all

/-- Settles O59: `acceptInterrupt_eq_some_iff` at each of the three interrupts. -/
theorem acceptance : Obligations.Acceptance := by
  refine fun q => ⟨acceptInterrupt_eq_some_iff.trans ?bpi, acceptInterrupt_eq_some_iff.trans ?int0,
    acceptInterrupt_eq_some_iff.trans ?int1⟩
  all_goals simp [State.AcceptanceFree, State.MaskableHeard]

/-! Entry. -/

theorem enterInterrupt_refused {i : Irq} {s : State} (h : 0 < s.lpLate) :
    enterInterrupt i s = .refused .interruptWhileLpLate := by
  rw [enterInterrupt, decide_eq_true h, refuseIf_true]

/-- With RESET low and outside STOP mode, what a boundary accepts is entered in place of an instruction
(00_scope R16 step 3). -/
theorem stepSampled_of_accept {q : State} {i : Irq} (hr : q.pins.reset = false) (hp : q.st2.stp = false)
    (ha : acceptInterrupt q = some i) : stepSampled q = enterInterrupt i q := by
  simp [stepSampled, hr, hp, ha]

/-- Settles O60: the step is `enterInterrupt` of the sampled state, whose stack and count of the clear of LP are those
before the sampling. -/
theorem interruptEntry : Obligations.InterruptEntry := by
  intro s hr hp q entered
  have enters {i : Irq} (ha : acceptInterrupt q = some i) : step s = enterInterrupt i q :=
    stepSampled_of_accept hr ((congrArg St2.stp (sample_st2 s)).trans hp) ha
  rw [← sample_lpLate s, ← sample_stk s]
  refine ⟨fun hl hs => ?goes, fun hl hs ha => ?full, fun hl ha => ?late⟩
  case goes =>
    have next {i : Irq} (ha : acceptInterrupt q = some i) :
        step s = .next (markEntry i { entered with pc := i.vector }) :=
      (enters ha).trans (enterInterrupt_eq_next.2 ⟨hl, hs, rfl⟩)
    exact ⟨next, next, next⟩
  case full =>
    obtain ⟨i, ha⟩ := Option.ne_none_iff_exists'.1 ha
    exact (enters ha).trans (enterInterrupt_eq_fault.2 ⟨hl, hs, rfl⟩)
  case late =>
    obtain ⟨i, ha⟩ := Option.ne_none_iff_exists'.1 ha
    exact (enters ha).trans (enterInterrupt_refused hl)

end Sys2Proof.Machine
end

section
/-! PROOFS. The halves of an accumulator as sources (O29). -/

namespace Sys2Proof.Machine

theorem regRead_acch (b : Bool) (x : Acc) (s : State) :
    regRead b (.acch x) s = .next (BitVec.ofInt 16 (busNumber x s / 65536), limitNoted b x s) := by
  rw [regRead, satHigh_eq, noteLimit_eq]

theorem regRead_accl (b : Bool) (x : Acc) (s : State) :
    regRead b (.accl x) s = .next (BitVec.ofInt 16 (busNumber x s), limitNoted b x s) := by
  rw [regRead, satLow_eq, noteLimit_eq]

/-- Settles O29: each half is its word of the number on the bus (`satHigh_eq`, `satLow_eq`), and L is noted by
`noteLimit_eq`. -/
theorem saturatedReads : Obligations.SaturatedReads :=
  fun b x s => ⟨regRead_acch b x s, regRead_accl b x s⟩

end Sys2Proof.Machine
end
